-- ==== Sys2Proof/Word.lean ====
section
/-!
DEFINITION. The widths the manual works in (R10, R39): bytes, 32-bit words, 64-bit pairs and the 96-bit
instruction word. Plain abbreviations only.
-/

namespace Sys2Proof

/-- 8 bits (R12). -/
abbrev Byte := BitVec 8

/-- One register, and every special register (R20, R31). -/
abbrev Word := BitVec 32

/-- A register pair, an address, a lane mask (R21, R45, R63). -/
abbrev DWord := BitVec 64

/-- One instruction word (R39). -/
abbrev IWord := BitVec 96

/-- A mask of lanes: bit `i` names lane `i` (R63). -/
abbrev Lanes := BitVec 64

end Sys2Proof
end

