-- ==== Sys2Proof/Config.lean ====
section
/-!
DEFINITION. What one part fixes and the manual does not: free values (opaque constants without a body, so that no
proof can see one) and the cryptographic functions of the start-up and ingest paths, which the manual names by
standard and does not define.
-/

namespace Sys2Proof.Config

/-- A fresh undefined value (R13): the machine applies it to a counter that State holds and advances. Log 5. -/
opaque freeValue : Nat → BitVec 64

/-- How many core cycles pass at a step: the manual leaves the pace of one agent against another open, and the
model leaves cycle counts out. Log 6. -/
opaque stepCycles : Nat → Nat

/-- How many fabric cycles of the time base (R4) pass at a step. Log 6. -/
opaque stepFabric : Nat → Nat

/-- Which of its two neighbours a faithful function takes (R323): true for the upper one. The first argument names
the function (0 FRSQ, 1 FEX2, 2 FLG2, 3 FSIN, 4 FSIN.cos). The same input gives the same side on every part. Log 7. -/
opaque faithfulUp : Nat → Word → Bool

/-- The TLB entry that a full second-level TLB replaces (R213): not specified. Log 8. -/
opaque tlbVictim : Nat → Nat

/-- The line that a home die cache replaces when it is full (R369): not specified. Log 13. -/
opaque cacheVictim : Nat → Nat

/-- The line that a core's L1 drops when it is full (R5, R167): not specified. Log 50. -/
opaque l1Victim : Nat → Nat

/-- What a special register reads in code that holds no such register (a handler without a workgroup): the manual gives
no value. The argument is the register's index. Log 2. -/
opaque unheldSpecial : Nat → Word

/-- The XMSS signature check of the boot ROM over the image, as the boot SRAM's contents (R273 step 2). Log 9. -/
opaque signatureOk : List (Nat × Byte) → Bool

/-- The 64-byte SHAKE256 measurement of an image (R273 step 4). Log 9. -/
opaque measure : List (Nat × Byte) → List Byte

/-- The ring-size code (Table 19.9, feat3) that an image gives a stack (R273 step 6). Log 9. -/
opaque ringCode : List (Nat × Byte) → Nat → BitVec 2

/-- The signed attestation report and certificates over a report's 256 bytes and the boot number (R275). Log 9. -/
opaque attestSignature : Nat → List Byte → List Byte

/-- Decapsulation and unwrapping of a KEYLOAD blob under the key pair of the boot numbered here (R272). Log 9. -/
opaque unwrapKey : Nat → List Byte → Option (List Byte)

/-- AES-256-GCM opening of a packet's bytes under a key (R272). Log 9. -/
opaque openPacket : List Byte → List Byte → Option (List Byte)

/-- The 64-byte digest of the per-boot ML-KEM public key (Table 19.8). Log 9. -/
opaque kemDigest : Nat → List Byte

/-- The digest of the fuse state (Table 19.8). Log 9. -/
opaque fuseDigest : Nat → List Byte

/-- Order of the context block's bytes (R234: its contents belong to the implementation): the integrity word of the
saved state numbered here. Log 10. -/
opaque contextWord : Nat → DWord

end Sys2Proof.Config
end

