-- ==== Sys2Proof/Syntax.lean ====
section
/-!
DEFINITION. The instructions and events of the part, whole: one constructor of `Instr` per row of the opcode table.
Instruction words come first (R56, Table 3.13), then the events of the table, which have no word; an event's arguments
say which of the choices that the manual leaves open it takes (which lane a bank answers, how many bytes a channel
delivers, what the host writes).
-/

namespace Sys2Proof

/-- Guard and hints of an instruction word (Table 3.1, R41, R46). HINT[22] must be 0, so it is not held. -/
structure Ctl where
  gp : BitVec 6
  gn : Bool
  reuse : Bool
  yld : Bool
  stall : BitVec 4
  deriving DecidableEq, Repr

/-- The part of a register an operand names (Table 3.2, R43). -/
inductive Part where
  | full | lo | hi | pair
  deriving DecidableEq, Repr

/-- An operand field (R42 to R44). `imm` is kind 11, `limm` the 30-bit LI form, `raw` MOV's RAW form; `none` is a
field that the instruction does not use (all zero). `u` is kind 01: W in sheet code, S in front-end code. -/
inductive Opd where
  | none
  | v (ew : Bool) (part : Part) (i : BitVec 8)
  | u (ew : Bool) (part : Part) (i : BitVec 8)
  | p (i : BitVec 6)
  | t (part : Part) (i : BitVec 3)
  | m (part : Part) (i : BitVec 4)
  | sr (part : Part) (i : BitVec 8)
  | imm (x : BitVec 14)
  | limm (x : BitVec 30)
  | raw (x : BitVec 32)
  deriving DecidableEq, Repr

/-- TYPE of class 0x0 and 0x3 (Table 3.8). -/
inductive IntTy where
  | i32 | u32 | i64 | u64 | i16x2 | u16x2 | b32
  deriving DecidableEq, Repr

/-- TYPE of class 0x1 (Table 3.8). -/
inductive FltTy where
  | f32 | f16x2 | bf16x2
  deriving DecidableEq, Repr

/-- TYPE of FCMP (Table 3.8). -/
inductive FcTy where
  | f32 | f16 | bf16
  deriving DecidableEq, Repr

/-- TYPE of class 0x4 (Table 3.8). -/
inductive XTy where
  | i32 | u32 | f32 | b32
  deriving DecidableEq, Repr

/-- RND codes (Table 3.4). -/
inductive Rnd where
  | rne | rtz | rup | rdn | rna | dyn
  deriving DecidableEq, Repr

/-- SCOPE codes (Table 3.5). -/
inductive Scope where
  | sheet | wg | core | quire | die | dev | sys
  deriving DecidableEq, Repr

/-- SIZE codes (Table 3.6). -/
inductive Size where
  | u8 | s8 | u16 | s16 | b32 | b64 | b128
  deriving DecidableEq, Repr

/-- Element type codes (Table 3.7). -/
inductive Elem where
  | e4m3 | e5m2 | bf16 | fp16 | int8 | q4x | int16 | uint8 | fp32 | int32 | uint32 | uint16 | int64 | uint64
  deriving DecidableEq, Repr

/-- OPX of IMUL and IMAD (Table 22.7). -/
inductive MulHalf where
  | lo | hi | wide
  deriving DecidableEq, Repr

/-- COND codes (Table 3.9). -/
inductive Cond where
  | eq | ne | lt | le | gt | ge | num | nan | ltu | leu | gtu | geu | equ | neu
  deriving DecidableEq, Repr

/-- Modes of SHFL (R354). -/
inductive ShflMode where
  | idx | up | down | xor
  deriving DecidableEq, Repr

/-- OP of VOTE (R364). -/
inductive VoteOp where
  | any | all | ballot
  deriving DecidableEq, Repr

/-- OP of RDUX and SCAN (R347). -/
inductive RedOp where
  | add | min | max | and | or | xor
  deriving DecidableEq, Repr

/-- The cross-lane extension word (Table 21.4); EXCL is SCAN's own. -/
structure XExt where
  pdst : BitVec 6
  all : Bool
  mask : BitVec 4
  deriving DecidableEq, Repr

/-- How LD and ST reach memory (R329, R360): plain, through the ballast window, or ordered at a scope. -/
inductive Access where
  | plain | bw | ordered (sc : Scope)
  deriving DecidableEq, Repr

/-- AOP codes (Table 3.8). -/
inductive Aop where
  | add | min | max | and | or | xor | exch | cas
  deriving DecidableEq, Repr

/-- ORD codes of class 0x9 (Table 3.8). -/
inductive Ord where
  | rlx | acq | rel | ar
  deriving DecidableEq, Repr

/-- XC of ATOM and ATOML (R294): a type code, or the new value of cas. -/
inductive AtomX where
  | ty (e : Elem)
  | new (o : Opd)
  deriving DecidableEq, Repr

/-- DTYPE of AOUT (Table 9.6). -/
inductive OutTy where
  | e4m3 | e5m2 | bf16 | f16 | f32 | i8 | i32
  deriving DecidableEq, Repr

/-- KIND of COPY (Table 11.3). -/
inductive CopyKind where
  | ds | sd | sm | qs | sq | hd | dh
  deriving DecidableEq, Repr

/-- Panel format of COPY .sm (R138). -/
inductive Panel where
  | b8 | b16 | q4x
  deriving DecidableEq, Repr

/-- TOP of XFORM (R154). -/
inductive Xop where
  | transpose | gather | cvt | pack | unpack
  deriving DecidableEq, Repr

/-- LEVEL of CANCEL and CNTW (R257). -/
inductive Level where
  | unit | launch | graph | phase | job
  deriving DecidableEq, Repr

/-- MODE of RFH (Table 16.3). -/
inductive RfhMode where
  | plain | skip | fail
  deriving DecidableEq, Repr

/-- Where an instruction stream runs: the front-end thread of a workgroup slot, a sheet of it, or a handler slot. -/
inductive Where where
  | front (core slot : Nat)
  | sheet (core slot idx : Nat)
  | handler (core level : Nat)
  deriving DecidableEq, Repr

/-- Whose request the host refuses (R263): an agent's, with the number of its load, store or atomic on its way or of its COPY; or one of the
module's own processors, which read packets, FENCE words and keys, and write SIGNALs and reports, with the host address it names. -/
inductive Requester where
  | agent (w : Where)
  | module
  deriving DecidableEq, Repr

/-- What the host reads: device memory, or an offset of BAR0 (R262). -/
inductive HostAddr where
  | dev (pa : Nat)
  | bar0 (off : Nat)
  deriving DecidableEq, Repr

/-- What a peer's flit asks of this module's memory (R177, R267, R296): a store, an atomic with its operation, width, operand, cas's new
value and whether the old value goes back, or a load. -/
inductive FlitBody where
  | store (bytes : List (BitVec 8))
  | atomic (op : Aop) (ty : Option Elem) (wide : Bool) (val new : List (BitVec 8)) (returns : Bool)
  | load (n : Nat)
  deriving DecidableEq, Repr

/-- A move of a core's started transform: the numbers of its writes that become visible early (R180), or with none of them its end. -/
structure XformMove where
  core : Nat
  early : List Nat
  deriving DecidableEq, Repr

/-- An entry of a trailer's await list (Table 3.11): SEL and index. -/
structure AwaitReg where
  uniform : Bool
  i : BitVec 8
  deriving DecidableEq, Repr

/-- A packet at an ingest port (R268, R271, R272). -/
structure IngestPkt where
  port : Nat
  job : Nat
  seq : BitVec 32
  bytes : List Byte
  deriving DecidableEq, Repr

/-- The instructions and events of the part. -/
inductive Instr where
  -- class 0x0
  | iadd (c : Ctl) (ty : IntTy) (sat : Bool) (d a b : Opd)
  | isub (c : Ctl) (ty : IntTy) (sat : Bool) (d a b : Opd)
  | imul (c : Ctl) (ty : IntTy) (sat : Bool) (h : MulHalf) (d a b : Opd)
  | imad (c : Ctl) (ty : IntTy) (sat : Bool) (h : MulHalf) (d a b x : Opd)
  | imin (c : Ctl) (ty : IntTy) (d a b : Opd)
  | imax (c : Ctl) (ty : IntTy) (d a b : Opd)
  | land (c : Ctl) (ty : IntTy) (d a b : Opd)
  | lor (c : Ctl) (ty : IntTy) (d a b : Opd)
  | lxor (c : Ctl) (ty : IntTy) (d a b : Opd)
  | shl (c : Ctl) (ty : IntTy) (d a b : Opd)
  | shr (c : Ctl) (ty : IntTy) (d a b : Opd)
  | bfx (c : Ctl) (ty : IntTy) (d a b x : Opd)
  | bfi (c : Ctl) (d a b x : Opd)
  | popc (c : Ctl) (ty : IntTy) (d a : Opd)
  | clz (c : Ctl) (ty : IntTy) (d a : Opd)
  | lea (c : Ctl) (ty : IntTy) (n : BitVec 3) (d a b : Opd)
  | mov (c : Ctl) (ty : IntTy) (d b : Opd)
  -- class 0x1
  | fadd (c : Ctl) (ty : FltTy) (ftz : Bool) (r : Rnd) (d a b : Opd)
  | fmul (c : Ctl) (ty : FltTy) (ftz : Bool) (r : Rnd) (d a b : Opd)
  | ffma (c : Ctl) (ty : FltTy) (ftz : Bool) (r : Rnd) (d a b x : Opd)
  | fmin (c : Ctl) (ty : FltTy) (ftz : Bool) (r : Rnd) (d a b : Opd)
  | fmax (c : Ctl) (ty : FltTy) (ftz : Bool) (r : Rnd) (d a b : Opd)
  | frcp (c : Ctl) (ty : FltTy) (ftz : Bool) (r : Rnd) (d a : Opd)
  | frsq (c : Ctl) (ftz : Bool) (d a : Opd)
  | fsqrt (c : Ctl) (ty : FltTy) (ftz : Bool) (r : Rnd) (d a : Opd)
  | fex2 (c : Ctl) (ftz : Bool) (d a : Opd)
  | flg2 (c : Ctl) (ftz : Bool) (d a : Opd)
  | fsin (c : Ctl) (cos : Bool) (ftz : Bool) (d a : Opd)
  | fdp4 (c : Ctl) (ty : FltTy) (ftz : Bool) (r : Rnd) (d a b x : Opd)
  -- class 0x2
  | cvt (c : Ctl) (sat : Bool) (r : Rnd) (dt st : Elem) (d a : Opd)
  | cvtq (c : Ctl) (sat : Bool) (r : Rnd) (st : Elem) (d a b : Opd)
  | deq (c : Ctl) (sat : Bool) (r : Rnd) (dt : Elem) (d a b : Opd)
  | pack (c : Ctl) (unpack sat : Bool) (r : Rnd) (dt st : Elem) (d a b : Opd)
  -- class 0x3
  | icmp (c : Ctl) (ty : IntTy) (k : Cond) (d a b : Opd)
  | fcmp (c : Ctl) (ty : FcTy) (k : Cond) (d a b : Opd)
  | plop (c : Ctl) (tt : BitVec 4) (d a b : Opd)
  | sel (c : Ctl) (ty : IntTy) (d a b x : Opd)
  -- class 0x4
  | shfl (c : Ctl) (mode : ShflMode) (d a b : Opd) (x : XExt)
  | vote (c : Ctl) (op : VoteOp) (d a : Opd) (x : XExt)
  | rdux (c : Ctl) (op : RedOp) (ty : XTy) (r : Rnd) (d a : Opd) (x : XExt)
  | scan (c : Ctl) (op : RedOp) (ty : XTy) (r : Rnd) (excl : Bool) (d a : Opd) (x : XExt)
  | csamp (c : Ctl) (d a b : Opd) (x : XExt)
  | rand (c : Ctl) (n : BitVec 2) (d a b x : Opd)
  -- class 0x5
  | bra (c : Ctl) (disp : Opd)
  | brx (c : Ctl) (a : Opd)
  | brd (c : Ctl) (n : BitVec 3) (a disp : Opd)
  | call (c : Ctl) (d disp : Opd)
  | ret (c : Ctl) (a : Opd)
  | exit (c : Ctl)
  | yield (c : Ctl)
  | nop (c : Ctl)
  | trlr (awaits : List AwaitReg) (len : BitVec 8)
  -- class 0x6
  | join (c : Ctl) (m : BitVec 4)
  | leave (c : Ctl) (m : BitVec 4)
  | waitm (c : Ctl) (m : BitVec 4)
  | mmov (c : Ctl) (d a : Opd)
  -- class 0x7
  | ldl (c : Ctl) (q : Bool) (sz : Size) (d a b x : Opd)
  | stl (c : Ctl) (q : Bool) (sz : Size) (d a b x : Opd)
  | lwait (c : Ctl)
  | tagl (c : Ctl) (d a b : Opd)
  | tags (c : Ctl) (way : BitVec 3) (a b x : Opd)
  | tagi (c : Ctl) (all : Bool) (a b : Opd)
  -- class 0x8
  | ld (c : Ctl) (acc : Access) (sz : Size) (d a b : Opd)
  | st (c : Ctl) (acc : Access) (sz : Size) (d a b : Opd)
  | pref (c : Ctl) (dc : Bool) (a b : Opd)
  | cwb (c : Ctl) (bw : Bool) (a b : Opd)
  | promote (c : Ctl) (pin bw : Bool) (d a b : Opd)
  | demote (c : Ctl) (bw : Bool) (d a b : Opd)
  | madr (c : Ctl) (bw : Bool) (d a b : Opd)
  | dead (c : Ctl) (bw : Bool) (a b : Opd)
  -- class 0x9
  | atom (c : Ctl) (op : Aop) (ord : Ord) (sc : Scope) (d a b : Opd) (x : AtomX)
  | atoml (c : Ctl) (op : Aop) (ord : Ord) (sc : Scope) (d a b : Opd) (x : AtomX)
  | red (c : Ctl) (op : Aop) (ord : Ord) (sc : Scope) (ty : Elem) (d a b : Opd)
  | fence (c : Ctl) (ord : Ord) (sc : Scope)
  | bari (c : Ctl) (sc : Scope) (auto : Bool) (d a b : Opd)
  | bara (c : Ctl) (sc : Scope) (d a b : Opd)
  | barw (c : Ctl) (sc : Scope) (d a b : Opd)
  | mwait (c : Ctl) (acq : Bool) (sc : Scope) (d a b : Opd)
  -- class 0xA
  | mrdy (c : Ctl) (a : Opd)
  | mloop (c : Ctl) (steps : BitVec 8) (d a b x : Opd)
  | msync (c : Ctl) (a : Opd)
  | aclr (c : Ctl) (d a b : Opd)
  | aout (c : Ctl) (src32 : Bool) (dt : OutTy) (relu : Bool) (r : Rnd) (d a : Opd)
  -- class 0xB
  | copy (c : Ctl) (ch : BitVec 4) (kind : CopyKind) (conv : Option (Elem × Elem)) (rank : BitVec 2) (f : Panel)
      (d a b : Opd)
  | rdwp (c : Ctl) (ch : BitVec 4) (q : Bool) (rank : BitVec 2) (d : Opd)
  -- class 0xC
  | spawn (c : Ctl) (n : BitVec 3) (d a disp : Opd)
  | genb (c : Ctl) (cap : BitVec 3) (k : BitVec 8) (a prod cons : Opd)
  | gyld (c : Ctl) (a b : Opd)
  | gtake (c : Ctl) (d : Opd)
  | gend (c : Ctl) (consumer : Bool)
  | dqpush (c : Ctl) (a : Opd)
  | dqpop (c : Ctl) (d : Opd)
  -- class 0xD
  | launch (c : Ctl) (d a b : Opd)
  | cancel (c : Ctl) (lv : Level) (a : Opd)
  | cntw (c : Ctl) (lv : Level) (d a : Opd)
  -- class 0xE
  | tlbw (c : Ctl) (a b x : Opd)
  | tlbi (c : Ctl) (all : Bool) (sc : Scope) (a : Opd)
  | tlbq (c : Ctl) (d a : Opd)
  | rfh (c : Ctl) (mode : RfhMode)
  | trap (c : Ctl) (a : Opd)
  | srd (c : Ctl) (d a : Opd)
  | swr (c : Ctl) (d a : Opd)
  | mend (c : Ctl) (a : Opd)
  -- class 0xF
  | xform (c : Ctl) (op : Xop) (r : Rnd) (d a b x : Opd)
  -- events of the memory system
  | bankAnswer (w : Where) (id lane : Nat)
  | loadFill (w : Where) (id lane : Nat) (fromL1 : Bool)
  | storeAccept (w : Where) (lanes : List Nat)
  | storeAcceptHome (k : Nat)
  | atomicPerform (k : Nat)
  | monitorFire (k : Nat)
  | controllerAnswer (w : Where) (lane : Nat)
  | windowKillDone (w : Where)
  -- events of the owners' fault paths
  | walkEvent (core : Nat)
  | handlerDelivery (core : Nat)
  | stallResume (core : Nat)
  | stallCancel (core : Nat)
  | stallLimitExpire (core : Nat)
  -- events of the engines
  | copyStart (core ch : Nat)
  | copyDelivery (core ch n : Nat)
  | matrixEntryBegin (core : Nat)
  | matrixEntryComplete (core : Nat)
  | xformStart (core : Nat)
  | xformEnd (x : XformMove)
  -- events of threads and sheets
  | spawnRecordAccept (w : Where)
  | binTimerExpire (core bin : Nat)
  | deckleLaunch (core bin : Nat)
  | sheetEnd (w : Where)
  | groupForced (w : Where) (lane cycles : Nat)
  | blockRelease (w : Where) (lane : Nat)
  | generatorRound (w : Where)
  | generatorResume (w : Where)
  -- events of time, quanta and placement
  | quantTick (core : Nat)
  | tokenTick (owner : Nat)
  | ownerSwitch (core owner : Nat)
  | saveGraceExpire (core : Nat)
  | handlerDebtLimit (core : Nat)
  | preempt (core slot : Nat)
  | placeQuire (launch quire : Nat) (cores : List Nat)
  | watchdogExpire (launch us : Nat)
  -- events of the queues
  | qwrite (q : Nat) (val : Word)
  | qctlEnable (q : Nat) (on : Bool) (owner : Nat)
  | qctlReset (q : Nat)
  | registerWrite (off : Nat) (bytes : List Byte)
  | launchPacket (q : Nat)
  | fencePacket (q : Nat)
  | fenceHostReread (q : Nat)
  | signalPacket (q : Nat)
  | chainPacket (q : Nat)
  | badPacket (q : Nat)
  | flowset (q : Nat)
  | flowkill (q : Nat)
  | keyload (q : Nat)
  | keyclear (q : Nat)
  -- events of the outside
  | ingestPacket (pkt : IngestPkt)
  | portalRecord (owner off : Nat) (bytes : List Byte) (core : Nat)
  | inboundWrite (requester : Nat) (relaxed : Bool) (pa : Nat) (bytes : List Byte)
  | inboundWriteForward (k : Nat)
  | inboundRead (requester : Nat) (addr : HostAddr) (n : Nat)
  | hostRefuse (r : Requester) (id lane : Nat)
  | flitReceive (link : Nat) (crcOk : Bool) (pa : Nat) (body : FlitBody)
  | reset
  | bootctlGo (links : List (Nat × Nat))
  | bootctlAttgo
  | lifecycle (val : Word)
  | clockThrottle (lower : Bool)
  -- events of the device memory
  | refresh (stack pc bank row : Nat)
  | patrolScrub (stack pc bank row : Nat)
  | disturbanceMitigation (stack pc bank row owner : Nat)
  | envelopeCreate (record : List Byte)
  | ownerRemove (owner : Nat)
  | quarantineLift (core owner : Nat)
  | hostCancel (launch : Nat)
  | windowGrant (owner idx : Nat) (entry : List Byte)
  | softError (cell : Nat)
  | disturbanceDelayExpire (stack pc bank owner : Nat)
  deriving DecidableEq, Repr

end Sys2Proof
end

