-- ==== Sys2Proof/Machine/State.lean ====
section
/-!
DEFINITION. The whole state of the module as plain data, what stops a step, and the state right after reset.
Sparse maps and memories are lists sorted by key that leave out every entry equal to what an unlisted key reads as.
-/

namespace Sys2Proof.Machine

/-- A sparse map from numbers: sorted by key, without the entries that equal the default. -/
abbrev SMap (α : Type) := List (Nat × α)

/-- A byte memory (Host.Cell pairs), in the canonical form of `Memory.wf`; an unlisted address reads as zero. -/
abbrev Memory := List Host.Cell

/-- Keys strictly rising, all at least `lo`, and no entry equal to zero, which is what an unlisted address reads as
(R200: reset and every wipe leave DRAM dead and every SRAM zero). -/
def Memory.wfFrom (lo : Nat) : Memory → Bool
  | [] => true
  | (a, v) :: rest => decide (lo ≤ a) && decide (v ≠ 0#8) && Memory.wfFrom (a + 1) rest

/-- The canonical form of a memory. -/
def Memory.wf (m : Memory) : Bool := Memory.wfFrom 0 m

/-- Why a step stops the machine. -/
inductive Fault where
  /-- Raised by the meaning of an instruction word when `State.cur` names no live lane of a resident sheet, front-end
  thread or handler: no part of the machine is there to execute the word. No run reaches it. Safe. -/
  | noAgent
  deriving DecidableEq, Repr

/-- Why a step has no meaning. -/
inductive Refusal where
  /-- Raised by an arm of `exec` whose instruction has no meaning yet; the string is its mnemonic. Safe. -/
  | notModelled (mnemonic : String)
  deriving DecidableEq, Repr

/-- Trap causes (Table 2.7). -/
inductive Cause where
  | illegal | run | empty | fmtdiv | extemu | walk | page | perm | bounds | poison | envelope | arith | soft | align
  | save
  deriving DecidableEq, Repr

/-- A write that waits behind an empty register (R29), oldest first in `Reg.pend`: the producer it belongs to, and its
data once known (the part it writes and the value). -/
structure PendW where
  id : Nat
  got : Option (Part × Word)
  deriving DecidableEq, Repr

/-- A register with its full/empty bit (R20): full exactly when no write is pending on it. -/
structure Reg where
  val : Word
  pend : List PendW
  deriving DecidableEq, Repr

/-- Where an access lands: a core's scratchpad, device memory by physical address, host or peer memory. -/
inductive Target where
  | spad (core addr : Nat)
  | dev (pa : Nat)
  | host (addr : Nat)
  | peer (mod pa : Nat)
  deriving DecidableEq, Repr

/-- The translation of one lane's access (R224, R225): waiting in the miss table, done, or held by a queued event. -/
inductive Tr where
  | miss
  | ok (t : Target) (noL1 : Bool)
  | held (c : Cause)
  deriving DecidableEq, Repr

/-- One lane of an outstanding producer. `va` is the address the program gave; `data` what it will fill with where that is
known before it fills without a request to a home. -/
structure LaneReq where
  lane : Nat
  va : DWord
  tr : Tr
  done : Bool
  data : Option (List Byte)
  deriving DecidableEq, Repr

/-- Kinds of emptying producers (R27), and the three instructions whose group waits for the controllers (R193). -/
inductive FillKind where
  | ldl (sz : Size)
  | ld (sz : Size) (acc : Access)
  | gtake (srcs : List (Nat × Nat))
  | tagl
  | tlbq
  | rdwp (ch core : Nat)
  | dqpop
  | promote (pin : Bool) (seqs : List (Nat × Nat))
  | demote
  | madr
  | mwait (wide : Bool) (cmp : List (Nat × DWord)) (acq : Bool) (sc : Scope)
  | atom
  deriving DecidableEq, Repr

/-- An emptying producer in flight: number, destination, lanes and the word it came from. -/
structure Fill where
  id : Nat
  kind : FillKind
  dest : Opd
  lanes : List LaneReq
  pc : Word
  word : IWord
  deriving DecidableEq, Repr

/-- An atomic operation (R295): the operation, its element type (none for cas) and its width in bytes. -/
structure AtomOp where
  op : Aop
  ty : Option Elem
  wide : Bool
  deriving DecidableEq, Repr

/-- Kinds of store-queue entries (R163, R199, R311, R312, R357). -/
inductive SqKind where
  | stl
  | st (rel : Option Scope) (bw : Bool)
  | atoml (a : AtomOp) (ord : Ord) (sc : Scope)
  | atom (a : AtomOp) (fill : Nat) (ord : Ord) (sc : Scope)
  | red (a : AtomOp) (ord : Ord) (sc : Scope)
  | bari (expect : Word) (auto : Bool)
  | bara (payload : Word) (arrivers : Lanes)
  | autoArrive
  | tags (way : Nat)
  | tagi (all : Bool)
  | gyld
  | spawn (entry : Word) (width c : Nat) (code : DWord)
  | cwb
  | dead
  | cvtq
  | join
  deriving DecidableEq, Repr

/-- One lane of a store-queue entry: its address, the bytes it stores (or the atomic's operand) and cas's new value. -/
structure SqLane where
  lane : Nat
  va : DWord
  tr : Tr
  done : Bool
  sent : Bool
  bytes : List Byte
  new : List Byte
  deriving DecidableEq, Repr

/-- A store-queue entry (R163). `counted` entries hold one count of the local completion counter (R142). -/
structure SqEntry where
  id : Nat
  kind : SqKind
  lanes : List SqLane
  counted : Bool
  pc : Word
  word : IWord
  deriving DecidableEq, Repr

/-- A cross-lane operation whose lanes wait for its members (R72). -/
inductive XWork where
  | shfl (mode : ShflMode) (d a b : Opd)
  | vote (op : VoteOp) (d a : Opd)
  | rdux (op : RedOp) (ty : XTy) (r : Rnd) (d a : Opd)
  | scan (op : RedOp) (ty : XTy) (r : Rnd) (excl : Bool) (d a : Opd)
  | csamp (d a b : Opd)
  deriving DecidableEq, Repr

/-- What a translated request belongs to (R224, R193): a load or atomic in flight, a store-queue entry, the word at which
the lane stands (its fetch, or an access that must translate before it performs), or a copy channel. -/
inductive ReqOf where
  | fill (id : Nat)
  | store (id : Nat)
  | word
  | copy (ch : Nat)
  deriving DecidableEq, Repr

/-- What a blocked lane waits for (R54, R65). -/
inductive Block where
  | waitm (m : BitVec 4)
  | barw (core addr : Nat) (phase : Bool)
  | xlane (w : XWork) (x : XExt) (mask : Lanes)
  | lwait
  | cntw (lv : Level) (id : Word) (d : Opd) (act : List Nat)
  | msync (t : Word)
  | mrdy (ref : Word) (before : Nat) (act : List Nat)
  | mwait (fill : Nat)
  | genb
  | gendc
  | rfh (mode : RfhMode)
  | tlbi (sc : Scope) (ranges : List (Nat × Nat))
  | cancel (before : Nat)
  | kill
  | answers (fill : Nat)
  | joining (of : ReqOf)
  deriving DecidableEq, Repr

/-- What a lane that waits at its word waits for (R54): its empty sources in some lanes (R28), room in the sheet's store queue and
completion counter (R142, R163), its earlier accesses (R162, R166, R168, R169), a table, a queue or a count of its core or workgroup that is
full, or entries of a felt (R89). `clear` is the end of every queued access of some lanes; `release` that of the stores of the core beside. -/
inductive Stall where
  | regs (lanes : Lanes) (rs : List (Bool × Nat))
  | room (counted queued : Bool)
  | felt (n : Nat)
  | clear (lanes : Lanes)
  | drained
  | loads (lanes : Lanes)
  | object (lanes : Lanes) (core addr : Nat) (va : DWord)
  | release (lanes : Lanes) (sc : Scope)
  | requests (n : Nat)
  | table (vas : List DWord)
  | events
  | channel (ch : Nat)
  | matrix (want : Nat)
  | transforms
  | decisions
  | launches
  deriving DecidableEq, Repr

/-- The wait state of a lane (R65): ready to issue; waiting at its word for an empty source, a full
store queue or a completion (R54); standing at a word that trapped (R220); waiting for a walk before its word can issue
(R193, R246); outside the running body of a generator (R91, R92); held with a group of which other lanes wait for a walk; or blocked. -/
inductive Wait where
  | ready
  | stalled (on : Stall)
  | trapped
  | parked
  | held
  | fetch
  | blocked (b : Block)
  deriving DecidableEq, Repr

/-- One lane, or the front-end thread (Table 2.1, R34, R51, R53, R54, R65 to R68, R72). `pass` is the step in which the lane began
its run: lanes that passed one trailer together share it (R53, R65). `jumped` says that a transfer or an entry brought the lane to
its word, and that the check of R51 on its target is still to be made. -/
structure Thread where
  live : Bool
  pc : Word
  runPos : Nat
  wait : Wait
  awaits : List AwaitReg
  pass : Nat
  jumped : Bool
  slot : Option Nat
  waited : Nat
  forced : Bool
  yieldMark : Bool
  present : List Word
  v : SMap Reg
  p : Lanes
  t : SMap Word
  rm : Word
  astat : Word
  aen : Word
  pend : Bool
  gsrc : Word
  join : Option (Bool × DWord)
  deriving DecidableEq, Repr

/-- BODY of a generator (Table 6.1). -/
inductive Body where
  | producer | consumer | switching
  deriving DecidableEq, Repr

/-- The generator state of a sheet (Table 6.1). `opened` are the lanes live at GENB; `consPc` keeps the consumer lanes
apart from the frozen producer lanes' words. -/
structure Gen where
  body : Body
  resume : Bool
  k : Nat
  capn : Nat
  base : Nat
  pent : Word
  cent : Word
  join : Word
  y : Nat
  h : Nat
  f : Nat
  a : Nat
  ended : Lanes
  cr : Nat
  srcl : SMap Nat
  opened : Lanes
  frozen : List (Nat × Thread)
  deriving DecidableEq, Repr

/-- What kind of code a lane group runs (R42, R57 step 4, R367): the level and the cause of a handler's event. -/
inductive CodeKind where
  | sheet
  | front
  | handler (level : Nat) (cause : Cause)
  deriving DecidableEq, Repr

/-- A sheet, a front-end thread (width 1, `u` holds s0 to s127) or a handler sheet. `c` and `code` are its declared register
count and code segment (R26, R246, R265); a handler has none of its own. `pairs` are the issue cycles in which both slots issued and whose
loads have not all performed: the producers of the lower PC are numbered from the first number up to the second, those of the other from
there up to the third (R69; zero where a bound is not known yet). -/
structure Sheet where
  kind : CodeKind
  width : Nat
  c : Nat
  code : DWord
  age : Nat
  lanes : List Thread
  u : SMap Reg
  m : SMap Lanes
  sq : List SqEntry
  fills : List Fill
  pairs : List (Nat × Nat × Nat)
  gen : Option Gen
  deriving DecidableEq, Repr

/-- An AUTOEXIT object of a workgroup (R153): its offset and who arrived in this phase, per agent. -/
structure AutoObj where
  off : Nat
  arrived : List (Nat × Lanes)
  deriving DecidableEq, Repr

/-- A matrix operation (R126, R129, R133, R134) with its descriptor and sampled modes. -/
inductive MatrixOp where
  | mloop (steps m n k acc abase astride boff : Nat) (ainc binc : Int) (fw : Word)
  | aclr (r c : Nat)
  | aout (rowBase rows cols dbase dstride : Nat) (scale : Word) (bias : Word) (src32 : Bool) (dt : OutTy) (relu : Bool)
  deriving DecidableEq, Repr

/-- An entry of the matrix queue (R126, R136). -/
structure MatrixEntry where
  slot : Nat
  ticket : Nat
  op : MatrixOp
  rnd : Rnd
  sat : Bool
  next : Nat
  begun : Bool
  spoiled : Bool
  flags : Word
  deriving DecidableEq, Repr

/-- A workgroup on a core, resident or pre-empted (R61, R245, R246, R259). `tagIdx` are the tag sets of the core
that it has, in the order of its own set numbers (R145), `savedMq` the matrix entries saved with a pre-empted one (R136). -/
structure Workgroup where
  launch : Nat
  flat : Nat
  x : Word
  y : Word
  z : Word
  qrank : Nat
  quire : Nat
  owner : Nat
  width : Nat
  c : Nat
  code : DWord
  sentry : Word
  spadBase : Nat
  spadSize : Nat
  slotLog : Nat
  tagIdx : List Nat
  accRows : Nat
  mouldUse : Nat
  ftime : Nat
  promise : Bool
  binTime : Nat
  front : Option Sheet
  sheets : List (Option Sheet)
  dq : List DWord
  popWait : List (Nat × Nat)
  orc : Nat
  agw : Option Word
  issued : Nat
  autoexit : List AutoObj
  portal : Option Nat
  savedMq : List MatrixEntry
  finished : Bool
  deriving DecidableEq, Repr

/-- A trap or fault on its way to a handler (R36, R220, R240). `grp` are the lanes that stand at the trapped word. -/
structure HEvent where
  who : Where
  grp : Lanes
  cause : Cause
  slot : Nat
  access : Nat
  fmask : Lanes
  dmask : Lanes
  taddr : DWord
  tpc : Word
  word : IWord
  source : Word
  launch : Word
  args : List (Nat × DWord × Word × Word × Word)
  of : Option ReqOf
  left : Bool
  page : List Nat
  since : Nat
  deriving DecidableEq, Repr

/-- A request of a miss-table entry. -/
structure MissReq where
  who : Where
  lane : Nat
  va : DWord
  access : Nat
  slot : Nat
  of : ReqOf
  pc : Word
  word : IWord
  deriving DecidableEq, Repr

/-- A miss-table entry, keyed by 64 KiB page (R224). -/
structure MissEntry where
  page : Nat
  reqs : List MissReq
  deriving DecidableEq, Repr

/-- A handler slot in use (R219 to R223, R230). `again` holds the words of a level-2 handler whose
translated access has stalled the owner: the host resumes them. -/
structure Handler where
  sheet : Sheet
  ev : HEvent
  entry : Nat
  mended : Lanes
  mendRight : Bool
  restore : Bool
  frozen : Bool
  again : List Word
  deriving DecidableEq, Repr

/-- A TLB entry (R215, Table 16.5). -/
structure TlbEntry where
  va : Nat
  pa : DWord
  size : Nat
  r : Bool
  w : Bool
  x : Bool
  policy : Bool
  hint : BitVec 2
  sizeCode : BitVec 2
  deriving DecidableEq, Repr

/-- A tag-table entry (R145). -/
structure TagEntry where
  tag : Nat
  slot : Word
  deriving DecidableEq, Repr

/-- A queued COPY (R147, R148) with what was sampled at issue: its number, its lane, and where its allocation and its quire
member's lie. `held` is why it has stopped: a walk, or a fault. `issuer` says that the thread which issued it still stands, so that its flags
have a thread to merge into (R117). -/
structure CopyJob where
  id : Nat
  who : Where
  lane : Nat
  kind : CopyKind
  conv : Option (Elem × Elem)
  rnd : Rnd
  sat : Bool
  f : Panel
  dst : DWord
  src : DWord
  len : Nat
  got : Nat
  peerCore : Nat
  peerBase : Nat
  base : Nat
  started : Bool
  held : Option Cause
  flags : Word
  pc : Word
  word : IWord
  issuer : Bool
  deriving DecidableEq, Repr

/-- A copy channel (R147): its queued COPYs and its write pointer P. A channel is bound to an ingest ring while a live flow of the
core's owner names it (R157). -/
structure Channel where
  q : List CopyJob
  p : DWord
  deriving DecidableEq, Repr

/-- A queued transform (R154). -/
structure XfJob where
  slot : Nat
  op : Xop
  rnd : Rnd
  sat : Bool
  dl : Nat
  sl : Nat
  bar : Nat
  idx : Nat
  started : Bool
  deriving DecidableEq, Repr

/-- A spawn record in the vat (R73, R74, R264): eight words, and a portal thread's join counter. -/
structure SpawnRec where
  words : List Word
  join : Option (Bool × DWord)
  deriving DecidableEq, Repr

/-- A deckle bin (R74, R76). -/
structure Bin where
  launch : Nat
  flat : Nat
  entry : Word
  width : Nat
  c : Nat
  code : DWord
  recs : List SpawnRec
  expired : Bool
  deriving DecidableEq, Repr

/-- What the context block of one owner on one core stands for while the core is another's (R233, R234): its integrity
word's number and the state itself. `stall` is the frozen level, `hard` the held hard-save area, `frame` and `frame2` the trap frames
of the handlers that were running at level 1 and 2 (R226). -/
structure Saved where
  num : Nat
  wgs : List (Option Workgroup)
  h1 : Option Handler
  h2 : Option Handler
  mq : List MatrixEntry
  xq : List XfJob
  channels : List Channel
  bins : List Bin
  tags : SMap TagEntry
  launchQ : List Nat
  stall : Option Nat
  hard : Option Nat
  frame : List Byte
  frame2 : List Byte
  deriving DecidableEq, Repr

/-- Where a core stands in a change of owner (R233). -/
inductive SwitchPhase where
  | saving (next : Nat)
  | saved (next : Nat)
  | restoring
  deriving DecidableEq, Repr

/-- The sheet that a quadrant's last issue cycle served (Table 4.2): the slots that issued, each with its step, and the slots that were freed at
a trailer before and have not been filled since. -/
structure LastIssue where
  slot : Nat
  idx : Nat
  issued : List (Nat × Nat)
  idle : List Nat
  deriving DecidableEq, Repr

/-- One core (scope chapter, The core; R139 to R147, R213 to R234). `acquired` numbers the core's last acquire at .quire or wider: what
other cores sent beyond the module before it may happen before what the core does after it (R170). `wgs` holds the eight workgroup slots, and from index 8
on the pre-empted workgroups, which keep their allocations (R259). `saved`, `context` and `vatImage` are the
context block of the core image during a change of owner and those bytes of its vat that hold no record. -/
structure Core where
  owner : Option Nat
  quant : Int
  quarantined : List Nat
  wgs : List (Option Workgroup)
  h1 : Option Handler
  h2 : Option Handler
  stall : Option Nat
  switch : Option SwitchPhase
  saved : Option Saved
  vatImage : Memory
  context : Memory
  spad : Memory
  acc : SMap Word
  mould : Memory
  tags : SMap TagEntry
  bins : List Bin
  l1 : SMap (List Byte)
  tlb : List TlbEntry
  misses : List MissEntry
  events : List HEvent
  channels : List Channel
  mq : List MatrixEntry
  xq : List XfJob
  launchQ : List Nat
  refused : SMap Nat
  rrNext : Nat
  acquired : Nat
  lastSheet : List (Option LastIssue)
  deriving DecidableEq, Repr

/-- A window of an owner (R185, R189). -/
structure Window where
  row : Nat
  rows : Nat
  interleaved : Bool
  stack : Nat
  valid : Bool
  shared : Bool
  hashA : BitVec 8
  hashB : BitVec 8
  hashC : BitVec 5
  deriving DecidableEq, Repr

/-- An extent of an owner (Table 16.1). -/
structure Extent where
  base : DWord
  units : Nat
  valid : Bool
  r : Bool
  w : Bool
  x : Bool
  deriving DecidableEq, Repr

/-- An owner: its envelope (Table 16.1) and what the module keeps for it (R35, R194, R232, R235). `hbmDry` and `lnkDry` say that a
bucket has been at or below zero and requests of the owner may be waiting for it, those of handlers first (R232). -/
structure Owner where
  id : Nat
  prio : Nat
  mend : Bool
  quantum : Nat
  stallLim : Nat
  nearq : Nat
  hbmRate : Nat
  hbmDepth : Nat
  lnkRate : Nat
  lnkDepth : Nat
  bbase : Nat
  bsize : Nat
  spadMax : Nat
  mouldMax : Nat
  accMax : Nat
  ovBase : Nat
  ovSize : Nat
  hcode : Nat
  hsaven : Nat
  hentry : List Nat
  keys : List Byte
  windows : List Window
  extents : List Extent
  record : List Byte
  hbm : Int
  lnk : Int
  hbmDry : Bool
  lnkDry : Bool
  selA : BitVec 4
  selB : BitVec 4
  selC : BitVec 4
  seqs : SMap Nat
  held : List Nat
  debts : SMap Int
  saves : SMap Saved
  deriving DecidableEq, Repr

/-- A ring slot in use (R190, R194, Table 14.6). -/
structure RingSlot where
  stack : Nat
  pc : Nat
  bank : Nat
  idx : Nat
  owner : Nat
  row : Nat
  seq : Nat
  pin : Bool
  dirty : Bool
  deriving DecidableEq, Repr

/-- An activation tracker (R202). -/
structure Tracker where
  stack : Nat
  pc : Nat
  bank : Nat
  row : Nat
  owner : Nat
  count : Nat
  deriving DecidableEq, Repr

/-- The DRAM stacks and the home die caches over them (R183, R190, R200 to R204, R369). `cells` holds the coherent
value of every byte by cell number, `live` the rows that are not dead, `cached` the die-cache lines that are present (true: dirty),
`replaced` how many lines the die caches have replaced (the model's own count, for the free choice of R369), `errors` the 16-bit
symbols that soft errors have struck in the stacks (R203), `corrected` the corrections of each stack. -/
structure Dram where
  cells : Memory
  live : SMap Bool
  rings : List Nat
  slots : List RingSlot
  cached : SMap (Option Bool)
  replaced : Nat
  poison : SMap Bool
  errors : SMap Bool
  corrected : SMap Nat
  trackers : List Tracker
  delays : List (Nat × Nat × Nat × Nat)
  deriving DecidableEq, Repr

/-- A store lane, or a DEAD's kill of the chunk at its target, on its way from a core to its home (R169, R361). `seq` gives
the order of departure among flights and engine operations; `entry` is the store-queue entry that the lane left, `all` that entry's lanes. -/
structure Flight where
  seq : Nat
  entry : Nat
  core : Nat
  who : Where
  lane : Nat
  va : DWord
  target : Target
  bytes : List Byte
  all : Lanes
  owner : Nat
  dead : Bool
  pc : Word
  word : IWord
  deriving DecidableEq, Repr

/-- An atomic lane at a sync engine (R172, R349). -/
structure EngineOp where
  seq : Nat
  core : Nat
  who : Where
  lane : Nat
  va : DWord
  entry : Nat
  fill : Option Nat
  target : Target
  a : AtomOp
  val : List Byte
  new : List Byte
  all : Lanes
  owner : Nat
  ord : Ord
  sc : Scope
  pc : Word
  word : IWord
  deriving DecidableEq, Repr

/-- A monitor of MWAIT, or of a FENCE entry (R173, R247): the word it watches and, once a differing value has been
stored, that value. -/
structure Monitor where
  core : Nat
  who : Where
  lane : Nat
  fill : Nat
  pa : Nat
  wide : Bool
  cmp : DWord
  armed : Bool
  hit : Option DWord
  acq : Bool
  sc : Scope
  deriving DecidableEq, Repr

/-- A completion counter record (R253): of a graph, phase or job, or of a unit (workgroup `id` of launch `launch`) that has
completed. A launch's own record is the launch. `die` is where the record sits (R61). -/
structure Counter where
  owner : Nat
  level : Level
  launch : Nat
  id : Nat
  die : Nat
  count : Nat
  status : Nat
  deriving DecidableEq, Repr

/-- A LAUNCH packet's fields (Table 18.3). -/
structure LaunchPkt where
  launchId : Word
  code : DWord
  sentry : Nat
  fentry : Nat
  gridX : Nat
  gridY : Nat
  gridZ : Nat
  width : Nat
  qn : Nat
  sheets : Nat
  regs : Nat
  slotLog : Nat
  tagSets : Nat
  spad : Nat
  ftime : Nat
  bint : Nat
  acc : Nat
  mould : Nat
  watchdog : Nat
  arg : DWord
  graph : Nat
  phase : Nat
  job : Nat
  noPromise : Bool
  serial : Bool
  deriving DecidableEq, Repr

/-- A launch (R245, R260): its packet, the packet's index in its queue, the quires not yet placed, and how far its watchdog has run. -/
structure Launch where
  owner : Nat
  pkt : LaunchPkt
  queue : Option Nat
  index : Nat
  die : Nat
  unplaced : List Nat
  units : Nat
  status : Nat
  sticky : Bool
  ended : Bool
  elapsed : Nat
  deriving DecidableEq, Repr

/-- An entry of a FENCE packet that a queue waits on (R247): the word's address, its test, and whether it has been found true. -/
structure FenceEntry where
  host : Bool
  addr : Nat
  comp : Nat
  value : Nat
  found : Bool
  deriving DecidableEq, Repr

/-- What a queue's thread waits for in the packet it parses (R245, R247, R248, R270); a SIGNAL knows from which number on accesses left their
cores after it was read. -/
inductive QWait where
  | none
  | serial (launch : Nat)
  | fence (entries : List FenceEntry)
  | signal (seen : Nat)
  | flow
  deriving DecidableEq, Repr

/-- A hardware queue (Table 18.1). -/
structure Queue where
  qbase : DWord
  qsize : Word
  qprio : Word
  qwrite : Word
  qread : Word
  enable : Bool
  closing : Bool
  qerr : Word
  owner : Option Nat
  wait : QWait
  launches : List Nat
  firstStatus : Nat
  deriving DecidableEq, Repr

/-- A live ingest flow (R268 to R271), with the workgroup (launch and flat index) that its ring belongs to. -/
structure Flow where
  idx : Nat
  port : Nat
  job : Nat
  decrypt : Bool
  ordered : Bool
  key : Nat
  sizeLog : Nat
  ch : Nat
  core : Nat
  launch : Nat
  flat : Nat
  rbase : Nat
  p0 : DWord
  owner : Nat
  lastSeq : Option Nat
  deriving DecidableEq, Repr

/-- An inbound posted write of one route that the ordering point holds, or has forwarded and that its home die cache has not
acknowledged yet (R175). -/
structure Inbound where
  requester : Nat
  relaxed : Bool
  pa : Nat
  bytes : List Byte
  forwarded : Bool
  deriving DecidableEq, Repr

/-- Entries of the host's and hypervisor's event queue (R9, R202, R203, R216, R230). -/
inductive HostEvent where
  | bounds (owner core : Nat) (va pa : DWord)
  | stall (owner core : Nat)
  | disturbance (owner stack pc bank row : Nat)
  | poisonLog (line : Nat) (owners : List Nat)
  deriving DecidableEq, Repr

/-- BOOTSTAT (Table 19.7). -/
inductive BootStat where
  | waiting | verifying | badsig | ready | readyNoAttest
  deriving DecidableEq, Repr

/-- The two variants (R6). -/
inductive Variant where
  | x48 | n24
  deriving DecidableEq, Repr

/-- LIFECYCLE (Table 19.7, R276). -/
inductive LifeState where
  | manufacture | secure | rma | scrapped
  deriving DecidableEq, Repr

/-- The management block, the boot state and the host-side registers (R262, R273 to R277). -/
structure Mgmt where
  bootstat : BootStat
  life : LifeState
  devnum : Nat
  plimit : Nat
  pnow : Word
  noflow : List Nat
  portalDrop : Nat
  hostRefuse : Nat
  measure : List Byte
  attNonce : List Byte
  attAddr : DWord
  leaf : Nat
  boots : Nat
  reports : Nat
  bootSram : Memory
  silicon : Nat
  feat : List Word
  clockStep : Nat
  links : List (Nat × Nat)
  deriving DecidableEq, Repr

/-- What moves next: an issue cycle of a quadrant or of a core's front-end pipeline, or an event (log 1). `held` names what R15 or a STALL
hint holds back in that cycle: of a quadrant its slots 0 and 1, and 2 for its handler sheet; of a pipeline the workgroup slots of its
threads. Which cycles those are is timing, which the model leaves open (log 43). Of an issue cycle in
which both slots issue, `second` is what is left of it once the group with the lower PC has issued: the other slot's group, and
then `settle`, the WAITM conditions of the sheet, which are evaluated after both (R69, R71, R365). -/
inductive Act where
  | issue (core quad : Nat) (held : List Nat)
  | front (core : Nat) (held : List Nat)
  | second (w : Where) (slot : Nat)
  | settle (w : Where)
  | event (i : Instr)
  deriving DecidableEq, Repr

/-- The module. -/
structure State where
  variant : Variant
  agenda : List Act
  cur : Option (Where × Nat)
  curWord : IWord
  nextWord : IWord
  clock : Nat
  base : Nat
  steps : Nat
  free : Nat
  nextId : Nat
  cores : List Core
  owners : List Owner
  dram : Dram
  hostMem : Memory
  peerMem : SMap Memory
  flights : List Flight
  engine : List EngineOp
  monitors : List Monitor
  counters : List Counter
  launches : List Launch
  queues : List Queue
  flows : List Flow
  keys : SMap (List Byte)
  inbound : List Inbound
  hostEvents : List HostEvent
  readBack : List (List Byte)
  hostDeny : List Nat
  joins : List (Nat × DWord)
  mgmt : Mgmt
  deriving DecidableEq, Repr

/-- A register at the start of its holder: zero and full (R20). -/
def Reg.zero : Reg := ⟨0#32, []⟩

/-- A lane at its start (Table 2.1), live at a word. -/
def Thread.start (pc : Word) : Thread :=
  { live := true, pc := pc, runPos := 0, wait := .ready, awaits := [], pass := 0, jumped := true, slot := none, waited := 0,
    forced := false, yieldMark := false, present := [], v := [], p := 0#64, t := [], rm := 0#32, astat := 0#32, aen := 0#32,
    pend := false, gsrc := 0#32, join := none }

/-- A lane that does not exist: as a started one, not live. -/
def Thread.absent : Thread := { Thread.start 0#32 with live := false }

/-- A channel after reset and after every wipe (R147). -/
def Channel.reset : Channel := ⟨[], 0#64⟩

/-- A core after reset and after a wipe: nothing resident, every store zero (R200, R233). -/
def Core.reset : Core :=
  { owner := none, quant := 0, quarantined := [], wgs := List.replicate 8 none, h1 := none, h2 := none, stall := none,
    switch := none, saved := none, vatImage := [], context := [], spad := [], acc := [], mould := [], tags := [], bins := [], l1 := [],
    tlb := [], misses := [], events := [], channels := List.replicate 16 Channel.reset, mq := [], xq := [], launchQ := [],
    refused := [], rrNext := 0, acquired := 0, lastSheet := [none, none, none, none] }

/-- A queue after reset (Table 18.1). -/
def Queue.reset : Queue :=
  { qbase := 0#64, qsize := 0#32, qprio := 0#32, qwrite := 0#32, qread := 0#32, enable := false, closing := false,
    qerr := 0#32, owner := none, wait := .none, launches := [], firstStatus := 0 }

/-- DRAM after reset: every row dead, no slot held, ring sizes at their default 128 (R190, R200). -/
def Dram.reset (n : Nat) : Dram :=
  { cells := [], live := [], rings := List.replicate n 128, slots := [], cached := [], replaced := 0, poison := [], errors := [],
    corrected := [], trackers := [], delays := [] }

/-- Cores of a variant (Table 0.2). -/
def Variant.cores : Variant → Nat
  | .x48 => 48
  | .n24 => 24

/-- DRAM stacks of a variant (Table 0.2). -/
def Variant.stackCount : Variant → Nat
  | .x48 => 8
  | .n24 => 4

/-- Compute dies of a variant (Table 0.1). -/
def Variant.dies : Variant → Nat
  | .x48 => 4
  | .n24 => 2

/-- Hardware queues of a variant (R241). -/
def Variant.queues (v : Variant) : Nat := 64 * v.dies

/-- Power cap at reset, the maximum (Tables 0.2, 19.7). -/
def Variant.power : Variant → Nat
  | .x48 => 2400
  | .n24 => 1300

/-- The management block after reset (Table 19.7); the fused values are arguments. -/
def Mgmt.reset (v : Variant) (life : LifeState) (leaf silicon : Nat) : Mgmt :=
  { bootstat := .waiting, life := life, devnum := 0, plimit := v.power, pnow := 0#32, noflow := [0, 0, 0, 0],
    portalDrop := 0, hostRefuse := 0, measure := List.replicate 64 0#8, attNonce := List.replicate 32 0#8,
    attAddr := 0#64, leaf := leaf, boots := 0, reports := 0, bootSram := [], silicon := silicon,
    feat := [0#32, 0#32, 0#32, 0#32], clockStep := 0, links := [] }

/-- The module right after a reset (R200, R273): everything wiped, BOOTSTAT WAITING. The variant, the lifecycle state,
the identity leaf and the silicon revision are fused and stay. -/
def State.resetWith (v : Variant) (life : LifeState) (leaf silicon : Nat) : State :=
  { variant := v, agenda := [], cur := none, curWord := 0#96, nextWord := 0#96, clock := 0, base := 0, steps := 0, free := 0, nextId := 1,
    cores := List.replicate v.cores Core.reset, owners := [], dram := Dram.reset v.stackCount, hostMem := [], peerMem := [],
    flights := [], engine := [], monitors := [], counters := [], launches := [],
    queues := List.replicate v.queues Queue.reset, flows := [], keys := [], inbound := [], hostEvents := [],
    readBack := [], hostDeny := [], joins := [], mgmt := Mgmt.reset v life leaf silicon }

/-- The machine right after reset: an X48 in lifecycle state MANUFACTURE, first silicon, no boot yet (log 4). -/
def State.reset : State := State.resetWith .x48 .manufacture 0 1

end Sys2Proof.Machine
end

