-- ==== Sys2Proof/Decode.lean ====
section
/-!
DEFINITION. From a 96-bit word to an instruction, with checks 2 to 6 of R57 in their order, and back. The decoder is
total: it answers an instruction, or says that the word takes EXTEMU or ILLEGAL and with which SLOT. What an operand
field accepts is said once, in the `acc…` predicates, which the well-formedness of an instruction uses too.
-/

namespace Sys2Proof

open Machine (CodeKind Cause)

/-- Why a word is no instruction here (R57 steps 2 to 6): EXTEMU, or ILLEGAL with tcause.SLOT. -/
inductive Reject where
  | extemu
  | illegal (slot : Nat)
  deriving DecidableEq, Repr

/-- What the checks of R57 depend on beside the word: the kind of code, the declared count C, the first V register of
the running frame (R88) and whether XFORM's feature bit is set. -/
structure DecodeCtx where
  kind : CodeKind
  c : Nat
  lo : Nat
  tx : Bool
  deriving DecidableEq, Repr

/-- The decoder's answers. -/
abbrev Dec (α : Type) := Except Reject α

/-- Bits [hi:lo] of a word, as a number of `n` bits starting at `lo`. -/
def bitsOf (w : IWord) (lo n : Nat) : BitVec n := w.extractLsb' lo n

/-- The fields of Table 3.1. -/
def fOpcode (w : IWord) : Nat := (bitsOf w 86 10).toNat

/-- GP. -/
def fGp (w : IWord) : BitVec 6 := bitsOf w 80 6

/-- GN. -/
def fGn (w : IWord) : Bool := w.getLsbD 79

/-- MOD. -/
def fMod (w : IWord) : BitVec 8 := bitsOf w 71 8

/-- FD. -/
def fFd (w : IWord) : BitVec 16 := bitsOf w 55 16

/-- FA. -/
def fFa (w : IWord) : BitVec 16 := bitsOf w 39 16

/-- FB. -/
def fFb (w : IWord) : BitVec 16 := bitsOf w 23 16

/-- HINT. -/
def fHint (w : IWord) : BitVec 7 := bitsOf w 16 7

/-- XC. -/
def fXc (w : IWord) : BitVec 16 := bitsOf w 0 16

/-- Guard and hints of a word. -/
def fCtl (w : IWord) : Ctl :=
  ⟨fGp w, fGn w, w.getLsbD 21, w.getLsbD 20, bitsOf w 16 4⟩

/-- A field of MOD as a number. -/
def modF (m : BitVec 8) (lo n : Nat) : Nat := (m.extractLsb' lo n).toNat

/-- PART (Table 3.2). -/
def partOf (x : BitVec 2) : Part :=
  match x.toNat with
  | 0 => .full
  | 1 => .lo
  | 2 => .hi
  | _ => .pair

/-- The code of a PART. -/
def partCode : Part → BitVec 2
  | .full => 0#2
  | .lo => 1#2
  | .hi => 2#2
  | .pair => 3#2

/-- An operand field (R42, Tables 3.2 and 3.3), refusing reserved bits, reserved kind-10 indices and PARTs that a
kind-10 index does not take. -/
def parseOpd (f : BitVec 16) : Option Opd :=
  let ew := f.getLsbD 13
  let part := partOf (f.extractLsb' 11 2)
  let i := f.extractLsb' 0 8
  let clean := f.extractLsb' 8 3 = 0#3
  match (f.extractLsb' 14 2).toNat with
  | 0 => if clean then some (.v ew part i) else none
  | 1 => if clean then some (.u ew part i) else none
  | 2 =>
    if ¬ clean ∨ ew then none
    else if i < 0x40#8 then (if part = .full then some (.p (i.extractLsb' 0 6)) else none)
    else if i < 0x48#8 then (if part = .pair then none else some (.t part (i.extractLsb' 0 3)))
    else if i < 0x50#8 then none
    else if i < 0x5C#8 then
      (if part = .full ∨ part = .pair then some (.m part ((i - 0x50#8).extractLsb' 0 4)) else none)
    else if i < 0x80#8 then none
    else if i < 0xA7#8 then
      (if part = .full ∨ (part = .pair ∧ i = 0x8A#8) then some (.sr part i) else none)
    else none
  | _ => some (.imm (f.extractLsb' 0 14))

/-- The field of an operand; an unused field is zero (R40). The LI and RAW forms spread over two fields and are laid
out by `encode`. -/
def encOpd : Opd → BitVec 16
  | .none => 0#16
  | .v ew part i => 0#2 ++ BitVec.ofBool ew ++ partCode part ++ 0#3 ++ i
  | .u ew part i => 1#2 ++ BitVec.ofBool ew ++ partCode part ++ 0#3 ++ i
  | .p i => 2#2 ++ 0#6 ++ 0#2 ++ i
  | .t part i => 2#2 ++ 0#1 ++ partCode part ++ 0#3 ++ (0x40#8 + i.setWidth 8)
  | .m part i => 2#2 ++ 0#1 ++ partCode part ++ 0#3 ++ (0x50#8 + i.setWidth 8)
  | .sr part i => 2#2 ++ 0#1 ++ partCode part ++ 0#3 ++ i
  | .imm x => 3#2 ++ x
  | .limm x => 3#2 ++ x.extractLsb' 0 14
  | .raw _ => 0#16

/-! ### What a field accepts -/

/-- Kind 00 or 01 with one of these parts. -/
def accReg (ps : List Part) : Opd → Bool
  | .v _ part _ => decide (part ∈ ps)
  | .u _ part _ => decide (part ∈ ps)
  | _ => false

/-- Kind 00 with one of these parts. -/
def accV (ps : List Part) : Opd → Bool
  | .v _ part _ => decide (part ∈ ps)
  | _ => false

/-- Kind 01 with one of these parts. -/
def accU (ps : List Part) : Opd → Bool
  | .u _ part _ => decide (part ∈ ps)
  | _ => false

/-- Kind 10 naming a temporary, with one of these parts. -/
def accT (ps : List Part) : Opd → Bool
  | .t part _ => decide (part ∈ ps)
  | _ => false

/-- Kind 10 naming a predicate. -/
def accP : Opd → Bool
  | .p _ => true
  | _ => false

/-- Kind 10 naming a mask register. -/
def accM (ps : List Part) : Opd → Bool
  | .m part _ => decide (part ∈ ps)
  | _ => false

/-- Kind 10 naming a special register. -/
def accSr (ps : List Part) : Opd → Bool
  | .sr part _ => decide (part ∈ ps)
  | _ => false

/-- An immediate, 14 or 30 bits. -/
def accImm : Opd → Bool
  | .imm _ => true
  | .limm _ => true
  | _ => false

/-- A source of kind 10 with one of these parts: a predicate, temporary, mask or special register. -/
def acc10 (ps : List Part) (o : Opd) : Bool :=
  (accP o && decide (Part.full ∈ ps)) || accT ps o || accM ps o || accSr ps o

/-- FD carries no empty-wait bit (Table 3.2). -/
def noEw : Opd → Bool
  | .v ew _ _ => !ew
  | .u ew _ _ => !ew
  | _ => true

/-- A destination: accepted, and without an empty-wait bit. -/
def accD (acc : Opd → Bool) (o : Opd) : Bool := acc o && noEw o

/-- How many registers an operand spans (R21, R43): a pair two, the four registers of a .b128 access. -/
def spanOf (quad : Bool) : Opd → Nat
  | .v _ .pair _ => if quad then 4 else 2
  | .u _ .pair _ => if quad then 4 else 2
  | _ => 1

/-- The index of an operand is a multiple of its span (R21, R43). -/
def aligned (quad : Bool) (o : Opd) : Bool :=
  match o with
  | .v _ _ i => i.toNat % spanOf quad o == 0
  | .u _ _ i => i.toNat % spanOf quad o == 0
  | _ => true

/-- The register an operand names exists in this code (R21, R42, R88). -/
def inCtx (x : DecodeCtx) (quad : Bool) (o : Opd) : Bool :=
  match o with
  | .v _ _ i => decide (x.kind ≠ .front) && decide (x.lo ≤ i.toNat) && decide (i.toNat + spanOf quad o ≤ x.c)
  | .u _ _ i => decide (i.toNat + spanOf quad o ≤ if x.kind = .front then 128 else 64)
  | _ => true

/-- The 16-bit and 32-bit parts. -/
def p32 : List Part := [.full, .lo, .hi]

/-- Whether TYPE is 64 bits wide. -/
def IntTy.wide : IntTy → Bool
  | .i64 | .u64 => true
  | _ => false

/-- Whether TYPE is packed. -/
def IntTy.packed : IntTy → Bool
  | .i16x2 | .u16x2 => true
  | _ => false

/-- Whether TYPE is signed. -/
def IntTy.signed : IntTy → Bool
  | .i32 | .i64 | .i16x2 => true
  | _ => false

/-- The parts a source or destination of TYPE takes (R324). -/
def intParts (ty : IntTy) : List Part :=
  if ty.wide then [.pair] else if ty.packed then [.full] else p32

/-- FD of the integer mould (R324). -/
def accIntD (ty : IntTy) : Opd → Bool := accD fun o => accReg (intParts ty) o || accT (intParts ty) o

/-- FA and FB of the integer mould (R324); FA's immediate is refused beside LI by `accIntA`. -/
def accIntS (ty : IntTy) (o : Opd) : Bool := accReg (intParts ty) o || acc10 (intParts ty) o || accImm o

/-- FA of the integer mould: an immediate only without LI (R324). -/
def accIntA (ty : IntTy) (li : Bool) (o : Opd) : Bool := accIntS ty o && !(li && accImm o)

/-- FD of AND, OR, XOR (R293), CLZ and POPC's sources aside: kind 00 or 01. -/
def accBitD (ty : IntTy) : Opd → Bool := accD (accReg (intParts ty))

/-- FA of AND, OR, XOR (R293). -/
def accBitA (ty : IntTy) (o : Opd) : Bool := accReg (intParts ty) o || acc10 (intParts ty) o

/-- The parts of IMUL and IMAD's wide operands (Table 22.7). -/
def mulParts (ty : IntTy) (h : MulHalf) : List Part := if h = .wide then [.pair] else intParts ty

/-- FD of IMUL and IMAD. -/
def accMulD (ty : IntTy) (h : MulHalf) : Opd → Bool :=
  accD fun o => accReg (mulParts ty h) o || accT (mulParts ty h) o

/-- XC of IMAD. -/
def accMulX (ty : IntTy) (h : MulHalf) (o : Opd) : Bool :=
  accReg (mulParts ty h) o || acc10 (mulParts ty h) o || accImm o

/-- Kinds 00, 01 or 11 with PART 00: the plain value of many entries. -/
def accVal (o : Opd) : Bool := accReg [.full] o || accImm o

/-- Kinds 00, 01, 10 or 11 with PART 00. -/
def accVal10 (o : Opd) : Bool := accReg [.full] o || acc10 [.full] o || accImm o

/-- FD of class 0x1 (R318). -/
def accFltD : Opd → Bool := accD fun o => accReg [.full] o || accT [.full] o

/-- A source of class 0x1 (R318). -/
def accFltS (ty : FltTy) (o : Opd) : Bool :=
  let ps := if ty = .f32 then [Part.full] else p32
  accReg ps o || acc10 ps o || accImm o

/-- A compare's destination (R321, R326). -/
def accCmpD : Opd → Bool := accD fun o => accReg [.full] o || accP o

/-- A source of FCMP (R321). -/
def accFcS (ty : FcTy) (o : Opd) : Bool :=
  let ps := if ty = .f32 then [Part.full] else [.lo, .hi]
  accReg ps o || acc10 ps o || accImm o

/-- Bits of an element type (Table 3.7). -/
def Elem.bits : Elem → Nat
  | .e4m3 | .e5m2 | .int8 | .uint8 => 8
  | .bf16 | .fp16 | .int16 | .uint16 => 16
  | .fp32 | .int32 | .uint32 => 32
  | .int64 | .uint64 => 64
  | .q4x => 4

/-- The parts CVT's operands take by type (R309). -/
def cvtParts (e : Elem) : List Part :=
  match e.bits with
  | 16 => p32
  | 64 => [.pair]
  | _ => [.full]

/-- The source of CVT: R309 lists only the PARTs; every kind is taken (log 41). -/
def accCvtS (e : Elem) (o : Opd) : Bool := accReg (cvtParts e) o || acc10 (cvtParts e) o || accImm o

/-- The destination of CVT: R309 lists only the PARTs; kinds 00 and 01 and the temporaries are taken (log 41). -/
def accCvtD (e : Elem) : Opd → Bool := accD fun o => accReg (cvtParts e) o || accT (cvtParts e) o

/-- Type pairs of CVT (R107). -/
def cvtPair (dt st : Elem) : Bool := decide (dt ≠ st) && decide (dt ≠ .q4x) && decide (st ≠ .q4x)

/-- A 32-bit type of PACK. -/
def packWide (e : Elem) : Bool := decide (e ∈ [Elem.fp32, .int32, .uint32])

/-- A narrow type of PACK. -/
def packNarrow (e : Elem) : Bool :=
  decide (e ∈ [Elem.bf16, .fp16, .int16, .uint16, .e4m3, .e5m2, .int8, .uint8])

/-- Type pairs of PACK (R339). -/
def packPair (unpack : Bool) (dt st : Elem) : Bool :=
  if unpack then packWide dt && packNarrow st else packWide st && packNarrow dt

/-- Sources of PACK (R339): FA and FB when packing. -/
def accPackS (dt : Elem) (o : Opd) : Bool := if dt.bits = 16 then accVal o else accReg [.pair] o

/-- h of PACK.unpack (R339): 0 or 1. -/
def accPackH : Opd → Bool
  | .imm x => decide (x = 0#14 ∨ x = 1#14)
  | _ => false

/-- The base of a memory operand (R45). -/
def accBase : Opd → Bool := accReg [.full, .pair]

/-- The offset of a memory operand (R45): an immediate, or a register. -/
def accOff (o : Opd) : Bool := accReg [.full] o || accImm o

/-- A branch displacement (R301). -/
def accDisp : Opd → Bool := accImm

/-- Parts of a loaded or stored value by SIZE (Table 11.1, R329). -/
def sizeParts : Size → List Part
  | .b64 | .b128 => [.pair]
  | _ => p32

/-- Whether an access names four registers. -/
def Size.quad : Size → Bool
  | .b128 => true
  | _ => false

/-- The destination of LD and LDL. -/
def accLdD (sz : Size) : Opd → Bool := accD (accReg (sizeParts sz))

/-- The value of STL: kind 00, 01 or 11 at every SIZE (Table 11.1). -/
def accStlD (sz : Size) : Opd → Bool := accD fun o => accReg (sizeParts sz) o || accImm o

/-- The value of ST: no immediate with .b128 (R360). -/
def accStD (sz : Size) : Opd → Bool :=
  accD fun o => accReg (sizeParts sz) o || (accImm o && !sz.quad)

/-- The sizes a store takes (R360, Table 11.1). -/
def storeSize (sz : Size) : Bool := decide (sz ∈ [Size.u8, .u16, .b32, .b64, .b128])

/-- The rank operand of .q (R143). -/
def accRank (o : Opd) : Bool := accU [.full] o || accImm o

/-- Width of an atomic by type code (R294). -/
def atomWide (e : Elem) : Bool := decide (e ∈ [Elem.int64, .uint64])

/-- Type codes an AOP accepts (R49). -/
def atomTy (op : Aop) (e : Elem) : Bool :=
  decide (e ∈ [Elem.int32, .uint32, .int64, .uint64]) || (decide (e = .fp32) && decide (op ∈ [Aop.add, .min, .max]))

/-- Parts of a value of an atomic. -/
def wideParts (wide : Bool) : List Part := if wide then [.pair] else [.full]

/-- A value operand of an atomic of a known width (R294). -/
def accAtV (wide : Bool) (o : Opd) : Bool := accReg (wideParts wide) o || accImm o

/-- Whether cas on this comparand is 64 bits wide (R49). An immediate is 32 bits, PART 00. -/
def casWide : Opd → Bool
  | .v _ .pair _ => true
  | .u _ .pair _ => true
  | _ => false

/-- The same of a field: PART 11 of a kind that has a PART, whether or not the field is accepted otherwise (R294). -/
def casWideField (f : BitVec 16) : Bool := decide (f.extractLsb' 14 2 ≠ 3#2) && decide (f.extractLsb' 11 2 = 3#2)

/-- The offset form of FD of an atomic (R294). -/
def accAtOff : Opd → Bool
  | .imm _ => true
  | _ => false

/-- FD of ATOM (R294): a return destination of the width, or the offset. -/
def accAtD (wide : Bool) : Opd → Bool := accD fun o => accReg (wideParts wide) o || accAtOff o

/-- RDUX and SCAN's pairs of TYPE and OP (R347), with the RND they allow. -/
def redPair (op : RedOp) (ty : XTy) (r : Rnd) : Bool :=
  (match ty with
    | .i32 | .u32 => decide (op ∈ [RedOp.add, .min, .max])
    | .f32 => decide (op ∈ [RedOp.add, .min, .max])
    | .b32 => decide (op ∈ [RedOp.and, .or, .xor])) &&
  (decide (r = .rne) || (decide (ty = .f32) && decide (op = .add)))

/-- The extension word's own limits (Table 21.4). -/
def accXExt (x : XExt) : Bool := if x.all then decide (x.mask = 0#4) else decide (x.mask < 12#4)

/-- A descriptor of eight S registers (Table 9.6). -/
def accDesc : Opd → Bool
  | .u _ .full i => decide (i.toNat % 8 = 0) && decide (i.toNat ≤ 120)
  | _ => false

/-- Kind 01 PART 00. -/
def accU0 : Opd → Bool := accU [.full]

/-- Kind 01 PART 00, or an immediate. -/
def accUI (o : Opd) : Bool := accU0 o || accImm o

/-- MRDY's f (Table 9.6). -/
def accMrdy (o : Opd) : Bool := accReg [.full] o || (match o with | .imm x => !x.getLsbD 13 | _ => false)

/-- MLOOP's f (Table 9.6): a 14-bit value with its sign bit clear. -/
def accFw (o : Opd) : Bool := accU0 o || (match o with | .imm x => !x.getLsbD 13 | _ => false)

/-- The parts of COPY's dst and src by KIND (Table 21.3). -/
def copyD (k : CopyKind) : Opd → Bool :=
  accD (accU (match k with | .sd | .hd | .dh => [.pair] | _ => [.full]))

/-- COPY's source. -/
def copyS (k : CopyKind) : Opd → Bool :=
  accU (match k with | .ds | .hd | .dh => [.pair] | _ => [.full])

/-- The destination of a FD that receives an element of a Q4X block (R313). -/
def accDeqD (dt : Elem) : Opd → Bool := accD (accReg (if dt = .bf16 then p32 else [.full]))

/-- MMOV's source: a mask, W or an immediate, with FD's PART (R334). -/
def accMmovA (d : Opd) (o : Opd) : Bool :=
  match d, o with
  | .m pd _, .m ps _ => decide (pd = ps)
  | .m pd _, .u _ ps _ => decide (pd = ps)
  | .m _ _, .imm _ => true
  | .u _ pd _, .m ps _ => decide (pd = ps)
  | .u _ pd _, .imm _ => decide (pd = .full ∨ pd = .pair)
  | _, _ => false

/-- MMOV's destination (R334). -/
def accMmovD : Opd → Bool := accD fun o => accM [.full, .pair] o || accU [.full, .pair] o

/-- SRD's destination carries PART 11 exactly with clocklo's (R359); otherwise it takes PART 00, 01 or 10, of which the rule is
silent (log 41). -/
def accSrdD (a : Opd) : Opd → Bool :=
  accD fun o => match a with
    | .sr .pair _ => accReg [.pair] o
    | _ => accReg p32 o || accT p32 o

/-- SHFL's register operands (R354). -/
def accShfl (o : Opd) : Bool := accV [.full, .pair] o

/-- Whether two register operands carry the same PART. -/
def samePart : Opd → Opd → Bool
  | .v _ p _, .v _ q _ => decide (p = q)
  | _, _ => false

/-- MOV's destination (R335). -/
def accMovD (ty : IntTy) : Opd → Bool :=
  accD fun o => accReg (intParts ty) o || accT (intParts ty) o || (!ty.wide && accP o)

/-- MOV's source (R335): no mask register. -/
def accMovS (ty : IntTy) (o : Opd) : Bool :=
  match o with
  | .m _ _ => false
  | .raw _ => !ty.wide
  | o => accReg (intParts ty) o || acc10 (intParts ty) o || accImm o

/-! ### Type codes -/

/-- TYPE of class 0x0 (Table 3.8). -/
def intTy (n : Nat) : Dec IntTy :=
  match n with
  | 0 => .ok .i32 | 1 => .ok .u32 | 2 => .ok .i64 | 3 => .ok .u64 | 4 => .ok .i16x2 | 5 => .ok .u16x2 | 6 => .ok .b32
  | _ => .error (.illegal 15)

/-- The code of TYPE of class 0x0. -/
def intTyCode : IntTy → BitVec 3
  | .i32 => 0#3 | .u32 => 1#3 | .i64 => 2#3 | .u64 => 3#3 | .i16x2 => 4#3 | .u16x2 => 5#3 | .b32 => 6#3

/-- TYPE of class 0x1. -/
def fltTy (n : Nat) : Dec FltTy :=
  match n with
  | 0 => .ok .f32 | 1 => .ok .f16x2 | 2 => .ok .bf16x2
  | _ => .error (.illegal 15)

/-- The code of TYPE of class 0x1. -/
def fltTyCode : FltTy → BitVec 2
  | .f32 => 0#2 | .f16x2 => 1#2 | .bf16x2 => 2#2

/-- TYPE of FCMP. -/
def fcTy (n : Nat) : Dec FcTy :=
  match n with
  | 0 => .ok .f32 | 1 => .ok .f16 | 2 => .ok .bf16
  | _ => .error (.illegal 15)

/-- The code of TYPE of FCMP. -/
def fcTyCode : FcTy → BitVec 3
  | .f32 => 0#3 | .f16 => 1#3 | .bf16 => 2#3

/-- TYPE of class 0x4. -/
def xTy (n : Nat) : XTy :=
  match n with
  | 0 => .i32 | 1 => .u32 | 2 => .f32
  | _ => .b32

/-- The code of TYPE of class 0x4. -/
def xTyCode : XTy → BitVec 2
  | .i32 => 0#2 | .u32 => 1#2 | .f32 => 2#2 | .b32 => 3#2

/-- RND (Table 3.4). -/
def rndOf (n : Nat) : Dec Rnd :=
  match n with
  | 0 => .ok .rne | 1 => .ok .rtz | 2 => .ok .rup | 3 => .ok .rdn | 4 => .ok .rna | 7 => .ok .dyn
  | _ => .error (.illegal 15)

/-- The code of RND. -/
def rndCode : Rnd → BitVec 3
  | .rne => 0#3 | .rtz => 1#3 | .rup => 2#3 | .rdn => 3#3 | .rna => 4#3 | .dyn => 7#3

/-- SCOPE (Table 3.5). -/
def scopeOf (n : Nat) : Dec Scope :=
  match n with
  | 0 => .ok .sheet | 1 => .ok .wg | 2 => .ok .core | 3 => .ok .quire | 4 => .ok .die | 5 => .ok .dev | 6 => .ok .sys
  | _ => .error (.illegal 15)

/-- The code of SCOPE. -/
def scopeCode : Scope → BitVec 3
  | .sheet => 0#3 | .wg => 1#3 | .core => 2#3 | .quire => 3#3 | .die => 4#3 | .dev => 5#3 | .sys => 6#3

/-- SIZE (Table 3.6). -/
def sizeOf (n : Nat) : Dec Size :=
  match n with
  | 0 => .ok .u8 | 1 => .ok .s8 | 2 => .ok .u16 | 3 => .ok .s16 | 4 => .ok .b32 | 5 => .ok .b64 | 6 => .ok .b128
  | _ => .error (.illegal 15)

/-- The code of SIZE. -/
def sizeCode : Size → BitVec 3
  | .u8 => 0#3 | .s8 => 1#3 | .u16 => 2#3 | .s16 => 3#3 | .b32 => 4#3 | .b64 => 5#3 | .b128 => 6#3

/-- Element type codes (Table 3.7). -/
def elemOf (n : Nat) : Option Elem :=
  match n with
  | 0 => some .e4m3 | 1 => some .e5m2 | 2 => some .bf16 | 3 => some .fp16 | 4 => some .int8 | 5 => some .q4x
  | 6 => some .int16 | 7 => some .uint8 | 8 => some .fp32 | 9 => some .int32 | 10 => some .uint32 | 11 => some .uint16
  | 12 => some .int64 | 13 => some .uint64
  | _ => none

/-- The code of an element type. -/
def elemCode : Elem → BitVec 4
  | .e4m3 => 0#4 | .e5m2 => 1#4 | .bf16 => 2#4 | .fp16 => 3#4 | .int8 => 4#4 | .q4x => 5#4 | .int16 => 6#4
  | .uint8 => 7#4 | .fp32 => 8#4 | .int32 => 9#4 | .uint32 => 10#4 | .uint16 => 11#4 | .int64 => 12#4 | .uint64 => 13#4

/-- COND (Table 3.9). -/
def condOf (n : Nat) : Dec Cond :=
  match n with
  | 0 => .ok .eq | 1 => .ok .ne | 2 => .ok .lt | 3 => .ok .le | 4 => .ok .gt | 5 => .ok .ge | 8 => .ok .num | 9 => .ok .nan
  | 10 => .ok .ltu | 11 => .ok .leu | 12 => .ok .gtu | 13 => .ok .geu | 14 => .ok .equ | 15 => .ok .neu
  | _ => .error (.illegal 15)

/-- The code of COND. -/
def condCode : Cond → BitVec 4
  | .eq => 0#4 | .ne => 1#4 | .lt => 2#4 | .le => 3#4 | .gt => 4#4 | .ge => 5#4 | .num => 8#4 | .nan => 9#4
  | .ltu => 10#4 | .leu => 11#4 | .gtu => 12#4 | .geu => 13#4 | .equ => 14#4 | .neu => 15#4

/-- COND codes of ICMP (R326): 0000 to 0101, and .b32 only .eq and .ne. -/
def icmpCond (ty : IntTy) (k : Cond) : Bool :=
  match k with
  | .eq | .ne => true
  | .lt | .le | .gt | .ge => decide (ty ≠ .b32)
  | _ => false

/-- OP of RDUX and SCAN (R347). -/
def redOf (n : Nat) : Dec RedOp :=
  match n with
  | 0 => .ok .add | 1 => .ok .min | 2 => .ok .max | 3 => .ok .and | 4 => .ok .or | 5 => .ok .xor
  | _ => .error (.illegal 15)

/-- The code of OP of RDUX and SCAN. -/
def redCode : RedOp → BitVec 3
  | .add => 0#3 | .min => 1#3 | .max => 2#3 | .and => 3#3 | .or => 4#3 | .xor => 5#3

/-- AOP (Table 3.8). -/
def aopOf (n : Nat) : Aop :=
  match n with
  | 0 => .add | 1 => .min | 2 => .max | 3 => .and | 4 => .or | 5 => .xor | 6 => .exch
  | _ => .cas

/-- The code of AOP. -/
def aopCode : Aop → BitVec 3
  | .add => 0#3 | .min => 1#3 | .max => 2#3 | .and => 3#3 | .or => 4#3 | .xor => 5#3 | .exch => 6#3 | .cas => 7#3

/-- ORD of class 0x9. -/
def ordOf (n : Nat) : Ord :=
  match n with
  | 0 => .rlx | 1 => .acq | 2 => .rel
  | _ => .ar

/-- The code of ORD. -/
def ordCode : Ord → BitVec 2
  | .rlx => 0#2 | .acq => 1#2 | .rel => 2#2 | .ar => 3#2

/-- DTYPE of AOUT (Table 9.6). -/
def outOf (n : Nat) : Dec OutTy :=
  match n with
  | 0 => .ok .e4m3 | 1 => .ok .e5m2 | 2 => .ok .bf16 | 3 => .ok .f16 | 4 => .ok .f32 | 5 => .ok .i8 | 6 => .ok .i32
  | _ => .error (.illegal 15)

/-- The code of DTYPE. -/
def outCode : OutTy → BitVec 3
  | .e4m3 => 0#3 | .e5m2 => 1#3 | .bf16 => 2#3 | .f16 => 3#3 | .f32 => 4#3 | .i8 => 5#3 | .i32 => 6#3

/-- KIND of COPY (Table 11.3). -/
def copyKindOf (n : Nat) : Dec CopyKind :=
  match n with
  | 0 => .ok .ds | 1 => .ok .sd | 2 => .ok .sm | 3 => .ok .qs | 4 => .ok .sq | 5 => .ok .hd | 6 => .ok .dh
  | _ => .error (.illegal 15)

/-- The code of KIND. -/
def copyKindCode : CopyKind → BitVec 3
  | .ds => 0#3 | .sd => 1#3 | .sm => 2#3 | .qs => 3#3 | .sq => 4#3 | .hd => 5#3 | .dh => 6#3

/-- F of COPY (Table 11.3). -/
def panelOf (n : Nat) : Option Panel :=
  match n with
  | 0 => some .b8 | 1 => some .b16 | 2 => some .q4x
  | _ => none

/-- The code of F. -/
def panelCode : Panel → BitVec 2
  | .b8 => 0#2 | .b16 => 1#2 | .q4x => 2#2

/-- LEVEL (R257). -/
def levelOf (n : Nat) : Dec Level :=
  match n with
  | 0 => .ok .unit | 1 => .ok .launch | 2 => .ok .graph | 3 => .ok .phase | 4 => .ok .job
  | _ => .error (.illegal 15)

/-- The code of LEVEL. -/
def levelCode : Level → BitVec 3
  | .unit => 0#3 | .launch => 1#3 | .graph => 2#3 | .phase => 3#3 | .job => 4#3

/-- TOP (R154). -/
def xopOf (n : Nat) : Dec Xop :=
  match n with
  | 0 => .ok .transpose | 1 => .ok .gather | 2 => .ok .cvt | 3 => .ok .pack | 4 => .ok .unpack
  | _ => .error (.illegal 15)

/-- The code of TOP. -/
def xopCode : Xop → BitVec 4
  | .transpose => 0#4 | .gather => 1#4 | .cvt => 2#4 | .pack => 3#4 | .unpack => 4#4

/-- MODE of RFH (Table 16.3). -/
def rfhOf (n : Nat) : Dec RfhMode :=
  match n with
  | 0 => .ok .plain | 1 => .ok .skip | 2 => .ok .fail
  | _ => .error (.illegal 15)

/-- The code of MODE. -/
def rfhCode : RfhMode → BitVec 2
  | .plain => 0#2 | .skip => 1#2 | .fail => 2#2

/-- Which of SCOPE and ORD LD and ST accept (R329, R360). -/
def accessOf (scope ord : Nat) : Dec Access :=
  if ord = 0 then
    if scope = 0 then .ok .plain else if scope = 7 then .ok .bw else .error (.illegal 15)
  else do return .ordered (← scopeOf scope)

/-- SCOPE and ORD bits of an access. -/
def accessCode : Access → BitVec 4
  | .plain => 0#4
  | .bw => 14#4
  | .ordered s => scopeCode s ++ 1#1

/-- SCOPE 000 or 111 of PROMOTE, DEMOTE, MADR, DEAD and CWB (R192, R312). -/
def bwOf (scope : Nat) : Dec Bool :=
  if scope = 0 then .ok false else if scope = 7 then .ok true else .error (.illegal 15)

/-! ### The checks of R57 -/

/-- A MOD, HINT or code-kind check: ILLEGAL with SLOT 0xF. -/
def need (b : Bool) : Dec Unit := if b then .ok () else .error (.illegal 15)

/-- A field of an operand: parsed, accepted by the entry, aligned and present in this code; or ILLEGAL with its slot. -/
def fld (x : DecodeCtx) (slot : Nat) (quad : Bool) (acc : Opd → Bool) (f : BitVec 16) : Dec Opd :=
  match parseOpd f with
  | some o => if acc o && aligned quad o && inCtx x quad o then .ok o else .error (.illegal slot)
  | none => .error (.illegal slot)

/-- A field the entry does not use (R40). -/
def zeroF (slot : Nat) (f : BitVec 16) : Dec Unit := if f = 0#16 then .ok () else .error (.illegal slot)

/-- A check on an extension word in XC: ILLEGAL with SLOT 3. -/
def needX (b : Bool) : Dec Unit := if b then .ok () else .error (.illegal 3)

/-- LI is accepted here only with FB of kind 11 (R44). -/
def needLi (li : Bool) (w : IWord) : Dec Unit := need (!li || decide ((fFb w).extractLsb' 14 2 = 3#2))

/-- FB, or the 30-bit immediate of LI (R44). Another field of kind 11 keeps its own 14 bits beside LI: R44 names FB alone, and the READ of R60
does not say which field it means (log 54). -/
def fldB (x : DecodeCtx) (li : Bool) (acc : Opd → Bool) (w : IWord) : Dec Opd :=
  if li then
    let o := Opd.limm (fXc w ++ (fFb w).extractLsb' 0 14)
    if acc o then .ok o else .error (.illegal 2)
  else fld x 2 false acc (fFb w)

/-- XC is zero unless LI takes it. -/
def zeroX (li : Bool) (w : IWord) : Dec Unit := if li then .ok () else zeroF 3 (fXc w)

/-- The extension word of the member-mask mould (Table 21.4); `excl` allows SCAN's bit 5. -/
def xextOf (excl : Bool) (w : IWord) : Dec XExt := do
  let x : XExt := ⟨bitsOf w 10 6, w.getLsbD 4, bitsOf w 0 4⟩
  needX (bitsOf w 6 4 = 0#4 && (excl || !w.getLsbD 5) && accXExt x)
  return x

/-- The type word of CVT, DEQ and PACK (R50), checked ahead of FD and FA. -/
def typeWord (w : IWord) (ok : Elem → Elem → Bool) : Dec (Elem × Elem) :=
  match elemOf (bitsOf w 4 4).toNat, elemOf (bitsOf w 0 4).toNat with
  | some dt, some st => if bitsOf w 8 8 = 0#8 && ok dt st then .ok (dt, st) else .error (.illegal 3)
  | _, _ => .error (.illegal 3)

/-- Whether a code kind is that of a handler. -/
def isHandler : CodeKind → Bool
  | .handler _ _ => true
  | _ => false

/-- Both kinds of code, handler sheets included. -/
def kBoth (_ : CodeKind) : Bool := true

/-- Sheet code, handler sheets included. -/
def kSheet (k : CodeKind) : Bool := decide (k ≠ .front)

/-- Front-end code only. -/
def kFront (k : CodeKind) : Bool := decide (k = .front)

/-- Sheet code, but no handler sheet (R367). -/
def kPlainSheet (k : CodeKind) : Bool := decide (k = .sheet)

/-- Both kinds of code, but no handler sheet (R367). -/
def kNoHandler (k : CodeKind) : Bool := !isHandler k

/-- Handler sheets only (R214). -/
def kHandler (k : CodeKind) : Bool := isHandler k

/-- COPY: front-end code, or a level-1 handler (R222). -/
def kCopy : CodeKind → Bool
  | .front => true
  | .handler 1 _ => true
  | _ => false

/-- The tag instructions: no walk, save or restore handler (R367). -/
def kTag : CodeKind → Bool
  | .handler _ .walk => false
  | .handler _ .save => false
  | _ => true

/-- SPAWN: sheet code and the handlers of a trapped group (R358). -/
def kSpawn (k : CodeKind) : Bool := kSheet k && kTag k

/-- The guard of a word is unconditional (R41). -/
def unguarded (c : Ctl) : Bool := decide (c.gp = 63#6) && !c.gn

/-- Class 0x0 (R293, R299, R300, R305, R324 to R327, R332, R335, R342, R355). -/
def decodeInt (x : DecodeCtx) (op : Nat) (w : IWord) : Dec Instr := do
  let c := fCtl w
  let li := w.getLsbD 78
  let m := fMod w
  need (!w.getLsbD 22)
  let ty ← intTy (modF m 4 3)
  let sat := m.getLsbD 3
  let opx := modF m 0 3
  let intMould (k : IntTy → Bool → Opd → Opd → Opd → Instr) (satOk : Bool) : Dec Instr := do
    need (decide (ty ≠ .b32) && (satOk || !sat) && decide (opx = 0)); needLi li w
    let d ← fld x 0 false (accIntD ty) (fFd w)
    let a ← fld x 1 false (accIntA ty li) (fFa w)
    let b ← fldB x li (accIntS ty) w
    zeroX li w
    return k ty sat d a b
  let bitMould (k : IntTy → Opd → Opd → Opd → Instr) : Dec Instr := do
    need (decide (ty = .b32 ∨ ty = .u64) && !sat && decide (opx = 0)); needLi li w
    let d ← fld x 0 false (accBitD ty) (fFd w)
    let a ← fld x 1 false (accBitA ty) (fFa w)
    let b ← fldB x li (accIntS ty) w
    zeroX li w
    return k ty d a b
  let mulPre : Dec MulHalf := do
    need (decide (ty ≠ .b32))
    match opx with
    | 0 => return .lo
    | 1 => need (!ty.packed && !sat); return .hi
    | 2 => need (decide (ty = .i32 ∨ ty = .u32) && !sat); return .wide
    | _ => .error (.illegal 15)
  let shiftMould (k : IntTy → Opd → Opd → Opd → Instr) : Dec Instr := do
    need (!sat && decide (opx = 0)); needLi li w
    let d ← fld x 0 false (accIntD ty) (fFd w)
    let a ← fld x 1 false (accIntA ty li) (fFa w)
    let b ← fldB x li accVal10 w
    zeroX li w
    return k ty d a b
  let countMould (k : IntTy → Opd → Opd → Instr) : Dec Instr := do
    need (decide (ty = .b32 ∨ ty = .u64) && !sat && decide (opx = 0) && !li)
    let d ← fld x 0 false (accD (accReg [.full])) (fFd w)
    let a ← fld x 1 false (accReg (intParts ty)) (fFa w)
    zeroF 2 (fFb w); zeroF 3 (fXc w)
    return k ty d a
  match op with
  | 0x00 => intMould (fun ty s d a b => .iadd c ty s d a b) true
  | 0x01 => intMould (fun ty s d a b => .isub c ty s d a b) true
  | 0x04 => intMould (fun ty _ d a b => .imin c ty d a b) false
  | 0x05 => intMould (fun ty _ d a b => .imax c ty d a b) false
  | 0x02 =>
    let h ← mulPre
    needLi li w
    let d ← fld x 0 false (accMulD ty h) (fFd w)
    let a ← fld x 1 false (accIntA ty li) (fFa w)
    let b ← fldB x li (accIntS ty) w
    zeroX li w
    return .imul c ty sat h d a b
  | 0x03 =>
    let h ← mulPre
    need (!li)
    let d ← fld x 0 false (accMulD ty h) (fFd w)
    let a ← fld x 1 false (accIntS ty) (fFa w)
    let b ← fld x 2 false (accIntS ty) (fFb w)
    let e ← fld x 3 false (accMulX ty h) (fXc w)
    return .imad c ty sat h d a b e
  | 0x08 => bitMould (fun ty d a b => .land c ty d a b)
  | 0x09 => bitMould (fun ty d a b => .lor c ty d a b)
  | 0x0A => bitMould (fun ty d a b => .lxor c ty d a b)
  | 0x0C => shiftMould (fun ty d a b => .shl c ty d a b)
  | 0x0D => shiftMould (fun ty d a b => .shr c ty d a b)
  | 0x10 =>
    need (decide (ty = .i32 ∨ ty = .u32) && !sat && decide (opx = 0) && !li)
    let d ← fld x 0 false (accD (accReg [.full])) (fFd w)
    let a ← fld x 1 false (fun o => accReg p32 o || accImm o) (fFa w)
    let b ← fld x 2 false accVal (fFb w)
    let e ← fld x 3 false accVal (fXc w)
    return .bfx c ty d a b e
  | 0x11 =>
    need (decide (ty = .b32) && !sat && decide (opx = 0) && !li)
    let d ← fld x 0 false (accD (accReg [.full])) (fFd w)
    let a ← fld x 1 false accVal (fFa w)
    let b ← fld x 2 false accVal (fFb w)
    let e ← fld x 3 false accVal (fXc w)
    return .bfi c d a b e
  | 0x12 => countMould (fun ty d a => .popc c ty d a)
  | 0x13 => countMould (fun ty d a => .clz c ty d a)
  | 0x14 =>
    need (decide (ty = .i32 ∨ ty = .u32) && !sat); needLi li w
    let d ← fld x 0 false (accD (accReg [.pair])) (fFd w)
    let a ← fld x 1 false accBase (fFa w)
    let b ← fldB x li accVal w
    zeroX li w
    return .lea c ty (m.extractLsb' 0 3) d a b
  | _ =>
    need (!ty.packed && !sat && decide (opx ≤ 1))
    if opx = 1 then
      need (!ty.wide && !li)
      let d ← fld x 0 false (accMovD ty) (fFd w)
      zeroF 3 (fXc w)
      return .mov c ty d (.raw (fFa w ++ fFb w))
    else
      needLi li w
      let d ← fld x 0 false (accMovD ty) (fFd w)
      zeroF 1 (fFa w)
      let b ← fldB x li (accMovS ty) w
      zeroX li w
      return .mov c ty d b

/-- Class 0x1 (R318 to R323). -/
def decodeFloat (x : DecodeCtx) (op : Nat) (w : IWord) : Dec Instr := do
  let c := fCtl w
  let li := w.getLsbD 78
  let m := fMod w
  need (!w.getLsbD 22)
  let ty ← fltTy (modF m 5 2)
  let ftz := m.getLsbD 4
  let opx := m.getLsbD 3
  let r ← rndOf (modF m 0 3)
  let two (k : Opd → Opd → Opd → Instr) : Dec Instr := do
    need (!opx && (!li || decide (ty = .f32))); needLi li w
    let d ← fld x 0 false accFltD (fFd w)
    let a ← fld x 1 false (accFltS ty) (fFa w)
    let b ← fldB x li (accFltS ty) w
    zeroX li w
    return k d a b
  let one (k : Opd → Opd → Instr) (anyTy : Bool) : Dec Instr := do
    need (!li && (anyTy || (decide (ty = .f32) && decide (r = .dyn))))
    let d ← fld x 0 false accFltD (fFd w)
    let a ← fld x 1 false (accFltS ty) (fFa w)
    zeroF 2 (fFb w); zeroF 3 (fXc w)
    return k d a
  match op with
  | 0x00 => two (.fadd c ty ftz r)
  | 0x01 => two (.fmul c ty ftz r)
  | 0x02 =>
    need (!opx && !li)
    let d ← fld x 0 false accFltD (fFd w)
    let a ← fld x 1 false (accFltS ty) (fFa w)
    let b ← fld x 2 false (accFltS ty) (fFb w)
    let e ← fld x 3 false (accFltS ty) (fXc w)
    return .ffma c ty ftz r d a b e
  | 0x04 => two (.fmin c ty ftz r)
  | 0x05 => two (.fmax c ty ftz r)
  | 0x08 => do need (!opx); one (.frcp c ty ftz r) true
  | 0x09 => do need (!opx); one (.frsq c ftz) false
  | 0x0A => do need (!opx); one (.fsqrt c ty ftz r) true
  | 0x0B => do need (!opx); one (.fex2 c ftz) false
  | 0x0C => do need (!opx); one (.flg2 c ftz) false
  | 0x0D => one (.fsin c opx ftz) false
  | _ =>
    need (!opx && !li && decide (ty ≠ .f32))
    let d ← fld x 0 false accFltD (fFd w)
    let a ← fld x 1 false (accReg [.pair]) (fFa w)
    let b ← fld x 2 false (accReg [.pair]) (fFb w)
    let e ← fld x 3 false (accFltS .f32) (fXc w)
    return .fdp4 c ty ftz r d a b e

/-- Class 0x2 (R309, R310, R313, R339). -/
def decodeConvert (x : DecodeCtx) (op : Nat) (w : IWord) : Dec Instr := do
  let c := fCtl w
  let m := fMod w
  need (!w.getLsbD 22 && !m.getLsbD 7)
  let sat := m.getLsbD 6
  let opx := modF m 3 3
  let r ← rndOf (modF m 0 3)
  match op with
  | 0 =>
    need (decide (opx = 0))
    let (dt, st) ← typeWord w cvtPair
    let d ← fld x 0 false (accCvtD dt) (fFd w)
    let a ← fld x 1 false (accCvtS st) (fFa w)
    zeroF 2 (fFb w)
    return .cvt c sat r dt st d a
  | 1 =>
    need (decide (opx = 0))
    let (_, st) ← typeWord w (fun dt st => decide (dt = .q4x) && decide (st ∈ [Elem.fp32, .bf16, .fp16]))
    let d ← fld x 0 false (accD fun o => match o with
      | .u _ .full i => decide (i.toNat % 2 = 0) && decide (i.toNat ≤ 61) | _ => false) (fFd w)
    let a ← fld x 1 false (accV (if st = .fp32 then [.full] else p32)) (fFa w)
    let b ← fld x 2 false (fun o => match o with | .u _ .full i => decide (i.toNat % 4 = 0) | _ => false) (fFb w)
    return .cvtq c sat r st d a b
  | 2 =>
    need (decide (opx = 0))
    let (dt, _) ← typeWord w (fun dt st => decide (st = .q4x) && decide (dt ∈ [Elem.fp32, .bf16]))
    let d ← fld x 0 false (accDeqD dt) (fFd w)
    let a ← fld x 1 false (fun o => accReg [.full] o && (match o with
      | .v _ _ i => decide (i.toNat + 4 < x.c)
      | .u _ _ i => decide (i.toNat + 4 < if x.kind = .front then 128 else 64)
      | _ => false)) (fFa w)
    let b ← fld x 2 false accVal (fFb w)
    return .deq c sat r dt d a b
  | _ =>
    need (decide (opx ≤ 1))
    let un := decide (opx = 1)
    let (dt, st) ← typeWord w (packPair un)
    if un then
      let d ← fld x 0 false (accD (accReg [.pair])) (fFd w)
      let a ← fld x 1 false (accReg [.full]) (fFa w)
      if st.bits = 8 then
        let b ← fld x 2 false accPackH (fFb w)
        return .pack c true sat r dt st d a b
      else
        zeroF 2 (fFb w)
        return .pack c true sat r dt st d a .none
    else
      let d ← fld x 0 false (accD (accReg [.full])) (fFd w)
      let a ← fld x 1 false (accPackS dt) (fFa w)
      let b ← fld x 2 false (accPackS dt) (fFb w)
      return .pack c false sat r dt st d a b

/-- Class 0x3 (R321, R326, R341, R353). -/
def decodeCompare (x : DecodeCtx) (op : Nat) (w : IWord) : Dec Instr := do
  let c := fCtl w
  let li := w.getLsbD 78
  let m := fMod w
  need (!w.getLsbD 22)
  match op with
  | 0 =>
    let ty ← intTy (modF m 4 3)
    let k ← condOf (modF m 0 4)
    need (!ty.packed && icmpCond ty k); needLi li w
    let d ← fld x 0 false accCmpD (fFd w)
    let a ← fld x 1 false (accIntA ty li) (fFa w)
    let b ← fldB x li (accIntS ty) w
    zeroX li w
    return .icmp c ty k d a b
  | 1 =>
    let ty ← fcTy (modF m 4 3)
    let k ← condOf (modF m 0 4)
    need (!li || decide (ty = .f32)); needLi li w
    let d ← fld x 0 false accCmpD (fFd w)
    let a ← fld x 1 false (accFcS ty) (fFa w)
    let b ← fldB x li (accFcS ty) w
    zeroX li w
    return .fcmp c ty k d a b
  | 2 =>
    need (!li && decide (modF m 4 3 = 0))
    let d ← fld x 0 false accP (fFd w)
    let a ← fld x 1 false accP (fFa w)
    let b ← fld x 2 false accP (fFb w)
    zeroF 3 (fXc w)
    return .plop c (m.extractLsb' 0 4) d a b
  | _ =>
    let ty ← intTy (modF m 4 3)
    need (!li && !ty.packed && decide (modF m 0 4 = 0))
    let d ← fld x 0 false (accIntD ty) (fFd w)
    let a ← fld x 1 false (accIntS ty) (fFa w)
    let b ← fld x 2 false (accIntS ty) (fFb w)
    let e ← fld x 3 false accP (fXc w)
    return .sel c ty d a b e

/-- Class 0x4 (R307, R345 to R347, R352, R354, R364). -/
def decodeCross (x : DecodeCtx) (op : Nat) (w : IWord) : Dec Instr := do
  let c := fCtl w
  let m := fMod w
  need (!w.getLsbD 22)
  let r ← rndOf (modF m 5 3)
  let ty := xTy (modF m 3 2)
  let o := modF m 0 3
  match op with
  | 0 =>
    need (decide (ty = .b32) && decide (r = .rne) && decide (o < 4))
    let mode : ShflMode := match o with | 0 => .idx | 1 => .up | 2 => .down | _ => .xor
    let d ← fld x 0 false (accD accShfl) (fFd w)
    let a ← fld x 1 false (fun a => accShfl a && samePart d a) (fFa w)
    let b ← fld x 2 false accVal (fFb w)
    return .shfl c mode d a b (← xextOf false w)
  | 1 =>
    need (decide (ty = .b32) && decide (r = .rne) && decide (o < 3))
    let vo : VoteOp := match o with | 0 => .any | 1 => .all | _ => .ballot
    let d ← fld x 0 false (accD fun d => if vo = .ballot then accReg [.full, .pair] d else accP d) (fFd w)
    let a ← fld x 1 false accP (fFa w)
    zeroF 2 (fFb w)
    return .vote c vo d a (← xextOf false w)
  | 2 =>
    let ro ← redOf o
    need (redPair ro ty r)
    let d ← fld x 0 false (accD accU0) (fFd w)
    let a ← fld x 1 false (accV [.full]) (fFa w)
    zeroF 2 (fFb w)
    return .rdux c ro ty r d a (← xextOf false w)
  | 3 =>
    let ro ← redOf o
    need (redPair ro ty r)
    let d ← fld x 0 false (accD (accV [.full])) (fFd w)
    let a ← fld x 1 false (accV [.full]) (fFa w)
    zeroF 2 (fFb w)
    return .scan c ro ty r (w.getLsbD 5) d a (← xextOf true w)
  | 4 =>
    need (decide (ty = .f32) && decide (r = .rne) && decide (o = 0))
    let d ← fld x 0 false (accD (accReg [.full])) (fFd w)
    let a ← fld x 1 false (accV [.full]) (fFa w)
    let b ← fld x 2 false accVal (fFb w)
    return .csamp c d a b (← xextOf false w)
  | _ =>
    need (decide (ty = .b32) && decide (r = .rne) && decide (o < 4))
    let d ← fld x 0 false (accD (accReg [.full])) (fFd w)
    let a ← fld x 1 false (accReg [.pair]) (fFa w)
    let b ← fld x 2 false (fun o => accReg [.pair] o || accImm o) (fFb w)
    let e ← fld x 3 false (fun o => accReg [.pair] o || accImm o) (fXc w)
    return .rand c (m.extractLsb' 0 2) d a b e

/-- The await list of a trailer: entry i at bits [16 + 9i : 8 + 9i] (Table 3.11). -/
def trlrEntry (w : IWord) (i : Nat) : AwaitReg := ⟨w.getLsbD (16 + 9 * i), bitsOf w (8 + 9 * i) 8⟩

/-- The first `n` entries of a trailer's await list. -/
def trlrEntries (w : IWord) (n : Nat) : List AwaitReg := (List.range n).map (trlrEntry w)

/-- An entry names a register of this code (R52, R88). -/
def awaitOk (x : DecodeCtx) (e : AwaitReg) : Bool :=
  if e.uniform then decide (e.i.toNat < if x.kind = .front then 128 else 64)
  else decide (x.kind ≠ .front) && decide (x.lo ≤ e.i.toNat) && decide (e.i.toNat < x.c)

/-- Whether a word is a TRLR by its opcode. -/
def isTrlr (w : IWord) : Bool := decide (fOpcode w = 0x5 * 64 + 0x3F)

/-- LENGTH of a trailer word. -/
def trlrLen (w : IWord) : Nat := (bitsOf w 0 8).toNat

/-- The checks of R52 on a trailer word. -/
def trlrOk (x : DecodeCtx) (w : IWord) : Bool :=
  let n := (bitsOf w 71 3).toNat
  decide (fGp w = 63#6) && !fGn w && decide (bitsOf w 74 5 = 0#5) &&
  decide (((bitsOf w 8 63) >>> (9 * n)) = 0#63) && (trlrEntries w n).all (awaitOk x)

/-- Class 0x5 (R52, R301 to R304, R316, R338, R350, R366). -/
def decodeControl (x : DecodeCtx) (op : Nat) (w : IWord) : Dec Instr := do
  let c := fCtl w
  let li := w.getLsbD 78
  let m := fMod w
  if op = 0x3F then
    if trlrOk x w then return .trlr (trlrEntries w (bitsOf w 71 3).toNat) (bitsOf w 0 8) else .error (.illegal 15)
  else
  need (match op with | 2 => kSheet x.kind | 5 => kNoHandler x.kind | _ => true)
  need (!w.getLsbD 22)
  let plain (k : Ctl → Instr) : Dec Instr := do
    need (decide (m = 0#8))
    zeroF 0 (fFd w); zeroF 1 (fFa w); zeroF 2 (fFb w); zeroF 3 (fXc w)
    return k c
  let indirect (k : Ctl → Opd → Instr) : Dec Instr := do
    need (decide (m = 0#8))
    zeroF 0 (fFd w)
    let a ← fld x 1 false (accReg [.full]) (fFa w)
    zeroF 2 (fFb w); zeroF 3 (fXc w)
    return k c a
  match op with
  | 0 =>
    need (decide (modF m 0 7 = 0)); needLi li w
    zeroF 0 (fFd w); zeroF 1 (fFa w)
    let b ← fldB x li accDisp w
    zeroX li w
    return .bra c b
  | 1 => indirect .brx
  | 2 =>
    need (decide (modF m 3 4 = 0)); needLi li w
    let n : BitVec 3 := m.extractLsb' 0 3
    zeroF 0 (fFd w)
    let a ← fld x 1 false (fun a => accV [.full] a && (match a with
      | .v _ _ i => decide (i.toNat + n.toNat < x.c) | _ => false)) (fFa w)
    let b ← fldB x li accDisp w
    zeroX li w
    return .brd c n a b
  | 3 =>
    need (decide (modF m 0 7 = 0)); needLi li w
    let d ← fld x 0 false (accD (if x.kind = .front then accU [.full] else accV [.full])) (fFd w)
    zeroF 1 (fFa w)
    let b ← fldB x li accDisp w
    zeroX li w
    return .call c d b
  | 4 => indirect .ret
  | 5 => plain .exit
  | 6 => plain .yield
  | _ => plain .nop

/-- Class 0x6 (R328, R334, R365). -/
def decodeMask (x : DecodeCtx) (op : Nat) (w : IWord) : Dec Instr := do
  let c := fCtl w
  need (kSheet x.kind)
  need (!w.getLsbD 22 && decide (fMod w = 0#8))
  let named (k : Ctl → BitVec 4 → Instr) : Dec Instr := do
    let d ← fld x 0 false (accM [.full]) (fFd w)
    zeroF 1 (fFa w); zeroF 2 (fFb w); zeroF 3 (fXc w)
    match d with
    | .m _ i => return k c i
    | _ => .error (.illegal 0)
  match op with
  | 0 => named .join
  | 1 => named .leave
  | 2 => named .waitm
  | _ =>
    let d ← fld x 0 false accMmovD (fFd w)
    let a ← fld x 1 false (accMmovA d) (fFa w)
    zeroF 2 (fFb w); zeroF 3 (fXc w)
    return .mmov c d a

/-- Class 0x7 (R144 to R146, Table 11.1). -/
def decodeLocal (x : DecodeCtx) (op : Nat) (w : IWord) : Dec Instr := do
  let c := fCtl w
  let li := w.getLsbD 78
  let m := fMod w
  need (match op with | 0 | 1 | 2 => true | _ => kTag x.kind)
  need (!w.getLsbD 22)
  let q := m.getLsbD 3
  let lds (k : Size → Opd → Opd → Opd → Opd → Instr) (acc : Size → Opd → Bool) (store : Bool) : Dec Instr := do
    let sz ← sizeOf (modF m 4 3)
    need (decide (modF m 0 3 = 0) && !(q && li) && (!store || storeSize sz)); needLi li w
    let d ← fld x 0 sz.quad (acc sz) (fFd w)
    let a ← fld x 1 false accBase (fFa w)
    let b ← fldB x li accOff w
    if q then
      let e ← fld x 3 false accRank (fXc w)
      return k sz d a b e
    else
      zeroX li w
      return k sz d a b .none
  match op with
  | 0 => lds (.ldl c q) accLdD false
  | 1 => lds (.stl c q) accStlD true
  | 2 =>
    need (decide (m = 0#8))
    zeroF 0 (fFd w); zeroF 1 (fFa w); zeroF 2 (fFb w); zeroF 3 (fXc w)
    return .lwait c
  | 4 =>
    need (decide (modF m 0 7 = 0)); needLi li w
    let d ← fld x 0 false (accD (accReg [.full])) (fFd w)
    let a ← fld x 1 false accBase (fFa w)
    let b ← fldB x li accOff w
    zeroX li w
    return .tagl c d a b
  | 5 =>
    need (decide (modF m 3 5 = 0))
    zeroF 0 (fFd w)
    let a ← fld x 1 false accBase (fFa w)
    let b ← fld x 2 false accOff (fFb w)
    let e ← fld x 3 false accVal (fXc w)
    return .tags c (m.extractLsb' 0 3) a b e
  | _ =>
    need (decide (modF m 3 4 = 0) && decide (modF m 0 3 ≤ 1))
    if modF m 0 3 = 1 then
      need (!li)
      zeroF 0 (fFd w); zeroF 1 (fFa w); zeroF 2 (fFb w); zeroF 3 (fXc w)
      return .tagi c true .none .none
    else
      needLi li w
      zeroF 0 (fFd w)
      let a ← fld x 1 false accBase (fFa w)
      let b ← fldB x li accOff w
      zeroX li w
      return .tagi c false a b

/-- Class 0x8 (R192, R312, R329, R343, R360). -/
def decodeDevice (x : DecodeCtx) (op : Nat) (w : IWord) : Dec Instr := do
  let c := fCtl w
  let li := w.getLsbD 78
  let m := fMod w
  need (!w.getLsbD 22)
  let sizeN := modF m 4 3
  let scope := modF m 1 3
  let ord := modF m 0 1
  let addr : Dec (Opd × Opd) := do
    let a ← fld x 1 false accBase (fFa w)
    let b ← fldB x li accOff w
    zeroX li w
    return (a, b)
  match op with
  | 0 =>
    let sz ← sizeOf sizeN
    let acc ← accessOf scope ord
    needLi li w
    let d ← fld x 0 sz.quad (accLdD sz) (fFd w)
    let (a, b) ← addr
    return .ld c acc sz d a b
  | 1 =>
    let sz ← sizeOf sizeN
    let acc ← accessOf scope ord
    need (storeSize sz); needLi li w
    let d ← fld x 0 sz.quad (accStD sz) (fFd w)
    let (a, b) ← addr
    return .st c acc sz d a b
  | 2 =>
    need (decide (sizeN = 0) && decide (scope = 0)); needLi li w
    zeroF 0 (fFd w)
    let (a, b) ← addr
    return .pref c (decide (ord = 1)) a b
  | 3 =>
    let bw ← bwOf scope
    need (decide (sizeN = 0) && decide (ord = 0)); needLi li w
    zeroF 0 (fFd w)
    let (a, b) ← addr
    return .cwb c bw a b
  | 8 =>
    let bw ← bwOf scope
    need (decide (sizeN = 0)); needLi li w
    let d ← fld x 0 false (accD (accReg [.full])) (fFd w)
    let (a, b) ← addr
    return .promote c (decide (ord = 1)) bw d a b
  | 9 =>
    let bw ← bwOf scope
    need (decide (sizeN = 0) && decide (ord = 0)); needLi li w
    let d ← fld x 0 false (accD (accReg [.full])) (fFd w)
    let (a, b) ← addr
    return .demote c bw d a b
  | 10 =>
    let bw ← bwOf scope
    need (decide (sizeN = 0) && decide (ord = 0)); needLi li w
    let d ← fld x 0 false (accD (accReg [.pair])) (fFd w)
    let (a, b) ← addr
    return .madr c bw d a b
  | _ =>
    let bw ← bwOf scope
    need (decide (sizeN = 0) && decide (ord = 0)); needLi li w
    zeroF 0 (fFd w)
    let (a, b) ← addr
    return .dead c bw a b

/-- Class 0x9 (R49, R152, R171, R294, R336, R349). With an invalid type code in XC, the PARTs of FD and FB are judged as those
of a 32-bit operation before XC's SLOT 3 (log 41). -/
def decodeAtomic (x : DecodeCtx) (op : Nat) (w : IWord) : Dec Instr := do
  let c := fCtl w
  let m := fMod w
  need (!w.getLsbD 22)
  let aopN := modF m 5 3
  let aop := aopOf aopN
  let ord := ordOf (modF m 3 2)
  let sc ← scopeOf (modF m 0 3)
  let ty (ok : Elem → Bool) : Dec Elem :=
    match elemOf (bitsOf w 0 4).toNat with
    | some e => if bitsOf w 4 12 = 0#12 && ok e then .ok e else .error (.illegal 3)
    | none => .error (.illegal 3)
  let atomic (k : Opd → Opd → Opd → AtomX → Instr) (accDst : Bool → Opd → Bool) (bases : List Part) : Dec Instr := do
    if aop = .cas then
      let wide := casWideField (fFb w)
      let d ← fld x 0 false (accDst wide) (fFd w)
      let a ← fld x 1 false (accReg bases) (fFa w)
      let b ← fld x 2 false (accAtV wide) (fFb w)
      let e ← fld x 3 false (accAtV wide) (fXc w)
      return k d a b (.new e)
    else
      let wide := match elemOf (bitsOf w 0 4).toNat with | some e => atomWide e | none => false
      let d ← fld x 0 false (accDst wide) (fFd w)
      let a ← fld x 1 false (accReg bases) (fFa w)
      let b ← fld x 2 false (accAtV wide) (fFb w)
      let e ← ty (atomTy aop)
      return k d a b (.ty e)
  let bar (k : Opd → Opd → Opd → Instr) (o : Ord) : Dec Instr := do
    need (decide (aopN = 0) && decide (ord = o) && decide (sc = .wg ∨ sc = .core))
    let d ← fld x 0 false (accD accVal) (fFd w)
    let a ← fld x 1 false accBase (fFa w)
    let b ← fld x 2 false accOff (fFb w)
    return k d a b
  match op with
  | 0 => atomic (.atom c aop ord sc) accAtD [.full, .pair]
  | 1 => atomic (.atoml c aop ord sc) (fun _ => accAtOff) [.full]
  | 2 =>
    need (decide (aop ≠ .cas))
    let wide := match elemOf (bitsOf w 0 4).toNat with | some e => atomWide e | none => false
    let d ← fld x 0 false accAtOff (fFd w)
    let a ← fld x 1 false (accReg [.full, .pair]) (fFa w)
    let b ← fld x 2 false (accAtV wide) (fFb w)
    let e ← ty (atomTy aop)
    return .red c aop ord sc e d a b
  | 4 =>
    need (decide (aopN = 0) && decide (ord ≠ .rlx))
    zeroF 0 (fFd w); zeroF 1 (fFa w); zeroF 2 (fFb w); zeroF 3 (fXc w)
    return .fence c ord sc
  | 8 =>
    let i ← bar (.bari c sc (w.getLsbD 1)) .rlx
    needX (decide ((fXc w) &&& 0xFFFD#16 = 0#16))
    return i
  | 9 =>
    let i ← bar (.bara c sc) .rel
    zeroF 3 (fXc w)
    return i
  | 10 =>
    let i ← bar (.barw c sc) .acq
    zeroF 3 (fXc w)
    return i
  | _ =>
    need (decide (aopN = 0) && decide (ord = .rlx ∨ ord = .acq) && decide (sc = .die ∨ sc = .dev ∨ sc = .sys))
    let d ← fld x 0 false (accD (accReg [.full, .pair])) (fFd w)
    let a ← fld x 1 false (accReg [.full, .pair]) (fFa w)
    let b ← fld x 2 false (accAtV (casWide d)) (fFb w)
    zeroF 3 (fXc w)
    return .mwait c (decide (ord = .acq)) sc d a b

/-- Class 0xA (Table 9.6). -/
def decodeMatrix (x : DecodeCtx) (op : Nat) (w : IWord) : Dec Instr := do
  let c := fCtl w
  let m := fMod w
  need (match op with | 0 => kPlainSheet x.kind | 2 => kNoHandler x.kind | _ => kFront x.kind)
  need (!w.getLsbD 22)
  match op with
  | 0 =>
    need (decide (m = 0#8))
    zeroF 0 (fFd w)
    let a ← fld x 1 false accMrdy (fFa w)
    zeroF 2 (fFb w); zeroF 3 (fXc w)
    return .mrdy c a
  | 1 =>
    let d ← fld x 0 false (accD accU0) (fFd w)
    let a ← fld x 1 false accDesc (fFa w)
    let b ← fld x 2 false accFw (fFb w)
    let e ← fld x 3 false accUI (fXc w)
    return .mloop c m d a b e
  | 2 =>
    need (decide (m = 0#8))
    zeroF 0 (fFd w)
    let a ← fld x 1 false accUI (fFa w)
    zeroF 2 (fFb w); zeroF 3 (fXc w)
    return .msync c a
  | 3 =>
    need (decide (m = 0#8))
    let d ← fld x 0 false (accD accU0) (fFd w)
    let a ← fld x 1 false accUI (fFa w)
    let b ← fld x 2 false accUI (fFb w)
    zeroF 3 (fXc w)
    return .aclr c d a b
  | _ =>
    let dt ← outOf (modF m 4 3)
    let r ← rndOf (modF m 0 3)
    let d ← fld x 0 false (accD accU0) (fFd w)
    let a ← fld x 1 false accDesc (fFa w)
    zeroF 2 (fFb w); zeroF 3 (fXc w)
    return .aout c (m.getLsbD 7) dt (m.getLsbD 3) r d a

/-- Class 0xB (R148, R149, R306). -/
def decodeEngine (x : DecodeCtx) (op : Nat) (w : IWord) : Dec Instr := do
  let c := fCtl w
  let m := fMod w
  need (if op = 0 then kCopy x.kind else true)
  need (!w.getLsbD 22)
  match op with
  | 0 =>
    let kind ← copyKindOf (modF m 1 3)
    let d ← fld x 0 false (copyD kind) (fFd w)
    let a ← fld x 1 false (copyS kind) (fFa w)
    let b ← fld x 2 false accUI (fFb w)
    let conv := m.getLsbD 0
    needX (decide (bitsOf w 12 4 = 0#4))
    needX (!conv || decide (kind = .ds ∨ kind = .sd))
    needX (decide (kind = .qs ∨ kind = .sq) || decide (bitsOf w 10 2 = 0#2))
    match panelOf (bitsOf w 8 2).toNat with
    | none => .error (.illegal 3)
    | some f =>
      needX (decide (kind = .sm) || decide (f = .b8))
      if conv then
        match elemOf (bitsOf w 4 4).toNat, elemOf (bitsOf w 0 4).toNat with
        | some dt, some st =>
          needX (cvtPair dt st)
          return .copy c (m.extractLsb' 4 4) kind (some (dt, st)) (bitsOf w 10 2) f d a b
        | _, _ => .error (.illegal 3)
      else
        needX (decide (bitsOf w 0 8 = 0#8))
        return .copy c (m.extractLsb' 4 4) kind none (bitsOf w 10 2) f d a b
  | _ =>
    need (decide (modF m 0 3 = 0))
    let q := m.getLsbD 3
    let d ← fld x 0 false (accD (accReg [.pair])) (fFd w)
    zeroF 1 (fFa w); zeroF 2 (fFb w)
    needX (decide ((if q then bitsOf w 2 14 else 0#14) = 0#14) && (q || decide (fXc w = 0#16)))
    return .rdwp c (m.extractLsb' 4 4) q (bitsOf w 0 2) d

/-- Class 0xC (Table 6.2, R314, R315, R356). The guard that GENB and GEND.c may not have is a trap of their entries, after the fields (R57,
R87, R94, R292). -/
def decodeSpawn (x : DecodeCtx) (op : Nat) (w : IWord) : Dec Instr := do
  let c := fCtl w
  let li := w.getLsbD 78
  let m := fMod w
  need (match op with | 0 => kSpawn x.kind | 0x0C => kFront x.kind | _ => kPlainSheet x.kind)
  need (!w.getLsbD 22)
  match op with
  | 0 =>
    need (decide (modF m 3 4 = 0)); needLi li w
    let n : BitVec 3 := m.extractLsb' 0 3
    let d ← fld x 0 false accP (fFd w)
    let a ← fld x 1 false (fun a => accV [.full] a && (match a with
      | .v _ _ i => decide (i.toNat + n.toNat < x.c) | _ => false)) (fFa w)
    let b ← fldB x li accDisp w
    zeroX li w
    return .spawn c n d a b
  | 4 =>
    need (decide (modF m 0 5 = 0) && decide (modF m 5 3 ≠ 0))
    let k ← fld x 0 false (fun o => match o with
      | .imm v => decide (v.extractLsb' 8 6 = 0#6) | _ => false) (fFd w)
    let a ← fld x 1 false accUI (fFa w)
    let p ← fld x 2 false accDisp (fFb w)
    let q ← fld x 3 false accDisp (fXc w)
    need (unguarded c)
    match k with
    | .imm v => return .genb c (m.extractLsb' 5 3) (v.extractLsb' 0 8) a p q
    | _ => .error (.illegal 0)
  | 5 =>
    need (decide (m = 0#8))
    zeroF 0 (fFd w)
    let a ← fld x 1 false accVal (fFa w)
    let b ← fld x 2 false accVal (fFb w)
    zeroF 3 (fXc w)
    return .gyld c a b
  | 6 =>
    need (decide (m = 0#8))
    let d ← fld x 0 false (accD (accV [.full, .pair])) (fFd w)
    zeroF 1 (fFa w); zeroF 2 (fFb w); zeroF 3 (fXc w)
    return .gtake c d
  | 7 =>
    need (decide (modF m 1 7 = 0))
    zeroF 0 (fFd w); zeroF 1 (fFa w); zeroF 2 (fFb w); zeroF 3 (fXc w)
    need (!m.getLsbD 0 || unguarded c)
    return .gend c (m.getLsbD 0)
  | 0x0C =>
    need (decide (m = 0#8))
    zeroF 0 (fFd w)
    let a ← fld x 1 false (fun o => accU [.full, .pair] o || accImm o) (fFa w)
    zeroF 2 (fFb w); zeroF 3 (fXc w)
    return .dqpush c a
  | _ =>
    need (decide (m = 0#8))
    let d ← fld x 0 false (accD (accReg [.full, .pair])) (fFd w)
    zeroF 1 (fFa w); zeroF 2 (fFb w); zeroF 3 (fXc w)
    return .dqpop c d

/-- Class 0xD (Table 18.4). -/
def decodeWork (x : DecodeCtx) (op : Nat) (w : IWord) : Dec Instr := do
  let c := fCtl w
  let li := w.getLsbD 78
  let m := fMod w
  need (match op with | 2 => kNoHandler x.kind | _ => kFront x.kind)
  need (!w.getLsbD 22)
  match op with
  | 0 =>
    need (decide (modF m 0 7 = 0)); needLi li w
    let d ← fld x 0 false (accD accU0) (fFd w)
    let a ← fld x 1 false (accReg [.full]) (fFa w)
    let b ← fldB x li accOff w
    zeroX li w
    return .launch c d a b
  | 1 =>
    need (decide (modF m 3 5 = 0))
    let lv ← levelOf (modF m 0 3)
    zeroF 0 (fFd w)
    let a ← fld x 1 false accUI (fFa w)
    zeroF 2 (fFb w); zeroF 3 (fXc w)
    return .cancel c lv a
  | _ =>
    need (decide (modF m 3 5 = 0))
    let lv ← levelOf (modF m 0 3)
    let d ← fld x 0 false (accD (accReg [.full])) (fFd w)
    let a ← fld x 1 false accVal (fFa w)
    zeroF 2 (fFb w); zeroF 3 (fXc w)
    return .cntw c lv d a

/-- Class 0xE (Table 16.3, R359, R362, R363). -/
def decodeSystem (x : DecodeCtx) (op : Nat) (w : IWord) : Dec Instr := do
  let c := fCtl w
  let m := fMod w
  need (match op with | 4 => kHandler x.kind | 0x0C => kHandler x.kind | _ => true)
  need (!w.getLsbD 22)
  let noMod : Dec Unit := need (decide (m = 0#8))
  match op with
  | 0 =>
    noMod
    zeroF 0 (fFd w)
    let a ← fld x 1 false (accReg [.pair]) (fFa w)
    let b ← fld x 2 false (accReg [.pair]) (fFb w)
    let e ← fld x 3 false accVal (fXc w)
    return .tlbw c a b e
  | 1 =>
    need (decide (modF m 4 4 = 0))
    let sc ← scopeOf (modF m 0 3)
    need (decide (sc ∈ [Scope.core, .quire, .die, .dev]))
    zeroF 0 (fFd w)
    if m.getLsbD 3 then
      zeroF 1 (fFa w); zeroF 2 (fFb w); zeroF 3 (fXc w)
      return .tlbi c true sc .none
    else
      let a ← fld x 1 false (accReg [.pair]) (fFa w)
      zeroF 2 (fFb w); zeroF 3 (fXc w)
      return .tlbi c false sc a
  | 2 =>
    noMod
    let d ← fld x 0 false (accD (accReg [.pair])) (fFd w)
    let a ← fld x 1 false (accReg [.pair]) (fFa w)
    zeroF 2 (fFb w); zeroF 3 (fXc w)
    return .tlbq c d a
  | 4 =>
    need (decide (modF m 2 6 = 0))
    let mode ← rfhOf (modF m 0 2)
    zeroF 0 (fFd w); zeroF 1 (fFa w); zeroF 2 (fFb w); zeroF 3 (fXc w)
    need (unguarded c)
    return .rfh c mode
  | 5 =>
    noMod
    zeroF 0 (fFd w)
    let a ← fld x 1 false accVal (fFa w)
    zeroF 2 (fFb w); zeroF 3 (fXc w)
    return .trap c a
  | 8 =>
    noMod
    let part := match parseOpd (fFa w) with | some o => o | none => .none
    let d ← fld x 0 false (accSrdD part) (fFd w)
    let a ← fld x 1 false (accSr [.full, .pair]) (fFa w)
    zeroF 2 (fFb w); zeroF 3 (fXc w)
    return .srd c d a
  | 9 =>
    noMod
    let d ← fld x 0 false (accSr [.full]) (fFd w)
    let a ← fld x 1 false accVal (fFa w)
    zeroF 2 (fFb w); zeroF 3 (fXc w)
    return .swr c d a
  | _ =>
    noMod
    zeroF 0 (fFd w)
    let a ← fld x 1 false (fun o => accReg [.full, .pair] o || accImm o) (fFa w)
    zeroF 2 (fFb w); zeroF 3 (fXc w)
    return .mend c a

/-- Class 0xF (R57 step 2, R154). -/
def decodeExt (x : DecodeCtx) (op : Nat) (w : IWord) : Dec Instr := do
  let c := fCtl w
  let m := fMod w
  if op ≠ 0 ∨ x.tx = false then .error .extemu
  else
  need (kFront x.kind)
  need (!w.getLsbD 22 && !m.getLsbD 3)
  let r ← rndOf (modF m 0 3)
  let top ← xopOf (modF m 4 4)
  let d ← fld x 0 false (accD accUI) (fFd w)
  let a ← fld x 1 false accUI (fFa w)
  let b ← fld x 2 false accUI (fFb w)
  if top = .gather then
    let e ← fld x 3 false accUI (fXc w)
    return .xform c top r d a b e
  else
    zeroF 3 (fXc w)
    return .xform c top r d a b .none

/-- The OPs each class assigns (Table 3.13). -/
def assigned (cls op : Nat) : Bool :=
  match cls with
  | 0x0 => decide (op ∈ [0, 1, 2, 3, 4, 5, 8, 9, 10, 12, 13, 0x10, 0x11, 0x12, 0x13, 0x14, 0x20])
  | 0x1 => decide (op ∈ [0, 1, 2, 4, 5, 8, 9, 10, 11, 12, 13, 0x10])
  | 0x2 => decide (op < 4)
  | 0x3 => decide (op < 4)
  | 0x4 => decide (op < 6)
  | 0x5 => decide (op < 8) || decide (op = 0x3F)
  | 0x6 => decide (op < 4)
  | 0x7 => decide (op ∈ [0, 1, 2, 4, 5, 6])
  | 0x8 => decide (op ∈ [0, 1, 2, 3, 8, 9, 10, 11])
  | 0x9 => decide (op ∈ [0, 1, 2, 4, 8, 9, 10, 12])
  | 0xA => decide (op < 5)
  | 0xB => decide (op ∈ [0, 2])
  | 0xC => decide (op ∈ [0, 4, 5, 6, 7, 12, 13])
  | 0xD => decide (op < 3)
  | 0xE => decide (op ∈ [0, 1, 2, 4, 5, 8, 9, 12])
  | _ => true

/-- The decoder: checks 2 to 6 of R57 on a word. -/
def decode (x : DecodeCtx) (w : IWord) : Dec Instr :=
  let cls := fOpcode w / 64
  let op := fOpcode w % 64
  if assigned cls op then
    match cls with
    | 0x0 => decodeInt x op w
    | 0x1 => decodeFloat x op w
    | 0x2 => if op = 1 ∧ kSheet x.kind = false then .error (.illegal 15) else decodeConvert x op w
    | 0x3 => decodeCompare x op w
    | 0x4 => if op ≠ 5 ∧ kSheet x.kind = false then .error (.illegal 15) else decodeCross x op w
    | 0x5 => decodeControl x op w
    | 0x6 => decodeMask x op w
    | 0x7 => decodeLocal x op w
    | 0x8 => decodeDevice x op w
    | 0x9 => decodeAtomic x op w
    | 0xA => decodeMatrix x op w
    | 0xB => decodeEngine x op w
    | 0xC => decodeSpawn x op w
    | 0xD => decodeWork x op w
    | 0xE => decodeSystem x op w
    | _ => decodeExt x op w
  else .error (.illegal 15)

/-! ### The encoder -/

/-- A word from its fields (Table 3.1); `m` is MOD with LI in its top bit where the class has LI. -/
def asm (cls : BitVec 4) (op : BitVec 6) (c : Ctl) (m : BitVec 8) (fd fa fb xc : BitVec 16) : IWord :=
  cls ++ op ++ c.gp ++ BitVec.ofBool c.gn ++ m ++ fd ++ fa ++ fb ++
    (0#1 ++ BitVec.ofBool c.reuse ++ BitVec.ofBool c.yld ++ c.stall) ++ xc

/-- Whether an operand takes the LI form (R44). -/
def isLimm : Opd → Bool
  | .limm _ => true
  | _ => false

/-- XC of a word whose FB may be the LI form: the upper 16 bits of its immediate. -/
def limmXc : Opd → BitVec 16
  | .limm x => x.extractLsb' 14 16
  | _ => 0#16

/-- A word of a class with LI: `m` is MOD below LI, FB may be the LI form and XC is otherwise zero. -/
def asmLi (cls : BitVec 4) (op : BitVec 6) (c : Ctl) (m : BitVec 7) (d a b : Opd) : IWord :=
  asm cls op c (BitVec.ofBool (isLimm b) ++ m) (encOpd d) (encOpd a) (encOpd b) (limmXc b)

/-- A word of a class without the LI form: four operand fields. -/
def asm4 (cls : BitVec 4) (op : BitVec 6) (c : Ctl) (m : BitVec 8) (d a b x : Opd) : IWord :=
  asm cls op c m (encOpd d) (encOpd a) (encOpd b) (encOpd x)

/-- The code of OPX of IMUL and IMAD. -/
def mulHalfCode : MulHalf → BitVec 3
  | .lo => 0#3 | .hi => 1#3 | .wide => 2#3

/-- MOD below LI of class 0x0: TYPE, SAT, OPX. -/
def intMod (ty : IntTy) (sat : Bool) (opx : BitVec 3) : BitVec 7 := intTyCode ty ++ BitVec.ofBool sat ++ opx

/-- MOD below LI of class 0x1: TYPE, FTZ, OPX, RND. -/
def fltMod (ty : FltTy) (ftz opx : Bool) (r : Rnd) : BitVec 7 :=
  fltTyCode ty ++ BitVec.ofBool ftz ++ BitVec.ofBool opx ++ rndCode r

/-- The type word of class 0x2 (R50). -/
def typeWordCode (dt st : Elem) : BitVec 16 := 0#8 ++ elemCode dt ++ elemCode st

/-- MOD of class 0x2: SAT, OPX, RND. -/
def cvtMod (sat : Bool) (opx : BitVec 3) (r : Rnd) : BitVec 8 := 0#1 ++ BitVec.ofBool sat ++ opx ++ rndCode r

/-- The code of a mode of SHFL. -/
def shflCode : ShflMode → BitVec 3
  | .idx => 0#3 | .up => 1#3 | .down => 2#3 | .xor => 3#3

/-- The code of OP of VOTE. -/
def voteCode : VoteOp → BitVec 3
  | .any => 0#3 | .all => 1#3 | .ballot => 2#3

/-- The extension word of the member-mask mould (Table 21.4). -/
def xextCode (excl : Bool) (x : XExt) : BitVec 16 :=
  x.pdst ++ 0#4 ++ BitVec.ofBool excl ++ BitVec.ofBool x.all ++ x.mask

/-- SCOPE of an access through the ballast window (R192). -/
def bwCode (bw : Bool) : BitVec 3 := if bw then 7#3 else 0#3

/-- XC of an atomic: the type code, or the new value of cas. -/
def atomXCode : AtomX → BitVec 16
  | .ty e => 0#12 ++ elemCode e
  | .new o => encOpd o

/-- XC of COPY (Table 11.3). -/
def copyXc (conv : Option (Elem × Elem)) (rank : BitVec 2) (f : Panel) : BitVec 16 :=
  0#4 ++ rank ++ panelCode f ++ (match conv with | some (dt, st) => elemCode dt ++ elemCode st | none => 0#8)

/-- One entry of a trailer's await list. -/
def awaitCode (e : AwaitReg) : BitVec 9 := BitVec.ofBool e.uniform ++ e.i

/-- The await list of a trailer, entry 0 lowest (Table 3.11). -/
def awaitsCode : List AwaitReg → BitVec 63
  | [] => 0#63
  | e :: rest => (awaitsCode rest <<< 9) ||| (awaitCode e).setWidth 63

/-- The word of an instruction, from the encoding tables; zero for an event, which has no word. -/
def encode : Instr → IWord
  | .iadd c ty s d a b => asmLi 0 0x00 c (intMod ty s 0) d a b
  | .isub c ty s d a b => asmLi 0 0x01 c (intMod ty s 0) d a b
  | .imul c ty s h d a b => asmLi 0 0x02 c (intMod ty s (mulHalfCode h)) d a b
  | .imad c ty s h d a b x => asm4 0 0x03 c (0#1 ++ intMod ty s (mulHalfCode h)) d a b x
  | .imin c ty d a b => asmLi 0 0x04 c (intMod ty false 0) d a b
  | .imax c ty d a b => asmLi 0 0x05 c (intMod ty false 0) d a b
  | .land c ty d a b => asmLi 0 0x08 c (intMod ty false 0) d a b
  | .lor c ty d a b => asmLi 0 0x09 c (intMod ty false 0) d a b
  | .lxor c ty d a b => asmLi 0 0x0A c (intMod ty false 0) d a b
  | .shl c ty d a b => asmLi 0 0x0C c (intMod ty false 0) d a b
  | .shr c ty d a b => asmLi 0 0x0D c (intMod ty false 0) d a b
  | .bfx c ty d a b x => asm4 0 0x10 c (0#1 ++ intMod ty false 0) d a b x
  | .bfi c d a b x => asm4 0 0x11 c (0#1 ++ intMod .b32 false 0) d a b x
  | .popc c ty d a => asmLi 0 0x12 c (intMod ty false 0) d a .none
  | .clz c ty d a => asmLi 0 0x13 c (intMod ty false 0) d a .none
  | .lea c ty n d a b => asmLi 0 0x14 c (intMod ty false n) d a b
  | .mov c ty d b =>
    match b with
    | .raw x => asm 0 0x20 c (0#1 ++ intMod ty false 1) (encOpd d) (x.extractLsb' 16 16) (x.extractLsb' 0 16) 0
    | b => asmLi 0 0x20 c (intMod ty false 0) d .none b
  | .fadd c ty z r d a b => asmLi 1 0x00 c (fltMod ty z false r) d a b
  | .fmul c ty z r d a b => asmLi 1 0x01 c (fltMod ty z false r) d a b
  | .ffma c ty z r d a b x => asm4 1 0x02 c (0#1 ++ fltMod ty z false r) d a b x
  | .fmin c ty z r d a b => asmLi 1 0x04 c (fltMod ty z false r) d a b
  | .fmax c ty z r d a b => asmLi 1 0x05 c (fltMod ty z false r) d a b
  | .frcp c ty z r d a => asmLi 1 0x08 c (fltMod ty z false r) d a .none
  | .frsq c z d a => asmLi 1 0x09 c (fltMod .f32 z false .dyn) d a .none
  | .fsqrt c ty z r d a => asmLi 1 0x0A c (fltMod ty z false r) d a .none
  | .fex2 c z d a => asmLi 1 0x0B c (fltMod .f32 z false .dyn) d a .none
  | .flg2 c z d a => asmLi 1 0x0C c (fltMod .f32 z false .dyn) d a .none
  | .fsin c cos z d a => asmLi 1 0x0D c (fltMod .f32 z cos .dyn) d a .none
  | .fdp4 c ty z r d a b x => asm4 1 0x10 c (0#1 ++ fltMod ty z false r) d a b x
  | .cvt c s r dt st d a => asm 2 0 c (cvtMod s 0 r) (encOpd d) (encOpd a) 0 (typeWordCode dt st)
  | .cvtq c s r st d a b => asm 2 1 c (cvtMod s 0 r) (encOpd d) (encOpd a) (encOpd b) (typeWordCode .q4x st)
  | .deq c s r dt d a b => asm 2 2 c (cvtMod s 0 r) (encOpd d) (encOpd a) (encOpd b) (typeWordCode dt .q4x)
  | .pack c un s r dt st d a b =>
    asm 2 3 c (cvtMod s (if un then 1 else 0) r) (encOpd d) (encOpd a) (encOpd b) (typeWordCode dt st)
  | .icmp c ty k d a b => asmLi 3 0 c (intTyCode ty ++ condCode k) d a b
  | .fcmp c ty k d a b => asmLi 3 1 c (fcTyCode ty ++ condCode k) d a b
  | .plop c tt d a b => asm4 3 2 c (0#4 ++ tt) d a b .none
  | .sel c ty d a b x => asm4 3 3 c (0#1 ++ intTyCode ty ++ 0#4) d a b x
  | .shfl c mode d a b x =>
    asm 4 0 c (0#3 ++ 3#2 ++ shflCode mode) (encOpd d) (encOpd a) (encOpd b) (xextCode false x)
  | .vote c op d a x => asm 4 1 c (0#3 ++ 3#2 ++ voteCode op) (encOpd d) (encOpd a) 0 (xextCode false x)
  | .rdux c op ty r d a x => asm 4 2 c (rndCode r ++ xTyCode ty ++ redCode op) (encOpd d) (encOpd a) 0 (xextCode false x)
  | .scan c op ty r e d a x => asm 4 3 c (rndCode r ++ xTyCode ty ++ redCode op) (encOpd d) (encOpd a) 0 (xextCode e x)
  | .csamp c d a b x => asm 4 4 c (0#3 ++ 2#2 ++ 0#3) (encOpd d) (encOpd a) (encOpd b) (xextCode false x)
  | .rand c n d a b x => asm4 4 5 c (0#3 ++ 3#2 ++ 0#1 ++ n) d a b x
  | .bra c t => asmLi 5 0 c 0 .none .none t
  | .brx c a => asmLi 5 1 c 0 .none a .none
  | .brd c n a t => asmLi 5 2 c (0#4 ++ n) .none a t
  | .call c d t => asmLi 5 3 c 0 d .none t
  | .ret c a => asmLi 5 4 c 0 .none a .none
  | .exit c => asmLi 5 5 c 0 .none .none .none
  | .yield c => asmLi 5 6 c 0 .none .none .none
  | .nop c => asmLi 5 7 c 0 .none .none .none
  | .trlr aw len => 5#4 ++ 0x3F#6 ++ 63#6 ++ 0#1 ++ 0#5 ++ BitVec.ofNat 3 aw.length ++ awaitsCode aw ++ len
  | .join c m => asm4 6 0 c 0 (.m .full m) .none .none .none
  | .leave c m => asm4 6 1 c 0 (.m .full m) .none .none .none
  | .waitm c m => asm4 6 2 c 0 (.m .full m) .none .none .none
  | .mmov c d a => asm4 6 3 c 0 d a .none .none
  | .ldl c q sz d a b x =>
    if q then asm4 7 0 c (0#1 ++ sizeCode sz ++ 8#4) d a b x else asmLi 7 0 c (sizeCode sz ++ 0#4) d a b
  | .stl c q sz d a b x =>
    if q then asm4 7 1 c (0#1 ++ sizeCode sz ++ 8#4) d a b x else asmLi 7 1 c (sizeCode sz ++ 0#4) d a b
  | .lwait c => asm4 7 2 c 0 .none .none .none .none
  | .tagl c d a b => asmLi 7 4 c 0 d a b
  | .tags c way a b x => asm4 7 5 c (0#5 ++ way) .none a b x
  | .tagi c all a b => if all then asm4 7 6 c 1 .none .none .none .none else asmLi 7 6 c 0 .none a b
  | .ld c acc sz d a b => asmLi 8 0 c (sizeCode sz ++ accessCode acc) d a b
  | .st c acc sz d a b => asmLi 8 1 c (sizeCode sz ++ accessCode acc) d a b
  | .pref c dc a b => asmLi 8 2 c (0#6 ++ BitVec.ofBool dc) .none a b
  | .cwb c bw a b => asmLi 8 3 c (0#3 ++ bwCode bw ++ 0#1) .none a b
  | .promote c pin bw d a b => asmLi 8 8 c (0#3 ++ bwCode bw ++ BitVec.ofBool pin) d a b
  | .demote c bw d a b => asmLi 8 9 c (0#3 ++ bwCode bw ++ 0#1) d a b
  | .madr c bw d a b => asmLi 8 0x0A c (0#3 ++ bwCode bw ++ 0#1) d a b
  | .dead c bw a b => asmLi 8 0x0B c (0#3 ++ bwCode bw ++ 0#1) .none a b
  | .atom c op o sc d a b x =>
    asm 9 0 c (aopCode op ++ ordCode o ++ scopeCode sc) (encOpd d) (encOpd a) (encOpd b) (atomXCode x)
  | .atoml c op o sc d a b x =>
    asm 9 1 c (aopCode op ++ ordCode o ++ scopeCode sc) (encOpd d) (encOpd a) (encOpd b) (atomXCode x)
  | .red c op o sc ty d a b =>
    asm 9 2 c (aopCode op ++ ordCode o ++ scopeCode sc) (encOpd d) (encOpd a) (encOpd b) (atomXCode (.ty ty))
  | .fence c o sc => asm4 9 4 c (0#3 ++ ordCode o ++ scopeCode sc) .none .none .none .none
  | .bari c sc auto d a b =>
    asm 9 8 c (0#5 ++ scopeCode sc) (encOpd d) (encOpd a) (encOpd b) (if auto then 2 else 0)
  | .bara c sc d a b => asm4 9 9 c (0#3 ++ ordCode .rel ++ scopeCode sc) d a b .none
  | .barw c sc d a b => asm4 9 0x0A c (0#3 ++ ordCode .acq ++ scopeCode sc) d a b .none
  | .mwait c acq sc d a b => asm4 9 0x0C c (0#3 ++ ordCode (if acq then .acq else .rlx) ++ scopeCode sc) d a b .none
  | .mrdy c a => asm4 0xA 0 c 0 .none a .none .none
  | .mloop c n d a b x => asm4 0xA 1 c n d a b x
  | .msync c a => asm4 0xA 2 c 0 .none a .none .none
  | .aclr c d a b => asm4 0xA 3 c 0 d a b .none
  | .aout c s dt relu r d a =>
    asm4 0xA 4 c (BitVec.ofBool s ++ outCode dt ++ BitVec.ofBool relu ++ rndCode r) d a .none .none
  | .copy c ch k conv rank f d a b =>
    asm 0xB 0 c (ch ++ copyKindCode k ++ BitVec.ofBool conv.isSome) (encOpd d) (encOpd a) (encOpd b) (copyXc conv rank f)
  | .rdwp c ch q rank d => asm 0xB 2 c (ch ++ BitVec.ofBool q ++ 0#3) (encOpd d) 0 0 (0#14 ++ rank)
  | .spawn c n d a t => asmLi 0xC 0 c (0#4 ++ n) d a t
  | .genb c cap k a p q => asm4 0xC 4 c (cap ++ 0#5) (.imm (0#6 ++ k)) a p q
  | .gyld c a b => asm4 0xC 5 c 0 .none a b .none
  | .gtake c d => asm4 0xC 6 c 0 d .none .none .none
  | .gend c cons => asm4 0xC 7 c (0#7 ++ BitVec.ofBool cons) .none .none .none .none
  | .dqpush c a => asm4 0xC 0x0C c 0 .none a .none .none
  | .dqpop c d => asm4 0xC 0x0D c 0 d .none .none .none
  | .launch c d a b => asmLi 0xD 0 c 0 d a b
  | .cancel c lv a => asm4 0xD 1 c (0#5 ++ levelCode lv) .none a .none .none
  | .cntw c lv d a => asm4 0xD 2 c (0#5 ++ levelCode lv) d a .none .none
  | .tlbw c a b x => asm4 0xE 0 c 0 .none a b x
  | .tlbi c all sc a => asm4 0xE 1 c (0#4 ++ BitVec.ofBool all ++ scopeCode sc) .none a .none .none
  | .tlbq c d a => asm4 0xE 2 c 0 d a .none .none
  | .rfh c mode => asm4 0xE 4 c (0#6 ++ rfhCode mode) .none .none .none .none
  | .trap c a => asm4 0xE 5 c 0 .none a .none .none
  | .srd c d a => asm4 0xE 8 c 0 d a .none .none
  | .swr c d a => asm4 0xE 9 c 0 d a .none .none
  | .mend c a => asm4 0xE 0x0C c 0 .none a .none .none
  | .xform c op r d a b x => asm4 0xF 0 c (xopCode op ++ 0#1 ++ rndCode r) d a b x
  | _ => 0#96

/-! ### Well-formed instructions -/

/-- An operand that one 16-bit field can hold (R42, Table 3.3). -/
def fieldOpd : Opd → Bool
  | .v _ _ _ | .u _ _ _ | .p _ | .imm _ => true
  | .t part _ => decide (part ≠ .pair)
  | .m part i => decide (part = .full ∨ part = .pair) && decide (i < 12#4)
  | .sr part i => decide (0x80#8 ≤ i) && decide (i < 0xA7#8) && decide (part = .full ∨ (part = .pair ∧ i = 0x8A#8))
  | .none | .limm _ | .raw _ => false

/-- An operand of FD, FA, FB or XC that the entry accepts in this code. -/
def okF (x : DecodeCtx) (acc : Opd → Bool) (o : Opd) : Bool := fieldOpd o && acc o && aligned false o && inCtx x false o

/-- The same for the register group of a .b128 access. -/
def okQ (x : DecodeCtx) (quad : Bool) (acc : Opd → Bool) (o : Opd) : Bool :=
  fieldOpd o && acc o && aligned quad o && inCtx x quad o

/-- FB of a class with LI. -/
def okB (x : DecodeCtx) (acc : Opd → Bool) (o : Opd) : Bool := if isLimm o then acc o else okF x acc o

/-- A run of `n + 1` V registers from the one an operand names (R303, R358). -/
def okRun (x : DecodeCtx) (n : BitVec 3) (o : Opd) : Bool :=
  okF x (accV [.full]) o && (match o with | .v _ _ i => decide (i.toNat + n.toNat < x.c) | _ => false)

/-- The address operands of class 0x8 and of TAGL and TAGI. -/
def okAddr (x : DecodeCtx) (a b : Opd) : Bool := okF x accBase a && okB x accOff b

/-- Type and half of IMUL and IMAD (Table 22.7). -/
def okMul (ty : IntTy) (sat : Bool) (h : MulHalf) : Bool :=
  decide (ty ≠ .b32) && (match h with
    | .lo => true
    | .hi => !ty.packed && !sat
    | .wide => decide (ty = .i32 ∨ ty = .u32) && !sat)

/-- The two-operand mould of class 0x0. -/
def okInt (x : DecodeCtx) (ty : IntTy) (d a b : Opd) : Bool :=
  okF x (accIntD ty) d && okF x (accIntA ty (isLimm b)) a && okB x (accIntS ty) b

/-- The mould of AND, OR and XOR (R293). -/
def okBit (x : DecodeCtx) (ty : IntTy) (d a b : Opd) : Bool :=
  decide (ty = .b32 ∨ ty = .u64) && okF x (accBitD ty) d && okF x (accBitA ty) a && okB x (accIntS ty) b

/-- The mould of the shifts (R355). -/
def okShift (x : DecodeCtx) (ty : IntTy) (d a b : Opd) : Bool :=
  okF x (accIntD ty) d && okF x (accIntA ty (isLimm b)) a && okB x accVal10 b

/-- The mould of POPC and CLZ (R305, R342). -/
def okCount (x : DecodeCtx) (ty : IntTy) (d a : Opd) : Bool :=
  decide (ty = .b32 ∨ ty = .u64) && okF x (accD (accReg [.full])) d && okF x (accReg (intParts ty)) a

/-- The two-operand mould of class 0x1 (R318). -/
def okFlt2 (x : DecodeCtx) (ty : FltTy) (d a b : Opd) : Bool :=
  (!isLimm b || decide (ty = .f32)) && okF x accFltD d && okF x (accFltS ty) a && okB x (accFltS ty) b

/-- The one-operand mould of class 0x1. -/
def okFlt1 (x : DecodeCtx) (ty : FltTy) (d a : Opd) : Bool := okF x accFltD d && okF x (accFltS ty) a

/-- LDL and STL. -/
def okLocal (x : DecodeCtx) (q : Bool) (sz : Size) (acc : Opd → Bool) (d a b e : Opd) : Bool :=
  okQ x sz.quad acc d && okF x accBase a && okB x accOff b &&
    (if q then !isLimm b && okF x accRank e else decide (e = .none))

/-- ATOM, ATOML and RED (R294, R336). -/
def okAtom (x : DecodeCtx) (op : Aop) (accDst : Bool → Opd → Bool) (bases : List Part) (d a b : Opd) (e : AtomX) : Bool :=
  okF x (accReg bases) a &&
  (match e with
    | .new n => decide (op = .cas) && okF x (accDst (casWide b)) d && okF x (accAtV (casWide b)) b &&
        okF x (accAtV (casWide b)) n
    | .ty t => decide (op ≠ .cas) && atomTy op t && okF x (accDst (atomWide t)) d && okF x (accAtV (atomWide t)) b)

/-- BARI, BARA and BARW (R297). -/
def okBar (x : DecodeCtx) (sc : Scope) (d a b : Opd) : Bool :=
  decide (sc = .wg ∨ sc = .core) && okF x (accD accVal) d && okF x accBase a && okF x accOff b

/-- COPY's extension word (Table 11.3). -/
def okCopy (k : CopyKind) (conv : Option (Elem × Elem)) (rank : BitVec 2) (f : Panel) : Bool :=
  (match conv with | some (dt, st) => decide (k = .ds ∨ k = .sd) && cvtPair dt st | none => true) &&
  (decide (k = .qs ∨ k = .sq) || decide (rank = 0#2)) && (decide (k = .sm) || decide (f = .b8))

/-- PACK (R339). -/
def okPack (x : DecodeCtx) (un : Bool) (dt st : Elem) (d a b : Opd) : Bool :=
  packPair un dt st &&
  (if un then okF x (accD (accReg [.pair])) d && okF x (accReg [.full]) a &&
      (if st.bits = 8 then okF x accPackH b else decide (b = .none))
    else okF x (accD (accReg [.full])) d && okF x (accPackS dt) a && okF x (accPackS dt) b)

/-- What the entry of an instruction accepts in this code: the well-formed instructions (R40 to R45, R57 steps 3 to 6).
An event is well formed. -/
def Instr.accepts (x : DecodeCtx) : Instr → Bool
  | .iadd _ ty _ d a b | .isub _ ty _ d a b | .imin _ ty d a b | .imax _ ty d a b =>
    decide (ty ≠ .b32) && okInt x ty d a b
  | .imul _ ty s h d a b =>
    okMul ty s h && okF x (accMulD ty h) d && okF x (accIntA ty (isLimm b)) a && okB x (accIntS ty) b
  | .imad _ ty s h d a b e =>
    okMul ty s h && okF x (accMulD ty h) d && okF x (accIntS ty) a && okF x (accIntS ty) b && okF x (accMulX ty h) e
  | .land _ ty d a b | .lor _ ty d a b | .lxor _ ty d a b => okBit x ty d a b
  | .shl _ ty d a b | .shr _ ty d a b => okShift x ty d a b
  | .bfx _ ty d a b e =>
    decide (ty = .i32 ∨ ty = .u32) && okF x (accD (accReg [.full])) d && okF x (fun o => accReg p32 o || accImm o) a &&
      okF x accVal b && okF x accVal e
  | .bfi _ d a b e => okF x (accD (accReg [.full])) d && okF x accVal a && okF x accVal b && okF x accVal e
  | .popc _ ty d a | .clz _ ty d a => okCount x ty d a
  | .lea _ ty _ d a b =>
    decide (ty = .i32 ∨ ty = .u32) && okF x (accD (accReg [.pair])) d && okF x accBase a && okB x accVal b
  | .mov _ ty d b =>
    !ty.packed && okF x (accMovD ty) d && (match b with | .raw _ => !ty.wide | b => okB x (accMovS ty) b)
  | .fadd _ ty _ _ d a b | .fmul _ ty _ _ d a b | .fmin _ ty _ _ d a b | .fmax _ ty _ _ d a b => okFlt2 x ty d a b
  | .ffma _ ty _ _ d a b e =>
    okF x accFltD d && okF x (accFltS ty) a && okF x (accFltS ty) b && okF x (accFltS ty) e
  | .frcp _ ty _ _ d a | .fsqrt _ ty _ _ d a => okFlt1 x ty d a
  | .frsq _ _ d a | .fex2 _ _ d a | .flg2 _ _ d a | .fsin _ _ _ d a => okFlt1 x .f32 d a
  | .fdp4 _ ty _ _ d a b e =>
    decide (ty ≠ .f32) && okF x accFltD d && okF x (accReg [.pair]) a && okF x (accReg [.pair]) b &&
      okF x (accFltS .f32) e
  | .cvt _ _ _ dt sty d a => cvtPair dt sty && okF x (accCvtD dt) d && okF x (accCvtS sty) a
  | .cvtq _ _ _ sty d a b =>
    kSheet x.kind && decide (sty ∈ [Elem.fp32, .bf16, .fp16]) &&
      okF x (accD fun o => match o with
        | .u _ .full i => decide (i.toNat % 2 = 0) && decide (i.toNat ≤ 61) | _ => false) d &&
      okF x (accV (if sty = .fp32 then [.full] else p32)) a &&
      okF x (fun o => match o with | .u _ .full i => decide (i.toNat % 4 = 0) | _ => false) b
  | .deq _ _ _ dt d a b =>
    decide (dt ∈ [Elem.fp32, .bf16]) && okF x (accDeqD dt) d &&
      okF x (fun o => accReg [.full] o && (match o with
        | .v _ _ i => decide (i.toNat + 4 < x.c)
        | .u _ _ i => decide (i.toNat + 4 < if x.kind = .front then 128 else 64)
        | _ => false)) a && okF x accVal b
  | .pack _ un _ _ dt sty d a b => okPack x un dt sty d a b
  | .icmp _ ty k d a b =>
    !ty.packed && icmpCond ty k && okF x accCmpD d && okF x (accIntA ty (isLimm b)) a && okB x (accIntS ty) b
  | .fcmp _ ty _ d a b =>
    (!isLimm b || decide (ty = .f32)) && okF x accCmpD d && okF x (accFcS ty) a && okB x (accFcS ty) b
  | .plop _ _ d a b => okF x accP d && okF x accP a && okF x accP b
  | .sel _ ty d a b e =>
    !ty.packed && okF x (accIntD ty) d && okF x (accIntS ty) a && okF x (accIntS ty) b && okF x accP e
  | .shfl _ _ d a b e =>
    kSheet x.kind && okF x (accD accShfl) d && okF x (fun a => accShfl a && samePart d a) a && okF x accVal b && accXExt e
  | .vote _ op d a e =>
    kSheet x.kind && okF x (accD fun d => if op = .ballot then accReg [.full, .pair] d else accP d) d && okF x accP a &&
      accXExt e
  | .rdux _ op ty r d a e =>
    kSheet x.kind && redPair op ty r && okF x (accD accU0) d && okF x (accV [.full]) a && accXExt e
  | .scan _ op ty r _ d a e =>
    kSheet x.kind && redPair op ty r && okF x (accD (accV [.full])) d && okF x (accV [.full]) a && accXExt e
  | .csamp _ d a b e =>
    kSheet x.kind && okF x (accD (accReg [.full])) d && okF x (accV [.full]) a && okF x accVal b && accXExt e
  | .rand _ _ d a b e =>
    okF x (accD (accReg [.full])) d && okF x (accReg [.pair]) a && okF x (fun o => accReg [.pair] o || accImm o) b &&
      okF x (fun o => accReg [.pair] o || accImm o) e
  | .bra _ t => okB x accDisp t
  | .brx _ a | .ret _ a => okF x (accReg [.full]) a
  | .brd _ n a t => kSheet x.kind && okRun x n a && okB x accDisp t
  | .call _ d t => okF x (accD (if x.kind = .front then accU [.full] else accV [.full])) d && okB x accDisp t
  | .exit _ => kNoHandler x.kind
  | .yield _ | .nop _ | .lwait _ => true
  | .trlr aw _ => decide (aw.length ≤ 7) && aw.all (awaitOk x)
  | .join _ m | .leave _ m | .waitm _ m => kSheet x.kind && decide (m < 12#4)
  | .mmov _ d a => kSheet x.kind && okF x accMmovD d && okF x (accMmovA d) a
  | .ldl _ q sz d a b e => okLocal x q sz (accLdD sz) d a b e
  | .stl _ q sz d a b e => storeSize sz && okLocal x q sz (accStlD sz) d a b e
  | .tagl _ d a b => kTag x.kind && okF x (accD (accReg [.full])) d && okAddr x a b
  | .tags _ _ a b e => kTag x.kind && okF x accBase a && okF x accOff b && okF x accVal e
  | .tagi _ all a b => kTag x.kind && (if all then decide (a = .none) && decide (b = .none) else okAddr x a b)
  | .ld _ _ sz d a b => okQ x sz.quad (accLdD sz) d && okAddr x a b
  | .st _ _ sz d a b => storeSize sz && okQ x sz.quad (accStD sz) d && okAddr x a b
  | .pref _ _ a b | .cwb _ _ a b | .dead _ _ a b => okAddr x a b
  | .promote _ _ _ d a b | .demote _ _ d a b => okF x (accD (accReg [.full])) d && okAddr x a b
  | .madr _ _ d a b => okF x (accD (accReg [.pair])) d && okAddr x a b
  | .atom _ op _ _ d a b e => okAtom x op accAtD [.full, .pair] d a b e
  | .atoml _ op _ _ d a b e => okAtom x op (fun _ => accAtOff) [.full] d a b e
  | .red _ op _ _ ty d a b =>
    decide (op ≠ .cas) && atomTy op ty && okF x accAtOff d && okF x (accReg [.full, .pair]) a &&
      okF x (accAtV (atomWide ty)) b
  | .fence _ o _ => decide (o ≠ .rlx)
  | .bari _ sc _ d a b | .bara _ sc d a b | .barw _ sc d a b => okBar x sc d a b
  | .mwait _ _ sc d a b =>
    decide (sc = .die ∨ sc = .dev ∨ sc = .sys) && okF x (accD (accReg [.full, .pair])) d &&
      okF x (accReg [.full, .pair]) a && okF x (accAtV (casWide d)) b
  | .mrdy _ a => kPlainSheet x.kind && okF x accMrdy a
  | .mloop _ _ d a b e =>
    kFront x.kind && okF x (accD accU0) d && okF x accDesc a && okF x accFw b && okF x accUI e
  | .msync _ a => kNoHandler x.kind && okF x accUI a
  | .aclr _ d a b => kFront x.kind && okF x (accD accU0) d && okF x accUI a && okF x accUI b
  | .aout _ _ _ _ _ d a => kFront x.kind && okF x (accD accU0) d && okF x accDesc a
  | .copy _ _ k conv rank f d a b =>
    kCopy x.kind && okF x (copyD k) d && okF x (copyS k) a && okF x accUI b && okCopy k conv rank f
  | .rdwp _ _ q rank d => okF x (accD (accReg [.pair])) d && (q || decide (rank = 0#2))
  | .spawn _ n d a t => kSpawn x.kind && okF x accP d && okRun x n a && okB x accDisp t
  | .genb c cap _ a p q =>
    kPlainSheet x.kind && decide (cap ≠ 0#3) && unguarded c && okF x accUI a &&
      okF x accDisp p && okF x accDisp q
  | .gyld _ a b => kPlainSheet x.kind && okF x accVal a && okF x accVal b
  | .gtake _ d => kPlainSheet x.kind && okF x (accD (accV [.full, .pair])) d
  | .gend c cons => kPlainSheet x.kind && (!cons || unguarded c)
  | .dqpush _ a => kFront x.kind && okF x (fun o => accU [.full, .pair] o || accImm o) a
  | .dqpop _ d => kPlainSheet x.kind && okF x (accD (accReg [.full, .pair])) d
  | .launch _ d a b => kFront x.kind && okF x (accD accU0) d && okF x (accReg [.full]) a && okB x accOff b
  | .cancel _ _ a => kFront x.kind && okF x accUI a
  | .cntw _ _ d a => kNoHandler x.kind && okF x (accD (accReg [.full])) d && okF x accVal a
  | .tlbw _ a b e => okF x (accReg [.pair]) a && okF x (accReg [.pair]) b && okF x accVal e
  | .tlbi _ all sc a =>
    decide (sc ∈ [Scope.core, .quire, .die, .dev]) && (if all then decide (a = .none) else okF x (accReg [.pair]) a)
  | .tlbq _ d a => okF x (accD (accReg [.pair])) d && okF x (accReg [.pair]) a
  | .rfh c _ => kHandler x.kind && unguarded c
  | .trap _ a => okF x accVal a
  | .srd _ d a => okF x (accSrdD a) d && okF x (accSr [.full, .pair]) a
  | .swr _ d a => okF x (accSr [.full]) d && okF x accVal a
  | .mend _ a => kHandler x.kind && okF x (fun o => accReg [.full, .pair] o || accImm o) a
  | .xform _ op _ d a b e =>
    x.tx && kFront x.kind && okF x (accD accUI) d && okF x accUI a && okF x accUI b &&
      (if op = .gather then okF x accUI e else decide (e = .none))
  | _ => true

/-! ### The host's view of the decoder -/

/-- The kinds of code the opcode table's words are tried in: sheet code with every register, front-end code, and the
two handler kinds that between them accept every handler word. -/
def tableKinds : List CodeKind := [.sheet, .front, .handler 1 .page]

/-- The kind of code in which the decoder accepts a word, with the instruction. XFORM's feature bit counts as set. -/
def decodeTable (w : IWord) : Option (CodeKind × Instr) :=
  tableKinds.findSome? fun k =>
    match decode ⟨k, 256, 0, true⟩ w with
    | .ok i => some (k, i)
    | .error _ => none

/-- The instruction of a table row: its bits from bit 0, the bits above zero. -/
def decodeTableWord (nbits w : Nat) : Option Instr :=
  (decodeTable (BitVec.ofNat 96 (w % 2 ^ nbits))).map (·.2)

end Sys2Proof
end

