-- ==== Sys2Proof/Machine/Maps.lean ====
section
/-!
DEFINITION. Sparse maps and byte memories in canonical form, little-endian values, and where the agents stand in State:
the accessors through which every other file reads and writes cores, workgroups, sheets and lanes.
-/

namespace Sys2Proof.Machine

/-- What a key holds; an unlisted key holds `dflt`. -/
def SMap.get {α : Type} (dflt : α) : SMap α → Nat → α
  | [], _ => dflt
  | (a, v) :: rest, k => if k = a then v else SMap.get dflt rest k

/-- Puts an entry at its place in the list, in place of an earlier one of its key. -/
def SMap.insert {α : Type} : SMap α → Nat → α → SMap α
  | [], k, x => [(k, x)]
  | (a, v) :: rest, k, x =>
    if k < a then (k, x) :: (a, v) :: rest
    else if k = a then (k, x) :: rest
    else (a, v) :: SMap.insert rest k x

/-- Writes a key, keeping the list sorted and leaving out the default. -/
def SMap.set {α : Type} [DecidableEq α] (dflt : α) (m : SMap α) (k : Nat) (x : α) : SMap α :=
  if x = dflt then m.filter fun e => decide (e.1 ≠ k) else SMap.insert m k x

/-- Drops every key of [lo, lo + n). -/
def SMap.clear {α : Type} (m : SMap α) (lo n : Nat) : SMap α := m.filter fun e => decide (e.1 < lo ∨ lo + n ≤ e.1)

/-- The byte at an address. -/
def Memory.get (m : Memory) (a : Nat) : Byte := SMap.get 0#8 m a

/-- Writes one byte. -/
def Memory.set (m : Memory) (a : Nat) (b : Byte) : Memory := SMap.set 0#8 m a b

/-- Reads `n` bytes, lowest address first. -/
def Memory.read (m : Memory) (a : Nat) : Nat → List Byte
  | 0 => []
  | n + 1 => m.get a :: Memory.read m (a + 1) n

/-- Writes bytes in ascending order. -/
def Memory.write (m : Memory) (a : Nat) : List Byte → Memory
  | [] => m
  | b :: rest => Memory.write (m.set a b) (a + 1) rest

/-- Little-endian value of bytes (R10). -/
def leNat : List Byte → Nat
  | [] => 0
  | b :: rest => b.toNat + 256 * leNat rest

/-- The low `n` bytes of a value, little-endian (R10). -/
def leBytes (n x : Nat) : List Byte := (List.range n).map fun i => BitVec.ofNat 8 (x / 2 ^ (8 * i))

/-- The value of a string of bytes in `w` bits. -/
def leVal (w : Nat) (bs : List Byte) : BitVec w := BitVec.ofNat w (leNat bs)

/-- A 32-bit word of a memory. -/
def Memory.word (m : Memory) (a : Nat) : Word := leVal 32 (m.read a 4)

/-- The mask of a list of lanes. -/
def laneMask (ls : List Nat) : Lanes := ls.foldl (fun m l => m ||| BitVec.ofNat 64 (2 ^ l)) 0#64

/-- The lanes of a mask below a width, ascending. -/
def maskLanes (w : Nat) (m : Lanes) : List Nat := (List.range w).filter fun l => m.getLsbD l

/-- The low or high word of a double word. -/
def loWord (x : DWord) : Word := x.extractLsb' 0 32

/-- The high word of a double word. -/
def hiWord (x : DWord) : Word := x.extractLsb' 32 32

/-! ### Lanes and registers of a sheet -/

/-- A lane of a sheet. -/
def Sheet.lane (sh : Sheet) (l : Nat) : Thread := sh.lanes.getD l Thread.absent

/-- Changes one lane. -/
def Sheet.modLane (sh : Sheet) (l : Nat) (f : Thread → Thread) : Sheet := { sh with lanes := sh.lanes.modify l f }

/-- Changes some lanes. -/
def Sheet.modLanes (sh : Sheet) (ls : List Nat) (f : Thread → Thread) : Sheet :=
  { sh with lanes := sh.lanes.mapIdx fun i t => if ls.contains i then f t else t }

/-- The live lanes. -/
def Sheet.liveLanes (sh : Sheet) : List Nat := (List.range sh.lanes.length).filter fun l => (sh.lane l).live

/-- A full/empty register is full (R20). -/
def Reg.full (r : Reg) : Bool := r.pend.isEmpty

/-- A V register of a lane. -/
def Sheet.vReg (sh : Sheet) (l i : Nat) : Reg := SMap.get Reg.zero (sh.lane l).v i

/-- A W or S register. -/
def Sheet.uReg (sh : Sheet) (i : Nat) : Reg := SMap.get Reg.zero sh.u i

/-- Writes a V register of a lane. -/
def Sheet.setV (sh : Sheet) (l i : Nat) (r : Reg) : Sheet :=
  sh.modLane l fun t => { t with v := SMap.set Reg.zero t.v i r }

/-- Writes a W or S register. -/
def Sheet.setU (sh : Sheet) (i : Nat) (r : Reg) : Sheet := { sh with u := SMap.set Reg.zero sh.u i r }

/-- An m register. -/
def Sheet.mReg (sh : Sheet) (i : Nat) : Lanes := SMap.get 0#64 sh.m i

/-- The mask of a sheet's lanes (R63). -/
def Sheet.widthMask (sh : Sheet) : Lanes := BitVec.ofNat 64 (2 ^ sh.width - 1)

/-- Writes an m register; bits at or above the width are written as zero (R63). -/
def Sheet.setM (sh : Sheet) (i : Nat) (x : Lanes) : Sheet :=
  { sh with m := SMap.set 0#64 sh.m i (x &&& sh.widthMask) }

/-- Whether code of this kind is front-end code. -/
def Sheet.isFront (sh : Sheet) : Bool := decide (sh.kind = .front)

/-- A register of a lane by kind of code: predicate `i`; p63 reads true (R23). -/
def Thread.pRead (t : Thread) (i : Nat) : Bool := if i = 63 then true else t.p.getLsbD i

/-- Writes a predicate; a write to p63 is discarded (R23). -/
def Thread.pWrite (t : Thread) (i : Nat) (b : Bool) : Thread :=
  if i = 63 then t
  else { t with p := if b then t.p ||| BitVec.ofNat 64 (2 ^ i) else t.p &&& ~~~ (BitVec.ofNat 64 (2 ^ i)) }

/-- A lane goes on to the next word of its run. -/
def Thread.stepOn (t : Thread) (yld : Bool) : Thread :=
  { t with pc := t.pc + 12#32, runPos := t.runPos + 1, wait := .ready, awaits := [], jumped := false, waited := 0, forced := false,
           yieldMark := t.yieldMark || yld }

/-- A sheet as its frozen lanes make it: those of the producer body while the consumer body runs (R92). -/
def Sheet.frozenBody (sh : Sheet) (g : Gen) : Sheet :=
  { sh with lanes := (List.range sh.lanes.length).map fun l => ((g.frozen.find? fun x => x.1 == l).map (·.2)).getD Thread.absent }

/-- A change of the lanes of a sheet's running body and of its frozen body. -/
def Sheet.bothBodies (f : Sheet → Sheet) (sh : Sheet) : Sheet :=
  match sh.gen with
  | some g =>
    if g.frozen.isEmpty then f sh
    else
      let z := f (sh.frozenBody g)
      { f sh with gen := some { g with frozen := g.frozen.map fun x => (x.1, z.lane x.1) } }
  | none => f sh

/-! ### Where agents stand -/

/-- The core of an agent. -/
def wCore : Where → Nat
  | .front c _ => c
  | .sheet c _ _ => c
  | .handler c _ => c

/-- A core. -/
def State.core (s : State) (c : Nat) : Core := s.cores.getD c Core.reset

/-- Changes a core. -/
def State.modCore (s : State) (c : Nat) (f : Core → Core) : State := { s with cores := s.cores.modify c f }

/-- The workgroup of a slot. -/
def Core.wg (k : Core) (slot : Nat) : Option Workgroup := (k.wgs[slot]?).join

/-- Changes a resident workgroup. -/
def Core.modWg (k : Core) (slot : Nat) (f : Workgroup → Workgroup) : Core :=
  { k with wgs := k.wgs.modify slot (Option.map f) }

/-- A handler slot in use. -/
def Core.handler (k : Core) (level : Nat) : Option Handler := if level = 2 then k.h2 else k.h1

/-- Changes a running handler. -/
def Core.modHandler (k : Core) (level : Nat) (f : Handler → Handler) : Core :=
  if level = 2 then { k with h2 := k.h2.map f } else { k with h1 := k.h1.map f }

/-- The code an agent runs. -/
def State.sheetAt (s : State) (w : Where) : Option Sheet :=
  match w with
  | .front c slot => ((s.core c).wg slot).bind (·.front)
  | .sheet c slot i => ((s.core c).wg slot).bind fun g => (g.sheets[i]?).join
  | .handler c lv => ((s.core c).handler lv).map (·.sheet)

/-- Replaces the code state of a resident agent. -/
def State.putSheet (s : State) (w : Where) (sh : Sheet) : State :=
  match w with
  | .front c slot => s.modCore c fun k => k.modWg slot fun g => { g with front := g.front.map fun _ => sh }
  | .sheet c slot i =>
    s.modCore c fun k => k.modWg slot fun g => { g with sheets := g.sheets.modify i (Option.map fun _ => sh) }
  | .handler c lv => s.modCore c fun k => k.modHandler lv fun h => { h with sheet := sh }

/-- Changes the code state of a resident agent. -/
def State.modSheet (s : State) (w : Where) (f : Sheet → Sheet) : State :=
  match s.sheetAt w with
  | some sh => s.putSheet w (f sh)
  | none => s

/-- Slot of a workgroup's agent. -/
def wSlot : Where → Option Nat
  | .front _ slot => some slot
  | .sheet _ slot _ => some slot
  | .handler _ _ => none

/-- The workgroup slot whose allocation and tags an agent reaches: its own, or for a handler of a trapped group that
group's (R222, R367). -/
def State.wgSlot (s : State) (w : Where) : Option Nat :=
  match w with
  | .handler c lv =>
    ((s.core c).handler lv).bind fun h =>
      match h.ev.cause with
      | .walk | .save => none
      | _ => wSlot h.ev.who
  | w => wSlot w

/-- The workgroup of an agent, or of the group that its handler serves. -/
def State.wgOf (s : State) (w : Where) : Option Workgroup :=
  (s.wgSlot w).bind fun slot => (s.core (wCore w)).wg slot

/-- Changes the workgroup of an agent. -/
def State.modWgOf (s : State) (w : Where) (f : Workgroup → Workgroup) : State :=
  match s.wgSlot w with
  | some slot => s.modCore (wCore w) fun k => k.modWg slot f
  | none => s

/-- An owner by number. -/
def State.owner (s : State) (o : Nat) : Option Owner := s.owners.find? fun x => x.id == o

/-- Changes an owner. -/
def State.modOwner (s : State) (o : Nat) (f : Owner → Owner) : State :=
  { s with owners := s.owners.map fun x => if x.id == o then f x else x }

/-- The number of the owner that holds an agent's core; 0 when none does. -/
def State.ownerId (s : State) (w : Where) : Nat := ((s.core (wCore w)).owner).getD 0

/-- The owner of an agent. -/
def State.ownerOf (s : State) (w : Where) : Option Owner := ((s.core (wCore w)).owner).bind s.owner

/-- A fresh number for a producer or a queue entry. -/
def State.fresh (s : State) : Nat × State := (s.nextId, { s with nextId := s.nextId + 1 })

/-- An undefined value (R13), with the counter moved on. -/
def State.undefinedValue (s : State) : DWord × State := (Config.freeValue s.free, { s with free := s.free + 1 })

/-- Quires are four cores (R1): the cores of a core's physical quire. -/
def quireCores (c : Nat) : List Nat := (List.range 4).map fun i => c / 4 * 4 + i

/-- The compute die of a core: twelve cores each (R1). -/
def coreDie (c : Nat) : Nat := c / 12

end Sys2Proof.Machine
end

