-- ==== Sys2Proof/Machine/Operands.lean ====
section
/-!
DEFINITION. Every operand form of R42 to R45 and R60: reading a source in a lane, special registers, writing a
destination, marking it empty and filling it (R20 to R31).
-/

namespace Sys2Proof.Machine

/-- The group that issues: its place, its code state at issue, its leader, its lanes (GROUP) and its executing lanes
(ACTIVE), ascending (R41, R60, R65). -/
structure Grp where
  w : Where
  sh : Sheet
  lead : Nat
  grp : List Nat
  act : List Nat
  deriving DecidableEq, Repr

/-- The word at which the group stands. -/
def Grp.pc (g : Grp) : Word := (g.sh.lane g.lead).pc

/-- Whether the group runs in a handler slot. -/
def Grp.inHandler (g : Grp) : Bool :=
  match g.w with
  | .handler _ _ => true
  | _ => false

/-! ### Special registers -/

/-- Codes of trap causes (Table 2.7). -/
def causeCode : Cause → Nat
  | .illegal => 0x01 | .run => 0x02 | .empty => 0x03 | .fmtdiv => 0x04 | .extemu => 0x05 | .walk => 0x08 | .page => 0x09
  | .perm => 0x0A | .bounds => 0x0B | .poison => 0x0C | .envelope => 0x0D | .arith => 0x10 | .soft => 0x11
  | .align => 0x12 | .save => 0x13

/-- tcause of an event (Table 2.7). -/
def HEvent.tcause (e : HEvent) : Word := BitVec.ofNat 32 (e.access * 4096 + e.slot * 256 + causeCode e.cause)

/-- The event of the handler an agent runs, if it runs one. -/
def State.evOf (s : State) (w : Where) : Option HEvent :=
  match w with
  | .handler c lv => ((s.core c).handler lv).map (·.ev)
  | _ => none

/-- A window register's read (Table 2.6): the selection and the mask of the selected window. -/
def maskRead (o : Owner) (sel : BitVec 4) (mask : Window → BitVec 8) : Word :=
  0#4 ++ sel ++ 0#16 ++ (match o.windows[sel.toNat]? with | some w => mask w | none => 0#8)

/-- A balance in bytes, rounded toward minus infinity (R232). -/
def balanceWord (b : Int) : Word := BitVec.ofInt 32 (b / 256)

/-- A field of the owner that an agent runs for; without an owner the manual gives no value. -/
def ownerField (s : State) (w : Where) (i : Nat) (f : Owner → Word) : Word :=
  match s.ownerOf w with
  | some o => f o
  | none => Config.unheldSpecial i

/-- A field of the workgroup; code without one holds no such register. -/
def wgField (s : State) (w : Where) (i : Nat) (f : Workgroup → Word) : Word :=
  match s.wgOf w with
  | some g => f g
  | none => Config.unheldSpecial i

/-- A field of the handler's event; zero at level 0 (R36). -/
def evField (s : State) (w : Where) (f : HEvent → Word) : Word :=
  match s.evOf w with
  | some e => f e
  | none => 0#32

/-- A special register in a lane (Table 2.3). -/
def special (s : State) (w : Where) (sh : Sheet) (l : Nat) (i : Nat) : Word :=
  match i with
  | 0x80 => BitVec.ofNat 32 l
  | 0x81 => if sh.isFront then wgField s w i fun g => BitVec.ofNat 32 g.width else BitVec.ofNat 32 sh.width
  | 0x82 => match w with
    | .front _ _ => 0xFFFFFFFF#32
    | .sheet _ _ k => BitVec.ofNat 32 k
    | .handler _ _ => 0x10#32
  | 0x83 => wgField s w i (·.x)
  | 0x84 => wgField s w i (·.y)
  | 0x85 => wgField s w i (·.z)
  | 0x86 => wgField s w i fun g => BitVec.ofNat 32 g.qrank
  | 0x87 => BitVec.ofNat 32 (wCore w)
  | 0x88 => BitVec.ofNat 32 (coreDie (wCore w))
  | 0x89 => BitVec.ofNat 32 (s.ownerId w)
  | 0x8A => BitVec.ofNat 32 s.clock
  | 0x8B => BitVec.ofNat 32 (s.clock / 2 ^ 32)
  | 0x8C => (sh.lane l).rm
  | 0x8D => (sh.lane l).astat
  | 0x8E => (sh.lane l).aen
  | 0x8F => wgField s w i fun g => BitVec.ofNat 32 g.ftime
  | 0x90 => BitVec.ofInt 32 (s.core (wCore w)).quant
  | 0x91 => ownerField s w i fun o => balanceWord o.hbm
  | 0x92 => ownerField s w i fun o => balanceWord o.lnk
  | 0x93 => match w with
    | .handler _ lv => BitVec.ofNat 32 lv
    | _ => 0#32
  | 0x94 => evField s w (·.tcause)
  | 0x95 => evField s w (·.tpc)
  | 0x96 => evField s w fun e => loWord e.fmask
  | 0x97 => evField s w fun e => hiWord e.fmask
  | 0x98 => evField s w fun e => loWord e.dmask
  | 0x99 => evField s w fun e => hiWord e.dmask
  | 0x9A => evField s w fun e => loWord e.taddr
  | 0x9B => evField s w fun e => hiWord e.taddr
  | 0x9C => ownerField s w i fun o => maskRead o o.selA (·.hashA)
  | 0x9D => ownerField s w i fun o => maskRead o o.selB (·.hashB)
  | 0x9E => ownerField s w i fun o => maskRead o o.selC fun x => x.hashC.setWidth 8
  | 0x9F => if (sh.lane l).pend then 1#32 else 0#32
  | 0xA0 => s.mgmt.feat.getD 0 0#32
  | 0xA1 => s.mgmt.feat.getD 1 0#32
  | 0xA2 => s.mgmt.feat.getD 2 0#32
  | 0xA3 => s.mgmt.feat.getD 3 0#32
  | 0xA4 => match sh.gen with
    | some g => BitVec.ofNat 32 g.f
    | none => 0#32
  | 0xA5 => (sh.lane l).gsrc
  | 0xA6 => ownerField s w i fun o => BitVec.ofNat 32 o.nearq
  | _ => Config.unheldSpecial i

/-! ### Reading (R43, R44, R60) -/

/-- The 32-bit register an operand names, PART ignored; an immediate's value. -/
def regWord (s : State) (w : Where) (sh : Sheet) (l : Nat) : Opd → Word
  | .none => 0#32
  | .v _ _ i => (sh.vReg l i.toNat).val
  | .u _ _ i => (sh.uReg i.toNat).val
  | .p i => if (sh.lane l).pRead i.toNat then 1#32 else 0#32
  | .t _ i => SMap.get 0#32 (sh.lane l).t i.toNat
  | .m _ i => loWord (sh.mReg i.toNat)
  | .sr _ i => special s w sh l i.toNat
  | .imm x => x.signExtend 32
  | .limm x => x.signExtend 32
  | .raw x => x

/-- PART of an operand; whole for the forms without one. -/
def opdPart : Opd → Part
  | .v _ p _ | .u _ p _ | .t p _ | .m p _ | .sr p _ => p
  | _ => .full

/-- EXT16 (R60): sign-extended for an integer instruction of signed TYPE, otherwise zero-extended. -/
def ext16 (sx : Bool) (h : BitVec 16) : Word := if sx then h.signExtend 32 else h.setWidth 32

/-- READ (R60): the 32-bit value of a source in a lane. -/
def rd (s : State) (g : Grp) (sx : Bool) (o : Opd) (l : Nat) : Word :=
  let x := regWord s g.w g.sh l o
  match opdPart o with
  | .lo => ext16 sx (x.extractLsb' 0 16)
  | .hi => ext16 sx (x.extractLsb' 16 16)
  | _ => x

/-- READ64 (R60): a pair, a 64-bit mask, clocklo's pair (R32); a sign-extended immediate; a zero-extended 32-bit
value. -/
def rd64 (s : State) (g : Grp) (o : Opd) (l : Nat) : DWord :=
  match o with
  | .v _ .pair i => (g.sh.vReg l (i.toNat + 1)).val ++ (g.sh.vReg l i.toNat).val
  | .u _ .pair i => (g.sh.uReg (i.toNat + 1)).val ++ (g.sh.uReg i.toNat).val
  | .m .pair i => g.sh.mReg i.toNat
  | .sr .pair _ => BitVec.ofNat 64 s.clock
  | .imm x => x.signExtend 64
  | .limm x => x.signExtend 64
  | o => (rd s g false o l).setWidth 64

/-- The four words of a .b128 operand (R43). -/
def rdQuad (g : Grp) (o : Opd) (l : Nat) : List Word :=
  match o with
  | .v _ _ i => (List.range 4).map fun k => (g.sh.vReg l (i.toNat + k)).val
  | .u _ _ i => (List.range 4).map fun k => (g.sh.uReg (i.toNat + k)).val
  | _ => []

/-- EA (R45): base plus offset modulo 2^64. A 32-bit base is zero-extended; a register offset is signed. -/
def ea (s : State) (g : Grp) (a b : Opd) (l : Nat) : DWord :=
  rd64 s g a l + (match b with
    | .imm x => x.signExtend 64
    | .limm x => x.signExtend 64
    | b => (rd s g false b l).signExtend 64)

/-! ### Empty registers (R27 to R29) -/

/-- The V or W registers of an operand's span (R21, R43). -/
def spanRegs (quad : Bool) : Opd → List (Bool × Nat)
  | .v ew p i => (List.range (spanOf quad (.v ew p i))).map fun k => (false, i.toNat + k)
  | .u ew p i => (List.range (spanOf quad (.u ew p i))).map fun k => (true, i.toNat + k)
  | _ => []

/-- One register of a span in a lane. -/
def Sheet.reg (sh : Sheet) (l : Nat) (r : Bool × Nat) : Reg := if r.1 then sh.uReg r.2 else sh.vReg l r.2

/-- Whether an operand is full in a lane. -/
def opdFull (sh : Sheet) (quad : Bool) (o : Opd) (l : Nat) : Bool := (spanRegs quad o).all fun r => (sh.reg l r).full

/-- The empty-wait bit of an operand. -/
def opdEw : Opd → Bool
  | .v ew _ _ => ew
  | .u ew _ _ => ew
  | _ => false

/-! ### Writing -/

/-- A register after a write of a part of it. -/
def mergePart (p : Part) (old x : Word) : Word :=
  match p with
  | .lo => old.extractLsb' 16 16 ++ x.extractLsb' 0 16
  | .hi => x.extractLsb' 0 16 ++ old.extractLsb' 0 16
  | _ => x

/-- A write of a register: at once when it is full, behind the earlier writes when it is empty (R29). -/
def Reg.write (r : Reg) (p : Part) (x : Word) : Reg :=
  if r.full then { r with val := mergePart p r.val x } else { r with pend := r.pend ++ [⟨0, some (p, x)⟩] }

/-- Marks a register empty for producer `id` (R27), behind the writes it already waits for. -/
def Reg.markEmpty (r : Reg) (id : Nat) : Reg := { r with pend := r.pend ++ [⟨id, none⟩] }

/-- Performs the writes at the head of a register's queue whose data is known, oldest first (R29). -/
def drainPend (val : Word) : List PendW → Reg
  | [] => ⟨val, []⟩
  | ⟨_, some (p, x)⟩ :: rest => drainPend (mergePart p val x) rest
  | ⟨id, none⟩ :: rest => ⟨val, ⟨id, none⟩ :: rest⟩

/-- Producer `id`'s data arrives (FILL, R60). -/
def Reg.fill (r : Reg) (id : Nat) (p : Part) (x : Word) : Reg :=
  drainPend r.val (r.pend.map fun e => if e.id = id ∧ e.got = none then ⟨id, some (p, x)⟩ else e)

/-- Producer `id` ends without data: the register keeps what it held (R370, rfh.skip). -/
def Reg.unfill (r : Reg) (id : Nat) : Reg :=
  drainPend r.val (r.pend.filter fun e => !(decide (e.id = id ∧ e.got = none)))

/-- Changes one register of a span in a lane. -/
def Sheet.modReg (sh : Sheet) (l : Nat) (r : Bool × Nat) (f : Reg → Reg) : Sheet :=
  if r.1 then sh.setU r.2 (f (sh.uReg r.2)) else sh.setV l r.2 (f (sh.vReg l r.2))

/-- Whether a lane writes a destination: a W or S register takes the lowest executing lane's value (R22). -/
def writesHere (act : List Nat) (o : Opd) (l : Nat) : Bool :=
  match o with
  | .u _ _ _ => decide (act.head? = some l)
  | _ => true

/-- WRITE (R60): the low bits of `x` to a destination for a lane. -/
def wr (act : List Nat) (o : Opd) (l : Nat) (x : DWord) (sh : Sheet) : Sheet :=
  if writesHere act o l then
    match o with
    | .v _ .pair i =>
      (sh.modReg l (false, i.toNat) fun r => r.write .full (loWord x)).modReg l (false, i.toNat + 1) fun r =>
        r.write .full (hiWord x)
    | .u _ .pair i =>
      (sh.modReg l (true, i.toNat) fun r => r.write .full (loWord x)).modReg l (true, i.toNat + 1) fun r =>
        r.write .full (hiWord x)
    | .v _ p i => sh.modReg l (false, i.toNat) fun r => r.write p (loWord x)
    | .u _ p i => sh.modReg l (true, i.toNat) fun r => r.write p (loWord x)
    | .p i => sh.modLane l fun t => t.pWrite i.toNat (x.getLsbD 0)
    | .t p i =>
      sh.modLane l fun t =>
        { t with t := SMap.set 0#32 t.t i.toNat (mergePart p (SMap.get 0#32 t.t i.toNat) (loWord x)) }
    | _ => sh
  else sh

/-- A W register that has become empty makes the next runs that await it ineligible: their groups are not ready, and their wait counts
start again (R53, R68). -/
def Sheet.unready (uniform : Bool) (i : Nat) (sh : Sheet) : Sheet :=
  let mine (t : Thread) : Bool := t.awaits.any fun a => a.uniform && a.i.toNat == i
  if uniform then { sh with lanes := sh.lanes.map fun t => if mine t then { t with waited := 0, forced := false } else t } else sh

/-- EMPTY (R27): marks a destination empty in a lane for producer `id`. A W register's bit changes for all lanes
together, once. -/
def markEmpty (act : List Nat) (quad : Bool) (o : Opd) (id l : Nat) (sh : Sheet) : Sheet :=
  if writesHere act o l then
    (spanRegs quad o).foldl (fun sh r => Sheet.unready r.1 r.2 (sh.modReg l r fun x => x.markEmpty id)) sh
  else sh

/-- EMPTY in every executing lane. -/
def markEmptyAll (act : List Nat) (quad : Bool) (o : Opd) (id : Nat) (sh : Sheet) : Sheet :=
  act.foldl (fun sh l => markEmpty act quad o id l sh) sh

/-- FILL (R60): the words of a producer's result, low word first, to its destination in a lane. -/
def fillOpd (act : List Nat) (quad : Bool) (o : Opd) (id l : Nat) (ws : List Word) (sh : Sheet) : Sheet :=
  if writesHere act o l then
    let p := if opdPart o = .pair then Part.full else opdPart o
    ((spanRegs quad o).zip ws).foldl (fun sh e => sh.modReg l e.1 fun x => x.fill id p e.2) sh
  else sh

/-- A producer's destination in a lane marked full with what it held (R370). -/
def unfillOpd (act : List Nat) (quad : Bool) (o : Opd) (id l : Nat) (sh : Sheet) : Sheet :=
  if writesHere act o l then (spanRegs quad o).foldl (fun sh r => sh.modReg l r fun x => x.unfill id) sh else sh

/-- The two words of a double word, low first. -/
def wordsOf (x : DWord) : List Word := [loWord x, hiWord x]

end Sys2Proof.Machine
end

