-- ==== Sys2Proof/Machine/Panels.lean ====
section
/-!
DEFINITION. The matrix format word and the bytes that a matrix operation reads and writes (R120 to R123, R129 to R131, R134).
-/

namespace Sys2Proof.Machine

/-- A format code of a format word (Table 9.2). -/
def fwA (fw : Word) : Nat := fw.toNat % 16

/-- The B format code. -/
def fwB (fw : Word) : Nat := fw.toNat / 16 % 16

/-- Whether a format word is accepted (R123). -/
def fwOk (fw : Word) : Bool :=
  (decide (fwA fw ≤ 3) && (decide (fwB fw ≤ 3) || fwB fw == 5) && fw.toNat / 256 == 8) ||
    (fwA fw == 4 && fwB fw == 4 && fw.toNat / 256 == 9)

/-- Whether a format code is a 16-bit format. -/
def fw16 (code : Nat) : Bool := code == 2 || code == 3

/-- The step depth D (R120). -/
def fwDepth (fw : Word) : Nat := if fw16 (fwA fw) || fw16 (fwB fw) then 64 else 128

/-- Bytes of an element. -/
def fwBytes (code : Nat) : Nat := if fw16 code then 2 else 1

/-- Positions that a step reads (R131). -/
def stepLen (fw : Word) (k st : Nat) : Nat := min (fwDepth fw) (k - st * fwDepth fw)

/-- Bytes of A that a step reads in a row. -/
def aBytes (fw : Word) (k st : Nat) : Nat := fwBytes (fwA fw) * stepLen fw k st

/-- Bytes of B that a step reads in a slice: whole blocks of Q4X. -/
def bBytes (fw : Word) (k st : Nat) : Nat :=
  if fwB fw = 5 then 20 * ((stepLen fw k st + 31) / 32) else fwBytes (fwB fw) * stepLen fw k st

/-- Element size of AOUT's destination. -/
def outBytes : OutTy → Nat
  | .e4m3 | .e5m2 | .i8 => 1
  | .bf16 | .f16 => 2
  | .f32 | .i32 => 4

/-- The offset of A's first byte in a row and step. -/
def aStart (abase astride : Nat) (ainc : Int) (m st : Nat) : Int := (abase : Int) + m * astride + st * ainc

/-- The mould offset of B's first byte in a step. -/
def bStart (boff : Nat) (binc : Int) (st : Nat) : Int := (boff : Int) + st * binc

/-- Whether `n` bytes at `a` meet `m` bytes at an integer offset. -/
def spanMeets (a n : Nat) (x : Int) (m : Nat) : Bool := decide (x < (a + n : Nat)) && decide ((a : Int) < x + m)

/-- Whether bytes of the scratchpad are ones of A that an operation reads. -/
def MatrixOp.readsA (op : MatrixOp) (base a n : Nat) : Bool :=
  match op with
  | .mloop steps m _ k _ abase astride _ ainc _ fw =>
    (List.range steps).any fun st => (List.range m).any fun r =>
      spanMeets a n ((base : Int) + aStart abase astride ainc r st) (aBytes fw k st)
  | _ => false

/-- Whether bytes of a slice of the mould are ones of B that an operation reads. -/
def MatrixOp.readsB (op : MatrixOp) (slice off n : Nat) : Bool :=
  match op with
  | .mloop steps _ cols k _ _ _ boff _ binc fw =>
    decide (slice < cols) && (List.range steps).any fun st => spanMeets off n (bStart boff binc st) (bBytes fw k st)
  | _ => false

/-- Whether bytes of the scratchpad are ones that an AOUT writes. -/
def MatrixOp.writesOut (op : MatrixOp) (base a n : Nat) : Bool :=
  match op with
  | .aout _ rows cols dbase dstride _ _ _ dt _ =>
    (List.range rows).any fun i => spanMeets a n ((base : Int) + dbase + i * dstride) (cols * outBytes dt)
  | _ => false

/-- Marks the entries that satisfy a condition on their operation and their workgroup: in the core's queue, and among those saved with
a pre-empted workgroup, whose allocation stays where it is (R126, R136). -/
def Core.spoil (p : MatrixOp → Workgroup → Bool) (k : Core) : Core :=
  let mark (g : Workgroup) (e : MatrixEntry) : MatrixEntry := if p e.op g then { e with spoiled := true } else e
  { k with mq := k.mq.map (fun e => match k.wg e.slot with
             | some g => mark g e
             | none => e),
           wgs := k.wgs.map (Option.map fun g => { g with savedMq := g.savedMq.map (mark g) }) }

/-- A core's MLOOPs that have not completed and read bytes which a store has changed (R128). -/
def Core.spoilA (k : Core) (a n : Nat) : Core := k.spoil fun op g => op.readsA g.spadBase a n

/-- The same for bytes of the mould. -/
def Core.spoilB (k : Core) (slice off n : Nat) : Core := k.spoil fun op _ => op.readsB slice off n

/-- The matrix entries of a core that have not completed, with their workgroups. -/
def Core.entries (k : Core) : List (MatrixEntry × Workgroup) :=
  (k.mq.filterMap fun e => (k.wg e.slot).map fun g => (e, g)) ++
    k.wgs.flatMap fun g => match g with
      | some g => g.savedMq.map fun e => (e, g)
      | none => []

/-- Whether an AOUT that has not completed writes some bytes of the scratchpad: a load of them returns an undefined value
(R128). -/
def Core.outBusy (k : Core) (a n : Nat) : Bool := k.entries.any fun x => x.1.op.writesOut x.2.spadBase a n

/-- An AOUT of a core has not completed. -/
def Core.outPending (k : Core) : Bool := k.entries.any fun x => match x.1.op with
  | .aout _ _ _ _ _ _ _ _ _ _ => true
  | _ => false

/-- The scratchpad of a core as its readers find it: the bytes that AOUTs still have to write are undefined (R128). -/
def Core.seen (k : Core) (free : Nat) : Memory :=
  k.entries.foldl (fun m x => match x.1.op with
    | .aout _ rows cols dbase dstride _ _ _ dt _ => (List.range rows).foldl (fun m i =>
        let a := x.2.spadBase + dbase + i * dstride
        m.write a ((List.range (cols * outBytes dt)).map fun b => (Config.freeValue (free + a + b)).setWidth 8)) m
    | _ => m) k.spad

/-- The number of tag sets of a workgroup (R145). -/
def Workgroup.tagSets (g : Workgroup) : Nat := g.tagIdx.length

/-- TAGI.all: every entry of the workgroup is invalid (R146). -/
def Core.tagClear (k : Core) (g : Workgroup) : Core := { k with tags := k.tags.filter fun e => !g.tagIdx.contains (e.1 / 8) }

end Sys2Proof.Machine
end

