-- ==== Sys2Proof/Machine/Memory.lean ====
section
/-!
DEFINITION. Device memory and what lies beyond: physical addresses and windows (R185 to R187), DRAM cells with dead rows
and poison (R200, R204), targets of accesses, the L1 and the stores on their way home (R167, R331), and translation
(R213 to R215).
-/

namespace Sys2Proof.Machine

/-! ### Physical addresses (R186, R187) -/

/-- log2 of the stack count. -/
def Variant.stackBits : Variant → Nat
  | .x48 => 3
  | .n24 => 2

/-- Bits [lo + n - 1 : lo] of a number. -/
def natBits (x lo n : Nat) : Nat := x / 2 ^ lo % 2 ^ n

/-- Whether a PA is interleaved, its stack and its stack offset (R186); none where it names no memory. -/
def paParts (v : Variant) (pa : Nat) : Option (Bool × Nat × Nat) :=
  let b := v.stackBits
  if pa / 2 ^ 39 = 0 then
    let st := natBits pa 36 3
    if st < v.stackCount then some (false, st, natBits pa 0 36) else none
  else if pa / 2 ^ 39 = 16 then
    let i := natBits pa 0 39
    let o := natBits i (8 + b) (31 - b) * 256 + i % 256
    if i < 2 ^ (36 + b) then some (true, Nat.xor (natBits i 8 b) (natBits i 24 b), o) else none
  else none

/-- A byte of DRAM (R183): where a PA decodes to, and the offset within its window. -/
structure Place where
  win : Nat
  stack : Nat
  pc : Nat
  bank : Nat
  row : Nat
  quarter : Nat
  byte : Nat
  off : Nat
  deriving DecidableEq, Repr

/-- Window decode of offset D (Table 14.2). -/
def decodeWindow (idx : Nat) (w : Window) (stack d : Nat) : Place :=
  { win := idx, stack := stack,
    pc := Nat.xor (Nat.xor (natBits d 8 8) (Nat.land (natBits d 16 8) w.hashA.toNat))
      (Nat.land (natBits d 24 8) w.hashB.toNat),
    bank := Nat.xor (natBits d 18 5) (Nat.land (natBits d 28 5) w.hashC.toNat),
    row := w.row + natBits d 23 13, quarter := natBits d 16 2, byte := d % 256, off := d }

/-- Whether a window of an owner covers a stack offset (R185, R186). -/
def Window.covers (w : Window) (inter : Bool) (stack o : Nat) : Bool :=
  w.valid && (w.interleaved == inter) && (inter || w.stack == stack) && decide (w.row ≤ o / 2 ^ 23) &&
    decide (o / 2 ^ 23 < w.row + w.rows)

/-- Whether spans of addresses, each from its start up to its end, together hold every address from `lo` up to `hi`; adjoining spans
count as one. -/
def spansHold (spans : List (Nat × Nat)) : Nat → Nat → Nat → Bool
  | 0, lo, hi => decide (hi ≤ lo)
  | n + 1, lo, hi => decide (hi ≤ lo) || (match spans.find? fun x => decide (x.1 ≤ lo) && decide (lo < x.2) with
      | some x => spansHold spans n x.2 hi
      | none => false)

/-- A PA within the windows of one owner. -/
def Owner.place (v : Variant) (ow : Owner) (pa : Nat) : Option Place :=
  match paParts v pa with
  | none => none
  | some (inter, stack, o) =>
    match ow.windows.findIdx? fun w => w.covers inter stack o with
    | none => none
    | some i =>
      match ow.windows[i]? with
      | some w => some (decodeWindow i w stack (o - w.row * 2 ^ 23))
      | none => none

/-- A PA within the windows of any owner; windows of different owners do not overlap, or are one shared window
(R185, R189). -/
def State.place (s : State) (pa : Nat) : Option Place := s.owners.findSome? fun o => o.place s.variant pa

/-- The number of a row in one bank of one PC: the rows of a window, and the rows of a chunk, are consecutive. -/
def rowKey (stack row bank pc : Nat) : Nat := ((stack * 8192 + row) * 32 + bank) * 256 + pc

/-- The row of a place. -/
def Place.rowKey (p : Place) : Nat := Machine.rowKey p.stack p.row p.bank p.pc

/-- The cell number of a place. -/
def Place.cell (p : Place) : Nat := p.rowKey * 1024 + p.quarter * 256 + p.byte

/-- Home die of a stack (R183). -/
def homeDie (stack : Nat) : Nat := stack / 2

/-! ### DRAM cells (R200, R204) -/

/-- Whether a row is live. -/
def Dram.isLive (d : Dram) (row : Nat) : Bool := SMap.get false d.live row

/-- A byte of a place: a dead row reads as zero (R200). -/
def Dram.byteAt (d : Dram) (p : Place) : Byte := if d.isLive p.rowKey then d.cells.get p.cell else 0#8

/-- Marks a ring slot that holds a row dirty (Table 14.6). -/
def Dram.dirtySlot (d : Dram) (p : Place) : Dram :=
  { d with slots := d.slots.map fun r =>
      if r.stack = p.stack ∧ r.pc = p.pc ∧ r.bank = p.bank ∧ r.row = p.row then { r with dirty := true } else r }

/-- The first write to a dead row clears its mark; its other bytes read zero (R200). -/
def Dram.revive (d : Dram) (row : Nat) : Dram :=
  if d.isLive row then d
  else { d with live := SMap.set false d.live row true, cells := SMap.clear d.cells (row * 1024) 1024 }

/-- The die cache holds a line: true for a dirty one (R369). -/
def Dram.held? (d : Dram) (line : Nat) : Option Bool := SMap.get none d.cached line

/-- A dirty line is written to its stack in whole, and its symbols there with it (R203, R369). -/
def Dram.writeBack (d : Dram) (line : Nat) : Dram := { d with errors := SMap.clear d.errors (line * 64) 64 }

/-- Lines of one die cache: 128 MiB of 128 bytes (Table 0.2). -/
def dieLines : Nat := 2 ^ 20

/-- The die that holds a line. -/
def lineDie (line : Nat) : Nat := homeDie (line / 2 ^ 29)

/-- A full die cache replaces one of its lines, which one is not specified; a dirty one is written back (R369). -/
def Dram.makeRoom (d : Dram) (die : Nat) : Dram :=
  let held := (d.cached.filter fun e => lineDie e.1 == die)
  if held.length < dieLines then d
  else
    match held[Config.cacheVictim d.replaced % held.length]? with
    | none => d
    | some e =>
      let d := if e.2 = some true then d.writeBack e.1 else d
      { d with cached := SMap.set none d.cached e.1 none, replaced := d.replaced + 1 }

/-- Puts a line into the home die cache, in place of another when the cache is full (R369); a store makes it dirty. -/
def Dram.allocLine (d : Dram) (line : Nat) (store : Bool) : Dram :=
  match d.held? line with
  | some dirty => { d with cached := SMap.set none d.cached line (some (store || dirty)) }
  | none =>
    let d := d.makeRoom (lineDie line)
    { d with cached := SMap.set none d.cached line (some store) }

/-- Writes a byte of a place at its home. -/
def Dram.setByte (d : Dram) (p : Place) (b : Byte) : Dram :=
  let d := (d.revive p.rowKey).allocLine (p.cell / 128) true
  { d with cells := d.cells.set p.cell b }.dirtySlot p

/-- Marks `n` consecutive rows dead: their slots are freed and their die-cache lines dropped without writeback, and
poison goes; what their trackers have counted since the last refresh stays (R188, R199, R202). -/
def Dram.kill (d : Dram) (lo n : Nat) : Dram :=
  let inRows (row : Nat) : Bool := decide (lo ≤ row) && decide (row < lo + n)
  { d with
    live := SMap.clear d.live lo n, cells := SMap.clear d.cells (lo * 1024) (n * 1024),
    cached := SMap.clear d.cached (lo * 8) (n * 8), poison := SMap.clear d.poison (lo * 8) (n * 8),
    errors := SMap.clear d.errors (lo * 512) (n * 512),
    slots := d.slots.filter fun r => !inRows (rowKey r.stack r.row r.bank r.pc) }

/-- The wipe of `n` consecutive rows: they are dead, and their disturbance trackers are cleared (R200). -/
def Dram.wipeRows (d : Dram) (lo n : Nat) : Dram :=
  { d.kill lo n with trackers := d.trackers.filter fun t =>
      !(decide (lo ≤ rowKey t.stack t.row t.bank t.pc) && decide (rowKey t.stack t.row t.bank t.pc < lo + n)) }

/-- Symbols of a line that soft errors have struck, in one of its four 32-byte units (R203). -/
def Dram.badSymbols (d : Dram) (line unit : Nat) : Nat :=
  ((List.range 16).filter fun i => SMap.get false d.errors (line * 64 + unit * 16 + i)).length

/-- A read of the line from its stack would find an uncorrectable error: two symbols or more of one unit (R203). A line that
the die cache holds is not read from its stack. -/
def Dram.uncorrectable (d : Dram) (line : Nat) : Bool :=
  (SMap.get none d.cached line).isNone && (List.range 4).any fun u => decide (2 ≤ d.badSymbols line u)

/-- Whether a line is poisoned (R204), or would be as it is read. -/
def Dram.poisoned (d : Dram) (line : Nat) : Bool := SMap.get false d.poison line || d.uncorrectable line

/-- A line is rewritten in whole: it is no longer poisoned, and no error of what it held is left (R207). -/
def Dram.cleanLine (d : Dram) (line : Nat) : Dram := { d.writeBack line with poison := SMap.set false d.poison line false }

/-- Poisons a whole line: its data bits become zero (R203, R204). -/
def Dram.poisonLine (d : Dram) (line : Nat) : Dram :=
  { d with poison := SMap.set false d.poison line true, cells := SMap.clear d.cells (line * 128) 128,
           errors := SMap.clear d.errors (line * 64) 64 }

/-! ### Bytes of a target -/

/-- The vat's bytes: the records in the order of their bins (R74). -/
def vatBytes (bs : List Bin) : List Byte :=
  bs.flatMap fun b => b.recs.flatMap fun r => r.words.flatMap fun w => leBytes 4 w.toNat

/-- Records whose words a vat image gives, from an address on. -/
def recsFrom (m : Memory) : Nat → List SpawnRec → List SpawnRec
  | _, [] => []
  | a, r :: rest => { r with words := (List.range 8).map fun k => m.word (a + 4 * k) } :: recsFrom m (a + 32) rest

/-- Bins whose records a vat image gives. -/
def binsFrom (m : Memory) : Nat → List Bin → List Bin
  | _, [] => []
  | a, b :: rest => { b with recs := recsFrom m a b.recs } :: binsFrom m (a + 32 * b.recs.length) rest

/-- The vat of a core as bytes: its records, and what stands beyond them (R234). -/
def Core.vat (k : Core) : Memory := k.vatImage.write 0 (vatBytes k.bins)

/-- Writes a byte of the vat (R222, R234). -/
def Core.setVat (k : Core) (a : Nat) (b : Byte) : Core :=
  if a < (vatBytes k.bins).length then { k with bins := binsFrom (k.vat.set a b) 0 k.bins }
  else { k with vatImage := k.vatImage.set a b }

/-- A byte of the core image (Table 16.12): the scratchpad, the accumulator store, the mould, the vat's image and the
context block; beyond them nothing is there. -/
def Core.imageByte (k : Core) (a : Nat) : Byte :=
  if a < 0x800000 then k.spad.get a
  else if a < 0xB00000 then (SMap.get 0#32 k.acc ((a - 0x800000) / 4)).extractLsb' (a % 4 * 8) 8
  else if a < 0xC00000 then 0#8
  else if a < 0x1C00000 then k.mould.get (a - 0xC00000)
  else if a < 0x1C80000 then k.vat.get (a - 0x1C00000)
  else k.context.get (a - 0x1C80000)

/-- A word with one of its bytes replaced. -/
def putByteIn (w : Word) (i : Nat) (b : Byte) : Word :=
  (w &&& ~~~ (BitVec.ofNat 32 (255 * 256 ^ i))) ||| BitVec.ofNat 32 (b.toNat * 256 ^ i)

/-- Writes a byte of the core image. -/
def Core.setImageByte (k : Core) (a : Nat) (b : Byte) : Core :=
  if a < 0x800000 then { k with spad := k.spad.set a b }
  else if a < 0xB00000 then
    let i := (a - 0x800000) / 4
    { k with acc := SMap.set 0#32 k.acc i (putByteIn (SMap.get 0#32 k.acc i) (a % 4) b) }
  else if a < 0xC00000 then k
  else if a < 0x1C00000 then { k with mould := k.mould.set (a - 0xC00000) b }
  else if a < 0x1C80000 then k.setVat (a - 0x1C00000) b
  else { k with context := k.context.set (a - 0x1C80000) b }

/-- A byte as the home holds it: scratchpad, DRAM through the owners' windows, host or peer memory. A PA outside every
window names no memory that an access can reach and reads as zero. -/
def State.byteAt (s : State) : Target → Byte
  | .spad c a => (s.core c).imageByte a
  | .dev pa => match s.place pa with
    | some p => s.dram.byteAt p
    | none => 0#8
  | .host a => s.hostMem.get a
  | .peer m a => Memory.get (SMap.get [] s.peerMem m) a

/-- The target `k` bytes further. -/
def Target.plus : Target → Nat → Target
  | .spad c a, k => .spad c (a + k)
  | .dev pa, k => .dev (pa + k)
  | .host a, k => .host (a + k)
  | .peer m a, k => .peer m (a + k)

/-- `n` bytes of a target. -/
def State.bytesAt (s : State) (t : Target) (n : Nat) : List Byte := (List.range n).map fun k => s.byteAt (t.plus k)

/-- Writes a byte at its home. -/
def State.putByte (s : State) (t : Target) (b : Byte) : State :=
  match t with
  | .spad c a => s.modCore c fun k => k.setImageByte a b
  | .dev pa => match s.place pa with
    | some p => { s with dram := s.dram.setByte p b }
    | none => s
  | .host a => { s with hostMem := s.hostMem.set a b }
  | .peer m a => { s with peerMem := SMap.set [] s.peerMem m (Memory.set (SMap.get [] s.peerMem m) a b) }

/-- Writes bytes in ascending order. -/
def State.putBytes (s : State) (t : Target) : List Byte → State
  | [] => s
  | b :: rest => (s.putByte t b).putBytes (t.plus 1) rest

/-- A monitor compares its word again after a store or atomic to it; the first value that differs is the one it fills
with (R173). -/
def Monitor.look (s : State) (m : Monitor) : Monitor :=
  if m.armed && m.hit.isNone then
    let v : DWord := leVal 64 (s.bytesAt (.dev m.pa) (if m.wide then 8 else 4))
    if v = m.cmp then m else { m with hit := some v }
  else m

/-- Whether the word of a FENCE entry holds its test now, unsigned (R247). -/
def FenceEntry.holds (s : State) (e : FenceEntry) : Bool :=
  let x := leNat (s.bytesAt (if e.host then .host e.addr else .dev e.addr) 4)
  match e.comp with
  | 0 => decide (e.value ≤ x)
  | 1 => x == e.value
  | 2 => x != e.value
  | 3 => decide (x < e.value)
  | _ => Nat.land x e.value != 0

/-- A FENCE entry looks at its word: once found true it stays so (R247). -/
def FenceEntry.look (s : State) (e : FenceEntry) : FenceEntry := { e with found := e.found || e.holds s }

/-- The device words of a queue's FENCE are watched: no change is missed (R173, R247). -/
def Queue.watch (s : State) (q : Queue) : Queue :=
  match q.wait with
  | .fence es => { q with wait := .fence (es.map fun e => if e.host then e else e.look s) }
  | _ => q

/-- Every armed monitor compares again, those of the FENCE packets among them. -/
def State.wakeMonitors (s : State) : State :=
  { s with monitors := s.monitors.map (Monitor.look s), queues := s.queues.map (Queue.watch s) }

/-- A byte of a core's image as a reader finds it: undefined where an AOUT has still to write it (R128). -/
def Core.byteSeen (k : Core) (free a : Nat) : Byte := if k.outBusy a 1 then (Config.freeValue (free + a)).setWidth 8 else k.imageByte a

/-- The counter after undefined bytes have been read. -/
def State.blurred (s : State) (c : Nat) : State := if (s.core c).outPending then { s with free := s.free + 2 ^ 23 } else s

/-- Bytes of a core's image, those undefined that an AOUT has still to write, each by itself (R128). -/
def State.readPad (s : State) (c a n : Nat) : State × List Byte :=
  (s.blurred c, (List.range n).map fun i => (s.core c).byteSeen s.free (a + i))

/-- A lane in BARW goes on once its object's PHASE differs from the bit it waits on (R152, R298). -/
def Thread.lookPhase (free : Nat) (k : Core) (t : Thread) : Thread :=
  match t.wait with
  | .blocked (.barw _ a ph) => if t.live && (k.byteSeen free (a + 8)).getLsbD 0 != ph then t.stepOn false else t
  | _ => t

/-- Every lane of a sheet that waits in BARW looks again, those of a generator's frozen body among them (R94, R152). -/
def Sheet.lookPhase (free : Nat) (k : Core) (sh : Sheet) : Sheet :=
  sh.bothBodies fun sh => { sh with lanes := sh.lanes.map (Thread.lookPhase free k) }

/-- Every lane of a core that waits in BARW looks again. -/
def Core.wakeBarriers (free : Nat) (k : Core) : Core :=
  let wg (g : Workgroup) : Workgroup :=
    { g with front := g.front.map (Sheet.lookPhase free k), sheets := g.sheets.map (Option.map (Sheet.lookPhase free k)) }
  { k with wgs := k.wgs.map (Option.map wg), h1 := k.h1.map fun h => { h with sheet := h.sheet.lookPhase free k },
           h2 := k.h2.map fun h => { h with sheet := h.sheet.lookPhase free k } }

/-- Every lane of a core that waits in BARW looks again. -/
def State.wakeBarriers (s : State) (c : Nat) : State := (s.modCore c (Core.wakeBarriers s.free)).blurred c

/-- The slots of a felt: CAPN entries (R85). -/
def Gen.slots (g : Gen) : List Nat := List.range g.capn

/-- The bytes of undefined entries (R13, R85), and the counter after them. -/
def undefinedEntries (free : Nat) (n : Nat) : List (List Byte) :=
  (List.range n).map fun i => leBytes 8 (Config.freeValue (free + i)).toNat

/-- Writes entries to their slots of a felt in a core's scratchpad. -/
def Core.putEntries (k : Core) (base : Nat) : List (Nat × List Byte) → Core
  | [] => k
  | (j, bs) :: rest => Core.putEntries { k with spad := k.spad.write (base + 8 * j) bs } base rest

/-- The queued GYLD entries of a sheet with undefined bytes. -/
def Sheet.spoilQueued (free : Nat) (sh : Sheet) : Sheet :=
  { sh with sq := sh.sq.map fun e => if decide (e.kind = .gyld) then
      { e with lanes := e.lanes.map fun x => { x with bytes := leBytes 8 (Config.freeValue (free + x.lane)).toNat } }
    else e }

/-- A store of `n` bytes at `a` of a core's scratchpad into the felt of an agent's active generator leaves every entry of
the felt undefined (R85). -/
def State.spoilFelt (a n : Nat) (s : State) (w : Where) : State :=
  match s.sheetAt w, s.wgOf w with
  | some sh, some wg =>
    match sh.gen with
    | some g =>
      let base := wg.spadBase + g.base
      if a < base + 8 * g.capn ∧ base < a + n then
        let s := s.modCore (wCore w) fun k => k.putEntries base (g.slots.zip (undefinedEntries s.free g.capn))
        { s.putSheet w (sh.spoilQueued (s.free + 512)) with free := s.free + 1024 }
      else s
    | none => s
  | _, _ => s

/-- The sheets of a core whose generator is active, those of pre-empted workgroups among them: their felts stay where they are. -/
def State.generators (s : State) (c : Nat) : List Where :=
  (List.range (s.core c).wgs.length).flatMap fun slot => match (s.core c).wg slot with
    | some g => (List.range g.sheets.length).filterMap fun i =>
        if ((g.sheets[i]?).join).any fun sh => sh.gen.isSome then some (Where.sheet c slot i) else none
    | none => []

/-- A store into a core's scratchpad meets the felts of its active generators, but for those named (R85). -/
def State.spoilFelts (s : State) (c a n : Nat) (own : Option Where) : State :=
  ((s.generators c).filter fun w => !decide (own = some w)).foldl (State.spoilFelt a n) s

/-- What a store of `n` bytes into a core's scratchpad disturbs: felts, and operands of matrix loops (R85, R128). -/
def State.disturb (s : State) (c a n : Nat) (own : Option Where) : State :=
  (s.spoilFelts c a n own).modCore c fun k => k.spoilA a n

/-- A store or atomic takes its place in the store order of its home (R170, R172): monitors and barrier waits look
again, and a felt that a store meets is spoilt. -/
def State.storeHome (s : State) (t : Target) (bs : List Byte) : State :=
  let s := s.putBytes t bs
  match t with
  | .spad c a => (s.disturb c a bs.length none).wakeBarriers c
  | _ => s.wakeMonitors

/-- The host refuses the next request of the module's own processors to a target (R263). -/
def State.refused (s : State) (t : Target) : Bool :=
  match t with
  | .host a => s.hostDeny.contains a
  | _ => false

/-- A refusal has met its request. -/
def State.spend (s : State) (t : Target) : State :=
  match t with
  | .host a => { s with hostDeny := s.hostDeny.erase a }
  | _ => s

/-- A store, flush or add that the host refuses is dropped and counted in HOSTREFUSE (R263). -/
def State.countRefuse (s : State) : State := { s with mgmt := { s.mgmt with hostRefuse := s.mgmt.hostRefuse + 1 } }

/-- A generator's own entries reach its felt (R89, R95). -/
def State.storeFelt (s : State) (w : Where) (a : Nat) (bs : List Byte) : State :=
  ((s.putBytes (.spad (wCore w) a) bs).disturb (wCore w) a bs.length (some w)).wakeBarriers (wCore w)

/-- Rows die; each byte's store order sees a store of zero, so monitors compare again (R188, R199). -/
def State.killRows (s : State) (lo n : Nat) : State := { s with dram := s.dram.kill lo n }.wakeMonitors

/-- Rows are wiped (R200). -/
def State.wipeRows (s : State) (lo n : Nat) : State := { s with dram := s.dram.wipeRows lo n }.wakeMonitors

/-- The chunk of a DEAD at its home dies: one row in each PC of its bank, or that in each stack (R199). -/
def State.killChunk (s : State) (pa : Nat) : State :=
  match s.place pa with
  | none => s
  | some p =>
    let ids := if pa / 2 ^ 39 = 16 then List.range s.variant.stackCount else [p.stack]
    ids.foldl (fun s st => s.killRows (rowKey st p.row p.bank 0) 256) s

/-! ### A core's view: the L1 and the stores that have left the core (R162, R167, R331) -/

/-- Bytes of the chunk of a PA (R199). -/
def chunkSize (v : Variant) (pa : Nat) : Nat := if pa / 2 ^ 39 = 16 then 2 ^ (18 + v.stackBits) else 2 ^ 18

/-- Two device addresses lie in one chunk. -/
def sameChunk (v : Variant) (a b : Nat) : Bool :=
  chunkSize v a == chunkSize v b && a / chunkSize v a == b / chunkSize v b

/-- The byte as a core's store order has it: the last store of the core on its way home, or the home's byte. A store on its way to
a quire member's scratchpad is in that core's order only once it is there (R142, R162). -/
def State.coreByte (s : State) (c : Nat) (t : Target) : Byte :=
  let hit := s.flights.reverse.findSome? fun f =>
    if f.core = c then
      match f.target, t with
      | .dev a, .dev x => if f.dead then (if sameChunk s.variant a x then some 0#8 else none) else if a ≤ x ∧ x < a + f.bytes.length then f.bytes[x - a]? else none
      | .host a, .host x => if a ≤ x ∧ x < a + f.bytes.length then f.bytes[x - a]? else none
      | .peer m a, .peer n x => if m = n ∧ a ≤ x ∧ x < a + f.bytes.length then f.bytes[x - a]? else none
      | _, _ => none
    else none
  hit.getD (s.byteAt t)

/-- `n` bytes as a core's store order has them. -/
def State.coreBytes (s : State) (c : Nat) (t : Target) (n : Nat) : List Byte :=
  (List.range n).map fun k => s.coreByte c (t.plus k)

/-- What a load of `n` bytes returns: the core's bytes, or an undefined value where an AOUT writes them (R128). -/
def State.loadBytes (s : State) (c : Nat) (t : Target) (n : Nat) : State × List Byte :=
  match t with
  | .spad d a =>
    if (s.core d).outBusy a n then
      let (x, s) := s.undefinedValue
      let (y, s) := s.undefinedValue
      (s, (leBytes 8 x.toNat ++ leBytes 8 y.toNat).take n)
    else (s, s.coreBytes c t n)
  | t => (s, s.coreBytes c t n)

/-- Whether the L1 of a core holds the line of a PA. -/
def Core.l1Has (k : Core) (pa : Nat) : Bool := decide (SMap.get [] k.l1 (pa / 128) ≠ [])

/-- Bytes from a present L1 line. -/
def Core.l1Bytes (k : Core) (pa n : Nat) : List Byte := ((SMap.get [] k.l1 (pa / 128)).drop (pa % 128)).take n

/-- Lines of an L1: 256 KiB of 128 bytes (R2, Table 0.2). -/
def l1Lines : Nat := 2 ^ 11

/-- A full L1 drops one of its lines before another comes in (R167); which one is not specified. -/
def Core.l1Room (victim : Nat) (k : Core) : Core :=
  if k.l1.length < l1Lines then k else { k with l1 := k.l1.eraseIdx (victim % k.l1.length) }

/-- An L1 line fill, 128 bytes (R331). -/
def State.fillLine (s : State) (c pa : Nat) : State :=
  let base := pa / 128 * 128
  let line := s.coreBytes c (.dev base) 128
  let room (k : Core) : Core := if k.l1Has pa then k else k.l1Room (Config.l1Victim s.free)
  { s.modCore c (fun k => { room k with l1 := SMap.set [] (room k).l1 (pa / 128) line }) with free := s.free + 1 }

/-- A list with some of its elements replaced from an index on. -/
def overlay (old : List Byte) (at_ : Nat) (new : List Byte) : List Byte :=
  old.take at_ ++ new.take (old.length - at_) ++ old.drop (at_ + new.length)

/-- A store updates a present line of the core's L1 as it is accepted (R361). -/
def Core.l1Store (k : Core) (pa : Nat) (bs : List Byte) : Core :=
  if k.l1Has pa then { k with l1 := SMap.set [] k.l1 (pa / 128) (overlay (SMap.get [] k.l1 (pa / 128)) (pa % 128) bs) }
  else k

/-- Drops a core's L1 lines of one PA's line. -/
def Core.l1Drop (k : Core) (pa : Nat) : Core := { k with l1 := SMap.set [] k.l1 (pa / 128) [] }

/-- An acquire at .quire or wider invalidates the core's L1 (R168). -/
def State.dropL1 (s : State) (c : Nat) : State := s.modCore c fun k => { k with l1 := [] }

/-- Whether a scope is .quire or wider. -/
def scopeFar : Scope → Bool
  | .sheet | .wg | .core => false
  | _ => true

/-- The acquire of R168 at a scope; the core notes when its last one at .quire or wider was (R170). -/
def State.acquire (s : State) (c : Nat) (sc : Scope) : State :=
  if scopeFar sc then (s.dropL1 c).modCore c fun k => { k with acquired := s.nextId } else s

/-- The line of a device target is poisoned (R204). -/
def State.poisonedAt (s : State) (t : Target) (n : Nat) : Bool :=
  match t with
  | .dev pa => (List.range ((pa % 128 + n + 127) / 128)).any fun i =>
      match s.place (pa / 128 * 128 + 128 * i) with
      | some p => s.dram.poisoned (p.cell / 128)
      | none => false
  | _ => false

/-- A DEAD of a core, which its queue has had accepted, is on its way to some bytes: what the core accesses there afterwards comes after it in
its store order (R162, R199). -/
def State.deadAhead (s : State) (c : Nat) (t : Target) : Bool :=
  s.flights.any fun f => f.core == c && f.dead && (match f.target, t with
    | .dev a, .dev b => sameChunk s.variant a b
    | _, _ => false)

/-- A core's access of `n` bytes consumes poison: its line is poisoned, and no DEAD of the core that clears it is on its way, for which the
access waits (R205, R207). -/
def State.poisonFor (s : State) (c : Nat) (t : Target) (n : Nat) : Bool := s.poisonedAt t n && !s.deadAhead c t

/-- The 128-byte lines of a device target, by cell number, each with its stack. -/
def State.linesOf (s : State) (t : Target) (n : Nat) : List (Nat × Nat) :=
  match t with
  | .dev pa => (List.range ((pa % 128 + n + 127) / 128)).filterMap fun i =>
      (s.place (pa / 128 * 128 + 128 * i)).map fun p => (p.cell / 128, p.stack)
  | _ => []

/-- The hypervisor's record of a poisoned line: one per line, with the owners that consumed it (R203, R208); a line that is poisoned anew keeps
its record, which no rule says (log 57). -/
def State.logPoison (s : State) (line : Nat) (owners : List Nat) : State :=
  let has (e : HostEvent) : Bool := match e with
    | .poisonLog l _ => l == line
    | _ => false
  if s.hostEvents.any has then
    { s with hostEvents := s.hostEvents.map fun e => match e with
        | .poisonLog l os => if l = line then .poisonLog l (os ++ owners.filter fun o => !os.contains o) else e
        | e => e }
  else { s with hostEvents := s.hostEvents ++ [.poisonLog line owners] }

/-- A line is read in its stack: single-symbol errors are corrected and counted; an uncorrectable error poisons the line and is
logged (R203). -/
def State.readStack (s : State) (line stack : Nat) : State :=
  let d := s.dram
  let n := ((List.range 4).map (d.badSymbols line)).foldl (· + ·) 0
  if n = 0 then s
  else if (List.range 4).any fun u => decide (2 ≤ d.badSymbols line u) then { s with dram := d.poisonLine line }.logPoison line []
  else { s with dram := { d with errors := SMap.clear d.errors (line * 64) 64,
                                 corrected := SMap.set 0 d.corrected stack (SMap.get 0 d.corrected stack + n) } }

/-- A demand access finds the errors of the lines that the die cache does not hold (R203, R369). -/
def State.findErrors (s : State) (t : Target) (n : Nat) : State :=
  (s.linesOf t n).foldl (fun s x => if (SMap.get none s.dram.cached x.1).isNone then s.readStack x.1 x.2 else s) s

/-- One activation of a row for an owner, in the 64 trackers of its bank: the pair's own, a free one, or the one with the lowest
count, which goes on from there (R202). -/
def Dram.activate (d : Dram) (p : Place) (o : Nat) : Dram :=
  let inBank (t : Tracker) : Bool := t.stack == p.stack && t.pc == p.pc && t.bank == p.bank
  let mine (t : Tracker) : Bool := inBank t && t.row == p.row && t.owner == o
  let low := (d.trackers.filter inBank).foldl (fun m t => min m t.count) (2 ^ 32)
  if d.trackers.any mine then
    { d with trackers := d.trackers.map fun t => if mine t then { t with count := t.count + 1 } else t }
  else if (d.trackers.filter inBank).length < 64 then
    { d with trackers := d.trackers ++ [⟨p.stack, p.pc, p.bank, p.row, o, 1⟩] }
  else
    match d.trackers.findIdx? fun t => inBank t && t.count == low with
    | some i => { d with trackers := d.trackers.set i ⟨p.stack, p.pc, p.bank, p.row, o, low + 1⟩ }
    | none => d

/-- The places of a target's lines that a demand access must fetch from their stacks: not in the die cache, and live (R200,
R369). -/
def State.fetched (s : State) (t : Target) (n : Nat) : List Place :=
  match t with
  | .dev pa => (List.range ((pa % 128 + n + 127) / 128)).filterMap fun i =>
      (s.place (pa / 128 * 128 + 128 * i)).bind fun p =>
        if (SMap.get none s.dram.cached (p.cell / 128)).isNone && s.dram.isLive p.rowKey then some p else none
  | _ => []

/-- A demand access of an owner: each line that its die cache lacks activates its row, also one of class P, which a near slot holds (log 13),
and its errors are found (R202, R203). -/
def State.demand (s : State) (o : Nat) (t : Target) (n : Nat) : State :=
  ((s.fetched t n).foldl (fun s p => { s with dram := s.dram.activate p o }) s).findErrors t n

/-- An owner's activations of a bank that a target would need are delayed (R202). -/
def State.bankDelayed (s : State) (o : Nat) (t : Target) : Bool :=
  (s.fetched t 1).any fun p => s.dram.delays.contains (p.stack, p.pc, p.bank, o)

/-- The lines that a read of `n` bytes reaches are in the home die cache (R369). -/
def State.readLines (s : State) (t : Target) (n : Nat) : State :=
  (s.linesOf t n).foldl (fun s x => { s with dram := s.dram.allocLine x.1 false }) s

/-- A read of `n` bytes that reaches the home (R202, R203, R369). -/
def State.readIn (s : State) (o : Nat) (t : Target) (n : Nat) : State := (s.demand o t n).readLines t n

/-- A read of `n` bytes for which no thread waits: a fetch, a packet, a FENCE word, a key blob, an image that is loaded again. It finds the
errors of its lines and brings them into the die cache (R203, R369); it counts no activation (log 13) and consumes no poison (log 57). -/
def State.glance (s : State) (t : Target) (n : Nat) : State := (s.findErrors t n).readLines t n

/-- An owner consumes the poisoned lines of a target: a read of them (R205, R208). -/
def State.consume (s : State) (o : Nat) (t : Target) (n : Nat) : State :=
  let s := s.readIn o t n
  (s.linesOf t n).foldl (fun s x => if s.dram.poisoned x.1 then s.logPoison x.1 [o] else s) s

/-- A store of `n` bytes at a home first reads the lines that it does not write in whole (R369). -/
def State.storeDemand (s : State) (o : Nat) (t : Target) (n : Nat) : State :=
  match t with
  | .dev pa => (List.range ((pa % 128 + n + 127) / 128)).foldl (fun s i =>
      let line := pa / 128 * 128 + 128 * i
      if pa ≤ line ∧ line + 128 ≤ pa + n then s else s.demand o (.dev line) 1) s
  | _ => s

/-- A store reaches its home, for an owner (R169, R203, R369). -/
def State.storeIn (s : State) (o : Nat) (t : Target) (bs : List Byte) : State := (s.storeDemand o t bs.length).storeHome t bs

/-- The owner for whom the host's and a peer's accesses to a device address activate rows: the first whose windows hold it (log 13). -/
def State.homeOwner (s : State) (pa : Nat) : Nat := ((s.owners.find? fun o => (o.place s.variant pa).isSome).map (·.id)).getD 0

/-- A store of a service processor or of the core's hardware reaches device memory: it reads what it does not write of its lines, finds their
errors, and writes a poisoned line without a record (R203, R369; log 57). -/
def State.serviceStore (s : State) (t : Target) (bs : List Byte) : State :=
  (match t with
    | .dev pa => s.storeDemand (s.homeOwner pa) t bs.length
    | _ => s).storeHome t bs

/-- A store of a service processor or of the firmware, which the host may refuse. -/
def State.postHost (s : State) (t : Target) (bs : List Byte) : State :=
  if s.refused t then (s.spend t).countRefuse else s.serviceStore t bs

/-- A store of the host or of a peer reaches its home; a poisoned line takes none, and its record is made (R205, R207; log 38). -/
def State.arriveStore (s : State) (pa : Nat) (bs : List Byte) : State :=
  let o := s.homeOwner pa
  if s.poisonedAt (.dev pa) bs.length then s.consume o (.dev pa) bs.length else s.storeIn o (.dev pa) bs

/-! ### Translation (R186, R213 to R215, R263, R267) -/

/-- What a frame names (R186): device memory, host memory or a peer. -/
def frameTarget (f : DWord) : Target :=
  if f.getLsbD 63 then .host (f.toNat % 2 ^ 63)
  else if f.getLsbD 62 then .peer (natBits f.toNat 56 6) (natBits f.toNat 0 44)
  else .dev f.toNat

/-- Whether a 64-bit frame has a form that R186 admits, on this variant. -/
def frameOk (v : Variant) (f : DWord) : Bool :=
  f.getLsbD 63 || f.getLsbD 62 || (decide (f.toNat < 2 ^ 44) && (paParts v f.toNat).isSome)

/-- A TLB entry covers an address. -/
def TlbEntry.covers (e : TlbEntry) (va : Nat) : Bool := decide (e.va ≤ va) && decide (va < e.va + e.size)

/-- The resident owner's entry for an address (R213). -/
def Core.tlbFind (k : Core) (va : Nat) : Option TlbEntry := k.tlb.find? fun e => e.covers va

/-- The frame address of a byte of an entry. -/
def TlbEntry.frame (e : TlbEntry) (va : Nat) : DWord := e.pa + BitVec.ofNat 64 (va - e.va)

/-- Kinds of access that need a permission. -/
inductive Acc where
  | read | write | atomic | execute
  deriving DecidableEq, Repr

/-- ACCESS codes (Table 2.7). -/
def accCode : Acc → Nat
  | .read => 1 | .write => 2 | .atomic => 3 | .execute => 4

/-- The permission an access needs (Table 16.5): atomics and stores W, loads R, fetch X. -/
def TlbEntry.permits (e : TlbEntry) : Acc → Bool
  | .read => e.r
  | .write => e.w
  | .atomic => e.w
  | .execute => e.x

/-- Whether a peer is reachable: a direct link to the named module, and not the module itself (R267). -/
def State.peerOk (s : State) : Target → Bool
  | .peer m _ => s.mgmt.links.any (fun l => l.2 == m) && m != s.mgmt.devnum
  | _ => true

/-- The outcome of a translation. -/
inductive Xlat where
  | miss
  | perm
  | ok (t : Target) (noL1 : Bool)
  deriving DecidableEq, Repr

/-- Whether an access writes (R212). -/
def Acc.writes : Acc → Bool
  | .write | .atomic => true
  | .read | .execute => false

/-- The envelope copy and the reserved bytes of the ballast of a core's owner, which no store may touch (R212, Table 16.2). -/
def State.readOnly (s : State) (c : Nat) : Target → Bool
  | .dev pa => match (s.core c).owner.bind s.owner with
    | some o => decide (o.bbase ≤ pa) && decide (pa < o.bbase + 0x1000)
    | none => false
  | _ => false

/-- Translates one address of an owner's access (R213, R330): PERM for bits above 47, for a missing permission, for a peer that no
link reaches and for a store to what is read only. -/
def State.translate (s : State) (c : Nat) (acc : Acc) (va : DWord) : Xlat :=
  if va.toNat ≥ 2 ^ 48 then .perm
  else match (s.core c).tlbFind va.toNat with
    | none => .miss
    | some e =>
      let t := frameTarget (e.frame va.toNat)
      if e.permits acc && s.peerOk t && !(acc.writes && s.readOnly c t) then .ok t e.policy else .perm

/-- The ballast window (R212, Table 16.2): a physical address inside the ballast; a store must not touch the envelope
copy or the reserved bytes. -/
def Owner.ballast (o : Owner) (store : Bool) (pa : DWord) (n : Nat) : Bool :=
  decide (o.bbase ≤ pa.toNat) && decide (pa.toNat + n ≤ o.bbase + o.bsize * 65536) &&
    (!store || decide (o.bbase + 0x1000 ≤ pa.toNat))

/-- An access by its form: translated, or through the ballast window, which goes around the L1. -/
def State.resolve (s : State) (w : Where) (bw : Bool) (acc : Acc) (n : Nat) (va : DWord) : Xlat :=
  if bw then
    match s.ownerOf w with
    | some o => if o.ballast (decide (acc ≠ .read)) va n then .ok (.dev va.toNat) true else .perm
    | none => .perm
  else s.translate (wCore w) acc va

/-- The address as taddr gives it (R36): a physical ballast-window access has bit 63 set. -/
def taddrOf (bw : Bool) (va : DWord) : DWord :=
  if bw then BitVec.ofNat 64 (2 ^ 63 + va.toNat % 2 ^ 44) else BitVec.ofNat 64 (va.toNat % 2 ^ 63)

end Sys2Proof.Machine
end

