-- ==== Sys2Proof/Machine/Flags.lean ====
section
/-!
DEFINITION. Every status flag of Tables 2.5 and 8.5 and how a lane's arithmetic sets its status (R34, R60, R116).
-/

namespace Sys2Proof.Machine

/-- A set of status conditions, in the bit positions of astat and aen. -/
abbrev Flags := BitVec 7

/-- IV, invalid. -/
def fIV : Flags := 0x01#7

/-- DZ, divide by zero. -/
def fDZ : Flags := 0x02#7

/-- OF, overflow. -/
def fOF : Flags := 0x04#7

/-- UF, underflow. -/
def fUF : Flags := 0x08#7

/-- NX, inexact. -/
def fNX : Flags := 0x10#7

/-- ST, saturation. -/
def fST : Flags := 0x20#7

/-- QX, a fifth or later Q4X marker. -/
def fQX : Flags := 0x40#7

/-- A condition when `b` holds. -/
def flagIf (b : Bool) (f : Flags) : Flags := if b then f else 0#7

/-- STATUS (R60): the flags join astat; a flag that aen enables sets pend. -/
def Thread.status (t : Thread) (f : Flags) : Thread :=
  { t with astat := t.astat ||| f.setWidth 32, pend := t.pend || decide (f.setWidth 32 &&& t.aen ≠ 0#32) }

/-- STATUS of a lane. -/
def Sheet.status (sh : Sheet) (l : Nat) (f : Flags) : Sheet := sh.modLane l fun t => t.status f

end Sys2Proof.Machine
end

