-- ==== Sys2Proof/Machine/Numbers.lean ====
section
/-!
DEFINITION. Number formats and exact arithmetic (R99 to R113): values as signed dyadic numbers, ROUND and NARROW,
conversions, Q4X blocks, and the functions of R323 as brackets around the exact result.
-/

namespace Sys2Proof.Machine

/-! ### Formats (Table 8.1) -/

/-- A floating-point format: fraction bits, exponent bits and bias. E4M3 has no infinity. -/
structure Fmt where
  e : Nat
  m : Nat
  bias : Nat
  noInf : Bool
  deriving DecidableEq, Repr

/-- FP32. -/
def fp32 : Fmt := ⟨8, 23, 127, false⟩

/-- BF16. -/
def bf16 : Fmt := ⟨8, 7, 127, false⟩

/-- FP16. -/
def fp16 : Fmt := ⟨5, 10, 15, false⟩

/-- E5M2. -/
def e5m2 : Fmt := ⟨5, 2, 15, false⟩

/-- E4M3. -/
def e4m3 : Fmt := ⟨4, 3, 7, true⟩

/-- Bits of the largest finite magnitude. -/
def Fmt.maxFin (f : Fmt) : Nat := if f.noInf then 2 ^ (f.e + f.m) - 2 else (2 ^ f.e - 1) * 2 ^ f.m - 1

/-- Bits of infinity. -/
def Fmt.inf (f : Fmt) : Nat := (2 ^ f.e - 1) * 2 ^ f.m

/-- Bits of the canonical NaN (R101). -/
def Fmt.nan (f : Fmt) : Nat := if f.noInf then 2 ^ (f.e + f.m) - 1 else (2 ^ f.e - 1) * 2 ^ f.m + 2 ^ (f.m - 1)

/-- A sign above a magnitude. -/
def Fmt.signed (f : Fmt) (neg : Bool) (mag : Nat) : Nat := (if neg then 2 ^ (f.e + f.m) else 0) + mag

/-- A floating-point value: NaN (signalling or quiet), infinity, or (-1)^neg * m * 2^e. -/
inductive FVal where
  | nan (sig : Bool)
  | inf (neg : Bool)
  | fin (neg : Bool) (m : Nat) (e : Int)
  deriving DecidableEq, Repr

/-- The value of a format's bits (R100, R101). -/
def Fmt.value (f : Fmt) (x : Nat) : FVal :=
  let x := x % 2 ^ (1 + f.e + f.m)
  let neg := decide (2 ^ (f.e + f.m) ≤ x)
  let mag := x % 2 ^ (f.e + f.m)
  let ef := mag / 2 ^ f.m
  let fr := mag % 2 ^ f.m
  if f.noInf then
    if mag = 2 ^ (f.e + f.m) - 1 then .nan false
    else if ef = 0 then .fin neg fr (1 - (f.bias : Int) - f.m) else .fin neg (fr + 2 ^ f.m) ((ef : Int) - f.bias - f.m)
  else if ef = 2 ^ f.e - 1 then
    if fr = 0 then .inf neg else .nan (decide (fr < 2 ^ (f.m - 1)))
  else if ef = 0 then .fin neg fr (1 - (f.bias : Int) - f.m)
  else .fin neg (fr + 2 ^ f.m) ((ef : Int) - f.bias - f.m)

/-- Whether bits are a nonzero subnormal. -/
def Fmt.subnormal (f : Fmt) (x : Nat) : Bool :=
  let mag := x % 2 ^ (f.e + f.m)
  decide (mag ≠ 0) && decide (mag < 2 ^ f.m)

/-- An input under .ftz: a subnormal is a zero of its sign (R109). -/
def Fmt.input (f : Fmt) (ftz : Bool) (x : Nat) : FVal :=
  match f.value x with
  | .fin neg m e => if ftz && f.subnormal x then .fin neg 0 e else .fin neg m e
  | v => v

/-! ### ROUND and NARROW (R105, R106) -/

/-- RMODE (R60): the code, or rm.MODE under .dyn. -/
def rmode (r : Rnd) (rm : Word) : Rnd :=
  match r with
  | .dyn => match (rm.extractLsb' 0 3).toNat with
    | 0 => .rne | 1 => .rtz | 2 => .rup | 3 => .rdn | 4 => .rna
    | _ => .rne
  | r => r

/-- SATON (R60). -/
def saton (sats : Bool) (rm : Word) : Bool := sats || rm.getLsbD 3

/-- Whether a magnitude between `q` and `q + 1` rounds up: `cmp` says where the rest lies against one half. -/
def roundsUp (mode : Rnd) (neg : Bool) (q : Nat) (inexact : Bool) (cmp : Ordering) : Bool :=
  match mode with
  | .rne | .dyn => cmp == .gt || (cmp == .eq && q % 2 == 1)
  | .rna => cmp != .lt
  | .rtz => false
  | .rup => inexact && !neg
  | .rdn => inexact && neg

/-- The rest of m / 2^s against one half, with a sticky bit below. -/
def restCmp (r half : Nat) (sticky : Bool) : Ordering :=
  if r < half then .lt else if half < r then .gt else if sticky then .gt else .eq

/-- A magnitude m * 2^e, or one strictly between it and (m + 1) * 2^e when `sticky`, rounded to a format: the bits of the
magnitude before any overflow is judged, and whether they are inexact. -/
def roundMag (f : Fmt) (mode : Rnd) (neg : Bool) (m : Nat) (e : Int) (sticky : Bool) : Nat × Bool :=
  let top : Int := e + Nat.log2 m
  let u : Int := max (top - f.m) (1 - (f.bias : Int) - f.m)
  let field : Int := u + f.m + f.bias
  let (q, inexact, cmp) :=
    if e < u then
      let s := (u - e).toNat
      let r := m % 2 ^ s
      (m / 2 ^ s, decide (r ≠ 0) || sticky, restCmp r (2 ^ (s - 1)) sticky)
    else (m * 2 ^ (e - u).toNat, sticky, if sticky then Ordering.lt else .lt)
  let q := if roundsUp mode neg q inexact cmp then q + 1 else q
  ((field - 1).toNat * 2 ^ f.m + q, inexact)

/-- Overflowed results (Table 8.4). -/
def overflowBits (f : Fmt) (mode : Rnd) (neg : Bool) : Nat :=
  match mode, neg with
  | .rtz, _ => f.maxFin
  | .rup, true => f.maxFin
  | .rdn, false => f.maxFin
  | _, _ => f.inf

/-- ROUND and NARROW of a value (R105, R106): `sat` clamps overflow, as E4M3 always does. `sticky` as in `roundMag`. -/
def narrowSticky (f : Fmt) (mode : Rnd) (sat : Bool) (v : FVal) (sticky : Bool) : Nat × Flags :=
  let sat := sat || f.noInf
  match v with
  | .nan sig => (f.nan, flagIf sig fIV)
  | .inf neg => if sat then (f.signed neg f.maxFin, fST) else (f.signed neg f.inf, 0#7)
  | .fin neg m e =>
    if m = 0 ∧ ¬ sticky then (f.signed neg 0, 0#7)
    else
      let (bits, inexact) := roundMag f mode neg m e sticky
      if f.maxFin < bits then
        if sat then (f.signed neg f.maxFin, fOF ||| fNX ||| fST)
        else (f.signed neg (overflowBits f mode neg), fOF ||| fNX)
      else
        (f.signed neg bits, flagIf inexact fNX ||| flagIf (inexact && decide (bits ≠ 0) && decide (bits < 2 ^ f.m)) fUF)

/-- ROUND of an exact value. -/
def roundVal (f : Fmt) (mode : Rnd) (v : FVal) : Nat × Flags := narrowSticky f mode false v false

/-- NARROW of an exact value. -/
def narrowVal (f : Fmt) (mode : Rnd) (sat : Bool) (v : FVal) : Nat × Flags := narrowSticky f mode sat v false

/-- A result under .ftz: a subnormal is written as a zero of its sign, with UF and NX (R109). -/
def ftzOut (f : Fmt) (ftz : Bool) (r : Nat × Flags) : Nat × Flags :=
  if ftz && f.subnormal r.1 then (f.signed (decide (2 ^ (f.e + f.m) ≤ r.1)) 0, r.2 ||| fUF ||| fNX) else r

/-! ### Exact sums and products -/

/-- A signed integer as sign and magnitude. -/
def FVal.ofInt (x : Int) (e : Int) : FVal := .fin (decide (x < 0)) x.natAbs e

/-- The signed mantissa of a finite value at an exponent not above its own. -/
def FVal.at_ (v : FVal) (e : Int) : Int :=
  match v with
  | .fin neg m k => (if neg then -1 else 1) * ((m * 2 ^ (k - e).toNat : Nat) : Int)
  | _ => 0

/-- The exponent of a finite value. -/
def FVal.exp : FVal → Int
  | .fin _ _ e => e
  | _ => 0

/-- Whether a value is NaN. -/
def FVal.isNan : FVal → Bool
  | .nan _ => true
  | _ => false

/-- Whether a value is a signalling NaN. -/
def FVal.isSig : FVal → Bool
  | .nan sig => sig
  | _ => false

/-- Whether a value is an infinity of a sign. -/
def FVal.isInf (neg : Bool) : FVal → Bool
  | .inf n => n == neg
  | _ => false

/-- The sign of a value. -/
def FVal.neg : FVal → Bool
  | .fin n _ _ => n
  | .inf n => n
  | .nan _ => false

/-- Whether a value is a zero. -/
def FVal.isZero : FVal → Bool
  | .fin _ m _ => m == 0
  | _ => false

/-- A product (IEEE 754-2019 special values; NaNs by R101), with IV for 0 times infinity and signalling NaNs. -/
def fmulEx (a b : FVal) : FVal × Flags :=
  let iv := flagIf (a.isSig || b.isSig) fIV
  let neg := a.neg != b.neg
  if a.isNan || b.isNan then (.nan false, iv)
  else
    match a, b with
    | .fin _ m e, .fin _ n k => (.fin neg (m * n) (e + k), 0#7)
    | x, y => if x.isZero || y.isZero then (.nan false, fIV) else (.inf neg, 0#7)

/-- Both infinities stand among some values, also beside a NaN (R111, R322). -/
def oppositeInf (xs : List FVal) : Bool := xs.any (·.isInf true) && xs.any (·.isInf false)

/-- The exact sum of some values: a zero sum of zeros of one sign keeps it, any other zero sum is +0, or -0 under RDN
(R105, R319). -/
def sumEx (mode : Rnd) (xs : List FVal) : FVal × Flags :=
  let iv := flagIf (xs.any (·.isSig) || oppositeInf xs) fIV
  if xs.any (·.isNan) || oppositeInf xs then (.nan false, iv)
  else if xs.any (·.isInf true) then (.inf true, 0#7)
  else if xs.any (·.isInf false) then (.inf false, 0#7)
  else
    let e := xs.foldl (fun k v => min k v.exp) ((xs.headD (.fin false 0 0)).exp)
    let t := xs.foldl (fun k v => k + v.at_ e) 0
    if t = 0 then
      if xs.all fun v => v.isZero && v.neg then (.fin true 0 e, 0#7)
      else if xs.all fun v => v.isZero && !v.neg then (.fin false 0 e, 0#7)
      else (.fin (decide (mode = .rdn)) 0 e, 0#7)
    else (FVal.ofInt t e, 0#7)

/-- Exact comparison of two values that are no NaNs. -/
def fcmpVal (a b : FVal) : Ordering :=
  match a, b with
  | .inf x, .inf y => if x == y then .eq else if x then .lt else .gt
  | .inf x, _ => if x then .lt else .gt
  | _, .inf y => if y then .gt else .lt
  | a, b =>
    let e := min a.exp b.exp
    compare (a.at_ e) (b.at_ e)

/-! ### Integers and elements (R99, R107, R108) -/

/-- The format of a float element type. -/
def elemFmt : Elem → Option Fmt
  | .e4m3 => some e4m3 | .e5m2 => some e5m2 | .bf16 => some bf16 | .fp16 => some fp16 | .fp32 => some fp32
  | _ => none

/-- Whether an integer element type is signed. -/
def elemSigned : Elem → Bool
  | .int8 | .int16 | .int32 | .int64 => true
  | _ => false

/-- Range of an integer element type. -/
def elemRange (e : Elem) : Int × Int :=
  if elemSigned e then (-(2 ^ (e.bits - 1) : Int), (2 ^ (e.bits - 1) : Int) - 1) else (0, (2 ^ e.bits : Int) - 1)

/-- The integer that an element's bits stand for. -/
def elemInt (e : Elem) (x : DWord) : Int :=
  let n := x.toNat % 2 ^ e.bits
  if elemSigned e && decide (2 ^ (e.bits - 1) ≤ n) then (n : Int) - 2 ^ e.bits else n

/-- A value rounded to an integer, with whether it changed. -/
def roundInt (mode : Rnd) (neg : Bool) (m : Nat) (e : Int) : Int × Bool :=
  if 0 ≤ e then ((if neg then -1 else 1) * ((m * 2 ^ e.toNat : Nat) : Int), false)
  else
    let s := (-e).toNat
    let r := m % 2 ^ s
    let q := m / 2 ^ s
    let inexact := decide (r ≠ 0)
    let q := if roundsUp mode neg q inexact (restCmp r (2 ^ (s - 1)) false) then q + 1 else q
    ((if neg then -1 else 1) * (q : Int), inexact)

/-- Float to integer (R108). -/
def floatToInt (dt : Elem) (mode : Rnd) (v : FVal) : Int × Flags :=
  let (lo, hi) := elemRange dt
  match v with
  | .nan _ => (0, fIV)
  | .inf neg => (if neg then lo else hi, fIV)
  | .fin neg m e =>
    let (x, inexact) := roundInt mode neg m e
    if x < lo then (lo, fIV) else if hi < x then (hi, fIV) else (x, flagIf inexact fNX)

/-- Conversions between floating-point formats that every value of the source passes exactly: SATON plays no part in them (R107). The
rule calls every E4M3 and E5M2 source exact, which from one of the two to the other it cannot be: those two pairs narrow (log 51). -/
def widens (dt st : Elem) : Bool :=
  match st, dt with
  | .e4m3, .bf16 | .e4m3, .fp16 | .e4m3, .fp32 | .e5m2, .bf16 | .e5m2, .fp16 | .e5m2, .fp32 | .bf16, .fp32 | .fp16, .fp32 => true
  | _, _ => false

/-- One element converted (R107, R108): the bits of the destination type, zero above them. -/
def convElem (dt st : Elem) (mode : Rnd) (sat : Bool) (x : DWord) : DWord × Flags :=
  match elemFmt dt, elemFmt st with
  | some f, some g =>
    let r := narrowVal f mode (sat && !widens dt st) (g.value (x.toNat % 2 ^ st.bits))
    (BitVec.ofNat 64 r.1, r.2)
  | some f, none =>
    let r := narrowVal f mode sat (FVal.ofInt (elemInt st x) 0)
    (BitVec.ofNat 64 r.1, r.2)
  | none, some g =>
    let r := floatToInt dt mode (g.value (x.toNat % 2 ^ st.bits))
    (BitVec.ofNat 64 ((BitVec.ofInt 64 r.1).toNat % 2 ^ dt.bits), r.2)
  | none, none =>
    let v := elemInt st x
    let (lo, hi) := elemRange dt
    if lo ≤ v ∧ v ≤ hi then (BitVec.ofNat 64 ((BitVec.ofInt 64 v).toNat % 2 ^ dt.bits), 0#7)
    else if sat then
      (BitVec.ofNat 64 ((BitVec.ofInt 64 (if v < lo then lo else hi)).toNat % 2 ^ dt.bits), fST)
    else (BitVec.ofNat 64 ((BitVec.ofInt 64 v).toNat % 2 ^ dt.bits), 0#7)

/-! ### Q4X (R102, R103) -/

/-- Nibble j of a block's 16 nibble bytes. -/
def nib (blk : List Byte) (j : Nat) : Nat :=
  let b := (blk.getD (j / 2) 0#8).toNat
  if j % 2 = 0 then b % 16 else b / 16

/-- What the first pass of QDECODE has found: outlier values, taken slots, markers used, and a fifth marker. -/
structure QScan where
  vals : List (Nat × Nat)
  taken : List Nat
  k : Nat
  qx : Bool

/-- The first pass of QDECODE over one slot. -/
def qScanStep (blk : List Byte) (spill : Nat) (a : QScan) (j : Nat) : QScan :=
  if nib blk j = 8 ∧ ¬ a.taken.contains j then
    let p := Nat.xor j 1
    if a.k < 4 then
      { a with vals := a.vals ++ [(j, nib blk p * 16 + spill / 2 ^ (4 * a.k) % 16)], taken := a.taken ++ [j, p], k := a.k + 1 }
    else { a with qx := true, taken := a.taken ++ [j] }
  else a

/-- QDECODE (R103): the 32 elements with each one's own flags, and whether the block has a fifth marker. -/
def qDecode (blk : List Byte) : List (FVal × Flags) × Bool :=
  let scale := bf16.value (leNat ((blk.drop 16).take 2))
  let spill := leNat ((blk.drop 18).take 2)
  let a := (List.range 32).foldl (qScanStep blk spill) ⟨[], [], 0, false⟩
  let sigF := flagIf scale.isSig fIV
  let elem (j : Nat) : FVal × Flags :=
    match a.vals.find? fun x => x.1 == j with
    | some (_, b) => let r := fmulEx (e4m3.value b) scale; (r.1, r.2 ||| sigF)
    | none =>
      if a.taken.contains j then (.fin false 0 0, sigF)
      else
        let n := nib blk j
        let v := FVal.ofInt (if 8 ≤ n then (n : Int) - 16 else n) 0
        let r := fmulEx v scale
        (r.1, r.2 ||| sigF)
  ((List.range 32).map elem, a.qx)

/-! ### The function mould (R323) -/

/-- The integer square root, one result bit at a time from bit `n - 1` down. -/
def isqrtFrom (x : Nat) : Nat → Nat → Nat
  | 0, r => r
  | n + 1, r =>
    let t := r + 2 ^ n
    isqrtFrom x n (if t * t ≤ x then t else r)

/-- The integer square root. -/
def isqrt (x : Nat) : Nat := isqrtFrom x (Nat.log2 x / 2 + 1) 0

/-- 1 / (m * 2^e) with 64 bits more than it needs, and whether it is cut off. -/
def recip (m : Nat) (e : Int) : Nat × Int × Bool :=
  let k := Nat.log2 m + 64
  (2 ^ k / m, -(k : Int) - e, decide (2 ^ k % m ≠ 0))

/-- The square root of m * 2^e, likewise. -/
def sqrtEx (m : Nat) (e : Int) : Nat × Int × Bool :=
  let odd := e % 2 ≠ 0
  let m' := (if odd then 2 * m else m) * 2 ^ 128
  let e' := (if odd then e - 1 else e) - 128
  let r := isqrt m'
  (r, e' / 2, decide (r * r ≠ m'))

/-- 1 / sqrt(m * 2^e), likewise. -/
def rsqrtEx (m : Nat) (e : Int) : Nat × Int × Bool :=
  let odd := e % 2 ≠ 0
  let m' := if odd then 2 * m else m
  let e' := if odd then e - 1 else e
  let k := 2 * (Nat.log2 m' + 64)
  let r := isqrt (2 ^ k / m')
  (r, -((k : Int) / 2) - e' / 2, decide (r * r * m' ≠ 2 ^ k))

/-- Fraction bits of the fixed-point evaluations below. -/
def fixP : Nat := 320

/-- 2^(i-th root chain): sum over the bits of a fraction of `n` bits, most significant first, of factors 2^(2^-i). -/
def exp2Frac (f : Nat) : Nat → Nat → Nat → Nat
  | 0, _, acc => acc
  | n + 1, root, acc =>
    let root := isqrt (root * 2 ^ fixP)
    exp2Frac f n root (if f.testBit n then acc * root / 2 ^ fixP else acc)

/-- 2^(neg m * 2^e) for a value that is no integer: a lower bound with a sticky bit. -/
def exp2Ex (neg : Bool) (m : Nat) (e : Int) : Nat × Int × Bool :=
  let s := (-e).toNat
  let x : Int := if neg then -(m : Int) else m
  let n := x / 2 ^ s
  let fr := (x % 2 ^ s).toNat
  let f160 := if 160 ≤ s then fr / 2 ^ (s - 160) else fr * 2 ^ (160 - s)
  let r := exp2Frac f160 160 (2 * 2 ^ fixP) (2 ^ fixP)
  (r, n - fixP, true)

/-- Bits of the fraction of log2 of y in [1, 2), given with 640 fraction bits, by squaring. -/
def log2Frac : Nat → Nat → Nat → Nat
  | 0, _, acc => acc
  | n + 1, y, acc =>
    let z := y * y / 2 ^ 640
    if 2 * 2 ^ 640 ≤ z then log2Frac n (z / 2) (2 * acc + 1) else log2Frac n z (2 * acc)

/-- log2(m * 2^e) for a value that is no power of two: sign, lower bound of the magnitude with a sticky bit. -/
def log2Ex (m : Nat) (e : Int) : Bool × Nat × Int × Bool :=
  let k := Nat.log2 m
  let n : Int := e + k
  let y := m * 2 ^ 640 / 2 ^ k
  let f := log2Frac 160 y 0
  let x : Int := n * 2 ^ 160 + f
  if 0 ≤ x then (false, x.toNat, -160, true) else (true, (-x - 1).toNat, -160, true)

/-- arctan(1 / n) in fixed point: the alternating series over `k` terms. -/
def atanInv (n : Nat) : Nat → Nat → Nat → Int → Int
  | 0, _, _, acc => acc
  | k + 1, t, i, acc =>
    let d : Int := ((t / (2 * i + 1) : Nat) : Int)
    atanInv n k (t / (n * n)) (i + 1) (if i % 2 = 0 then acc + d else acc - d)

/-- Pi in fixed point with 32 guard bits, by Machin's formula. -/
def piFix : Nat :=
  let one := 2 ^ (fixP + 32)
  (16 * atanInv 5 160 (one / 5) 0 0 - 4 * atanInv 239 60 (one / 239) 0 0).toNat / 2 ^ 32

/-- The sine series in fixed point: `t` is the current term, `x2` the square of the argument. -/
def sinSeries (x2 : Nat) : Nat → Nat → Nat → Int → Int
  | 0, _, _, acc => acc
  | k + 1, t, i, acc =>
    let acc := if i % 2 = 0 then acc + (t : Int) else acc - (t : Int)
    sinSeries x2 k (t * x2 / 2 ^ fixP / ((2 * i + 2) * (2 * i + 3))) (i + 1) acc

/-- sin(pi * r / d) for 0 < r < d / 2: a lower bound with a sticky bit. -/
def sinEx (r d : Nat) : Nat × Int × Bool :=
  let x := piFix * r / d
  let v := (sinSeries (x * x / 2 ^ fixP) 80 x 0 0).toNat
  (min (v - 2 ^ 16) (2 ^ fixP - 1), -(fixP : Int), true)

/-- A faithful FP32 result from a lower bound: one of its two neighbours, by `Config.faithfulUp` (R323). -/
def faithful (fn : Nat) (arg : Word) (neg : Bool) (b : Nat × Int × Bool) : Nat × Flags :=
  let (bits, inexact) := roundMag fp32 .rtz neg b.1 b.2.1 b.2.2
  let bits := if inexact && Config.faithfulUp fn arg then bits + 1 else bits
  if fp32.maxFin < bits then (fp32.signed neg fp32.inf, fOF ||| fNX)
  else (fp32.signed neg bits, flagIf inexact fNX ||| flagIf (inexact && decide (bits ≠ 0) && decide (bits < 2 ^ 23)) fUF)

/-- FRCP of an element (Table 22.5). -/
def frcpVal (f : Fmt) (mode : Rnd) (v : FVal) : Nat × Flags :=
  match v with
  | .nan sig => (f.nan, flagIf sig fIV)
  | .inf neg => (f.signed neg 0, 0#7)
  | .fin neg m e =>
    if m = 0 then (f.signed neg f.inf, fDZ)
    else
      let (q, k, st) := recip m e
      narrowSticky f mode false (.fin neg q k) st

/-- FSQRT of an element (Table 22.5). -/
def fsqrtVal (f : Fmt) (mode : Rnd) (v : FVal) : Nat × Flags :=
  match v with
  | .nan sig => (f.nan, flagIf sig fIV)
  | .inf neg => if neg then (f.nan, fIV) else (f.inf, 0#7)
  | .fin neg m e =>
    if m = 0 then (f.signed neg 0, 0#7)
    else if neg then (f.nan, fIV)
    else
      let (q, k, st) := sqrtEx m e
      narrowSticky f mode false (.fin false q k) st

/-- FRSQ (Table 22.5). -/
def frsqVal (arg : Word) (v : FVal) : Nat × Flags :=
  match v with
  | .nan sig => (fp32.nan, flagIf sig fIV)
  | .inf neg => if neg then (fp32.nan, fIV) else (0, 0#7)
  | .fin neg m e =>
    if m = 0 then (fp32.signed neg fp32.inf, fDZ)
    else if neg then (fp32.nan, fIV)
    else faithful 0 arg false (rsqrtEx m e)

/-- Whether m * 2^e is an integer. -/
def isInteger (m : Nat) (e : Int) : Bool := decide (0 ≤ e) || decide (m % 2 ^ (-e).toNat = 0)

/-- FEX2 (Table 22.5): 2^n is exact wherever it is representable; a huge magnitude overflows or underflows. -/
def fex2Val (arg : Word) (v : FVal) : Nat × Flags :=
  match v with
  | .nan sig => (fp32.nan, flagIf sig fIV)
  | .inf neg => if neg then (0, 0#7) else (fp32.inf, 0#7)
  | .fin neg m e =>
    if m = 0 then (fp32.bias * 2 ^ 23, 0#7)
    else if 12 < e + Nat.log2 m then
      if neg then faithful 1 arg false (1, -5000, true) else (fp32.inf, fOF ||| fNX)
    else if isInteger m e then
      let n : Int := (if neg then -1 else 1) * (roundInt .rtz false m e).1
      faithful 1 arg false (1, n, false)
    else faithful 1 arg false (exp2Ex neg m e)

/-- FLG2 (Table 22.5). -/
def flg2Val (arg : Word) (v : FVal) : Nat × Flags :=
  match v with
  | .nan sig => (fp32.nan, flagIf sig fIV)
  | .inf neg => if neg then (fp32.nan, fIV) else (fp32.inf, 0#7)
  | .fin neg m e =>
    if m = 0 then (fp32.signed true fp32.inf, fDZ)
    else if neg then (fp32.nan, fIV)
    else if m = 2 ^ Nat.log2 m then
      let n : Int := e + Nat.log2 m
      roundVal fp32 .rne (FVal.ofInt n 0)
    else
      let (ng, q, k, st) := log2Ex m e
      faithful 2 arg ng (q, k, st)

/-- sin(pi * r / d) with r taken modulo 2d: exact zeros and ones, else a bracket; `zneg` is the sign of a zero. -/
def sinTurn (fn : Nat) (arg : Word) (neg zneg : Bool) (r d : Nat) : Nat × Flags :=
  let r := r % (2 * d)
  let (r, neg) := if d ≤ r then (r - d, !neg) else (r, neg)
  if r = 0 then (fp32.signed zneg 0, 0#7)
  else
    let r := if d < 2 * r then d - r else r
    if 2 * r = d then (fp32.signed neg (fp32.bias * 2 ^ 23), 0#7) else faithful fn arg neg (sinEx r d)

/-- FSIN and FSIN.cos (Table 22.5): of pi times the argument. -/
def fsinVal (cos : Bool) (arg : Word) (v : FVal) : Nat × Flags :=
  match v with
  | .nan sig => (fp32.nan, flagIf sig fIV)
  | .inf _ => (fp32.nan, fIV)
  | .fin neg m e =>
    let d := if e < 0 then 2 ^ (-e).toNat else 1
    let r := if e < 0 then m else m * 2 ^ e.toNat
    if cos then sinTurn 4 arg false false (2 * r + d) (2 * d) else sinTurn 3 arg neg neg r d

/-- The lesser or greater of two values (R320), as bits, with IV for a signalling NaN. -/
def fminMax (f : Fmt) (wantMax : Bool) (x y : Nat) (a b : FVal) : Nat × Flags :=
  let iv := flagIf (a.isSig || b.isSig) fIV
  if a.isNan && b.isNan then (f.nan, iv)
  else if a.isNan then (y, iv)
  else if b.isNan then (x, iv)
  else
    match fcmpVal a b with
    | .lt => (if wantMax then y else x, iv)
    | .gt => (if wantMax then x else y, iv)
    | .eq => (if a.neg != wantMax then x else y, iv)

end Sys2Proof.Machine
end

