-- ==== Sys2Proof/Machine/Array.lean ====
section
/-!
DEFINITION. The matrix array (R111, R112, R130, R133, R134): one K-step of a loop, one row of ACLR and of AOUT, and what the
entry at the head of a core's queue does.
-/

namespace Sys2Proof.Machine

/-- The format of a float code of a format word. -/
def fwFmt (code : Nat) : Fmt :=
  match code with
  | 0 => e4m3
  | 1 => e5m2
  | 2 => bf16
  | _ => fp16

/-- Bytes as elements of a float code. -/
def fwElems (code : Nat) (bs : List Byte) : List FVal :=
  let w := fwBytes code
  (List.range (bs.length / w)).map fun j => (fwFmt code).value (leNat ((bs.drop (w * j)).take w))

/-- The elements of Q4X blocks, with all their decode flags (R103). -/
def q4xElems (bs : List Byte) (n : Nat) : List FVal × Flags :=
  let blks := (List.range ((n + 31) / 32)).map fun b => qDecode ((bs.drop (20 * b)).take 20)
  let els := (blks.flatMap (·.1)).take n
  (els.map (·.1), blks.foldl (fun f b => f ||| flagIf b.2 fQX) (els.foldl (fun f e => f ||| e.2) 0#7))

/-- floor(log2 |p|) of a nonzero finite product. -/
def FVal.log (v : FVal) : Option Int :=
  match v with
  | .fin _ (m + 1) e => some (e + Nat.log2 (m + 1))
  | _ => none

/-- A finite product truncated toward zero to a multiple of 2^u. -/
def FVal.truncTo (u : Int) (v : FVal) : FVal :=
  match v with
  | .fin neg m e => if e < u then .fin neg (m / 2 ^ (u - e).toNat) u else v
  | v => v

/-- The products of a 16-bit step, truncated 48 bits below the largest (R111 step 3). The truncation raises no NX of its own: the result
that Table 8.5 compares is the sum's (log 51). -/
def truncProducts (ps : List FVal) : List FVal :=
  match ps.filterMap FVal.log with
  | [] => ps
  | x :: rest => ps.map (FVal.truncTo (rest.foldl max x - 48))

/-- The exact sum S of a step's products, from +0. -/
def dotSum (ps : List FVal) : FVal × Flags :=
  let t := sumEx .rne ps
  match t.1 with
  | .fin _ 0 e => (.fin false 0 e, t.2)
  | v => (v, t.2)

/-- One element's step on floats: C := ROUND(C + S). -/
def accFloat (mode : Rnd) (narrowA : Bool) (c : Word) (as bs : List FVal) : Word × Flags :=
  let ps := List.zipWith fmulEx as bs
  let vs := ps.map (·.1)
  let t := dotSum (if narrowA then vs else truncProducts vs)
  let u := sumEx mode [fp32.value c.toNat, t.1]
  let r := roundVal fp32 mode u.1
  let opposite := flagIf (oppositeInf (fp32.value c.toNat :: vs)) fIV
  (BitVec.ofNat 32 r.1, ps.foldl (fun f p => f ||| p.2) (t.2 ||| u.2 ||| r.2 ||| opposite))

/-- One element's step on INT8, modulo 2^32 (R112). -/
def accInt (c : Word) (as bs : List Byte) : Word :=
  c + (List.zipWith (fun (x y : Byte) => (x.signExtend 32) * (y.signExtend 32)) as bs).foldl (· + ·) 0#32

/-- An element of the accumulator store. -/
def Core.accAt (k : Core) (row col : Nat) : Word := SMap.get 0#32 k.acc (row * 256 + col)

/-- Writes an element of the accumulator store. -/
def Core.setAcc (k : Core) (row col : Nat) (x : Word) : Core := { k with acc := SMap.set 0#32 k.acc (row * 256 + col) x }

/-- Bytes of a slice of the mould. -/
def Core.mouldBytes (k : Core) (slice off n : Nat) : List Byte := k.mould.read (slice * 65536 + off) n

/-- One K-step of a loop (R130). `pad` is the scratchpad as the array finds it, `base` where the workgroup's allocation starts. -/
def mloopStep (k : Core) (pad : Memory) (base m n depth acc abase astride boff : Nat) (ainc binc : Int) (fw : Word) (mode : Rnd) (st : Nat) :
    Core × Flags :=
  if stepLen fw depth st = 0 then (k, 0#7)
  else
    let rows := (List.range m).map fun r => pad.read ((base : Int) + aStart abase astride ainc r st).toNat (aBytes fw depth st)
    let cols := (List.range n).map fun c => k.mouldBytes c (bStart boff binc st).toNat (bBytes fw depth st)
    let cells := (List.range m).flatMap fun r => (List.range n).map fun c => (r, c)
    if fwA fw = 4 then
      (cells.foldl (fun k x => k.setAcc (acc + x.1) x.2 (accInt (k.accAt (acc + x.1) x.2) (rows.getD x.1 []) (cols.getD x.2 []))) k,
        0#7)
    else
      let as := rows.map (fwElems (fwA fw))
      let bs := cols.map fun b => if fwB fw = 5 then q4xElems b (stepLen fw depth st) else (fwElems (fwB fw) b, 0#7)
      let f0 := bs.foldl (fun f b => f ||| b.2) 0#7
      cells.foldl (fun (a : Core × Flags) x =>
        let r := accFloat mode (!fw16 (fwA fw)) (a.1.accAt (acc + x.1) x.2) (as.getD x.1 []) ((bs.getD x.2 ([], 0#7)).1)
        (a.1.setAcc (acc + x.1) x.2 r.1, a.2 ||| r.2)) (k, f0)

/-- The element type of AOUT's destination. -/
def outElem : OutTy → Elem
  | .e4m3 => .e4m3 | .e5m2 => .e5m2 | .bf16 => .bf16 | .f16 => .fp16 | .f32 => .fp32 | .i8 => .int8 | .i32 => .int32

/-- t < 0 becomes +0 under RELU; NaN and -0 stay. -/
def relu (on : Bool) (t : FVal) : FVal :=
  match t with
  | .fin true (_ + 1) e => if on then .fin false 0 e else t
  | .inf true => if on then .fin false 0 0 else t
  | t => t

/-- One element of AOUT (R134). -/
def aoutElem (x scale : Word) (bias : Option Word) (src32 : Bool) (dt : OutTy) (rl : Bool) (mode : Rnd) (sat : Bool) : Nat × Flags :=
  let val (w : Word) : FVal := if src32 then FVal.ofInt w.toInt 0 else fp32.value w.toNat
  let p := fmulEx (val x) (fp32.value scale.toNat)
  let t := match bias with
    | none => p
    | some b => let u := sumEx mode [p.1, val b]; (u.1, u.2 ||| p.2)
  let y := relu rl t.1
  let f := t.2 ||| flagIf ((val x).isNan) fIV
  match elemFmt (outElem dt) with
  | some fm => let r := narrowVal fm mode sat y; (r.1, r.2 ||| f)
  | none =>
    let r := floatToInt (outElem dt) mode y
    ((BitVec.ofInt 32 r.1).toNat % 2 ^ (8 * outBytes dt), r.2 ||| f)

/-- One row of AOUT: its bytes and flags. -/
def aoutRow (k : Core) (pad : Memory) (base row cols : Nat) (scale bias : Word) (src32 : Bool) (dt : OutTy) (rl : Bool) (mode : Rnd) (sat : Bool) :
    List Byte × Flags :=
  let els := (List.range cols).map fun n =>
    aoutElem (k.accAt row n) scale (if bias = 0xFFFFFFFF#32 then none else some (pad.word (base + bias.toNat + 4 * n))) src32 dt rl
      mode sat
  (els.flatMap fun e => leBytes (outBytes dt) e.1, els.foldl (fun f e => f ||| e.2) 0#7)

/-- Steps or rows of an operation. -/
def MatrixOp.steps : MatrixOp → Nat
  | .mloop steps _ _ _ _ _ _ _ _ _ _ => steps
  | .aclr _ c => c
  | .aout _ rows _ _ _ _ _ _ _ _ => rows

/-- One step or row of an entry: the state and the flags. The array is an agent of its core: what it reads of bytes that an AOUT still
has to write is undefined (R128). -/
def matrixStep (s : State) (c base : Nat) (e : MatrixEntry) : State × Flags :=
  let pad := (s.core c).seen s.free
  let s := { s with free := s.free + 2 ^ 23 }
  match e.op with
  | .mloop _ m n k acc abase astride boff ainc binc fw =>
    let r := mloopStep (s.core c) pad base m n k acc abase astride boff ainc binc fw e.rnd e.next
    (s.modCore c fun _ => r.1, r.2)
  | .aclr row _ => (s.modCore c fun k => { k with acc := SMap.clear k.acc ((row + e.next) * 256) 256 }, 0#7)
  | .aout rowBase _ cols dbase dstride scale bias src32 dt rl =>
    let r := aoutRow (s.core c) pad base (rowBase + e.next) cols scale bias src32 dt rl e.rnd e.sat
    (s.storeHome (.spad c (base + dbase + e.next * dstride)) r.1, r.2)

/-- The entry at the head of a core's queue performs up to `n` steps or rows. -/
def runMatrix : Nat → Nat → State → State
  | 0, _, s => s
  | n + 1, c, s =>
    match (s.core c).mq with
    | [] => s
    | e :: _ =>
      match (s.core c).wg e.slot with
      | none => s
      | some g =>
        if e.op.steps ≤ e.next then s
        else
          let (s, f) := matrixStep s c g.spadBase e
          runMatrix n c (s.modCore c fun k => { k with mq := match k.mq with
            | x :: rest => { x with next := x.next + 1, flags := x.flags ||| f.setWidth 32 } :: rest
            | [] => [] })

/-- Undefined C elements of a loop whose operands were disturbed (R128), with the counter moved on. -/
def spoilC (s : State) (c m n acc : Nat) : State :=
  let cells := (List.range m).flatMap fun r => (List.range n).map fun q => (r, q)
  let k := s.free
  { s.modCore c (fun x => cells.foldl (fun x rc =>
      x.setAcc (acc + rc.1) rc.2 ((Config.freeValue (k + rc.1 * 256 + rc.2)).setWidth 32)) x) with free := k + 3072 * 256 + 1 }

/-- A loop whose operands were disturbed leaves every element of C undefined once a step of it has performed (R128). Its flags are those
of the steps as they performed (log 45). -/
def spoilEntry (s : State) (c : Nat) (e : MatrixEntry) : State :=
  match e.op with
  | .mloop _ m n _ acc _ _ _ _ _ _ => if e.spoiled && decide (0 < e.next) then spoilC s c m n acc else s
  | _ => s

/-- The entries of a workgroup slot that have not completed, those saved with a pre-empted workgroup among them. -/
def Core.entriesOf (k : Core) (slot : Nat) : List MatrixEntry :=
  k.mq.filter (fun e => e.slot == slot) ++ ((k.wg slot).map (·.savedMq)).getD []

/-- Entries that are removed leave C undefined where they were disturbed and had begun (R128, R137). -/
def spoilSlot (s : State) (c slot : Nat) : State := ((s.core c).entriesOf slot).foldl (fun s e => spoilEntry s c e) s

/-- Ending the running entry of a workgroup slot early: it finishes its current step or row (R136, R137). The model performs no step of an
entry before its completion or its cut, and one at a cut: when the others would perform is time (log 49). -/
def cutMatrix (s : State) (c slot : Nat) : State :=
  match (s.core c).mq with
  | e :: _ => if e.slot = slot ∧ e.begun then runMatrix 1 c s else s
  | [] => s

end Sys2Proof.Machine
end

