-- ==== Sys2Proof/Machine/Tokens.lean ====
section
/-!
DEFINITION. The token buckets of an owner (R232, R237): what a request takes, who waits and who goes first, and where a COPY's next
unit goes, whose requests wait as the others do (R148).
-/

namespace Sys2Proof.Machine

/-! ### Buckets -/

/-- The bucket a target's requests charge: the link bucket for requests that leave the module. -/
def Target.onLink : Target → Bool
  | .host _ => true
  | .peer _ _ => true
  | _ => false

/-- An owner's bucket is above zero. Without an owner nothing waits. -/
def State.bucketOk (s : State) (o : Nat) (link : Bool) : Bool :=
  match s.owner o with
  | some x => decide (0 < if link then x.lnk else x.hbm)
  | none => true

/-- Takes bytes from the owner's bucket; balances are held in 1/256 byte. A bucket that this empties is dry. -/
def State.charge (s : State) (o : Nat) (t : Target) (bytes : Nat) : State :=
  s.modOwner o fun x =>
    if t.onLink then { x with lnk := x.lnk - 256 * bytes, lnkDry := x.lnkDry || decide (x.lnk ≤ 256 * bytes) }
    else { x with hbm := x.hbm - 256 * bytes, hbmDry := x.hbmDry || decide (x.hbm ≤ 256 * bytes) }

/-- The 32-byte sector of a target. -/
def Target.sector : Target → Nat × Nat
  | .spad c a => (c, a / 32)
  | .dev pa => (0, pa / 32)
  | .host a => (1, a / 32)
  | .peer m a => (2 + m, a / 32)

/-- Whether an access is to DRAM or leaves the module, and so is charged. -/
def Target.charged : Target → Bool
  | .spad _ _ => false
  | _ => true

/-! ### Who waits -/

/-- Whether a handler runs at an agent. -/
def ofHandler : Where → Bool
  | .handler _ _ => true
  | _ => false

/-- A translated lane that has not made its request to a bucket. -/
def Tr.waitsFor (link : Bool) : Tr → Bool
  | .ok t _ => t.charged && t.onLink == link
  | _ => false

/-- A lane's wait on a word has been charged: its monitor is armed, or has found its value (R173, R237). -/
def State.compared (s : State) (w : Where) (fill l : Nat) : Bool :=
  s.monitors.any fun m => decide (m.who = w) && m.fill == fill && m.lane == l && (m.armed || m.hit.isSome)

/-- A lane of a handler's producer waits for a bucket: a load that the L1 does not serve, a wait on a word that has not been compared, or
a row instruction. An atomic's request is its queue's. -/
def State.laneWaits (s : State) (w : Where) (link : Bool) (f : Fill) (x : LaneReq) : Bool :=
  !x.done && x.tr.waitsFor link && (match f.kind with
    | .madr | .atom => false
    | .mwait _ _ _ _ => !s.compared w f.id x.lane
    | .ld _ _ => match x.tr with
      | .ok (.dev pa) false => !(s.core (wCore w)).l1Has pa
      | _ => true
    | _ => true)

/-- A handler has requests that the bucket has not served: lanes of its producers in flight, and of the head of its store queue. -/
def Handler.waitsFor (s : State) (w : Where) (link : Bool) (h : Handler) : Bool :=
  h.sheet.fills.any (fun f => f.lanes.any (s.laneWaits w link f)) ||
    (match h.sheet.sq with
      | e :: _ => e.lanes.any fun x => !x.done && !x.sent && x.tr.waitsFor link
      | [] => false)

/-! ### COPY requests (R148, R222, R237) -/

/-- Bytes of an element of a type. -/
def elemBytes (e : Elem) : Nat := e.bits / 8

/-- Source and destination element bytes of a COPY: single bytes without conversion. -/
def copyUnits (conv : Option (Elem × Elem)) : Nat × Nat :=
  match conv with
  | some (dt, st) => (elemBytes st, elemBytes dt)
  | none => (1, 1)

/-- A scratchpad side's byte. -/
def spadSide (core base : Nat) (off : DWord) (i : Nat) : Xlat := .ok (.spad core (base + off.toNat + i)) true

/-- A host side's byte. -/
def hostSide (a : DWord) (i : Nat) : Xlat := .ok (.host (a.toNat % 2 ^ 63 + i)) true

/-- Where source byte `i` of a COPY is. -/
def CopyJob.srcAt (j : CopyJob) (s : State) (core i : Nat) : Xlat :=
  match j.kind with
  | .ds | .dh => s.translate core .read (j.src + BitVec.ofNat 64 i)
  | .sd | .sm | .sq => spadSide core j.base j.src i
  | .qs => spadSide j.peerCore j.peerBase j.src i
  | .hd => hostSide j.src i

/-- Where destination byte `i` of a COPY goes, but for the mould. -/
def CopyJob.dstAt (j : CopyJob) (s : State) (core i : Nat) : Xlat :=
  match j.kind with
  | .sd | .hd => s.translate core .write (j.dst + BitVec.ofNat 64 i)
  | .ds | .qs | .sm => spadSide core j.base j.dst i
  | .sq => spadSide j.peerCore j.peerBase j.dst i
  | .dh => hostSide j.dst i

/-- Whether a COPY's unit is its first in a 32-byte sector of a side that is charged. -/
def copyEnters (j : CopyJob) (t : Target) : Bool :=
  t.charged && (t.sector.2 * 32 == (match t with | .spad _ a => a | .dev a => a | .host a => a | .peer _ a => a) || j.got == 0)

/-- A handler's COPY waits for a bucket with its next unit. -/
def CopyJob.waitsFor (s : State) (core : Nat) (link : Bool) (j : CopyJob) : Bool :=
  let u := copyUnits j.conv
  let side (x : Xlat) : Bool := match x with
    | .ok t _ => copyEnters j t && t.onLink == link
    | _ => false
  ofHandler j.who && j.started && j.held.isNone && (side (j.srcAt s core j.got) || side (j.dstAt s core (j.got / u.1 * u.2)))

/-! ### Who goes first (R232) -/

/-- Some handler of an owner waits for a bucket, or a COPY of one. -/
def State.handlerWaits (s : State) (o : Nat) (link : Bool) : Bool :=
  s.cores.zipIdx.any fun x => x.1.owner == some o && x.1.stall.isNone &&
    ((x.1.h1.map (Handler.waitsFor s (.handler x.2 1) link)).getD false ||
      (x.1.h2.map (Handler.waitsFor s (.handler x.2 2) link)).getD false ||
      x.1.channels.any fun ch => (ch.q.head?.map (CopyJob.waitsFor s x.2 link)).getD false)

/-- Whether a request of an owner may take from a bucket now: the balance is above zero, and of the requests that wait for a dry
bucket those of the owner's handlers go first (R232). -/
def State.mayTake (s : State) (handlers : Bool) (o : Nat) (link : Bool) : Bool :=
  let dry := ((s.owner o).map fun x => if link then x.lnkDry else x.hbmDry).getD false
  s.bucketOk o link && (handlers || !dry || !s.handlerWaits o link)

/-- Whether an agent's request to a target may go now: its bucket allows it, and no mitigation delays the bank (R202, R232). -/
def State.mayRequest (s : State) (w : Where) (t : Target) : Bool :=
  !s.bankDelayed (s.ownerId w) t && s.mayTake (ofHandler w) (s.ownerId w) t.onLink

/-- A side of a COPY may not enter a sector, for want of tokens or for a delay of its bank (R202, R232). -/
def copyDry (s : State) (j : CopyJob) (t : Target) : Bool :=
  copyEnters j t && !(!s.bankDelayed (s.ownerId j.who) t && s.mayTake (ofHandler j.who) (s.ownerId j.who) t.onLink)

/-! ### Requests that consume poison (R205, R232, R237) -/

/-- One of some lanes that consume poison makes its request, if it may: it is charged once per sector, or per line for a line fill. -/
def poisonLane (w : Where) (line : Bool) (paid : Nat → Target → Bool) (a : State × List (Nat × DWord × Target)) (x : Nat × DWord × Target) :
    State × List (Nat × DWord × Target) :=
  let t := x.2.2
  let part (t : Target) : Nat × Nat := (t.sector.1, if line then t.sector.2 / 4 else t.sector.2)
  if !t.charged || paid x.1 t || a.2.any (fun y => decide (part y.2.2 = part t)) then (a.1, a.2 ++ [x])
  else if !a.1.mayRequest w t then a
  else (a.1.charge (a.1.ownerId w) t (if line then 128 else 32), a.2 ++ [x])

/-- The lanes that consume poison now: those whose requests may leave, with their charges taken. -/
def State.poisonGo (s : State) (w : Where) (line : Bool) (paid : Nat → Target → Bool) (xs : List (Nat × DWord × Target)) :
    State × List (Nat × DWord × Target) := xs.foldl (poisonLane w line paid) (s, [])

end Sys2Proof.Machine
end

