-- ==== Sys2Proof/Machine/Ops.lean ====
section
/-!
DEFINITION. The named operations that every meaning uses: groups, waits and advance (R53, R54, R65), taking an exception
and returning from one (R36, R220 to R230), the miss table (R224), the store queue and producers in flight (R27, R163), and
the ends of workgroups and launches (R62, R216, R253, R255).
-/

namespace Sys2Proof.Machine

/-- What a step answers. -/
abbrev Res := Host.Outcome State Fault Refusal

/-! ### Groups (R41, R53, R65) -/

/-- Every register that a lane's last trailer named is full (R53). -/
def laneEligible (sh : Sheet) (l : Nat) : Bool := (sh.lane l).awaits.all fun a => (sh.reg l (a.uniform, a.i.toNat)).full

/-- Two lanes stand at one word in the same wait state and hold the same slot. -/
def sameState (a b : Thread) : Bool := a.live && b.live && a.pc == b.pc && a.slot == b.slot && decide (a.wait = b.wait)

/-- The lanes that passed the same trailer together with a lane and stand where it stands: its group before any merge (R53,
R65). -/
def clan (sh : Sheet) (l : Nat) : List Nat :=
  (List.range sh.lanes.length).filter fun k => sameState (sh.lane l) (sh.lane k) && (sh.lane k).pass == (sh.lane l).pass

/-- The next run of a lane's group is eligible (R53). -/
def eligible (sh : Sheet) (l : Nat) : Bool := (sh.lane l).awaits.isEmpty || (clan sh l).all (laneEligible sh)

/-- The PC group of a lane (R65): groups at one word merge once both are eligible. -/
def groupOf (sh : Sheet) (l : Nat) : List Nat :=
  if eligible sh l then
    (List.range sh.lanes.length).filter fun k => sameState (sh.lane l) (sh.lane k) && eligible sh k
  else clan sh l

/-- The wait count of a lane's group: the larger of those that have merged (R65, R68). -/
def groupWaited (sh : Sheet) (l : Nat) : Nat := (groupOf sh l).foldl (fun m k => max m (sh.lane k).waited) 0

/-- A lane's group is forced: one of those that have merged is (R65, R68). -/
def groupForced (sh : Sheet) (l : Nat) : Bool := (groupOf sh l).any fun k => (sh.lane k).forced

/-- A lane's group is yield-pending: one of those that have merged is (R65, R67). -/
def groupYields (sh : Sheet) (l : Nat) : Bool := (groupOf sh l).any fun k => (sh.lane k).yieldMark

/-- pGP XOR GN (R41). -/
def Thread.guard (t : Thread) (c : Ctl) : Bool := t.pRead c.gp.toNat != c.gn

/-- The issuing group of an agent's lane under a guard. -/
def Grp.of (w : Where) (sh : Sheet) (l : Nat) (c : Ctl) : Grp :=
  let grp := groupOf sh l
  { w := w, sh := sh, lead := l, grp := grp, act := grp.filter fun k => (sh.lane k).guard c }

/-- Whether a lane can execute a word: live and ready. -/
def Thread.canIssue (t : Thread) : Bool := t.live && decide (t.wait = .ready)

/-- Live, and not outside a generator's running body (R94). -/
def Thread.running (t : Thread) : Bool := t.live && !decide (t.wait = .parked)

/-- The effect of an instruction word on the group that `cur` names. -/
def atWord (s : State) (c : Ctl) (f : State → Grp → State) : Res :=
  match s.cur with
  | none => .fault .noAgent
  | some (w, l) =>
    match s.sheetAt w with
    | none => .fault .noAgent
    | some sh => if (sh.lane l).canIssue then .next (f s (Grp.of w sh l c)) else .fault .noAgent

/-! ### Advance and waits (R54, R66 to R68) -/

/-- A lane begins a run at a word: its temporaries read zero, its slot is free, and it waits for the trailer's
registers (R24, R53, R66). -/
def Thread.startRun (t : Thread) (pc : Word) (awaits : List AwaitReg) (yld : Bool) (pass : Nat) (jumped : Bool) : Thread :=
  { t with pc := pc, runPos := 0, wait := .ready, awaits := awaits, pass := pass, jumped := jumped, slot := none, waited := 0,
           forced := false, yieldMark := t.yieldMark || yld, t := [] }

/-- Some lanes go on to the next word. -/
def stepLanes (ls : List Nat) (yld : Bool) (sh : Sheet) : Sheet := sh.modLanes ls fun t => t.stepOn yld

/-- The group gives up its slot and stands where it is, until what it waits for has come: it will issue the word again (R28, R54). -/
def waitHere (g : Grp) (on : Stall) (sh : Sheet) : Sheet :=
  sh.modLanes g.grp fun t => { t with wait := .stalled on, slot := none, waited := 0, forced := false }

/-- The executing lanes block at the word; the others go on (R54, R65). -/
def blockLanes (g : Grp) (b : Block) (yld : Bool) (sh : Sheet) : Sheet :=
  (stepLanes (g.grp.filter fun l => !g.act.contains l) yld sh).modLanes g.act fun t =>
    { t with wait := .blocked b, slot := none, waited := 0, forced := false, yieldMark := t.yieldMark || yld }

/-- The whole group blocks at the word, its disabled lanes with the others (R54): so where the rules say that the group
waits. -/
def blockGroup (g : Grp) (b : Block) (yld : Bool) (sh : Sheet) : Sheet := blockLanes { g with act := g.grp } b yld sh

/-- Puts a group's new code state back. -/
def State.put (s : State) (g : Grp) (sh : Sheet) : State := s.putSheet g.w sh

/-- The word takes effect in the group's code state, and the group goes on. -/
def finish (s : State) (g : Grp) (c : Ctl) (sh : Sheet) : State := s.put g (stepLanes g.grp c.yld sh)

/-! ### Taking an exception (R36, R57, R60, R220, R230) -/

/-- What a trap reports: TRAP's cause, slot and lanes, ACCESS, the lanes that performed, each lane's address as taddr
gives it, and the word with its place. -/
structure TrapInfo where
  cause : Cause
  slot : Nat
  access : Nat
  fmask : List Nat
  dmask : List Nat
  addr : Nat → DWord
  tpc : Word
  word : IWord

/-- The launch identifier of an agent's workgroup, or 0 (Table 16.8). -/
def State.launchIdOf (s : State) (w : Where) : Word :=
  match s.wgOf w with
  | some g => match s.launches[g.launch]? with
    | some l => l.pkt.launchId
    | none => 0#32
  | none => 0#32

/-- The operand that a field names, its EW, PART and reserved bits ignored; none for an index that names no register (R58,
Table 16.6). -/
def plainField (f : BitVec 16) : Option Opd := parseOpd (if f.extractLsb' 14 2 = 3#2 then f else f &&& 0xC0FF#16)

/-- A field of a word read in a lane as a 32-bit register value (R58, Table 16.6). A field that names no register of the code
reads zero where nothing stands at its index (log 42). -/
def fieldWord (s : State) (w : Where) (sh : Sheet) (l : Nat) (f : BitVec 16) : Word :=
  match plainField f with
  | some o => regWord s w sh l o
  | none => 0#32

/-- SOURCE of a trap frame (Table 16.8). -/
def sourceWord : Where → Word
  | .front _ slot => BitVec.ofNat 32 (2 ^ 31 + slot * 256)
  | .sheet _ slot i => BitVec.ofNat 32 (i * 2 ^ 16 + slot * 256)
  | .handler _ _ => 0#32

/-- An address in the form of taddr: bits [62:48] are zero (R36). -/
def taddrForm (va : DWord) : DWord := va &&& 0x8000FFFFFFFFFFFF#64

/-- The handler event of a trap of a group (R36, R221). -/
def trapEvent (s : State) (w : Where) (sh : Sheet) (grp : List Nat) (t : TrapInfo) (of : Option ReqOf) (left : Bool) : HEvent :=
  { who := w, grp := laneMask grp, cause := t.cause, slot := t.slot, access := t.access, fmask := laneMask t.fmask, dmask := laneMask t.dmask,
    taddr := match t.fmask with | l :: _ => taddrForm (t.addr l) | [] => 0#64,
    tpc := t.tpc, word := t.word, source := sourceWord w, launch := s.launchIdOf w,
    args := t.fmask.map fun l =>
      (l, taddrForm (t.addr l), fieldWord s w sh l (fFa t.word), fieldWord s w sh l (fFb t.word), fieldWord s w sh l (fXc t.word)),
    of := of, left := left, page := [], since := s.clock }

/-- Posts an event to the host (R9). -/
def State.post (s : State) (e : HostEvent) : State := { s with hostEvents := s.hostEvents ++ [e] }

/-- An owner stall (R230): the owner's context on the core is frozen and the host is told. -/
def ownerStall (s : State) (c level : Nat) : State :=
  ((s.modCore c fun k => { k with stall := some level }).modCore c fun k =>
    k.modHandler level fun h => { h with frozen := true }).post (.stall (s.ownerId (.handler c level)) c)

/-- Whether the event queue of a core has room (R220). -/
def Core.eventRoom (k : Core) : Bool := decide (k.events.length < 64)

/-- Puts an event at the end of a core's queue. -/
def State.queueEvent (s : State) (c : Nat) (e : HEvent) : State := s.modCore c fun k => { k with events := k.events ++ [e] }

/-- Some lanes stand at a word that trapped. -/
def trapLanes (ls : List Nat) (sh : Sheet) : Sheet :=
  sh.modLanes ls fun t => { t with wait := .trapped, slot := none, waited := 0, forced := false }

/-- TAKING A PRECISE EXCEPTION: no lane performs; the group stands at its word, and its event, which saves the cause, the
word, its place, the lanes and their operands, waits in the core's queue for the owner's handler. A full queue makes the
group wait at the word (R220). In a handler sheet every trap is an owner stall (R230, R367). -/
def takeTrap (s : State) (g : Grp) (t : TrapInfo) : State :=
  match g.w with
  | .handler c lv => ownerStall (s.put g (trapLanes g.grp g.sh)) c lv
  | w =>
    if (s.core (wCore w)).eventRoom then
      (s.put g (trapLanes g.grp g.sh)).queueEvent (wCore w) (trapEvent s w g.sh g.grp t none false)
    else s.put g (waitHere g .events g.sh)

/-- TRAP (R60) at the group's own word, with no address. -/
def trap (s : State) (g : Grp) (c : Cause) (slot : Nat) (lanes : List Nat) : State :=
  takeTrap s g ⟨c, slot, 0, lanes, [], fun _ => 0#64, g.pc, s.curWord⟩

/-- TRAP with an access and the lanes' addresses. -/
def trapAt (s : State) (g : Grp) (c : Cause) (slot : Nat) (acc : Acc) (lanes : List Nat) (addr : Nat → DWord) : State :=
  takeTrap s g ⟨c, slot, accCode acc, lanes, [], addr, g.pc, s.curWord⟩

/-- TRAP of a word's executing lanes, a cause that its entry lists: with the guard false in every lane no lane raises it, and the
group goes on (R23, R41, R57 step 7). -/
def trapActive (s : State) (g : Grp) (c : Ctl) (cause : Cause) (slot : Nat) : State :=
  if g.act.isEmpty then finish s g c g.sh else trap s g cause slot g.act

/-! ### The sources of a word (R28) -/

/-- A source of a word: its field's SLOT, whether it spans four registers, and the operand. -/
abbrev Src := Nat × Bool × Opd

/-- The lanes in which a source is empty. -/
def emptyLanes (g : Grp) (x : Src) : List Nat := g.act.filter fun l => !opdFull g.sh x.2.1 x.2.2 l

/-- R28: an empty source with EW = 1 traps EMPTY; one with EW = 0 makes the group wait; otherwise the word goes on. Of several empty sources no
rule says which decides: an EW = 1 source traps before any wait, the first in the word's order of fields, with its SLOT and lanes (log 55). -/
def withSources (s : State) (g : Grp) (xs : List Src) (k : State) : State :=
  match xs.find? fun x => opdEw x.2.2 && !(emptyLanes g x).isEmpty with
  | some x => trap s g .empty x.1 (emptyLanes g x)
  | none =>
    if xs.any fun x => !(emptyLanes g x).isEmpty then
      s.put g (waitHere g (.regs (laneMask g.act) (xs.flatMap fun x => spanRegs x.2.1 x.2.2)) g.sh)
    else k

/-- A word that computes in each executing lane: its sources are read at issue, then every lane's flags and result are
written and the group goes on (R60). -/
def lanewise (s : State) (c : Ctl) (xs : List Src) (d : Opd) (f : State → Grp → Nat → DWord × Flags) : Res :=
  atWord s c fun s g =>
    withSources s g xs (finish s g c (g.act.foldl (fun sh l =>
      let r := f s g l
      wr g.act d l r.1 (sh.status l r.2)) g.sh))

/-! ### The miss table (R224, R240) -/

/-- The 64 KiB page of an address. -/
def pageOf (va : Nat) : Nat := va / 65536

/-- Whether a missing request finds its page's entry, or room for one. -/
def Core.canMiss (k : Core) (va : Nat) : Bool :=
  (k.misses.any fun m => m.page == pageOf va) || decide (k.misses.length < 256)

/-- A missing request joins the entry of its page, or opens one. -/
def Core.addMiss (k : Core) (r : MissReq) : Core :=
  let p := pageOf r.va.toNat
  if k.misses.any fun m => m.page == p then
    { k with misses := k.misses.map fun m => if m.page == p then { m with reqs := m.reqs ++ [r] } else m }
  else { k with misses := k.misses ++ [⟨p, [r]⟩] }

/-- Requests join in order while there is room; the first that finds none and all after it are left over (R240). -/
def joinMisses (k : Core) : List MissReq → Core × List MissReq
  | [] => (k, [])
  | r :: rest => if k.canMiss r.va.toNat then joinMisses (k.addMiss r) rest else (k, r :: rest)

/-- Requests of an agent join the table of its core; the left-over ones are answered. -/
def State.join (s : State) (c : Nat) (rs : List MissReq) : State × List MissReq :=
  let (k, left) := joinMisses (s.core c) rs
  (s.modCore c fun _ => k, left)

/-! ### Producers in flight and the store queue (R27, R142, R163) -/

/-- Entries of a store queue (R163). -/
def Sheet.sqCap (sh : Sheet) : Nat := if sh.isFront then 16 else 64

/-- Offsets of AUTOEXIT objects that a sheet's queued BARIs will register (R153). -/
def Sheet.autoSoon (sh : Sheet) : List Nat :=
  sh.sq.flatMap fun e => match e.kind with
    | .bari _ true => e.lanes.map fun x => x.va.toNat
    | _ => []

/-- Whether the queue has room. -/
def Sheet.sqRoom (sh : Sheet) : Bool := decide (sh.sq.length < sh.sqCap)

/-- The local completion counter (R142): issued local operations that are not done. -/
def Sheet.lcc (sh : Sheet) : Nat :=
  (sh.fills.filter fun f => match f.kind with | .ldl _ => true | _ => false).length + (sh.sq.filter (·.counted)).length

/-- Producers that read memory or acquire: the later accesses of a lane perform after them (R162, R168). -/
def FillKind.loads : FillKind → Bool
  | .ldl _ | .ld _ _ | .gtake _ | .tagl | .rdwp _ _ | .dqpop | .mwait _ _ _ _ => true
  | _ => false

/-- A load that is an acquire (R168). -/
def FillKind.acquiring : FillKind → Bool
  | .ld _ (.ordered _) => true
  | _ => false

/-- A lane of a producer has performed: it is done, or has read its value, which waits for its destination (R97). -/
def LaneReq.performed (x : LaneReq) (k : FillKind) : Bool :=
  x.done || match k with
    | .gtake _ => x.data.isSome
    | _ => false

/-- Every load of a lane with a number below `before` has performed. -/
def Sheet.loadsDone (sh : Sheet) (before l : Nat) : Bool :=
  sh.fills.all fun f => !(f.kind.loads && decide (f.id < before)) || f.lanes.all fun x => x.performed f.kind || x.lane != l

/-- Width of an atomic in bytes. -/
def AtomOp.bytes (a : AtomOp) : Nat := if a.wide then 8 else 4

/-- Whether a queued atomic is ordered, so that later loads of its lane perform after it (R166). -/
def SqKind.ordered : SqKind → Bool
  | .atom _ _ o _ => decide (o ≠ .rlx)
  | .red _ o _ => decide (o ≠ .rlx)
  | .atoml _ o _ => decide (o ≠ .rlx)
  | _ => false

/-- Every ordered atomic of a lane before a load has left its queue (R166). -/
def Sheet.orderedDone (sh : Sheet) (before l : Nat) : Bool :=
  sh.sq.all fun e => !(e.kind.ordered && decide (e.id < before)) || e.lanes.all fun x => x.done || x.lane != l

/-- Every ordered atomic of a lane before a load has performed (R166). -/
def State.atomicsDone (s : State) (w : Where) (sh : Sheet) (before l : Nat) : Bool :=
  sh.orderedDone before l && s.engine.all fun e => !(decide (e.who = w) && e.lane == l && decide (e.ord ≠ .rlx))

/-- The loads of the lower PC have performed, where a load issued from the other slot in the same cycle (R69, R161). -/
def Sheet.pairDone (sh : Sheet) (id : Nat) : Bool :=
  sh.pairs.all fun p => !(decide (0 < p.2.1 ∧ p.2.1 ≤ id) && (p.2.2 == 0 || decide (id < p.2.2))) ||
    sh.fills.all fun f => !(f.kind.loads && decide (p.1 ≤ f.id ∧ f.id < p.2.1)) || f.lanes.all fun x => x.performed f.kind

/-- An operand is a W or S register. -/
def uniformOpd : Opd → Bool
  | .u _ _ _ => true
  | _ => false

/-- Every earlier acquiring LD of a lane has performed in all of its lanes (R330 step 8); one of a W register is of every lane. -/
def Sheet.acquiresDone (sh : Sheet) (before l : Nat) : Bool :=
  sh.fills.all fun f => !(f.kind.acquiring && decide (f.id < before) && (uniformOpd f.dest || f.lanes.any fun x => x.lane == l)) || f.lanes.all (·.done)

/-- The lanes whose earlier accesses an entry's lane comes after: those of an arrival for several lanes, each of an entry that performs at
once, else the lane alone (R162). -/
def SqEntry.behind (e : SqEntry) (width l : Nat) : List Nat :=
  match e.kind with
  | .bara _ ls => maskLanes width ls
  | .tags _ | .tagi _ | .autoArrive | .spawn _ _ _ _ => e.lanes.map (·.lane)
  | _ => [l]

/-- A lane of a queue entry may be accepted, or perform: the loads before it have performed, and the acquires in all of their lanes (R162,
R168, R330 step 8). -/
def Sheet.mayAccept (sh : Sheet) (e : SqEntry) (l : Nat) : Bool :=
  (e.behind sh.lanes.length l).all fun k => sh.loadsDone e.id k && sh.acquiresDone e.id k

/-- A load lane may reach its performance point: the lane's earlier loads, acquires and ordered atomics have performed (R69, R162, R166,
R168). -/
def State.loadMay (s : State) (w : Where) (sh : Sheet) (id l : Nat) : Bool :=
  sh.loadsDone id l && sh.pairDone id && sh.acquiresDone id l && s.atomicsDone w sh id l

/-- How far a target lies above another of the same space. -/
def Target.above (a : Target) : Target → Option Int
  | .spad c x => match a with | .spad d y => if c = d then some ((y : Int) - x) else none | _ => none
  | .dev x => match a with | .dev y => some ((y : Int) - x) | _ => none
  | .host x => match a with | .host y => some ((y : Int) - x) | _ => none
  | .peer m x => match a with | .peer k y => if m = k then some ((y : Int) - x) else none | _ => none

/-- `m` bytes from offset `lo` and the first `n` bytes have one in common. -/
def meets (lo : Int) (m n : Nat) : Bool := decide (lo < n) && decide (0 < lo + m)

/-- Where a queued lane stores, counted from a load's first byte at target `t` and address `va`: by their targets, or, while the store has
not translated, by their addresses within one page. -/
def SqLane.offset (x : SqLane) (t : Target) (va : DWord) : Option Int :=
  match x.tr with
  | .ok u _ => u.above t
  | _ => match t with
    | .spad _ _ => none
    | _ => if pageOf x.va.toNat = pageOf va.toNat then some ((x.va.toNat : Int) - va.toNat) else none

/-- A store that has not translated may be to some of the bytes that a load reaches through another page: which frame its page names is
not known yet (R160). -/
def SqLane.mayMeet (x : SqLane) (t : Target) (va : DWord) (lo : Int) (m n : Nat) : Bool :=
  match x.tr, t with
  | .ok _ _, _ => false
  | _, .spad _ _ => false
  | _, _ => decide (pageOf x.va.toNat ≠ pageOf va.toNat) && meets (((x.va.toNat % 65536 : Nat) : Int) + lo - ((va.toNat % 65536 : Nat) : Int)) m n

/-- Whether a queue entry is a plain store, whose bytes can be forwarded; BARI is one of its object (R164, R298). -/
def SqKind.plainStore : SqKind → Bool
  | .stl | .gyld | .cvtq => true
  | .st _ _ => true
  | .bari _ _ => true
  | _ => false

/-- The bytes that an entry's lane reaches, from its address on. -/
def SqLane.reach (k : SqKind) (x : SqLane) : Int × Nat :=
  match k with
  | .cwb => (-((x.va.toNat % 128 : Nat) : Int), 128)
  | .bara _ _ | .autoArrive => (0, 16)
  | _ => (0, x.bytes.length)

/-- Whether an entry's lane touches, or may touch, the first `n` bytes at a target (R160, R161, R199, R312). -/
def SqLane.touches (v : Variant) (k : SqKind) (x : SqLane) (t : Target) (va : DWord) (n : Nat) : Bool :=
  match k with
  | .tags _ | .tagi _ | .spawn _ _ _ _ => false
  | .dead => match x.tr, t with
    | .ok (.dev a) _, .dev b => sameChunk v a b
    | .ok _ _, _ => false
    | _, .dev _ => true
    | _, _ => false
  | k =>
    let r := x.reach k
    match x.offset t va with
    | some o => meets (o + r.1) r.2 n
    | none => x.mayMeet t va r.1 r.2 n

/-- The queued lanes of a lane with numbers below a load's, youngest first. -/
def Sheet.ownQueued (sh : Sheet) (before l : Nat) : List (SqEntry × SqLane) :=
  sh.sq.reverse.flatMap fun e =>
    if e.id < before then (e.lanes.filter fun x => x.lane == l && !x.done).map fun x => (e, x) else []

/-- What a load lane takes from its sheet's queue. -/
inductive Forward where
  | pass
  | wait
  | bytes (bs : List Byte)
  deriving DecidableEq, Repr

/-- What one queued lane leaves of a byte: a store's byte; none where it does not touch the byte, or only writes a line back; and a wait
where what it leaves is not known before it performs. -/
def SqLane.gives (v : Variant) (k : SqKind) (x : SqLane) (t : Target) (va : DWord) : Forward :=
  if !x.touches v k t va 1 || decide (k = .cwb) then .pass
  else
    match k.plainStore, x.offset t va with
    | true, some o => match x.bytes[(-o).toNat]? with
      | some b => .bytes [b]
      | none => .pass
    | _, _ => .wait

/-- What the queue leaves of a byte: by the youngest entry that says anything. -/
def forwardByte (v : Variant) (own : List (SqEntry × SqLane)) (t : Target) (va : DWord) : Forward :=
  (own.findSome? fun e => match e.2.gives v e.1.kind t va with
    | .pass => none
    | x => some x).getD .pass

/-- R164: a load whose bytes are all written by the lane's own queued stores takes each from the youngest; one of which only some are, or
whose byte the youngest entry leaves to be known later, waits, and so does one of a line that a CWB still writes back (R312); any other goes
past the queue. -/
def Sheet.forward (sh : Sheet) (v : Variant) (before l : Nat) (t : Target) (va : DWord) (n : Nat) : Forward :=
  let own := sh.ownQueued before l
  let got := (List.range n).map fun k => forwardByte v own (t.plus k) (va + BitVec.ofNat 64 k)
  let some_ := got.flatMap fun x => match x with
    | .bytes bs => bs
    | _ => []
  if some_.length = n then .bytes some_
  else if got.any (fun x => decide (x ≠ .pass)) || own.any fun e => e.2.touches v e.1.kind t va n then .wait
  else .pass

/-- Adds a producer. -/
def Sheet.addFill (sh : Sheet) (f : Fill) : Sheet := { sh with fills := sh.fills ++ [f] }

/-- Adds a store-queue entry. -/
def Sheet.addSq (sh : Sheet) (e : SqEntry) : Sheet := { sh with sq := sh.sq ++ [e] }

/-- Changes the producer with a number. -/
def Sheet.modFill (sh : Sheet) (id : Nat) (f : Fill → Fill) : Sheet :=
  { sh with fills := sh.fills.map fun x => if x.id = id then f x else x }

/-- Changes the store-queue entry with a number. -/
def Sheet.modSq (sh : Sheet) (id : Nat) (f : SqEntry → SqEntry) : Sheet :=
  { sh with sq := sh.sq.map fun x => if x.id = id then f x else x }

/-- Changes a lane of a producer. -/
def Fill.modLane (f : Fill) (l : Nat) (h : LaneReq → LaneReq) : Fill :=
  { f with lanes := f.lanes.map fun x => if x.lane = l then h x else x }

/-- Changes a lane of a store-queue entry. -/
def SqEntry.modLane (e : SqEntry) (l : Nat) (h : SqLane → SqLane) : SqEntry :=
  { e with lanes := e.lanes.map fun x => if x.lane = l then h x else x }

/-- The lanes of a producer, for the rule that a W register takes the lowest (R22). -/
def Fill.act (f : Fill) : List Nat := f.lanes.map (·.lane)

/-- Whether a producer's destination names four registers. -/
def Fill.quad (f : Fill) : Bool :=
  match f.kind with
  | .ldl sz | .ld sz _ => sz.quad
  | _ => false

/-- Drops a producer whose lanes are all done. -/
def Sheet.reapFill (sh : Sheet) (id : Nat) : Sheet :=
  { sh with fills := sh.fills.filter fun f => !(f.id == id && f.lanes.all (·.done)) }

/-- Drops a queue entry whose lanes are all done. -/
def Sheet.reapSq (sh : Sheet) (id : Nat) : Sheet :=
  { sh with sq := sh.sq.filter fun e => !(e.id == id && e.lanes.all (·.done)) }

/-- Whether the loads, acquires and atomics of these lanes have all performed and their queued stores been accepted. -/
def Sheet.quiet (sh : Sheet) (ls : List Nat) : Bool :=
  sh.sq.all (fun e => e.lanes.all fun x => x.done || !ls.contains x.lane) &&
  sh.fills.all fun f => !(f.kind.loads || decide (f.kind = .atom)) || f.lanes.all fun x => x.performed f.kind || !ls.contains x.lane

/-- A wait that the sheet alone can end is over (R28, R54). -/
def Stall.near (sh : Sheet) : Stall → Bool
  | .regs ls rs => (maskLanes sh.lanes.length ls).all fun l => rs.all fun r => (sh.reg l r).full
  | .room counted queued => (!counted || decide (sh.lcc < 255)) && (!queued || sh.sqRoom)
  | .felt n => match sh.gen with
    | some g => decide (g.body = .producer) && decide (g.f + n ≤ g.capn)
    | none => true
  | .clear ls => sh.sq.isEmpty && sh.quiet (maskLanes sh.lanes.length ls)
  | .drained => sh.sq.isEmpty
  | _ => false

/-- Lanes that wait at their word are ready to try it again where what they wait for in the sheet has come (R54, R65). -/
def Sheet.wake (sh : Sheet) : Sheet :=
  { sh with lanes := sh.lanes.map fun t => match t.wait with
      | .stalled on => if on.near sh then { t with wait := .ready } else t
      | _ => t }

/-- A lane of a producer is done: its result is written to the destination and it leaves the producer. -/
def Sheet.fillLane (sh : Sheet) (f : Fill) (l : Nat) (ws : List Word) : Sheet :=
  (((fillOpd f.act f.quad f.dest f.id l ws sh).modFill f.id fun x => x.modLane l fun y => { y with done := true }).reapFill f.id).wake

/-- A lane of a producer ends without a result; its destination keeps what it held (R370), and it counts as no request (R237). -/
def Sheet.dropLane (sh : Sheet) (f : Fill) (l : Nat) : Sheet :=
  (((unfillOpd f.act f.quad f.dest f.id l sh).modFill f.id fun x =>
    x.modLane l fun y => { y with done := true, data := some [] }).reapFill f.id).wake

/-- A producer is the oldest write that its destination in a lane waits for: its data reaches the register at once (R29). -/
def Sheet.firstInLine (sh : Sheet) (f : Fill) (l : Nat) : Bool :=
  (spanRegs f.quad f.dest).all fun r => ((sh.reg l r).pend.head?.map (·.id)).getD f.id == f.id

/-- A lane's gsrc becomes the producing lane of the entry that fills its GTAKE (R97). -/
def Sheet.setSource (sh : Sheet) (l : Nat) (srcs : List (Nat × Nat)) : Sheet :=
  sh.modLane l fun t => { t with gsrc := BitVec.ofNat 32 (((srcs.find? fun e => e.1 == l).map (·.2)).getD 0) }

/-- A lane of a GTAKE has its entry: it fills its destination, and gsrc changes, once it is the oldest write that the destination waits for;
until then it holds the entry (R97). -/
def Sheet.takeLane (sh : Sheet) (f : Fill) (l : Nat) (srcs : List (Nat × Nat)) (bs : List Byte) : Sheet :=
  if sh.firstInLine f l then (sh.fillLane f l (wordsOf (leVal 64 bs))).setSource l srcs
  else sh.modFill f.id fun f => f.modLane l fun y => { y with data := some bs }

/-- A lane of a queue entry is done. -/
def Sheet.sqDone (sh : Sheet) (id l : Nat) : Sheet :=
  ((sh.modSq id fun e => e.modLane l fun x => { x with done := true }).reapSq id).wake

/-- Some lane at a word still waits for its translation, or for the handler of its fault. -/
def waitsAt (sh : Sheet) (pc : Word) : Bool :=
  sh.lanes.any fun t => t.live && t.pc == pc && (decide (t.wait = .fetch) || decide (t.wait = .trapped))

/-- A lane at a word that needs its translation: translated, and ready with its group once no lane of it waits; faulted; or
missing. -/
def setWordTr (lane : Nat) (tr : Tr) (sh : Sheet) : Sheet :=
  let t := sh.lane lane
  if t.wait = .fetch ∨ t.wait = .trapped then
    match tr with
    | .ok _ _ =>
      let sh := sh.modLane lane fun t => { t with wait := .held }
      if waitsAt sh t.pc then sh
      else sh.modLanes (List.range sh.lanes.length) fun u =>
        if u.wait = .held ∧ u.pc = t.pc then { u with wait := .ready } else u
    | .held _ => sh.modLane lane fun t => { t with wait := .trapped }
    | .miss => sh.modLane lane fun t => { t with wait := .fetch }
  else sh

/-- Whether an access goes around the L1 whatever its page says (R331). -/
def accAround (acc : Access) : Bool :=
  match acc with
  | .plain => false
  | .bw => true
  | .ordered sc => scopeFar sc

/-- Whether a producer's accesses go around the L1 whatever their pages say. -/
def FillKind.around : FillKind → Bool
  | .ld _ acc => accAround acc
  | _ => false

/-- A translation as a request holds it: around the L1 where its page, its form or its target says so (R331). -/
def Tr.via (around : Bool) : Tr → Tr
  | .ok t n => .ok t (n || around || (match t with | .dev _ => false | _ => true))
  | x => x

/-- Sets the translation of a request: of a load, atomic or store in flight (R224), or of a word that waits for it. -/
def State.setTr (s : State) (who : Where) (of : ReqOf) (lane : Nat) (tr : Tr) : State :=
  match of with
  | .fill id => s.modSheet who fun sh => sh.modFill id fun f => f.modLane lane fun x => { x with tr := tr.via f.kind.around }
  | .store id => s.modSheet who fun sh => sh.modSq id fun e => e.modLane lane fun x => { x with tr := tr.via false }
  | .word => s.modSheet who (Sheet.bothBodies (setWordTr lane tr))
  | .copy ch => s.modCore (wCore who) fun k =>
      { k with channels := k.channels.modify ch fun h =>
          { h with q := match h.q with
            | j :: rest => { j with held := match tr with | .held c => some c | .miss => some .walk | .ok _ _ => none } :: rest
            | [] => [] } }

/-- A level-1 handler whose access misses is frozen at its word, and the walk handler starts at level 2 for its pages; a
translated access at level 2 is an owner stall (R230). Requests of ordinary code join the miss table. A handler whose page finds the table full
is frozen with no entry: no walk can start for it, and which one would make room no rule says (log 58). -/
def missFor (s : State) (w : Where) (rs : List MissReq) : State × List MissReq :=
  if rs.isEmpty then (s, [])
  else match w with
  | .handler c lv =>
    if lv = 2 then (ownerStall s c 2, [])
    else ((s.join c rs).1.modCore c fun k => k.modHandler 1 fun h => { h with frozen := true }, (s.join c rs).2)
  | w => s.join (wCore w) rs

/-- A lane waits at its word, which it will issue again. -/
def Thread.stands (t : Thread) : Bool :=
  match t.wait with
  | .stalled _ => true
  | _ => false

/-- A word of a handler whose access has stalled the owner, or no longer has. -/
def Handler.stallAt (pc : Word) (on : Bool) (h : Handler) : Handler :=
  { h with again := (h.again.filter fun x => x != pc) ++ (if on then [pc] else []) }

/-- A translated access at level 2 is an owner stall, before anything performs; reissued after the host has resumed the
context it goes on, and stalls again only when it misses (R230). A word that no lane executes accesses nothing (R41). -/
def withLevel (s : State) (g : Grp) (bw misses : Bool) (k : State → State) : State :=
  match g.w with
  | .handler c 2 =>
    if bw || g.act.isEmpty then k s
    else if (((s.core c).h2.map (·.again)).getD []).contains g.pc && !misses then
      let t := k s
      if ((t.sheetAt g.w).map fun sh => (sh.lane g.lead).stands).getD false then t
      else t.modCore c fun x => x.modHandler 2 (Handler.stallAt g.pc false)
    else ownerStall ((s.put g (trapLanes g.grp g.sh)).modCore c fun x => x.modHandler 2 (Handler.stallAt g.pc true)) c 2
  | _ => k s

/-- A word must translate some lanes before it performs in any (R193): while there is no room in the miss table the group
waits at the word; otherwise the missing lanes wait for their walk and the group's others with them. -/
def waitTranslate (s : State) (g : Grp) (acc : Acc) (slot : Nat) (xs : List (Nat × DWord)) : State :=
  let rs : List MissReq := xs.map fun x => ⟨g.w, x.1, x.2, accCode acc, slot, .word, g.pc, s.curWord⟩
  if (s.join (wCore g.w) rs).2.isEmpty then
    let sh := g.sh.modLanes g.grp fun t => { t with wait := .held, slot := none, waited := 0, forced := false }
    let sh := sh.modLanes (xs.map (·.1)) fun t => { t with wait := .fetch }
    (missFor (s.put g sh) g.w rs).1
  else s.put g (waitHere g (.table (xs.map (·.2))) g.sh)

/-- An access that has issued: its group goes on, and its missing lanes join the miss table; while some find it full the
group waits at the word (R224). -/
def issueAccess (s : State) (g : Grp) (c : Ctl) (of : ReqOf) (sh : Sheet) (rs : List MissReq) : State :=
  let (s, left) := missFor (s.put g sh) g.w rs
  if left.isEmpty then s.modSheet g.w (stepLanes g.grp c.yld)
  else s.modSheet g.w fun sh => sh.modLanes g.grp fun t =>
    { t with wait := .blocked (.joining of), slot := none, waited := 0, forced := false, yieldMark := t.yieldMark || c.yld }

/-! ### Releases (R169) -/

/-- A release of a core at a scope needs an access numbered `seq` of a core accepted (R169, R170): every one of the core itself, but beyond
the module only at .sys; and at .sys also what another core had sent beyond the module before the core's last far acquire, which may happen
before the release (log 52). -/
def State.owes (s : State) (c : Nat) (sc : Scope) (core seq : Nat) (t : Target) : Bool :=
  if t.onLink then decide (sc = .sys) && (core == c || decide (seq < (s.core c).acquired)) else core == c

/-- Whether a store or atomic is still on its way to where a release of a core at this scope needs it accepted, but for the lanes of one
instruction of an agent. Stores of every agent of the core count: releases are cumulative (R170). -/
def State.releaseFarBut (s : State) (c : Nat) (sc : Scope) (mine : Where → Nat → Bool) : Bool :=
  s.flights.any (fun f => s.owes c sc f.core f.seq f.target && !mine f.who f.entry) ||
  s.engine.any fun e => s.owes c sc e.core e.seq e.target && !mine e.who e.entry

/-- Whether a store or atomic is still on its way to where a release of a core at this scope needs it accepted. -/
def State.releaseFar (s : State) (c : Nat) (sc : Scope) : Bool := s.releaseFarBut c sc fun _ _ => false

/-- Some atomics of a core that have reached their engines touch a target: they come earlier in the core's order (R160). -/
def State.engineBusy (s : State) (c : Nat) (t : Target) (n : Nat) : Bool :=
  s.engine.any fun e => e.core == c && (match e.target.above t with
    | some o => meets o e.a.bytes n
    | none => false)

/-- Some atomics that have reached the engines touch a target: every other access of those bytes comes after them (R172). -/
def State.engineHolds (s : State) (t : Target) (n : Nat) : Bool :=
  s.engine.any fun e => match e.target.above t with
    | some o => meets o e.a.bytes n
    | none => false

/-- Whether a release of these lanes at a scope may perform now (R169). -/
def State.released (s : State) (w : Where) (sh : Sheet) (ls : List Nat) (sc : Scope) : Bool :=
  sh.quiet ls && !(scopeFar sc && s.releaseFar (wCore w) sc)

/-- A word that is a release: the group waits at it until the release may perform (R169). -/
def withRelease (s : State) (g : Grp) (sc : Option Scope) (k : State) : State :=
  match sc with
  | none => k
  | some sc => if s.released g.w g.sh g.act sc then k else s.put g (waitHere g (.release (laneMask g.act) sc) g.sh)

/-! ### Counters, workgroups and launches (R62, R253, R255) -/

/-- The status that stands is the first other than OK (R253, R256). -/
def firstStatus (old new : Nat) : Nat := if old = 0 then new else old

/-- Changes the counter records of a level. -/
def State.modCounter (s : State) (p : Counter → Bool) (f : Counter → Counter) : State :=
  { s with counters := s.counters.map fun x => if p x then f x else x }

/-- The named levels of a launch, with their ids (R253). -/
def LaunchPkt.levels (p : LaunchPkt) : List (Level × Nat) :=
  [(Level.graph, p.graph), (Level.phase, p.phase), (Level.job, p.job)].filter fun x => decide (x.2 ≠ 0)

/-- A counter of a named level of an owner. -/
def Counter.named (x : Counter) (o : Nat) (lv : Level) (id : Nat) : Bool :=
  x.owner == o && decide (x.level = lv) && x.id == id

/-- One launch more is counted under a named level; its status starts again when the count rises from 0. A new record sits at the die
of the first launch that names it (R61, R253). -/
def State.countUp (s : State) (o : Nat) (lv : Level) (id die : Nat) : State :=
  if s.counters.any fun x => x.named o lv id then
    s.modCounter (fun x => x.named o lv id) fun x =>
      { x with count := x.count + 1, status := if x.count = 0 then 0 else x.status }
  else { s with counters := s.counters ++ [⟨o, lv, 0, id, die, 1, 0⟩] }

/-- A launch under a named level has ended with a status. -/
def State.countDown (s : State) (o : Nat) (lv : Level) (id st : Nat) : State :=
  s.modCounter (fun x => x.named o lv id) fun x => { x with count := x.count - 1, status := firstStatus x.status st }

/-- Changes a launch. -/
def State.modLaunch (s : State) (li : Nat) (f : Launch → Launch) : State := { s with launches := s.launches.modify li f }

/-- A launch has ended: its record completes, and the levels that it names count it off (R253). Its queue's first status
other than OK is kept for SIGNAL (R248). -/
def State.endLaunch (s : State) (li : Nat) : State :=
  match s.launches[li]? with
  | none => s
  | some l =>
    if l.ended then s
    else
      let s := s.modLaunch li fun l => { l with ended := true, unplaced := [], units := 0 }
      let s := l.pkt.levels.foldl (fun s x => s.countDown l.owner x.1 x.2 l.status) s
      match l.queue with
      | some q => { s with queues := s.queues.modify q fun u => { u with firstStatus := firstStatus u.firstStatus l.status } }
      | none => s

/-- A unit has completed with a status (R62): its record is complete, and so is its launch's when it was the last. -/
def State.endUnit (s : State) (li flat st : Nat) : State :=
  match s.launches[li]? with
  | none => s
  | some l =>
    if l.ended then s
    else
      let s := { s with counters := s.counters ++ [Counter.mk l.owner .unit li flat l.die 0 st] }
      let s := s.modLaunch li fun l => { l with units := l.units - 1, status := firstStatus l.status st }
      if l.units ≤ 1 then s.endLaunch li else s

/-- The agent in whose name go on what a stopped agent's queue has had accepted (R182), and the COPYs of a handler that has ended (R222): no
slot has its number, no code state is there, and SOURCE is 0 for it. -/
def ghost (c : Nat) : Where := .sheet c (2 ^ 32) 0

/-- The agents of a workgroup slot. -/
def inSlot (slot : Nat) (w : Where) : Bool := decide (wSlot w = some slot)

/-- Some requests leave the miss table, and the entries that this empties with them. -/
def Core.dropMisses (p : MissReq → Bool) (k : Core) : Core :=
  { k with misses := (k.misses.map fun m => { m with reqs := m.reqs.filter fun r => !p r }).filter fun m => !m.reqs.isEmpty }

/-- The level-1 handler goes unfinished, with its own requests, the walk at level 2 that serves them, its COPYs and its stall. -/
def Core.dropHandler (k : Core) : Core :=
  { k.dropMisses (fun r => ofHandler r.who) with
    h1 := none, h2 := none, stall := none,
    channels := k.channels.map fun ch => { ch with q := ch.q.filter fun j => !ofHandler j.who } }

/-- Removes the workgroup of a slot with everything that belongs to it: its tags, requests, events, the handler that serves one,
queued engine operations (R145, R216, R255). -/
def Core.evict (k : Core) (slot : Nat) : Core :=
  let mine (h : Handler) : Bool := inSlot slot h.ev.who && decide (h.ev.cause ≠ .save)
  let k := if (k.h1.map mine).getD false then k.dropHandler else k
  let k := match k.wg slot with
    | some g => k.tagClear g
    | none => k
  { k.dropMisses (fun r => inSlot slot r.who) with
    wgs := k.wgs.set slot none,
    events := k.events.filter (fun e => !inSlot slot e.who),
    mq := k.mq.filter (fun e => e.slot != slot),
    xq := k.xq.filter (fun e => e.slot != slot),
    channels := k.channels.map fun ch => { ch with q := ch.q.filter fun j => !inSlot slot j.who } }

/-- An atomic that its queue still holds: it has not performed, and its queue has not seen it accepted (R349). -/
def State.unaccepted (s : State) (e : EngineOp) : Bool :=
  ((s.sheetAt e.who).map fun sh => sh.sq.any fun x => x.id == e.entry && x.lanes.any fun y => y.lane == e.lane && !y.done).getD false

/-- Agents stop: what their queues have had accepted goes on to its home in the order it has there, and their atomics that have not
performed are gone (R182, R216, R255). -/
def State.orphan (s : State) (p : Where → Bool) : State :=
  { s with
    flights := s.flights.map fun f => if p f.who then { f with who := ghost f.core } else f,
    engine := (s.engine.filter fun e => !(p e.who && s.unaccepted e)).map fun e =>
      if p e.who then { e with who := ghost e.core, fill := none } else e,
    monitors := s.monitors.filter fun m => !p m.who }

/-- Whether an agent stands in a slot of a core. -/
def atSlot (c slot : Nat) (w : Where) : Bool := wCore w == c && inSlot slot w

/-- Ends the workgroup of a slot. -/
def State.evictWg (s : State) (c slot : Nat) : State :=
  let s := spoilSlot (cutMatrix (s.orphan (atSlot c slot)) c slot) c slot
  let dead (f : Flow) : Bool := f.core == c && (((s.core c).wg slot).map fun g => f.launch == g.launch && f.flat == g.flat).getD false
  { (s.modCore c fun k => k.evict slot) with flows := s.flows.filter fun f => !dead f }

/-- The workgroups of a launch that are resident, as core and slot. -/
def State.residents (s : State) (li : Nat) : List (Nat × Nat) :=
  (List.range s.cores.length).flatMap fun c =>
    (List.range (s.core c).wgs.length).filterMap fun slot =>
      match (s.core c).wg slot with
      | some g => if g.launch = li then some (c, slot) else none
      | none => none

/-- A handler whose event is not of an agent in these slots. -/
def Handler.notIn (slots : List Nat) (h : Handler) : Bool := !slots.any fun i => inSlot i h.ev.who

/-- A saved state without some of its workgroups, their handlers, their queued operations and their tags (R62, R145, R255). -/
def Saved.dropWgs (p : Workgroup → Bool) (v : Saved) : Saved :=
  let slots := (List.range v.wgs.length).filter fun i => ((v.wgs[i]?).join.map p).getD false
  let stays := (v.h1.map (Handler.notIn slots)).getD true
  let sets := (v.wgs.filterMap fun g => g.bind fun g => if p g then some g.tagIdx else none).flatten
  { v with wgs := v.wgs.map (fun g => g.bind fun g => if p g then none else some g),
           tags := v.tags.filter fun e => !sets.contains (e.1 / 8),
           h1 := if stays then v.h1 else none, h2 := if stays then v.h2 else none,
           mq := v.mq.filter (fun e => !slots.contains e.slot), xq := v.xq.filter (fun e => !slots.contains e.slot),
           channels := v.channels.map (fun ch => { ch with q := ch.q.filter fun j => !slots.any fun i => inSlot i j.who }),
           stall := if stays then v.stall else none }

/-- Saved workgroups without those of a launch, with its bins and its place in the launch queue (R255). -/
def Saved.dropLaunch (li : Nat) (v : Saved) : Saved :=
  { v.dropWgs (fun g => g.launch == li) with bins := v.bins.filter (fun b => b.launch != li), launchQ := v.launchQ.filter (fun x => x != li) }

/-- A core's bins, saved workgroups and launch queue without a launch (R255). -/
def Core.dropLaunch (li : Nat) (k : Core) : Core :=
  { k with bins := k.bins.filter (fun b => b.launch != li), launchQ := k.launchQ.filter (fun x => x != li), saved := k.saved.map (Saved.dropLaunch li) }

/-- An owner's saved states without some workgroups. -/
def Owner.dropSaved (p : Workgroup → Bool) (o : Owner) : Owner := { o with saves := o.saves.map fun e => (e.1, e.2.dropWgs p) }

/-- The members of a quire, as core and slot. -/
def State.quireMembers (s : State) (c : Nat) (g : Workgroup) : List (Nat × Nat) :=
  (quireCores c).flatMap fun d => (List.range (s.core d).wgs.length).filterMap fun slot =>
    match (s.core d).wg slot with
    | some h => if h.launch = g.launch ∧ h.quire = g.quire ∧ h.portal = g.portal ∧ (g.portal.isNone ∨ d = c) then some (d, slot) else none
    | none => none

/-- Every member of a quire has completed, those that a change of owner has saved among them: their allocations and slots are free
(R62; that a completed member keeps all of its entry until then is the model's choice, log 46). -/
def State.freeQuire (s : State) (c : Nat) (g : Workgroup) : State :=
  let ms := s.quireMembers c g
  let mine (h : Workgroup) : Bool := h.launch == g.launch && h.quire == g.quire && g.portal.isNone
  let away (v : Saved) : Bool := v.wgs.any fun h => match h with
    | some h => mine h && !h.finished
    | none => false
  if ms.all (fun m => (((s.core m.1).wg m.2).map (·.finished)).getD true) && s.owners.all (fun o => o.saves.all fun e => !away e.2) &&
      s.cores.all fun k => !(k.saved.map away).getD false then
    let s := ms.foldl (fun s m => s.evictWg m.1 m.2) s
    { s with owners := s.owners.map (Owner.dropSaved mine), cores := s.cores.map fun k => { k with saved := k.saved.map (Saved.dropWgs mine) } }
  else s

/-- An owner's saved state without a launch. -/
def Owner.dropLaunch (li : Nat) (o : Owner) : Owner := { o with saves := o.saves.map fun e => (e.1, e.2.dropLaunch li) }

/-- Cancels a launch with a status (R216, R255): placement stops, saved and resident workgroups go, queued operations are
voided, bins are freed, and the status is recorded where it is OK. -/
def State.cancelLaunch (s : State) (li st : Nat) : State :=
  match s.launches[li]? with
  | none => s
  | some l =>
    if l.ended then s
    else
      let s := s.modLaunch li fun l => { l with unplaced := [], status := firstStatus l.status st }
      let s := (s.residents li).foldl (fun s p => s.evictWg p.1 p.2) s
      let s := { s with cores := s.cores.map (Core.dropLaunch li), owners := s.owners.map (Owner.dropLaunch li) }
      let s := { s with flows := s.flows.filter fun f => f.launch != li }
      s.endLaunch li

/-- Cancels every launch that satisfies a condition. -/
def State.cancelWhere (s : State) (p : Launch → Bool) (st : Nat) : State :=
  (List.range s.launches.length).foldl (fun s li =>
    match s.launches[li]? with
    | some l => if p l && !l.ended then s.cancelLaunch li st else s
    | none => s) s

/-- Launches with a workgroup on a core. -/
def State.launchesOn (s : State) (c : Nat) : List Nat := (s.core c).wgs.filterMap fun g => g.map (·.launch)

/-- Cancels launches by number. -/
def State.cancelAll (s : State) (ls : List Nat) (st : Nat) : State := ls.foldl (fun s li => s.cancelLaunch li st) s

/-- The wipe of a core (R200, R216, R233): registers, scratchpad, accumulator store, mould, vat, tag table, TLBs, miss table
and event queue; channels restart at 0. -/
def Core.wipe (k : Core) : Core := { Core.reset with quarantined := k.quarantined, refused := k.refused, rrNext := k.rrNext, acquired := k.acquired }

/-- The launches with a workgroup in a saved state. -/
def Saved.launches (v : Saved) : List Nat := (v.wgs.filterMap fun g => g.map (·.launch)).eraseDups

/-- Launches with a workgroup on a core, or in the state that a change of owner is saving from it or restoring to it (R216,
R233). -/
def State.launchesHeld (s : State) (c : Nat) : List Nat :=
  let k := s.core c
  s.launchesOn c ++ (match k.switch with
    | some .restoring => ((k.owner.bind s.owner).bind fun o => (o.saves.find? fun e => e.1 == c).map fun e => e.2.launches).getD []
    | _ => (k.saved.map Saved.launches).getD [])

/-- A BOUNDS event (R216): everything of the owner on the core stops unsaved, the core is wiped and quarantined for the
owner, the host is told, and the launches that had a workgroup there are cancelled with status BOUNDS. -/
def State.boundsEvent (s : State) (c : Nat) (va pa : DWord) : State :=
  let o := s.ownerId (.handler c 1)
  let ls := s.launchesHeld c
  let s := (s.orphan fun w => wCore w == c).cancelAll ls 4
  (s.modCore c fun k => { k.wipe with quarantined := if k.quarantined.contains o then k.quarantined else k.quarantined ++ [o] }).post
    (.bounds o c va pa)

/-! ### Entering a handler (R219 to R223) -/

/-- The entry of HENTRY that serves a cause (Tables 16.1, 16.7). -/
def handlerEntry : Cause → Nat
  | .walk => 0
  | .illegal | .run | .empty | .fmtdiv | .page | .perm | .bounds | .align | .envelope => 1
  | .arith => 2
  | .extemu => 3
  | .poison => 4
  | .save => 5
  | .soft => 7

/-- FLAGS of a trap frame (Table 16.8). -/
def frameFlags (mend restore : Bool) (hard : Option Nat) : Word :=
  BitVec.ofNat 32 ((if mend then 1 else 0) + (if restore then 2 else 0) + (match hard with | some k => 4 + k * 256 | none => 0))

/-- The 128 bytes of a trap frame (Table 16.8). -/
def frameBytes (e : HEvent) (quant : Int) (now : Nat) (flags : Word) : List Byte :=
  leBytes 4 e.tcause.toNat ++ leBytes 4 e.tpc.toNat ++ leBytes 8 e.fmask.toNat ++ leBytes 8 e.dmask.toNat ++
    leBytes 8 e.taddr.toNat ++ leBytes 12 e.word.toNat ++
    leBytes 4 e.source.toNat ++ leBytes 4 e.launch.toNat ++
    leBytes 4 (BitVec.ofInt 32 quant).toNat ++ leBytes 4 (now - e.since) ++ leBytes 4 flags.toNat ++ List.replicate 64 0#8

/-- Writes one V register of a starting lane. -/
def Thread.withV (t : Thread) (i : Nat) (x : Word) : Thread := { t with v := SMap.set Reg.zero t.v i ⟨x, []⟩ }

/-- A lane of a handler sheet at entry (Table 16.6). -/
def handlerLane (pc : Word) (e : HEvent) (v5 v6 v7 : Nat → Word) (l : Nat) : Thread :=
  match e.args.find? fun a => a.1 == l with
  | none => Thread.absent
  | some (_, addr, fa, fb, xc) =>
    let t := (((((Thread.start pc).withV 0 (loWord addr)).withV 1 (hiWord addr)).withV 2 fa).withV 3 fb).withV 4 xc
    ((t.withV 5 (v5 l)).withV 6 (v6 l)).withV 7 (v7 l)

/-- The handler sheet of an event: 64 lanes, the faulted ones live at the handler's entry (R219, R221). -/
def handlerSheet (level : Nat) (pc : Word) (e : HEvent) (v5 v6 v7 : Nat → Word) (age : Nat) : Sheet :=
  { kind := .handler level e.cause, width := 64, c := 32, code := 0#64, age := age, lanes := (List.range 64).map (handlerLane pc e v5 v6 v7),
    u := [], m := [], sq := [], fills := [], pairs := [], gen := none }

/-- The miss-table entry of a walk's lane: its index and its first request's ACCESS (Table 16.6). -/
def Core.walkEntry (k : Core) (e : HEvent) (l : Nat) : Nat × Nat :=
  match e.page[l]? with
  | none => (0, 0)
  | some p => ((k.misses.findIdx? fun m => m.page == p).getD 0,
      ((k.misses.find? fun m => m.page == p).bind fun m => m.reqs.head?.map (·.access)).getD 0)

/-- Where the trap frame of a core and level lies (Table 16.2). -/
def Owner.frameAt (o : Owner) (c level : Nat) : Nat := o.bbase + 0x1000 + (2 * c + level - 1) * 128

/-- ENTERING A HANDLER: the frame is written to the ballast, its 128 bytes are charged, and the handler starts at its
entry in the slot of its level (R219 to R223, R237). -/
def enterHandler (s : State) (c level : Nat) (e : HEvent) (entry : Nat) (restore : Bool) (hard : Option Nat) : State :=
  match (s.core c).owner.bind s.owner with
  | none => s
  | some o =>
    let flags := frameFlags o.mend restore hard
    let base := o.frameAt c level
    let s := (s.storeHome (.dev base) (frameBytes e (s.core c).quant s.clock flags)).charge o.id (.dev base) 128
    let astat (l : Nat) : Word :=
      match e.cause with
      | .walk | .save => 0#32
      | _ => match s.sheetAt e.who with
        | some sh => (sh.lane l).astat
        | none => 0#32
    let walk := decide (e.cause = .walk)
    let v6 (l : Nat) : Word := BitVec.ofNat 32 (if walk then ((s.core c).walkEntry e l).2 else e.access)
    let v7 (l : Nat) : Word := BitVec.ofNat 32 (if walk then ((s.core c).walkEntry e l).1 else 0)
    let h : Handler :=
      { sheet := handlerSheet level (BitVec.ofNat 32 (o.hentry.getD entry 0)) e astat v6 v7 s.clock, ev := e, entry := entry,
        mended := 0#64, mendRight := o.mend, restore := restore, frozen := false, again := [] }
    s.modCore c fun k => if level = 2 then { k with h2 := some h } else { k with h1 := some h }

/-! ### Returning from a handler (R224 to R228, R370, Table 16.7) -/

/-- A request that a level-1 handler's COPY has in the miss table goes on without the handler (R222, R224). -/
def MissReq.orphaned (c : Nat) (r : MissReq) : MissReq := if ofHandler r.who then { r with who := ghost c } else r

/-- Frees a handler slot. COPYs that a level-1 handler issued run on without it, as ordinary requests, those of their misses that stand in
the table with them (R222, R224). -/
def freeHandler (s : State) (c level : Nat) : State :=
  s.modCore c fun k =>
    if level = 2 then { k with h2 := none }
    else { k with h1 := none,
                  channels := k.channels.map (fun ch =>
                    { ch with q := ch.q.map fun j => if ofHandler j.who then { j with who := ghost c, issuer := false } else j }),
                  misses := k.misses.map fun m => { m with reqs := m.reqs.map (MissReq.orphaned c) } }

/-- A request of a handler stands in the miss table of a core: a walk at level 2 is to come (R230). -/
def Core.handlerMiss (k : Core) : Bool := k.misses.any fun m => m.reqs.any fun r => ofHandler r.who

/-- The access of a request's word, as far as translation needs it. -/
def accOf (access : Nat) : Acc :=
  match access with
  | 1 => .read
  | 2 => .write
  | 3 => .atomic
  | _ => .execute

/-- Lanes of an event with their addresses. -/
def HEvent.lanesAt (e : HEvent) : List (Nat × DWord) := e.args.map fun a => (a.1, a.2.1)

/-- A request has its translation. -/
def Tr.isOk : Tr → Bool
  | .ok _ _ => true
  | _ => false

/-- The lanes of an instruction that have translated (R240): those of a producer or a store-queue entry that hold a translation, and
of an access that translates before it performs the executing lanes that wait for the others. -/
def translatedLanes (sh : Sheet) (of : ReqOf) (access : Nat) (tpc : Word) (word : IWord) : List Nat :=
  match of with
  | .fill id => sh.fills.flatMap fun f => if f.id = id then (f.lanes.filter fun x => x.tr.isOk).map (·.lane) else []
  | .store id => sh.sq.flatMap fun e => if e.id = id then (e.lanes.filter fun x => x.tr.isOk).map (·.lane) else []
  | .word => if access = 4 then [] else (List.range sh.lanes.length).filter fun l =>
      (sh.lane l).live && (sh.lane l).pc == tpc && decide ((sh.lane l).wait = .held) && (sh.lane l).guard (fCtl word)
  | .copy _ => []

/-- An atomic's lane has been received by its engine and has not performed (R349). -/
def State.atEngine (s : State) (who : Where) (id lane : Nat) : Bool :=
  s.engine.any fun e => decide (e.who = who) && e.entry == id && e.lane == lane

/-- The lanes of an instruction that have performed, or completed (R36, R227, R370). -/
def State.performedLanes (s : State) (who : Where) (sh : Sheet) (of : ReqOf) : List Nat :=
  match of with
  | .fill id => sh.fills.flatMap fun f => if f.id = id then (f.lanes.filter fun x => x.done && x.tr.isOk).map (·.lane) else []
  | .store id => sh.sq.flatMap fun e => if e.id = id then
      (e.lanes.filter fun x => x.done && x.tr.isOk && !s.atEngine who id x.lane).map (·.lane) else []
  | _ => []

/-- The code state of a thread that has ended: a COPY of it may still meet a fault (R317). -/
def Sheet.gone : Sheet :=
  { kind := .front, width := 1, c := 0, code := 0#64, age := 0, lanes := [], u := [], m := [], sq := [], fills := [], pairs := [], gen := none }

/-- The lanes of a sheet that stand at a word with its faulted lanes. -/
def standing (tpc : Word) (lanes : List Nat) (sh : Sheet) : List Nat :=
  (List.range sh.lanes.length).filter fun l => (sh.lane l).live && (sh.lane l).pc == tpc &&
    (decide ((sh.lane l).wait = .held) || (decide ((sh.lane l).wait = .trapped) && lanes.contains l))

/-- A COPY goes on from where it stopped: it looks at its next unit again (R148). -/
def State.copyAgain (s : State) (who : Where) (ch : Nat) : State := s.setTr who (.copy ch) 0 (.ok (.spad 0 0) true)

/-- Faulted lanes whose event finds the queue full issue their access again (R220): a word's group waits at it; other lanes ask for
their translation anew, and a COPY looks at its next unit again. -/
def State.askAgain (s : State) (who : Where) (of : ReqOf) (lanes : List (Nat × DWord)) (tpc : Word) : State :=
  match of with
  | .word => s.modSheet who (Sheet.bothBodies fun sh => sh.modLanes (List.range sh.lanes.length) fun t =>
      if t.live && t.pc == tpc && (decide (t.wait = .held) || decide (t.wait = .fetch) || decide (t.wait = .trapped)) then
        { t with wait := .stalled .events } else t)
  | .copy ch => s.copyAgain who ch
  | of => lanes.foldl (fun s l => s.setTr who of l.1 .miss) s

/-- A fault of some lanes of one instruction, found at translation or later, with the lanes that dmask names (R36, R225, R240, R370):
their event joins the queue, or in a handler the owner stalls (R230). While the queue is full they ask again (R220). -/
def lateEvent (s : State) (who : Where) (of : ReqOf) (c : Cause) (slot access : Nat) (dmask : List Nat) (lanes : List (Nat × DWord))
    (tpc : Word) (word : IWord) (left : Bool) : State :=
  let held := lanes.foldl (fun s l => s.setTr who of l.1 (.held c)) s
  match who with
  | .handler co lv => ownerStall held co lv
  | w =>
    if !(s.core (wCore w)).eventRoom then s.askAgain w of lanes tpc
    else
      let sh := (held.sheetAt w).getD Sheet.gone
      let t : TrapInfo := ⟨c, slot, access, lanes.map (·.1), dmask, fun l => ((lanes.find? fun a => a.1 == l).map (·.2)).getD 0#64, tpc, word⟩
      let at_ := standing tpc (lanes.map (·.1))
      let grp := at_ sh ++ (match sh.gen with | some g => at_ (sh.frozenBody g) | none => [])
      held.queueEvent (wCore w) (trapEvent held w sh grp t (some of) left)

/-- A partial fault, or a precise one found after the group left the word: dmask names the translated lanes of a PAGE, and of other
causes the lanes that performed (R240, R370). -/
def lateFault (s : State) (who : Where) (of : ReqOf) (c : Cause) (slot access : Nat) (lanes : List (Nat × DWord))
    (tpc : Word) (word : IWord) (left : Bool) : State :=
  let sh := (s.sheetAt who).getD Sheet.gone
  let done := if c = .page then (translatedLanes sh of access tpc word).filter fun l => !(lanes.map (·.1)).contains l
    else s.performedLanes who sh of
  lateEvent s who of c slot access done lanes tpc word left

/-- The translation of a request's address; one with bit 63 is a physical one of the ballast window (R36, R212). -/
def State.ask (s : State) (r : MissReq) : Xlat :=
  if r.va.getLsbD 63 then .ok (.dev (r.va.toNat % 2 ^ 44)) true else s.translate (wCore r.who) (accOf r.access) r.va

/-- A request translates again: it goes on, still misses, or lacks permission (R224, R330 step 5). -/
def retranslate (s : State) (r : MissReq) : State × Option (Bool × MissReq) :=
  match s.ask r with
  | .ok t n => (s.setTr r.who r.of r.lane (.ok t n), none)
  | .miss => (s, some (true, r))
  | .perm => (s, some (false, r))

/-- Whether two requests are lanes of one instruction. -/
def sameOp (a b : MissReq) : Bool := decide (a.who = b.who) && decide (a.of = b.of) && a.pc == b.pc

/-- Requests in ascending lane order (R36, R240). -/
def laneOrder (rs : List MissReq) : List MissReq := (List.range 64).flatMap fun l => rs.filter fun r => r.lane == l

/-- Splits off the requests of the first one's instruction, which fault together. -/
def raiseFaults (cause : Cause) : Nat → List MissReq → State → State
  | 0, _, s => s
  | _ + 1, [], s => s
  | n + 1, r :: rest, s =>
    let mine := laneOrder (r :: rest.filter (sameOp r))
    let s := lateFault s r.who r.of cause r.slot r.access (mine.map fun x => (x.lane, x.va)) r.pc r.word
      (decide (cause = .perm) && decide (r.of ≠ .word))
    raiseFaults cause n (rest.filter fun x => !sameOp r x) s

/-- Requests translate again after a walk; those that still miss become PAGE faults of their instructions (R224, R240), those
without permission PERM (R330). A level-1 handler's access that still misses is an owner stall (R230). -/
def replayWalk (s : State) (rs : List MissReq) : State :=
  let (s, left) := rs.foldl (fun (a : State × List (Bool × MissReq)) r =>
    match retranslate a.1 r with
    | (s, none) => (s, a.2)
    | (s, some x) => (s, a.2 ++ [x])) (s, [])
  let s := raiseFaults .perm left.length ((left.filter fun x => !x.1).map (·.2)) s
  raiseFaults .page left.length ((left.filter (·.1)).map (·.2)) s

/-- The requests of a faulted instruction's lanes. -/
def HEvent.requests (e : HEvent) (of : ReqOf) (lanes : List (Nat × DWord)) : List MissReq :=
  lanes.map fun l => ⟨e.who, l.1, l.2, e.access, e.slot, of, e.tpc, e.word⟩

/-- Requests of an agent issue again, translated anew: a miss starts a new walk (Table 16.7, R226, R370). -/
def reissue (s : State) (w : Where) (rs : List MissReq) : State :=
  let (s, left) := rs.foldl (fun (a : State × List (Bool × MissReq)) r =>
    match retranslate a.1 r with
    | (s, none) => (s, a.2)
    | (s, some x) => (s, a.2 ++ [x])) (s, [])
  let s := raiseFaults .perm left.length ((left.filter fun x => !x.1).map (·.2)) s
  let ms := (left.filter (·.1)).map (·.2)
  let s := ms.foldl (fun s r => s.setTr r.who r.of r.lane .miss) s
  let (s, out) := missFor s w ms
  out.foldl (fun s r => match r.of with
    | .copy ch => s.copyAgain r.who ch
    | _ => s) s

/-- Faulted lanes translate again after a PAGE, POISON or late event (Table 16.7, R370). -/
def replayLanes (s : State) (e : HEvent) (of : ReqOf) (lanes : List (Nat × DWord)) : State :=
  reissue s e.who (e.requests of lanes)

/-- Late lanes complete without performing (rfh.skip, R370): a load's destination keeps what it held, a store lane is
dropped. -/
def skipLanes (s : State) (e : HEvent) (of : ReqOf) (lanes : List Nat) : State :=
  s.modSheet e.who fun sh =>
    lanes.foldl (fun sh l =>
      match of with
      | .fill id => match sh.fills.find? fun f => f.id == id with
        | some f => sh.dropLane f l
        | none => sh
      | .store id =>
        let fill := (sh.sq.find? fun x => x.id == id).bind fun x => match x.kind with
          | .atom _ f _ _ => sh.fills.find? fun y => y.id == f
          | _ => none
        match fill with
        | some f => (sh.sqDone id l).dropLane f l
        | none => sh.sqDone id l
      | _ => sh) sh

/-- Whether a word is a transfer (R51). -/
def isTransfer (w : IWord) : Bool :=
  let op := fOpcode w
  (op / 64 == 5 && decide (op % 64 ≤ 5)) || op == 0xE * 64 + 4

/-- The lanes of a trapped group that still stand at its word, or at the word before a trapped trailer. -/
def trappedLanes (e : HEvent) (sh : Sheet) : List Nat :=
  (maskLanes sh.lanes.length e.grp).filter fun l =>
    (decide ((sh.lane l).wait = .trapped) || decide ((sh.lane l).wait = .held)) &&
      ((sh.lane l).pc == e.tpc || (sh.lane l).pc + 12#32 == e.tpc)

/-- The lanes of a trapped group go on after the word as if no lane had executed it. After a run's last word, a transfer among
them, that is the trailer, which the group then passes (R53); where the trailer itself trapped it is the next run start, with the
trailer's list (R51, Table 16.7). -/
def skipWord (pass : Nat) (e : HEvent) : Sheet → Sheet :=
  let awaits := trlrEntries e.word (bitsOf e.word 71 3).toNat
  Sheet.bothBodies fun sh => sh.modLanes (trappedLanes e sh) fun t =>
    if t.pc + 12#32 = e.tpc then t.startRun (t.pc + 24#32) awaits false pass false
    else if isTrlr e.word then t.startRun (t.pc + 12#32) awaits false pass false
    else t.stepOn false

/-- The lanes of a trapped group issue the word again. -/
def retryWord (e : HEvent) : Sheet → Sheet :=
  Sheet.bothBodies fun sh => sh.modLanes (trappedLanes e sh) fun t => { t with wait := .ready }

/-- Modes that a cause accepts (Table 16.7). -/
def modeOk (e : HEvent) (mode : RfhMode) : Bool :=
  match mode with
  | .plain | .fail => true
  | .skip => match e.cause with
    | .walk | .page | .poison | .arith | .save => false
    | _ => match e.of with
      | some (.copy _) => false
      | _ => true

/-- The requests of the miss-table entries that a walk round took, which leave the table. -/
def takeEntries (s : State) (c : Nat) (pages : List Nat) : State × List MissReq :=
  let k := s.core c
  (s.modCore c fun k => { k with misses := k.misses.filter fun m => !pages.contains m.page },
    (k.misses.filter fun m => pages.contains m.page).flatMap (·.reqs))

/-- rfh.fail (R228): a sticky ENVELOPE error of the launch, which is cancelled. Of a walk it is the launches of every
faulted lane. Lanes of a handler that has no launch, a walk or save handler, give none: their entries stay and are walked again (log 58). -/
def failEvent (s : State) (c : Nat) (e : HEvent) : State :=
  let launchOf (w : Where) : List Nat := match s.wgOf w with | some g => [g.launch] | none => []
  let walked (m : MissEntry) : List Nat := if e.page.contains m.page then m.reqs.flatMap fun r => launchOf r.who else []
  let ls : List Nat := match e.cause with
    | .walk => (s.core c).misses.flatMap walked
    | _ => launchOf e.who
  let s := ls.foldl (fun (s : State) li => s.modLaunch li fun l => { l with sticky := true }) s
  s.cancelAll ls 3

/-- A lane that MEND has given its value leaves its instruction (R229). -/
def Sheet.mendedLane (sh : Sheet) (of : Option ReqOf) (l : Nat) : Sheet :=
  let fillDone (id : Nat) (sh : Sheet) : Sheet :=
    (sh.modFill id fun f => f.modLane l fun y => { y with done := true }).reapFill id
  match of with
  | some (.fill id) => (fillDone id sh).wake
  | some (.store id) =>
    let sh' := sh.sqDone id l
    let kind : Option SqKind := (sh.sq.find? fun x => x.id == id).map fun x => x.kind
    match kind with
    | some (SqKind.atom _ f _ _) => (fillDone f sh').wake
    | _ => sh'
  | _ => sh

/-- RETURNING FROM AN EXCEPTION, for every cause but SAVE (Table 16.7): the handler's slot is free, and the faulted lanes
replay, issue their word again, go on after it, or end with their launch. -/
def returnFrom (s : State) (c level : Nat) (h : Handler) (mode : RfhMode) : State :=
  let e := h.ev
  let s := freeHandler s c level
  let open_ := e.lanesAt.filter fun l => !h.mended.getLsbD l.1
  if mode = .fail then failEvent s c e
  else
    match e.cause with
    | .walk =>
      let (s, rs) := takeEntries s c e.page
      let s := replayWalk s rs
      if level = 2 ∧ (s.core c).stall = none ∧ (s.core c).handlerMiss = false then
        s.modCore c fun k => k.modHandler 1 fun h => { h with frozen := false }
      else s
    | .page => replayLanes s e (e.of.getD .word) e.lanesAt
    | .poison =>
      let s := s.modSheet e.who fun sh =>
        (e.lanesAt.filter fun l => h.mended.getLsbD l.1).foldl (fun sh l => sh.mendedLane e.of l.1) sh
      replayLanes s e (e.of.getD .word) open_
    | .arith => s.modSheet e.who (retryWord e)
    | .extemu | .soft => s.modSheet e.who (skipWord s.steps e)
    | _ =>
      match e.of with
      | some of =>
        if e.left then
          if mode = .skip then skipLanes s e of (open_.map (·.1)) else replayLanes s e of open_
        else s.modSheet e.who (if mode = .skip then skipWord s.steps e else retryWord e)
      | none => s.modSheet e.who (if mode = .skip then skipWord s.steps e else retryWord e)

end Sys2Proof.Machine
end

