-- ==== Sys2Proof/Machine/Local.lean ====
section
/-!
DEFINITION. Class 0x7: scratchpad loads and stores, their bounds and alignment, the local completion counter and the tag
table (R139 to R146, R164).
-/

namespace Sys2Proof.Machine

/-! ### Allocations (R139, R143, R222, R234) -/

/-- A range of a core's image: core, first address, size. -/
structure Alloc where
  core : Nat
  base : Nat
  size : Nat
  deriving DecidableEq, Repr

/-- What an agent's offsets reach: its workgroup's allocation, or the core image for a walk, save or restore handler. -/
def State.alloc (s : State) (w : Where) : Alloc :=
  match s.wgOf w with
  | some g => ⟨wCore w, g.spadBase, g.spadSize⟩
  | none => match w with
    | .handler c _ => ⟨c, 0, 0x1E00000⟩
    | _ => ⟨wCore w, 0, 0⟩

/-- The allocation of a member of the agent's quire, and its core: its own rank names its own (R143). A portal workgroup's quire has
no other member (R265). -/
def State.member (s : State) (w : Where) (rank : Nat) : Option (Nat × Workgroup) :=
  (s.wgOf w).bind fun g =>
    if rank = g.qrank then some (wCore w, g)
    else if g.portal.isSome then none
    else (quireCores (wCore w)).findSome? fun c => (s.core c).wgs.findSome? fun h =>
      match h with
      | some h => if h.launch = g.launch ∧ h.quire = g.quire ∧ h.qrank = rank then some (c, h) else none
      | none => none

/-- The allocation that a local access reaches, by Q and rank; none for a bad rank. -/
def State.reach (s : State) (w : Where) (q : Bool) (rank : Nat) : Option Alloc :=
  if q then if rank > 3 then none else (s.member w rank).map fun x => ⟨x.1, x.2.spadBase, x.2.spadSize⟩
  else some (s.alloc w)

/-- Whether an access lies outside an allocation: past its size, or in a hole of the core image. -/
def Alloc.outside (a : Alloc) (va : DWord) (n : Nat) : Bool :=
  decide (a.size < va.toNat + n) || (decide (a.size = 0x1E00000) && decide (0xB00000 < va.toNat + n) && decide (va.toNat < 0xC00000))

/-- The checks of R139 on some lanes' accesses of `n` bytes: BOUNDS before ALIGN, with the lanes that fail. -/
def spadCheck (al : Alloc) (n : Nat) (lanes : List (Nat × DWord)) : Option (Cause × List Nat) :=
  let bad := lanes.filter fun l => al.outside l.2 n
  let odd := lanes.filter fun l => l.2.toNat % n != 0
  if !bad.isEmpty then some (.bounds, bad.map (·.1))
  else if !odd.isEmpty then some (.align, odd.map (·.1))
  else none

/-- The target of an offset. -/
def Alloc.target (a : Alloc) (va : DWord) : Target := .spad a.core (a.base + va.toNat)

/-! ### Values of memory (Table 3.6) -/

/-- Bytes of an access by SIZE. -/
def sizeBytes : Size → Nat
  | .u8 | .s8 => 1
  | .u16 | .s16 => 2
  | .b32 => 4
  | .b64 => 8
  | .b128 => 16

/-- The words that a load of some bytes fills, extended by SIZE. -/
def loadWords (sz : Size) (bs : List Byte) : List Word :=
  let w (k : Nat) : Word := leVal 32 ((bs.drop (4 * k)).take 4)
  match sz with
  | .u8 | .u16 | .b32 => [w 0]
  | .s8 => [((leVal 8 bs).signExtend 32)]
  | .s16 => [((leVal 16 bs).signExtend 32)]
  | .b64 => [w 0, w 1]
  | .b128 => [w 0, w 1, w 2, w 3]

/-- The bytes that a store of a value operand writes. What STL.b128 stores of an immediate, which Table 11.1 accepts, no rule says: two
free values of each lane (log 55). -/
def storeBytes (s : State) (g : Grp) (sz : Size) (o : Opd) (l : Nat) : List Byte :=
  match sz, o with
  | .b64, o => leBytes 8 (rd64 s g o l).toNat
  | .b128, .imm _ => leBytes 8 (Config.freeValue (s.free + 2 * l)).toNat ++ leBytes 8 (Config.freeValue (s.free + 2 * l + 1)).toNat
  | .b128, o => (rdQuad g o l).flatMap fun w => leBytes 4 w.toNat
  | sz, o => leBytes (sizeBytes sz) (rd s g false o l).toNat

/-- A store of a value operand has used the free values that it stores. -/
def State.stored (s : State) (sz : Size) (o : Opd) : State :=
  match sz, o with
  | .b128, .imm _ => { s with free := s.free + 128 }
  | _, _ => s

/-- Bytes that a lane of a producer reads where the sheet's own queue may hold them. -/
def FillKind.bytes : FillKind → Nat
  | .ldl sz | .ld sz _ => sizeBytes sz
  | .gtake _ => 8
  | _ => 0

/-- A load lane that cannot complete while a held store-queue entry, or a load that waits, stands before it (R69, R162, R164, R166, R330). -/
def Sheet.behindHeld (v : Variant) (sh : Sheet) (f : Fill) (x : LaneReq) : Bool :=
  match x.tr with
  | .ok t _ => decide (sh.forward v f.id x.lane t x.va f.kind.bytes = .wait) ||
      !(sh.loadsDone f.id x.lane && sh.pairDone f.id && sh.acquiresDone f.id x.lane && sh.orderedDone f.id x.lane)
  | _ => true

/-- The lanes that a load with this destination performs: only the lowest for a W register (R22). -/
def performers (act : List Nat) (d : Opd) : List Nat :=
  match d with
  | .u _ _ _ => act.take 1
  | _ => act

/-- The lanes of a group with their addresses. -/
def Grp.addrs (s : State) (g : Grp) (ls : List Nat) (a b : Opd) : List (Nat × DWord) := ls.map fun l => (l, ea s g a b l)

/-- The address of a lane in a list of them. -/
def addrIn (xs : List (Nat × DWord)) (l : Nat) : DWord := ((xs.find? fun x => x.1 == l).map (·.2)).getD 0#64

/-! ### LDL and STL (R139, R140, R142, R143) -/

/-- The sources of a local access. -/
def localSrcs (q : Bool) (a b x : Opd) : List Src := [(1, false, a), (2, false, b)] ++ (if q then [(3, false, x)] else [])

/-- An access to the scratchpad that passed its checks, or the trap of one that did not. A rank above 3, or of no member, is BOUNDS with SLOT
3; R143 gives that trap no ACCESS and no taddr, and the model gives it those of the access (log 53). A level-2 handler may touch only the
ballast: there it is an owner stall, as a translated access is (R230, log 44). -/
def withLocal (s : State) (g : Grp) (q : Bool) (n : Nat) (acc : Acc) (x : Opd) (xs : List (Nat × DWord))
    (k : Alloc → State) : State :=
  match xs with
  | [] => k ⟨wCore g.w, 0, 0⟩
  | (l0, _) :: _ =>
    withLevel s g false true fun s =>
      match s.reach g.w q (rd s g false x l0).toNat with
      | none => trapAt s g .bounds 3 acc (xs.map (·.1)) (addrIn xs)
      | some al => match spadCheck al n xs with
        | some (c, ls) => trapAt s g c 1 acc ls (addrIn xs)
        | none => k al

/-- LDL (R140, R142, R144). -/
def execLdl (c : Ctl) (q : Bool) (sz : Size) (d a b x : Opd) (s : State) : Res :=
  atWord s c fun s g =>
    withSources s g (localSrcs q a b x) (
      let ls := performers g.act d
      let xs := g.addrs s ls a b
      withLocal s g q (sizeBytes sz) .read x xs fun al =>
        if ls.isEmpty then finish s g c g.sh
        else if 255 ≤ g.sh.lcc then s.put g (waitHere g (.room true false) g.sh)
        else
          let (id, s) := s.fresh
          let f : Fill :=
            { id := id, kind := .ldl sz, dest := d, pc := g.pc, word := s.curWord,
              lanes := xs.map fun y => ⟨y.1, y.2, .ok (al.target y.2) true, false, none⟩ }
          finish s g c ((markEmptyAll ls sz.quad d id g.sh).addFill f))

/-- STL (R142, R144, R163). -/
def execStl (c : Ctl) (q : Bool) (sz : Size) (d a b x : Opd) (s : State) : Res :=
  atWord s c fun s g =>
    withSources s g ((0, sz.quad, d) :: localSrcs q a b x) (
      let xs := g.addrs s g.act a b
      withLocal s g q (sizeBytes sz) .write x xs fun al =>
        if xs.isEmpty then finish s g c g.sh
        else if 255 ≤ g.sh.lcc ∨ ¬ g.sh.sqRoom then s.put g (waitHere g (.room true true) g.sh)
        else
          let (id, s) := s.fresh
          let e : SqEntry :=
            { id := id, kind := .stl, counted := true, pc := g.pc, word := s.curWord,
              lanes := xs.map fun y => ⟨y.1, y.2, .ok (al.target y.2) true, false, false, storeBytes s g sz d y.1, []⟩ }
          finish (s.stored sz d) g c (g.sh.addSq e))

/-- Every scratchpad access that the sheet has issued is done: the local completion counter is 0, and no entry that GYLD has queued, which
holds no count, is left (R95, R142, R166). -/
def Sheet.localDone (sh : Sheet) : Bool := decide (sh.lcc = 0) && !sh.sq.any fun e => decide (e.kind = .gyld)

/-- LWAIT: the group blocks until the sheet's scratchpad accesses are done (R142, R166). -/
def execLwait (c : Ctl) (s : State) : Res :=
  atWord s c fun s g =>
    if g.act.isEmpty ∨ g.sh.localDone then finish s g c g.sh else s.put g (blockGroup g .lwait c.yld g.sh)

/-! ### The tag table (R145, R146) -/

/-- The set that an address selects, by its number among the workgroup's own (R145). -/
def Workgroup.ownSet (g : Workgroup) (va : DWord) : Nat := va.toNat / 2 ^ g.slotLog % g.tagSets

/-- The set of an address, by its index in the core's table, and its tag. -/
def Workgroup.tagOf (g : Workgroup) (va : DWord) : Nat × Nat :=
  (g.tagIdx.getD (g.ownSet va) 0, va.toNat % 2 ^ 48 / 2 ^ g.slotLog)

/-- What an invalid entry of the tag table reads as; no valid entry has this tag. -/
def TagEntry.none : TagEntry := ⟨2 ^ 48, 0#32⟩

/-- An entry of the tag table: 8 ways a set. -/
def Core.tag (k : Core) (set way : Nat) : TagEntry := SMap.get TagEntry.none k.tags (set * 8 + way)

/-- Writes an entry of the tag table. -/
def Core.setTag (k : Core) (set way : Nat) (e : TagEntry) : Core :=
  { k with tags := SMap.set TagEntry.none k.tags (set * 8 + way) e }

/-- A lookup (R146): the slot index of the lowest matching way, or 0x8000_0000 OR the set index. -/
def Core.tagLookup (k : Core) (g : Workgroup) (va : DWord) : Word :=
  let (set, tag) := g.tagOf va
  match ([0, 1, 2, 3, 4, 5, 6, 7] : List Nat).find? fun w => (k.tag set w).tag == tag with
  | some w => (k.tag set w).slot
  | none => BitVec.ofNat 32 (2 ^ 31 + g.ownSet va)

/-- TAGS of one lane: its way of its set holds its tag and slot (R146). -/
def Core.tagInstall (k : Core) (g : Workgroup) (way : Nat) (va : DWord) (slot : Word) : Core :=
  let (set, tag) := g.tagOf va
  k.setTag set way ⟨tag, slot⟩

/-- TAGI of one lane: every way of its set with its tag is invalid (R146). -/
def Core.tagDrop (k : Core) (g : Workgroup) (va : DWord) : Core :=
  let (set, tag) := g.tagOf va
  (List.range 8).foldl (fun k w => if (k.tag set w).tag = tag then k.setTag set w TagEntry.none else k) k

/-- A tag instruction without tag sets is ILLEGAL (R145); otherwise it goes on with its workgroup. -/
def withTags (s : State) (g : Grp) (k : Workgroup → State) : State :=
  match s.wgOf g.w with
  | none => trap s g .illegal 15 g.act
  | some wg => if wg.tagSets = 0 ∧ ¬ g.act.isEmpty then trap s g .illegal 15 g.act else k wg

/-- TAGL (R146): the destination is empty until the table answers. -/
def execTagl (c : Ctl) (d a b : Opd) (s : State) : Res :=
  atWord s c fun s g =>
    withTags s g fun _ =>
      withSources s g [(1, false, a), (2, false, b)] (
        let ls := performers g.act d
        if ls.isEmpty then finish s g c g.sh
        else
          let (id, s) := s.fresh
          let f : Fill :=
            { id := id, kind := .tagl, dest := d, pc := g.pc, word := s.curWord,
              lanes := (g.addrs s ls a b).map fun y => ⟨y.1, y.2, .ok (.spad (wCore g.w) 0) true, false, none⟩ }
          finish s g c ((markEmptyAll ls false d id g.sh).addFill f))

/-- A queue entry of TAGS or TAGI, which takes effect at its turn (R142, R146, R163). -/
def queueTag (s : State) (g : Grp) (c : Ctl) (kind : SqKind) (lanes : List SqLane) : State :=
  if lanes.isEmpty then finish s g c g.sh
  else if 255 ≤ g.sh.lcc ∨ ¬ g.sh.sqRoom then s.put g (waitHere g (.room true true) g.sh)
  else
    let (id, s) := s.fresh
    finish s g c (g.sh.addSq { id := id, kind := kind, counted := true, pc := g.pc, word := s.curWord, lanes := lanes })

/-- TAGS (R146). -/
def execTags (c : Ctl) (way : BitVec 3) (a b x : Opd) (s : State) : Res :=
  atWord s c fun s g =>
    withTags s g fun wg =>
      withSources s g [(1, false, a), (2, false, b), (3, false, x)] (
        let bad := g.act.filter fun l => decide (wg.spadSize / 2 ^ wg.slotLog ≤ (rd s g false x l).toNat)
        if !bad.isEmpty then trap s g .bounds 3 bad
        else
          queueTag s g c (.tags way.toNat) ((g.addrs s g.act a b).map fun y =>
            ⟨y.1, y.2, .ok (.spad (wCore g.w) 0) true, false, false, leBytes 4 (rd s g false x y.1).toNat, []⟩))

/-- TAGI (R146). -/
def execTagi (c : Ctl) (all : Bool) (a b : Opd) (s : State) : Res :=
  atWord s c fun s g =>
    withTags s g fun _ =>
      withSources s g [(1, false, a), (2, false, b)] (
        queueTag s g c (.tagi all) ((g.addrs s g.act a b).map fun y =>
          ⟨y.1, y.2, .ok (.spad (wCore g.w) 0) true, false, false, [], []⟩))

end Sys2Proof.Machine
end

