-- ==== Sys2Proof/Machine/Device.lean ====
section
/-!
DEFINITION. Class 0x8: device memory. Loads and stores issue here and perform by events; the row instructions ask the home
controllers (R192 to R199, R212, R312, R329 to R331, R343, R360, R361).
-/

namespace Sys2Proof.Machine

/-! ### Checks (R330, R361) -/

/-- Whether an access goes through the ballast window. -/
def accBw : Access → Bool
  | .bw => true
  | _ => false

/-- The scope at which an access is ordered. -/
def accScope : Access → Option Scope
  | .ordered sc => some sc
  | _ => none

/-- Lanes whose address no access may have: bits above 47, or outside the ballast for .bw (R212, R330 step 2). -/
def outOfRange (s : State) (w : Where) (bw : Bool) (acc : Acc) (n : Nat) (xs : List (Nat × DWord)) : List Nat :=
  (xs.filter fun x => if bw then decide (s.resolve w true acc n x.2 = .perm) else decide (2 ^ 48 ≤ x.2.toNat)).map (·.1)

/-- Lanes that hit without the permission. -/
def noPermission (s : State) (w : Where) (bw : Bool) (acc : Acc) (n : Nat) (xs : List (Nat × DWord)) : List Nat :=
  (xs.filter fun x => decide (s.resolve w bw acc n x.2 = .perm)).map (·.1)

/-- The checks of R330 on some lanes, in their order: ALIGN, the address range, the permission of hitting lanes. -/
def devCheck (s : State) (w : Where) (bw : Bool) (acc : Acc) (n : Nat) (aligned : Bool) (xs : List (Nat × DWord)) :
    Option (Cause × List Nat) :=
  let odd := xs.filter fun x => aligned && x.2.toNat % n != 0
  let out := outOfRange s w bw acc n xs
  let np := noPermission s w bw acc n xs
  if !odd.isEmpty then some (.align, odd.map (·.1))
  else if !out.isEmpty then some (.perm, out)
  else if !np.isEmpty then some (.perm, np)
  else none

/-- A lane's translation as its request holds it. -/
def trOf (x : Xlat) (around : Bool) : Tr :=
  match x with
  | .ok t n => Tr.via around (.ok t n)
  | _ => .miss

/-- Whether any lane misses. -/
def anyMiss (s : State) (w : Where) (bw : Bool) (acc : Acc) (n : Nat) (xs : List (Nat × DWord)) : Bool :=
  xs.any fun x => decide (s.resolve w bw acc n x.2 = .miss)

/-- Requests of the lanes that miss. -/
def missesOf (s : State) (g : Grp) (bw : Bool) (acc : Acc) (n : Nat) (of : ReqOf) (xs : List (Nat × DWord)) : List MissReq :=
  (xs.filter fun x => decide (s.resolve g.w bw acc n x.2 = .miss)).map fun x =>
    ⟨g.w, x.1, x.2, accCode acc, 1, of, g.pc, s.curWord⟩

/-- An access that passes its checks, or its trap with SLOT 1. -/
def withDevice (s : State) (g : Grp) (bw : Bool) (acc : Acc) (n : Nat) (aligned : Bool) (xs : List (Nat × DWord))
    (k : State → State) : State :=
  match devCheck s g.w bw acc n aligned xs with
  | some (c, ls) => trapAt s g c 1 acc ls fun l => taddrOf bw (addrIn xs l)
  | none => withLevel s g bw (anyMiss s g.w bw acc n xs) k

/-- Lanes of a sheet's instructions whose requests have not been answered: loads, waits on a word, row instructions. -/
def Sheet.requests (sh : Sheet) : Nat :=
  (sh.fills.map fun f => match f.kind with
    | .ld _ _ | .mwait _ _ _ _ | .promote _ _ | .demote | .madr => (f.lanes.filter fun x => !x.done).length
    | _ => 0).foldl (· + ·) 0

/-- The code states that run on a core. -/
def Core.running (k : Core) : List Sheet :=
  k.wgs.flatMap (fun g => match g with
    | some g => g.front.toList ++ g.sheets.filterMap id
    | none => []) ++ k.h1.toList.map (·.sheet) ++ k.h2.toList.map (·.sheet)

/-- Requests of a core that have not been answered (R331): those of its sheets, its stores on their way, and its atomics at the engines. -/
def State.outstanding (s : State) (c : Nat) : Nat :=
  ((s.core c).running.map Sheet.requests).foldl (· + ·) 0 +
    (s.flights.filter fun f => f.core == c && f.target.charged).length + (s.engine.filter fun e => e.core == c).length

/-- A request of a lane can end by itself: it has its target, waits for nothing of its own sheet, and for no other agent's store. -/
def Sheet.ends (v : Variant) (sh : Sheet) : Bool :=
  sh.fills.any fun f => match f.kind with
    | .ld _ _ | .promote _ _ | .demote | .madr => f.lanes.any fun x => !x.done && x.tr.isOk && !sh.behindHeld v f x
    | _ => false

/-- Some of a core's outstanding requests can end without another being made. -/
def State.someEnd (s : State) (c : Nat) : Bool :=
  s.flights.any (fun f => f.core == c && f.target.charged) || s.engine.any (fun e => e.core == c) ||
    (s.core c).running.any (Sheet.ends s.variant)

/-- A core may hold `n` requests more: at most 1,024 (R331). Where all that are outstanding wait for one that is not made yet, as loads wait
for a queued store, for a handler or for another agent's store, it may be made (log 55). -/
def State.mayAdd (s : State) (c n : Nat) : Bool := decide (s.outstanding c + n ≤ 1024) || !s.someEnd c

/-- A word that makes a request in each of some lanes waits at issue while the core may not hold them (R331). -/
def withRequests (s : State) (g : Grp) (n : Nat) (k : State) : State :=
  if n = 0 || s.mayAdd (wCore g.w) n then k else s.put g (waitHere g (.requests n) g.sh)

/-- The address as a request holds it: a physical one of the ballast window has bit 63 set, as taddr gives it (R36). -/
def requestVa (bw : Bool) (va : DWord) : DWord := if bw then taddrOf true va else va

/-! ### LD and ST -/

/-- LD (R329 to R331). -/
def execLd (c : Ctl) (acc : Access) (sz : Size) (d a b : Opd) (s : State) : Res :=
  atWord s c fun s g =>
    withSources s g [(1, false, a), (2, false, b)] (
      let ls := performers g.act d
      let xs := g.addrs s ls a b
      let bw := accBw acc
      withDevice s g bw .read (sizeBytes sz) true xs fun s =>
        if ls.isEmpty then finish s g c g.sh
        else withRequests s g ls.length (
          let (id, s) := s.fresh
          let f : Fill :=
            { id := id, kind := .ld sz acc, dest := d, pc := g.pc, word := s.curWord,
              lanes := xs.map fun y =>
                ⟨y.1, requestVa bw y.2, trOf (s.resolve g.w bw .read (sizeBytes sz) y.2) (accAround acc), false, none⟩ }
          issueAccess s g c (.fill id) ((markEmptyAll ls sz.quad d id g.sh).addFill f)
            (missesOf s g bw .read (sizeBytes sz) (.fill id) xs)))

/-- A store-queue entry of the executing lanes' device addresses. -/
def queueDevice (s : State) (g : Grp) (c : Ctl) (kind : SqKind) (bw : Bool) (acc : Acc) (n : Nat)
    (xs : List (Nat × DWord)) (bytes new : Nat → List Byte) (sh : Sheet) : State :=
  if xs.isEmpty then finish s g c sh
  else if ¬ g.sh.sqRoom then s.put g (waitHere g (.room false true) g.sh)
  else
    let (id, s) := s.fresh
    let e : SqEntry :=
      { id := id, kind := kind, counted := false, pc := g.pc, word := s.curWord,
        lanes := xs.map fun y => ⟨y.1, requestVa bw y.2, trOf (s.resolve g.w bw acc n y.2) bw, false, false, bytes y.1, new y.1⟩ }
    issueAccess s g c (.store id) (sh.addSq e) (missesOf s g bw acc n (.store id) xs)

/-- ST (R360, R361). -/
def execSt (c : Ctl) (acc : Access) (sz : Size) (d a b : Opd) (s : State) : Res :=
  atWord s c fun s g =>
    withSources s g [(0, sz.quad, d), (1, false, a), (2, false, b)] (
      let xs := g.addrs s g.act a b
      withDevice s g (accBw acc) .write (sizeBytes sz) true xs fun s =>
        withRelease s g (accScope acc)
          (queueDevice s g c (.st (accScope acc) (accBw acc)) (accBw acc) .write (sizeBytes sz) xs
            (fun l => storeBytes s g sz d l) (fun _ => []) g.sh))

/-! ### PREF and CWB (R312, R343) -/

/-- Whether the row of a device place is live, its line unpoisoned, and where it is. -/
def State.prefable (s : State) (t : Target) : Option (Nat × Place) :=
  match t with
  | .dev pa => (s.place pa).bind fun p =>
      if s.dram.isLive p.rowKey && !s.dram.poisoned (p.cell / 128) then some (pa, p) else none
  | _ => none

/-- One lane of PREF, with the requests that the core may still have outstanding and the lines that lanes before it have requested: its line
goes into the L1, or only into the home die cache. Lanes that name one line share a request; a line that the L1 holds needs none. A request
that the controllers delay, or that waits for tokens, changes nothing yet, and the model ends it there (R202, R232, log 13). -/
def prefLane (dc : Bool) (w : Where) (a : State × Nat × List (Nat × Bool)) (va : DWord) : State × Nat × List (Nat × Bool) :=
  let s := a.1
  let c := wCore w
  match s.translate c .read va with
  | .ok t n =>
    match s.prefable t with
    | none => a
    | some (pa, p) =>
      let cold := (s.dram.held? (p.cell / 128)).isNone
      let l1 := !(dc || n)
      if a.2.2.any (fun x => x.1 == pa / 128 && (x.2 || !l1)) || a.2.1 == 0 || (l1 && (s.core c).l1Has pa) then a
      else
        let made (s : State) : State × Nat × List (Nat × Bool) := (s, a.2.1 - 1, a.2.2 ++ [(pa / 128, l1)])
        if cold && !s.mayRequest w t then made s
        else
          let s := (s.demand (s.ownerId w) t 1).readLines t 1
          let s := if cold then s.charge (s.ownerId w) (.dev pa) 128 else s
          made (if l1 then s.fillLine c pa else s)
  | _ => a

/-- PREF (R343). -/
def execPref (c : Ctl) (dc : Bool) (a b : Opd) (s : State) : Res :=
  atWord s c fun s g =>
    withSources s g [(1, false, a), (2, false, b)] (
      let xs := g.addrs s g.act a b
      withLevel s g false (anyMiss s g.w false .read 1 xs) fun s =>
        finish (xs.foldl (fun a x => prefLane dc g.w a x.2) (s, 1024 - s.outstanding (wCore g.w), [])).1 g c g.sh)

/-- CWB (R312). -/
def execCwb (c : Ctl) (bw : Bool) (a b : Opd) (s : State) : Res :=
  atWord s c fun s g =>
    withSources s g [(1, false, a), (2, false, b)] (
      let xs := g.addrs s g.act a b
      withDevice s g bw .read 1 false xs fun s =>
        queueDevice s g c .cwb bw .read 1 xs (fun _ => []) (fun _ => []) g.sh)

/-! ### Rows (R192 to R199) -/

/-- Lanes whose address is not in this module's device memory. -/
def notDevice (s : State) (w : Where) (bw : Bool) (acc : Acc) (xs : List (Nat × DWord)) : List Nat :=
  (xs.filter fun x => match s.resolve w bw acc 1 x.2 with
    | .ok (.dev _) _ => false
    | .miss => false
    | _ => true).map (·.1)

/-- The checks and the translation that come before a row instruction performs in any lane (R193). -/
def withRows (s : State) (g : Grp) (bw : Bool) (acc : Acc) (xs : List (Nat × DWord)) (k : State → State) : State :=
  let bad := notDevice s g.w bw acc xs
  if !bad.isEmpty then trapAt s g .perm 1 acc bad fun l => taddrOf bw (addrIn xs l)
  else
    let ms := xs.filter fun x => decide (s.resolve g.w bw acc 1 x.2 = .miss)
    withLevel s g bw (!ms.isEmpty) fun s => if ms.isEmpty then k s else waitTranslate s g acc 1 ms

/-- The target of a lane that has translated. -/
def targetOf (s : State) (w : Where) (bw : Bool) (acc : Acc) (va : DWord) : Target :=
  match s.resolve w bw acc 1 va with
  | .ok t _ => t
  | _ => .dev va.toNat

/-- A row instruction's request to the home controllers: the group waits at the word for the answers (R193). -/
def askRows (s : State) (g : Grp) (c : Ctl) (kind : FillKind) (bw : Bool) (d : Opd) (xs : List (Nat × DWord)) : State :=
  if xs.isEmpty then finish s g c g.sh
  else
    let (id, s) := s.fresh
    let f : Fill :=
      { id := id, kind := kind, dest := d, pc := g.pc, word := s.curWord,
        lanes := xs.map fun y => ⟨y.1, requestVa bw y.2, .ok (targetOf s g.w bw .read y.2) true, false, none⟩ }
    s.put g ((blockGroup g (.answers id) c.yld g.sh).addFill f)

/-- The stacks that some targets lie in, each once. -/
def stacksOf (s : State) (ts : List Target) : List Nat :=
  (ts.filterMap fun t => match t with
    | .dev pa => (s.place pa).map (·.stack)
    | _ => none).eraseDups

/-- One PROMOTE more is counted for the owner at each stack it touches (R194); the counts it takes. -/
def countPromote (s : State) (o : Nat) (ids : List Nat) : State × List (Nat × Nat) :=
  let s := s.modOwner o fun x => { x with seqs := ids.foldl (fun m k => SMap.set 0 m k (SMap.get 0 m k + 1)) x.seqs }
  (s, ids.map fun k => (k, match s.owner o with
    | some x => SMap.get 0 x.seqs k
    | none => 0))

/-- PROMOTE (R193, R194). -/
def execPromote (c : Ctl) (pin bw : Bool) (d a b : Opd) (s : State) : Res :=
  atWord s c fun s g =>
    withSources s g [(1, false, a), (2, false, b)] (
      let xs := g.addrs s g.act a b
      withRows s g bw .read xs fun s => withRequests s g xs.length (
        let (s, seqs) := countPromote s (s.ownerId g.w) (stacksOf s (xs.map fun x => targetOf s g.w bw .read x.2))
        askRows s g c (.promote pin seqs) bw d xs))

/-- DEMOTE (R193, R196). -/
def execDemote (c : Ctl) (bw : Bool) (d a b : Opd) (s : State) : Res :=
  atWord s c fun s g =>
    withSources s g [(1, false, a), (2, false, b)] (
      let xs := g.addrs s g.act a b
      withRows s g bw .read xs fun s => withRequests s g xs.length (askRows s g c .demote bw d xs))

/-- MADR (R193, R198). -/
def execMadr (c : Ctl) (bw : Bool) (d a b : Opd) (s : State) : Res :=
  atWord s c fun s g =>
    withSources s g [(1, false, a), (2, false, b)] (
      let xs := g.addrs s g.act a b
      withRows s g bw .read xs fun s => withRequests s g xs.length (askRows s g c .madr bw d xs))

/-- Whether a target is the start of a chunk (R199). -/
def chunkStart (v : Variant) (t : Target) : Bool :=
  match t with
  | .dev pa => pa % chunkSize v pa == 0
  | _ => false

/-- DEAD (R193, R199). -/
def execDead (c : Ctl) (bw : Bool) (a b : Opd) (s : State) : Res :=
  atWord s c fun s g =>
    withSources s g [(1, false, a), (2, false, b)] (
      let xs := g.addrs s g.act a b
      withRows s g bw .write xs fun s =>
        let odd := xs.filter fun x => !chunkStart s.variant (targetOf s g.w bw .write x.2)
        if !odd.isEmpty then trapAt s g .align 1 .write (odd.map (·.1)) fun l => taddrOf bw (addrIn xs l)
        else queueDevice s g c .dead bw .write 1 xs (fun _ => []) (fun _ => []) g.sh)

end Sys2Proof.Machine
end

