-- ==== Sys2Proof/Machine/Matrix.lean ====
section
/-!
DEFINITION. Class 0xA: operand readiness, the matrix queue and its instructions, and the events that run its entries (R124 to
R137, R211).
-/

namespace Sys2Proof.Machine

/-! ### Tickets (R126, R127) -/

/-- The next ticket of a workgroup: the count wraps to 1. -/
def nextTicket (issued : Nat) : Nat := if issued = 2 ^ 32 - 1 then 1 else issued + 1

/-- Ticket order within 2^31. -/
def ticketLe (a b : Nat) : Bool := decide ((b + 2 ^ 32 - a) % 2 ^ 32 < 2 ^ 31)

/-- Every operation of a workgroup with a ticket at or below `t` has issued and completed, those saved with it while it is pre-empted among
them (R127, R136). -/
def msyncMet (k : Core) (slot : Nat) (g : Workgroup) (t : Word) : Bool :=
  t == 0#32 || (decide (g.issued ≠ 0) && ticketLe t.toNat g.issued &&
    k.mq.all (fun e => !(e.slot == slot && ticketLe e.ticket t.toNat)) && g.savedMq.all fun e => !ticketLe e.ticket t.toNat)

/-- Whether an MSYNC of an agent may go on. -/
def State.msyncDone (s : State) (w : Where) (t : Word) : Bool :=
  match s.wgSlot w, s.wgOf w with
  | some slot, some g => msyncMet (s.core (wCore w)) slot g t
  | _, _ => true

/-- MSYNC: an acquire at core scope once its operations have completed; its executing lanes wait (R127). -/
def execMsync (c : Ctl) (a : Opd) (s : State) : Res :=
  atWord s c fun s g =>
    withSources s g [(1, false, a)] (
      match g.act with
      | [] => finish s g c g.sh
      | l :: _ =>
        let t := rd s g false a l
        if s.msyncDone g.w t then finish s g c g.sh else s.put g (blockLanes g (.msync t) c.yld g.sh))

/-! ### MRDY (R124) -/

/-- MRDY's arrival. -/
def Workgroup.ready (g : Workgroup) (w : Word) : Workgroup := { g with agw := some w, orc := g.orc + 1 }

/-- Every store that a sheet issued with a number below `before` has been accepted at its target, and the loads of these lanes have
performed: a release at core scope toward the matrix engine (R124, R169). -/
def State.readyQuiet (s : State) (w : Where) (sh : Sheet) (before : Nat) (act : List Nat) : Bool :=
  sh.sq.all (fun e => decide (before ≤ e.id)) && s.flights.all (fun f => !decide (f.who = w) || decide (before ≤ f.entry)) &&
    act.all (sh.loadsDone before)

/-- What is left of MRDY after its vote: its arrival may be counted. -/
def State.mrdyMay (s : State) (w : Where) (sh : Sheet) (before : Nat) (act : List Nat) : Bool :=
  s.readyQuiet w sh before act && ((s.wgOf w).map fun wg => decide (wg.orc < 255)).getD true

/-- MRDY: the vote, and then the arrival with the reference that the vote took (R124). -/
def execMrdy (c : Ctl) (a : Opd) (s : State) : Res :=
  atWord s c fun s g =>
    withSources s g [(1, false, a)] (
      match g.act, s.wgOf g.w with
      | l :: _, some wg =>
        let ref := wg.agw.getD (rd s g false a l)
        let bad := g.act.filter fun l => rd s g false a l != ref
        if !bad.isEmpty then trap s g .fmtdiv 1 bad
        else if s.mrdyMay g.w g.sh s.nextId g.act then (finish s g c g.sh).modWgOf g.w fun wg => wg.ready ref
        else s.put g (blockGroup g (.mrdy ref s.nextId g.act) c.yld g.sh)
      | _, _ => finish s g c g.sh)

/-! ### The queue (R126) -/

/-- The eight descriptor registers as sources. -/
def descSrcs (d : Opd) : List Src :=
  match d with
  | .u ew _ i => (List.range 8).map fun k => (1, false, Opd.u ew .full (i + BitVec.ofNat 8 k))
  | _ => []

/-- The descriptor's values (Tables 9.3, 9.5). -/
def descWord (g : Grp) (d : Opd) (k : Nat) : Word :=
  match d with
  | .u _ _ i => (g.sh.uReg (i.toNat + k)).val
  | _ => 0#32

/-- The limits of the owner of a core on accumulator rows and mould bytes (R211). -/
def State.accMax (s : State) (w : Where) : Nat := ((s.ownerOf w).map (fun o => o.accMax)).getD 3072

/-- The limit on mould bytes in a slice. -/
def State.mouldMax (s : State) (w : Where) : Nat := ((s.ownerOf w).map (fun o => o.mouldMax)).getD 65536

/-- An entry joins the queue, and its ticket is written to FD. -/
def queueMatrix (s : State) (g : Grp) (c : Ctl) (d : Opd) (op : MatrixOp) (mode : Rnd) (sat : Bool) (take : Nat) : State :=
  match s.wgSlot g.w, s.wgOf g.w with
  | some slot, some wg =>
    let t := nextTicket wg.issued
    let e : MatrixEntry :=
      { slot := slot, ticket := t, op := op, rnd := mode, sat := sat, next := 0, begun := false, spoiled := false, flags := 0#32 }
    let s := finish s g c (wr g.act d (g.act.headD 0) (BitVec.ofNat 64 t) g.sh)
    let s := s.modWgOf g.w fun wg =>
      { wg with issued := t, orc := wg.orc - take, agw := if wg.orc - take = 0 ∧ 0 < take then none else wg.agw }
    s.modCore (wCore g.w) fun k => { k with mq := k.mq ++ [e] }
  | _, _ => finish s g c g.sh

/-- Whether the matrix queue is full. -/
def Core.mqFull (k : Core) : Bool := decide (16 ≤ k.mq.length)

/-! ### MLOOP (R125, R129 to R131) -/

/-- The first step and row whose A bytes leave the allocation, as an offset. -/
def aOutside (size steps m k abase astride : Nat) (ainc : Int) (fw : Word) : Option Int :=
  ((List.range steps).flatMap fun st => [(0, st), (m - 1, st)]).findSome? fun x =>
    let lo := aStart abase astride ainc x.1 x.2
    let n := aBytes fw k x.2
    if n ≠ 0 ∧ (lo < 0 ∨ (size : Int) < lo + n) then some lo else none

/-- Whether some step reads B bytes outside [0, lim) of a slice. -/
def bOutside (lim steps k boff : Nat) (binc : Int) (fw : Word) : Bool :=
  (List.range steps).any fun st =>
    let lo := bStart boff binc st
    let n := bBytes fw k st
    decide (n ≠ 0) && (decide (lo < 0) || decide ((lim : Int) < lo + n))

/-- MLOOP's descriptor is within Table 9.3. -/
def mloopDescOk (m n k acc abase astride ainc bw : Word) : Bool :=
  decide (1 ≤ m.toNat ∧ m.toNat ≤ 3072) && decide (1 ≤ n.toNat ∧ n.toNat ≤ 256) && decide (1 ≤ k.toNat) &&
    decide (acc.toNat < 4096 ∧ acc.toNat + m.toNat ≤ 3072) && abase.toNat % 16 == 0 && astride.toNat % 16 == 0 &&
    ainc.toNat % 16 == 0 && bw.toNat % 65536 % 4 == 0 && bw.toNat / 65536 % 4 == 0

/-- MLOOP. -/
def execMloop (c : Ctl) (steps : BitVec 8) (d a b x : Opd) (s : State) : Res :=
  atWord s c fun s g =>
    withSources s g (descSrcs a ++ [(2, false, b), (3, false, x)]) (
      match g.act, s.wgOf g.w with
      | l :: _, some wg =>
        let w (k : Nat) : Word := descWord g a k
        let n := steps.toNat + 1
        let want := (rd s g false x l).toNat
        let fw := rd s g false b l
        let m := (w 0).toNat
        let depth := (w 2).toNat
        let acc := (w 3).toNat
        let boff := (w 7).toNat % 65536
        let binc := ((w 7).extractLsb' 16 16).toInt
        let ainc := (w 6).toInt
        let out := aOutside wg.spadSize n m depth (w 4).toNat (w 5).toNat ainc fw
        if 16 < want then trap s g .illegal 3 [l]
        else if ¬ mloopDescOk (w 0) (w 1) (w 2) (w 3) (w 4) (w 5) (w 6) (w 7) then trap s g .illegal 1 [l]
        else if ¬ fwOk fw then trap s g .illegal 2 [l]
        else if bOutside 65536 n depth boff binc fw then trap s g .illegal 1 [l]
        else if out.isSome then trapAt s g .bounds 1 .read [l] fun _ => BitVec.ofInt 64 (out.getD 0)
        else if s.accMax g.w < acc + m then trapAt s g .bounds 1 .write [l] fun _ => 0#64
        else if bOutside (s.mouldMax g.w) n depth boff binc fw then trapAt s g .bounds 1 .read [l] fun _ => 0#64
        else if (s.core (wCore g.w)).mqFull ∨ wg.orc < want then s.put g (waitHere g (.matrix want) g.sh)
        else if 0 < want ∧ wg.agw ≠ some fw then trap s g .fmtdiv 2 [l]
        else
          queueMatrix s g c d (.mloop n m (w 1).toNat depth acc (w 4).toNat (w 5).toNat boff ainc binc fw)
            (rmode .dyn (g.sh.lane l).rm) false want
      | _, _ => finish s g c g.sh)

/-! ### ACLR and AOUT (R133, R134) -/

/-- ACLR. -/
def execAclr (c : Ctl) (d a b : Opd) (s : State) : Res :=
  atWord s c fun s g =>
    withSources s g [(1, false, a), (2, false, b)] (
      match g.act with
      | [] => finish s g c g.sh
      | l :: _ =>
        let r := (rd s g false a l).toNat
        let n := (rd s g false b l).toNat
        if 3072 ≤ r then trap s g .illegal 1 [l]
        else if n < 1 ∨ 3072 < r + n then trap s g .illegal 2 [l]
        else if s.accMax g.w < r + n then trapAt s g .bounds 1 .write [l] fun _ => 0#64
        else if (s.core (wCore g.w)).mqFull then s.put g (waitHere g (.matrix 0) g.sh)
        else queueMatrix s g c d (.aclr r n) .rne false 0)

/-- AOUT's descriptor is within Table 9.5. -/
def aoutDescOk (rowBase rows cols dbase dstride bias last : Word) (ey : Nat) : Bool :=
  decide (rowBase.toNat ≤ 3071) && decide (1 ≤ rows.toNat ∧ rowBase.toNat + rows.toNat ≤ 3072) &&
    decide (1 ≤ cols.toNat ∧ cols.toNat ≤ 256) && dbase.toNat % ey == 0 && dstride.toNat % ey == 0 &&
    decide (cols.toNat * ey ≤ dstride.toNat) && (bias == 0xFFFFFFFF#32 || bias.toNat % 4 == 0) && last == 0#32

/-- AOUT. -/
def execAout (c : Ctl) (src32 : Bool) (dt : OutTy) (relu : Bool) (r : Rnd) (d a : Opd) (s : State) : Res :=
  atWord s c fun s g =>
    withSources s g (descSrcs a) (
      match g.act, s.wgOf g.w with
      | l :: _, some wg =>
        let w (k : Nat) : Word := descWord g a k
        let ey := outBytes dt
        let stop := (w 3).toNat + ((w 1).toNat - 1) * (w 4).toNat + (w 2).toNat * ey
        if ¬ aoutDescOk (w 0) (w 1) (w 2) (w 3) (w 4) (w 6) (w 7) ey then trap s g .illegal 1 [l]
        else if wg.spadSize < stop then trapAt s g .bounds 1 .write [l] fun _ => (w 3).setWidth 64
        else if w 6 ≠ 0xFFFFFFFF#32 ∧ wg.spadSize < (w 6).toNat + 4 * (w 2).toNat then
          trapAt s g .bounds 1 .read [l] fun _ => (w 6).setWidth 64
        else if s.accMax g.w < (w 0).toNat + (w 1).toNat then trapAt s g .bounds 1 .read [l] fun _ => 0#64
        else if (s.core (wCore g.w)).mqFull then s.put g (waitHere g (.matrix 0) g.sh)
        else
          let rm := (g.sh.lane l).rm
          queueMatrix s g c d
            (.aout (w 0).toNat (w 1).toNat (w 2).toNat (w 3).toNat (w 4).toNat (w 5) (w 6) src32 dt relu)
            (rmode r rm) (saton false rm) 0
      | _, _ => finish s g c g.sh)

/-! ### The array's events (R126, R132) -/

/-- The entry at the head of a core's queue begins. -/
def execMatrixEntryBegin (core : Nat) (s : State) : Res :=
  .next (s.modCore core fun k => { k with mq := match k.mq with
    | e :: rest => { e with begun := true } :: rest
    | [] => [] })

/-- The flags of an operation merge into its front-end thread's astat (R117). -/
def mergeFront (s : State) (core slot : Nat) (f : Word) : State :=
  s.modSheet (.front core slot) fun sh => sh.status 0 (f.setWidth 7)

/-- The begun entry at the head completes: its remaining steps or rows are performed, and its status is merged. -/
def execMatrixEntryComplete (core : Nat) (s : State) : Res :=
  .next (match (s.core core).mq with
    | e :: _ =>
      if e.begun then
        let s := runMatrix (e.op.steps - e.next) core s
        let e := ((s.core core).mq.head?).getD e
        let s := (s.modCore core fun k => { k with mq := k.mq.drop 1 }).wakeBarriers core
        mergeFront (spoilEntry s core e) core e.slot e.flags
      else s
    | [] => s)

end Sys2Proof.Machine
end

