-- ==== Sys2Proof/Machine/Engine.lean ====
section
/-!
DEFINITION. Class 0xB: COPY and RDWP, and the events that run the copy channels (R121, R138, R147 to R150, R157, R178, R205,
R207, R222, R237, R263, R306, R348).
-/

namespace Sys2Proof.Machine

/-! ### COPY at issue (R306) -/

/-- Columns and bytes per element or block of a panel. -/
def panelShape (f : Panel) (dst : Nat) : Nat × Nat :=
  (dst % 256 + 1, match f with
    | .b8 => 1
    | .b16 => 2
    | .q4x => 20)

/-- Bytes of one panel row (R138). -/
def panelRow (f : Panel) (dst : Nat) : Nat := (panelShape f dst).1 * (panelShape f dst).2

/-- Whether the host side of a COPY is no host address, with its SLOT and access. -/
def notHost (kind : CopyKind) (dst src : DWord) : Option (Nat × Acc × DWord) :=
  match kind with
  | .hd => if src.getLsbD 63 then none else some (1, .read, src)
  | .dh => if dst.getLsbD 63 then none else some (0, .write, dst)
  | _ => none

/-- The scratchpad sides of a COPY: access, whether in the quire member's allocation, offset and bytes. Where both fail, no rule says which is
reported: the destination (log 56). -/
def copySides (kind : CopyKind) (dst src : DWord) (len dlen : Nat) : List (Acc × Bool × DWord × Nat) :=
  match kind with
  | .ds => [(.write, false, dst, dlen)]
  | .sd => [(.read, false, src, len)]
  | .sm => [(.read, false, src, len)]
  | .qs => [(.write, false, dst, dlen), (.read, true, src, len)]
  | .sq => [(.write, true, dst, dlen), (.read, false, src, len)]
  | .hd => []
  | .dh => []

/-- Whether a kind names a quire member. -/
def copyQuire (kind : CopyKind) : Bool := decide (kind = .qs) || decide (kind = .sq)

/-- What a COPY's checks answer: a trap's cause, SLOT, access and address. -/
structure CopyBad where
  cause : Cause
  slot : Nat
  acc : Option Acc
  addr : DWord

/-- The checks of R306 that depend on values, in their order. `al` is the issuer's allocation, `peer` the member's. A side outside its
allocation is BOUNDS with the SLOT 1 of R139; an ALIGN under CVT comes before any access, and names none. -/
def copyCheck (kind : CopyKind) (conv : Option (Elem × Elem)) (f : Panel) (bound : Bool) (dst src len : DWord) (al : Alloc)
    (peer : Option Alloc) (mouldMax : Nat) : Option CopyBad :=
  let n := len.toNat
  let u := copyUnits conv
  let row := panelRow f dst.toNat
  let rows := n / row
  let o := dst.toNat / 65536
  let n0 := dst.toNat / 256 % 256
  let shape := panelShape f dst.toNat
  let top := o + rows * shape.2
  let side (x : Acc × Bool × DWord × Nat) : Option CopyBad :=
    let a := if x.2.1 then peer.getD ⟨0, 0, 0⟩ else al
    if a.outside x.2.2.1 x.2.2.2 then some ⟨.bounds, 1, some x.1, x.2.2.1⟩ else none
  if bound then some ⟨.illegal, 15, none, 0#64⟩
  else if n = 0 then some ⟨.illegal, 2, none, 0#64⟩
  else if kind = .sm ∧ n % row ≠ 0 then some ⟨.illegal, 2, none, 0#64⟩
  else if dst.toNat % u.2 ≠ 0 then some ⟨.align, 0, none, 0#64⟩
  else if src.toNat % u.1 ≠ 0 then some ⟨.align, 1, none, 0#64⟩
  else if n % u.1 ≠ 0 then some ⟨.align, 2, none, 0#64⟩
  else
    match notHost kind dst src with
    | some h => some ⟨.perm, h.1, some h.2.1, h.2.2⟩
    | none =>
      if copyQuire kind ∧ peer.isNone then some ⟨.bounds, 3, some .read, 0#64⟩
      else
        match (copySides kind dst src n (n / u.1 * u.2)).findSome? side with
        | some b => some b
        | none =>
          if kind = .sm ∧ (256 < n0 + shape.1 ∨ 65536 < top) then some ⟨.illegal, 0, none, 0#64⟩
          else if kind = .sm ∧ mouldMax < top then some ⟨.bounds, 0, some .write, 0#64⟩
          else none

/-- The trap of a COPY's check. -/
def copyTrap (s : State) (g : Grp) (l : Nat) (b : CopyBad) : State :=
  match b.acc with
  | some a => trapAt s g b.cause b.slot a [l] fun _ => taddrOf false b.addr
  | none => trap s g b.cause b.slot [l]

/-- Whether a channel's queue is full (R147). -/
def Channel.full (h : Channel) : Bool := decide (8 ≤ h.q.length)

/-- A channel of a core. -/
def Core.channel (k : Core) (ch : Nat) : Channel := k.channels.getD ch Channel.reset

/-- A live flow of the core's owner binds a channel to its ring (R157). -/
def State.flowOn (s : State) (c ch : Nat) : Bool :=
  s.flows.any fun f => f.core == c && f.ch == ch && decide ((s.core c).owner = some f.owner)

/-- COPY: in a handler sheet it issues once, with the operands of the lowest executing lane (R222). -/
def execCopy (c : Ctl) (ch : BitVec 4) (kind : CopyKind) (conv : Option (Elem × Elem)) (rank : BitVec 2) (f : Panel)
    (d a b : Opd) (s : State) : Res :=
  atWord s c fun s g =>
    withSources s g [(0, false, d), (1, false, a), (2, false, b)] (
      match g.act with
      | [] => finish s g c g.sh
      | l :: _ =>
        let co := wCore g.w
        let dst := rd64 s g d l
        let src := rd64 s g a l
        let len : DWord := (rd s g false b l).setWidth 64
        let al := s.alloc g.w
        let peer := s.reach g.w true rank.toNat
        match copyCheck kind conv f (s.flowOn co ch.toNat) dst src len al peer (s.mouldMax g.w) with
        | some bad => copyTrap s g l bad
        | none =>
          if ((s.core co).channel ch.toNat).full then s.put g (waitHere g (.channel ch.toNat) g.sh)
          else
            let (id, s) := s.fresh
            let rm := (g.sh.lane l).rm
            let p := peer.getD ⟨co, 0, 0⟩
            let j : CopyJob :=
              { id := id, who := g.w, lane := l, kind := kind, conv := conv, rnd := rmode .dyn rm, sat := saton false rm, f := f,
                dst := dst, src := src, len := len.toNat, got := 0, peerCore := p.core, peerBase := p.base, base := al.base,
                started := false, held := none, flags := 0#32, pc := g.pc, word := s.curWord,
                issuer := true }
            (finish s g c g.sh).modCore co fun k =>
              { k with channels := k.channels.modify ch.toNat fun h => { h with q := h.q ++ [j] } })

/-! ### The channels' events (R147, R148, R150, R178) -/

/-- Every access that a COPY's thread issued before it has been accepted or performed (R178). -/
def copyFree (s : State) (j : CopyJob) : Bool :=
  match s.sheetAt j.who with
  | some sh => (sh.sq.all fun e => decide (j.id < e.id)) &&
      sh.fills.all fun f => decide (j.id < f.id) || !(f.kind.loads || decide (f.kind = .atom))
  | none => true

/-- Changes the COPY at the head of a channel. -/
def Core.modJob (k : Core) (ch : Nat) (f : CopyJob → CopyJob) : Core :=
  { k with channels := k.channels.modify ch fun h => { h with q := match h.q with
      | j :: rest => f j :: rest
      | [] => [] } }

/-- A COPY at the head of its channel starts its source reads. -/
def execCopyStart (core ch : Nat) (s : State) : Res :=
  .next (match ((s.core core).channel ch).q with
    | j :: _ => if copyFree s j then s.modCore core fun k => k.modJob ch fun j => { j with started := true } else s
    | [] => s)

/-- A COPY whose device side misses: its channel waits for the walk, if the miss table has room (R148, R224). -/
def copyMiss (s : State) (core ch : Nat) (j : CopyJob) (slot access : Nat) (va : DWord) : State :=
  let r : MissReq := ⟨j.who, 0, va, access, slot, .copy ch, j.pc, j.word⟩
  if (s.join core [r]).2.isEmpty then
    (missFor s j.who [r]).1.modCore core fun k => k.modJob ch fun j => { j with held := some .walk }
  else s

/-- Charges a side's bytes as it enters a sector (R237). -/
def copyCharge (s : State) (o : Nat) (j : CopyJob) (t : Target) : State := if copyEnters j t then s.charge o t 32 else s

/-- A COPY consumes poison at a target with its next unit, once that unit's request may leave; it is charged as any other (R205, R232,
R237). -/
def copyPoison (s : State) (core ch : Nat) (j : CopyJob) (slot access : Nat) (va : DWord) (t : Target) : State :=
  let o := s.ownerId j.who
  if (s.core core).eventRoom && !copyDry s j t then
    lateFault ((copyCharge s o j t).consume o t 1) j.who (.copy ch) .poison slot access [(0, va)] j.pc j.word true
  else s

/-- A partial fault of a COPY, if the event queue has room (R148, R220). -/
def copyFault (s : State) (core ch : Nat) (j : CopyJob) (c : Cause) (slot access : Nat) (va : DWord) : State :=
  if (s.core core).eventRoom then lateFault s j.who (.copy ch) c slot access [(0, va)] j.pc j.word true else s

/-- Whether an earlier store of the core, or an atomic that has reached its engine, is still on its way to some bytes: a COPY's write comes
after it in the store order (R160, R172, R178). -/
def State.inFlight (s : State) (core : Nat) (t : Target) (n : Nat) : Bool :=
  s.engineHolds t n || s.flights.any fun f => f.core == core && (match f.target.above t with
    | some o => f.dead || meets o f.bytes.length n
    | none => false)

/-- Some bytes of a COPY reach its destination; a core's own L1 keeps no stale copy of them (R150, R167). What begins a line that is rewritten
in whole reads none of it first (R369). -/
def copyWrite (s : State) (core o : Nat) (t : Target) (whole : Bool) (bs : List Byte) : State :=
  match t with
  | .dev pa => (if whole then s.storeHome t bs else s.storeIn o t bs).modCore core fun k => k.l1Drop pa
  | t => s.storeHome t bs

/-- A byte of a panel reaches the mould (R121, R138). -/
def Core.putMould (k : Core) (f : Panel) (dst i : Nat) (b : Byte) : Core :=
  let row := panelRow f dst
  let e := (panelShape f dst).2
  let slice := dst / 256 % 256 + i % row / e
  let off := dst / 65536 + i / row * e + i % e
  { k with mould := k.mould.set (slice * 65536 + off) b }.spoilB slice off 1

/-- One unit of a COPY in its destination's form, with its flags. -/
def CopyJob.convert (j : CopyJob) (bs : List Byte) : List Byte × Flags :=
  match j.conv with
  | some (dt, st) =>
    let r := convElem dt st j.rnd j.sat (leVal 64 bs)
    (leBytes (elemBytes dt) r.1.toNat, r.2)
  | none => (bs, 0#7)

/-- What stops a COPY at one unit, or its source and destination. -/
inductive CopyNext where
  | miss (slot access : Nat) (va : DWord)
  | perm (slot access : Nat) (va : DWord)
  | poison (slot access : Nat) (va : DWord) (t : Target)
  | wait
  | go (src dst : Target)

/-- Where a COPY stands at the unit from source byte `i`; `whole` says that the destination line is rewritten in whole. -/
def copyNext (s : State) (core : Nat) (j : CopyJob) (i : Nat) (whole : Bool) : CopyNext :=
  let u := copyUnits j.conv
  let k := i / u.1 * u.2
  match j.srcAt s core i, j.dstAt s core k with
  | .miss, _ => .miss 1 1 (j.src + BitVec.ofNat 64 i)
  | .perm, _ => .perm 1 1 (j.src + BitVec.ofNat 64 i)
  | _, .miss => .miss 0 2 (j.dst + BitVec.ofNat 64 k)
  | _, .perm => .perm 0 2 (j.dst + BitVec.ofNat 64 k)
  | .ok st _, .ok dt _ =>
    if s.engineHolds st u.1 || s.inFlight core dt u.2 then .wait
    else if s.poisonFor core st u.1 then .poison 1 1 (j.src + BitVec.ofNat 64 i) st
    else if s.poisonedAt dt u.2 && !whole then .poison 0 2 (j.dst + BitVec.ofNat 64 k) dt
    else .go st dt

/-- A COPY has taken its next unit from its source: P and its count advance, and its flags gather. The unit as it stands at the source, and
in the destination's form. -/
def copyTake (s : State) (core ch : Nat) (j : CopyJob) (st : Target) : State × List Byte × List Byte :=
  let u := copyUnits j.conv
  let (s, bs) := (s.readIn (s.ownerId j.who) st u.1).loadBytes core st u.1
  let (ys, f) := j.convert bs
  let taken (k : Core) : Core := k.modJob ch fun j => { j with got := j.got + u.1, flags := j.flags ||| f.setWidth 32 }
  (s.modCore core fun k =>
    { k with channels := (taken k).channels.modify ch fun h => { h with p := h.p + BitVec.ofNat 64 u.1 } }, bs, ys)

/-- A COPY's next unit is charged on both sides (R237). -/
def copyPay (s : State) (j : CopyJob) (st dt : Target) : State :=
  let o := s.ownerId j.who
  copyCharge (copyCharge s o j st) o j dt

/-- One unit is delivered. -/
def copyUnit (s : State) (core ch : Nat) (j : CopyJob) (st dt : Target) (whole : Bool) : State :=
  let (s, bs, ys) := copyTake (copyPay s j st dt) core ch j st
  match j.kind with
  | .sm => s.modCore core fun k => k.putMould j.f j.dst.toNat j.got (bs.headD 0#8)
  | _ => copyWrite s core (s.ownerId j.who) dt whole ys

/-- Units from here that rewrite a whole destination line of device memory: none unless the line starts here and all of it is still to come
(R207, R369). -/
def wholeLine (s : State) (core : Nat) (j : CopyJob) : Option Nat :=
  let u := copyUnits j.conv
  match j.dstAt s core (j.got / u.1 * u.2) with
  | .ok (.dev pa) _ => if pa % 128 = 0 ∧ 128 ≤ (j.len - j.got) / u.1 * u.2 then some (128 / u.2) else none
  | _ => none

/-- The destination of a COPY's next unit is poisoned. -/
def poisonedLine (s : State) (core : Nat) (j : CopyJob) : Bool :=
  let u := copyUnits j.conv
  match j.dstAt s core (j.got / u.1 * u.2) with
  | .ok t _ => s.poisonedAt t u.2
  | _ => false

/-- The poison of a destination line is cleared. -/
def clearPoison (s : State) (core : Nat) (j : CopyJob) : State :=
  let u := copyUnits j.conv
  match j.dstAt s core (j.got / u.1 * u.2) with
  | .ok (.dev pa) _ => match s.place pa with
    | some p => { s with dram := s.dram.cleanLine (p.cell / 128) }
    | none => s
  | _ => s

/-- What stops a COPY first among its next `n` units, which rewrite a line in whole: of the waits for a mitigation those of the source (R202,
R369). -/
def firstStop (s : State) (core : Nat) (j : CopyJob) (n : Nat) : Option CopyNext :=
  let u := copyUnits j.conv
  (List.range n).findSome? fun k => match copyNext s core j (j.got + k * u.1) true with
    | .go st _ => if s.bankDelayed (s.ownerId j.who) st then some .wait else none
    | x => some x

/-- A COPY stops. -/
def copyStop (s : State) (core ch : Nat) (j : CopyJob) (x : CopyNext) : State :=
  match x with
  | .miss slot access va => copyMiss s core ch j slot access va
  | .perm slot access va => copyFault s core ch j .perm slot access va
  | .poison slot access va t => copyPoison s core ch j slot access va t
  | _ => s

/-- A finished COPY merges its flags and leaves its channel (R117, R147). -/
def copyEnd (s : State) (core ch : Nat) (j : CopyJob) : State :=
  let s := if j.issuer then s.modSheet j.who fun sh => sh.status j.lane (j.flags.setWidth 7) else s
  s.modCore core fun k =>
    { k with channels := k.channels.modify ch (fun h => { h with q := h.q.drop 1 }) }

/-- What a COPY's next unit is to its destination line: `some none` begins a line that is rewritten in whole with it, and `some (some x)` says
what stops a poisoned one, which is begun only where all of it can be delivered now (R207); `none` writes a part of a line. -/
def lineHere (s : State) (core : Nat) (j : CopyJob) (n : Nat) : Option (Option CopyNext) :=
  match wholeLine s core j with
  | none => none
  | some k =>
    let stop := firstStop s core j k
    if stop.isNone && decide (k ≤ n) then some none
    else if poisonedLine s core j then some (some (stop.getD .wait)) else none

/-- Delivers up to `n` units of the COPY at the head of a channel. `line` units more belong to a line that is being rewritten in whole, for
which tokens were there when it began (log 28). -/
def copyRun (core ch : Nat) : Nat → Nat → State → State
  | 0, _, s => s
  | n + 1, line, s =>
    match ((s.core core).channel ch).q with
    | [] => s
    | j :: _ =>
      if j.held.isSome ∨ ¬ j.started then s
      else
        match if line = 0 then lineHere s core j (n + 1) else none with
        | some (some x) => copyStop s core ch j x
        | whole =>
          let here := whole.isSome
          let left := if here then (wholeLine s core j).getD 0 else line
          match copyNext s core j j.got (here || decide (0 < line)) with
          | .go st dt =>
            if line = 0 ∧ (copyDry s j st ∨ copyDry s j dt) then s
            else
              let s := copyUnit (if here && poisonedLine s core j then clearPoison s core j else s) core ch j st dt here
              let j := ((s.core core).channel ch).q.headD j
              if j.len ≤ j.got then copyEnd s core ch j
              else copyRun core ch n (left - 1) s
          | x => copyStop s core ch j x

/-- A channel delivers up to `n` source bytes, or stops at a device-side fault; a line that is rewritten in whole is
delivered in whole. -/
def execCopyDelivery (core ch n : Nat) (s : State) : Res :=
  .next (match ((s.core core).channel ch).q with
    | j :: _ =>
      let units := n / (copyUnits j.conv).1
      copyRun core ch (match wholeLine s core j with | some k => if poisonedLine s core j then max units k else units | none => units) 0 s
    | [] => s)

/-! ### RDWP (R149, R157, R348) -/

/-- The member of a quire whose channel a .q RDWP reads: core and rank. -/
def rdwpCore (s : State) (w : Where) (rank : Nat) : Option Nat := (s.member w rank).map (·.1)

/-- RDWP: a bad rank is BOUNDS with SLOT 3, its ACCESS read and its taddr 0 (log 53). The local pointer, once the thread's earlier loads and acquires have performed (R168); a member's by a fill, an acquire at
quire scope. -/
def execRdwp (c : Ctl) (ch : BitVec 4) (q : Bool) (rank : BitVec 2) (d : Opd) (s : State) : Res :=
  atWord s c fun s g =>
    let own := match s.wgOf g.w with
      | some wg => wg.qrank == rank.toNat
      | none => false
    if g.act.isEmpty then finish s g c g.sh
    else if q && !own then
      match rdwpCore s g.w rank.toNat with
      | none => trapAt s g .bounds 3 .read g.act fun _ => 0#64
      | some m =>
        let ls := performers g.act d
        let (id, s) := s.fresh
        let f : Fill :=
          { id := id, kind := .rdwp ch.toNat m, dest := d, pc := g.pc, word := s.curWord,
            lanes := ls.map fun l => ⟨l, 0#64, .ok (.spad m 0) true, false, none⟩ }
        finish s g c ((markEmptyAll ls false d id g.sh).addFill f)
    else if !g.act.all (fun l => s.loadMay g.w g.sh s.nextId l) then s.put g (waitHere g (.loads (laneMask g.act)) g.sh)
    else
      let p := ((s.core (wCore g.w)).channel ch.toNat).p
      finish s g c (g.act.foldl (fun sh l => wr g.act d l p sh) g.sh)

end Sys2Proof.Machine
end

