-- ==== Sys2Proof/Machine/Integer.lean ====
section
/-!
DEFINITION. Class 0x0: integer arithmetic, logic, shifts, fields, counts, addresses and moves (R293, R299, R300, R305,
R324 to R327, R332, R335, R342, R355).
-/

namespace Sys2Proof.Machine

/-! ### Elements of an integer TYPE (R324) -/

/-- Element width of TYPE. -/
def elemW (ty : IntTy) : Nat := if ty.wide then 64 else if ty.packed then 16 else 32

/-- The integer that the low `w` bits of a value stand for, signed or unsigned. -/
def asInt (signed : Bool) (w : Nat) (x : DWord) : Int :=
  if signed then (x.setWidth w).toInt else ((x.setWidth w).toNat : Int)

/-- The two halves of a packed source; an immediate's low 16 bits go to both (R324). -/
def halves (s : State) (g : Grp) (o : Opd) (l : Nat) : DWord × DWord :=
  let x := rd s g false o l
  match o with
  | .imm _ | .limm _ => (x.setWidth 64, x.setWidth 64)
  | _ => (x.setWidth 64, (x >>> 16).setWidth 64)

/-- The elements of a source of TYPE as integers. -/
def elems (s : State) (g : Grp) (ty : IntTy) (o : Opd) (l : Nat) : List Int :=
  if ty.wide then [asInt ty.signed 64 (rd64 s g o l)]
  else if ty.packed then
    let h := halves s g o l
    [asInt ty.signed 16 h.1, asInt ty.signed 16 h.2]
  else [asInt ty.signed 32 ((rd s g ty.signed o l).setWidth 64)]

/-- The value of elements of TYPE, each modulo its width. -/
def joinElems (ty : IntTy) (xs : List Int) : DWord :=
  match xs with
  | [x] => if ty.wide then BitVec.ofInt 64 x else (BitVec.ofInt 32 x).setWidth 64
  | [x, y] => (BitVec.ofInt 16 y ++ BitVec.ofInt 16 x).setWidth 64
  | _ => 0#64

/-- The least and greatest value of an element of TYPE. -/
def tyRange (ty : IntTy) : Int × Int :=
  let w := elemW ty
  if ty.signed then (-(2 ^ (w - 1) : Int), (2 ^ (w - 1) : Int) - 1) else (0, (2 ^ w : Int) - 1)

/-- A value clamped to a range. -/
def clampInt (lo hi x : Int) : Int := if x < lo then lo else if hi < x then hi else x

/-- Exact results brought into TYPE: clamped with ST under .sat, else wrapped (R325). -/
def settle (ty : IntTy) (sat : Bool) (xs : List Int) : DWord × Flags :=
  if sat then
    let ys := xs.map (clampInt (tyRange ty).1 (tyRange ty).2)
    (joinElems ty ys, flagIf (decide (ys ≠ xs)) fST)
  else (joinElems ty xs, 0#7)

/-- The two-operand mould of R325. -/
def intTwo (s : State) (c : Ctl) (ty : IntTy) (sat : Bool) (f : Int → Int → Int) (d a b : Opd) : Res :=
  lanewise s c [(1, false, a), (2, false, b)] d fun s g l =>
    settle ty sat (List.zipWith f (elems s g ty a l) (elems s g ty b l))

/-- IADD (R325). -/
def execIadd (c : Ctl) (ty : IntTy) (sat : Bool) (d a b : Opd) (s : State) : Res := intTwo s c ty sat (· + ·) d a b

/-- ISUB (R325). -/
def execIsub (c : Ctl) (ty : IntTy) (sat : Bool) (d a b : Opd) (s : State) : Res := intTwo s c ty sat (· - ·) d a b

/-- IMIN (R325). -/
def execImin (c : Ctl) (ty : IntTy) (d a b : Opd) (s : State) : Res := intTwo s c ty false min d a b

/-- IMAX (R325). -/
def execImax (c : Ctl) (ty : IntTy) (d a b : Opd) (s : State) : Res := intTwo s c ty false max d a b

/-- The product with addend of R327, by OPX. `x` gives the addend's elements of TYPE, `xw` its 64-bit value under .wide. -/
def mulAdd (ty : IntTy) (sat : Bool) (h : MulHalf) (as bs xs : List Int) (xw : Int) : DWord × Flags :=
  match h with
  | .lo => settle ty sat (List.zipWith (· + ·) (List.zipWith (· * ·) as bs) xs)
  | .hi => (joinElems ty (List.zipWith (fun p x => p.shiftRight (elemW ty) + x) (List.zipWith (· * ·) as bs) xs), 0#7)
  | .wide =>
    match as, bs with
    | [p], [q] => (BitVec.ofInt 64 (p * q + xw), 0#7)
    | _, _ => (0#64, 0#7)

/-- IMUL (R327). -/
def execImul (c : Ctl) (ty : IntTy) (sat : Bool) (h : MulHalf) (d a b : Opd) (s : State) : Res :=
  lanewise s c [(1, false, a), (2, false, b)] d fun s g l =>
    mulAdd ty sat h (elems s g ty a l) (elems s g ty b l) [0, 0] 0

/-- IMAD (R327). -/
def execImad (c : Ctl) (ty : IntTy) (sat : Bool) (h : MulHalf) (d a b x : Opd) (s : State) : Res :=
  lanewise s c [(1, false, a), (2, false, b), (3, false, x)] d fun s g l =>
    mulAdd ty sat h (elems s g ty a l) (elems s g ty b l) (elems s g ty x l) (rd64 s g x l).toInt

/-- A source of AND, OR and XOR (R293). -/
def bitSrc (s : State) (g : Grp) (ty : IntTy) (o : Opd) (l : Nat) : DWord :=
  if ty.wide then rd64 s g o l else (rd s g false o l).setWidth 64

/-- AND (R293). -/
def execLand (c : Ctl) (ty : IntTy) (d a b : Opd) (s : State) : Res :=
  lanewise s c [(1, false, a), (2, false, b)] d fun s g l => (bitSrc s g ty a l &&& bitSrc s g ty b l, 0#7)

/-- OR (R293). -/
def execLor (c : Ctl) (ty : IntTy) (d a b : Opd) (s : State) : Res :=
  lanewise s c [(1, false, a), (2, false, b)] d fun s g l => (bitSrc s g ty a l ||| bitSrc s g ty b l, 0#7)

/-- XOR (R293). -/
def execLxor (c : Ctl) (ty : IntTy) (d a b : Opd) (s : State) : Res :=
  lanewise s c [(1, false, a), (2, false, b)] d fun s g l => (bitSrc s g ty a l ^^^ bitSrc s g ty b l, 0#7)

/-- The count of a shift: bits [7:0], unsigned (R355). -/
def shiftCount (s : State) (g : Grp) (o : Opd) (l : Nat) : Nat := (rd s g false o l).toNat % 256

/-- SHL (R355). -/
def execShl (c : Ctl) (ty : IntTy) (d a b : Opd) (s : State) : Res :=
  lanewise s c [(1, false, a), (2, false, b)] d fun s g l =>
    (joinElems ty ((elems s g ty a l).map fun x => x * 2 ^ shiftCount s g b l), 0#7)

/-- SHR (R355): the elements are signed or unsigned by TYPE, so the exact shift is arithmetic or logical. -/
def execShr (c : Ctl) (ty : IntTy) (d a b : Opd) (s : State) : Res :=
  lanewise s c [(1, false, a), (2, false, b)] d fun s g l =>
    (joinElems ty ((elems s g ty a l).map fun x => x.shiftRight (shiftCount s g b l)), 0#7)

/-- A field position or length: bits [7:0], at most 32 (R299, R300). -/
def fieldCount (s : State) (g : Grp) (o : Opd) (l : Nat) : Nat := min (shiftCount s g o l) 32

/-- The field of R300: `n` bits of the extended source from bit `p`, extended again. -/
def bitField (signed : Bool) (x : Word) (p n : Nat) : Word :=
  let y : DWord := if signed then x.signExtend 64 else x.setWidth 64
  let f := (y >>> p).toNat % 2 ^ n
  if n = 0 then 0#32
  else if signed && decide (2 ^ (n - 1) ≤ f) then BitVec.ofInt 32 ((f : Int) - 2 ^ n) else BitVec.ofNat 32 f

/-- BFX (R300). -/
def execBfx (c : Ctl) (ty : IntTy) (d a b x : Opd) (s : State) : Res :=
  lanewise s c [(1, false, a), (2, false, b), (3, false, x)] d fun s g l =>
    ((bitField ty.signed (rd s g ty.signed a l) (fieldCount s g b l) (fieldCount s g x l)).setWidth 64, 0#7)

/-- The insertion of R299. -/
def bitInsert (old x : Word) (p n : Nat) : Word :=
  let m : Word := BitVec.ofNat 32 ((2 ^ n - 1) * 2 ^ p)
  (old &&& ~~~ m) ||| (x <<< p &&& m)

/-- BFI (R299): FD is read as a source too. -/
def execBfi (c : Ctl) (d a b x : Opd) (s : State) : Res :=
  lanewise s c [(0, false, d), (1, false, a), (2, false, b), (3, false, x)] d fun s g l =>
    ((bitInsert (rd s g false d l) (rd s g false a l) (fieldCount s g b l) (fieldCount s g x l)).setWidth 64, 0#7)

/-- The number of one bits below bit `n`. -/
def popCount (x : DWord) : Nat → Nat
  | 0 => 0
  | n + 1 => popCount x n + (if x.getLsbD n then 1 else 0)

/-- The number of zero bits above the most significant one bit among the low `n` bits. -/
def leadZeros (x : DWord) : Nat → Nat
  | 0 => 0
  | n + 1 => if x.getLsbD n then 0 else leadZeros x n + 1

/-- POPC (R342). -/
def execPopc (c : Ctl) (ty : IntTy) (d a : Opd) (s : State) : Res :=
  lanewise s c [(1, false, a)] d fun s g l => (BitVec.ofNat 64 (popCount (bitSrc s g ty a l) 64), 0#7)

/-- CLZ (R305). -/
def execClz (c : Ctl) (ty : IntTy) (d a : Opd) (s : State) : Res :=
  lanewise s c [(1, false, a)] d fun s g l =>
    (BitVec.ofNat 64 (leadZeros (bitSrc s g ty a l) (if ty.wide then 64 else 32)), 0#7)

/-- LEA (R332). -/
def execLea (c : Ctl) (ty : IntTy) (n : BitVec 3) (d a b : Opd) (s : State) : Res :=
  lanewise s c [(1, false, a), (2, false, b)] d fun s g l =>
    let i := rd s g false b l
    let e : DWord := if ty.signed then i.signExtend 64 else i.setWidth 64
    (rd64 s g a l + e <<< n.toNat, 0#7)

/-- MOV (R335): the copied or RAW value. -/
def execMov (c : Ctl) (ty : IntTy) (d b : Opd) (s : State) : Res :=
  lanewise s c [(2, false, b)] d fun s g l =>
    (if ty.wide then rd64 s g b l else (rd s g ty.signed b l).setWidth 64, 0#7)

end Sys2Proof.Machine
end

