-- ==== Sys2Proof/Machine/Compare.lean ====
section
/-!
DEFINITION. Class 0x3 without FCMP: integer compare, predicate logic and select (R326, R341, R353).
-/

namespace Sys2Proof.Machine

/-- What a compare writes (R321, R326): 1 or 0 to a predicate, all ones or zero to a register. -/
def cmpResult (d : Opd) (b : Bool) : DWord :=
  match d with
  | .p _ => if b then 1#64 else 0#64
  | _ => if b then 0xFFFFFFFF#64 else 0#64

/-- An integer comparison (Table 3.9); ICMP accepts the first six conditions. -/
def intCond (k : Cond) (x y : Int) : Bool :=
  match k with
  | .eq | .equ => decide (x = y)
  | .ne | .neu => decide (x ≠ y)
  | .lt | .ltu => decide (x < y)
  | .le | .leu => decide (x ≤ y)
  | .gt | .gtu => decide (y < x)
  | .ge | .geu => decide (y ≤ x)
  | .num => true
  | .nan => false

/-- ICMP (R326). -/
def execIcmp (c : Ctl) (ty : IntTy) (k : Cond) (d a b : Opd) (s : State) : Res :=
  lanewise s c [(1, false, a), (2, false, b)] d fun s g l =>
    (cmpResult d (intCond k ((elems s g ty a l).headD 0) ((elems s g ty b l).headD 0)), 0#7)

/-- PLOP (R341): COND[2a + b]. -/
def execPlop (c : Ctl) (tt : BitVec 4) (d a b : Opd) (s : State) : Res :=
  lanewise s c [(1, false, a), (2, false, b)] d fun s g l =>
    (if tt.getLsbD (2 * (rd s g false a l).toNat + (rd s g false b l).toNat) then 1#64 else 0#64, 0#7)

/-- A source of SEL by TYPE (R324). -/
def selSrc (s : State) (g : Grp) (ty : IntTy) (o : Opd) (l : Nat) : DWord :=
  if ty.wide then rd64 s g o l else (rd s g ty.signed o l).setWidth 64

/-- SEL (R353). -/
def execSel (c : Ctl) (ty : IntTy) (d a b x : Opd) (s : State) : Res :=
  lanewise s c [(1, false, a), (2, false, b), (3, false, x)] d fun s g l =>
    (if rd s g false x l = 0#32 then selSrc s g ty b l else selSrc s g ty a l, 0#7)

end Sys2Proof.Machine
end

