-- ==== Sys2Proof/Machine/Float.lean ====
section
/-!
DEFINITION. Class 0x1 and FCMP: floating-point arithmetic, the function mould and compares (R109, R111, R318 to R323).
-/

namespace Sys2Proof.Machine

/-- The format of a TYPE of class 0x1. -/
def fltFmt : FltTy → Fmt
  | .f32 => fp32
  | .f16x2 => fp16
  | .bf16x2 => bf16

/-- The format of a TYPE of FCMP. -/
def fcFmt : FcTy → Fmt
  | .f32 => fp32
  | .f16 => fp16
  | .bf16 => bf16

/-- FP32 bits of a source: an immediate is a FIMM (R318). -/
def f32Bits (s : State) (g : Grp) (o : Opd) (l : Nat) : Nat :=
  match o with
  | .imm x => (x ++ 0#18).toNat
  | .limm x => (x ++ 0#2).toNat
  | o => (rd s g false o l).toNat

/-- The elements of a source of TYPE, as bits (R318): a half given by PART goes to both elements. -/
def fltBits (s : State) (g : Grp) (ty : FltTy) (o : Opd) (l : Nat) : List Nat :=
  match ty with
  | .f32 => [f32Bits s g o l]
  | _ => match o with
    | .imm x => [(x ++ 0#2).toNat, (x ++ 0#2).toNat]
    | o =>
      let w := rd s g false o l
      match opdPart o with
      | .lo => [w.toNat, w.toNat]
      | .hi => [w.toNat, w.toNat]
      | _ => [(w.extractLsb' 0 16).toNat, (w.extractLsb' 16 16).toNat]

/-- The elements of a source as values, with FTZ inputs (R109). -/
def fltVals (s : State) (g : Grp) (ty : FltTy) (ftz : Bool) (o : Opd) (l : Nat) : List FVal :=
  (fltBits s g ty o l).map ((fltFmt ty).input ftz)

/-- The result of a lane from its elements' bits and flags. -/
def joinFlt (rs : List (Nat × Flags)) : DWord × Flags :=
  match rs with
  | [(x, f)] => (BitVec.ofNat 64 x, f)
  | [(x, f), (y, h)] => ((BitVec.ofNat 16 y ++ BitVec.ofNat 16 x).setWidth 64, f ||| h)
  | _ => (0#64, 0#7)

/-- An exact result with its own flags, rounded to a format, with FTZ on the result (R105, R109). -/
def roundOut (f : Fmt) (ftz : Bool) (mode : Rnd) (x : FVal × Flags) : Nat × Flags :=
  let r := ftzOut f ftz (roundVal f mode x.1)
  (r.1, r.2 ||| x.2)

/-- FADD of an element (R319). -/
def faddEl (f : Fmt) (ftz : Bool) (mode : Rnd) (a b : FVal) : Nat × Flags := roundOut f ftz mode (sumEx mode [a, b])

/-- FMUL of an element (R319). -/
def fmulEl (f : Fmt) (ftz : Bool) (mode : Rnd) (a b : FVal) : Nat × Flags := roundOut f ftz mode (fmulEx a b)

/-- FFMA of an element, one rounding (R319). -/
def ffmaEl (f : Fmt) (ftz : Bool) (mode : Rnd) (a b x : FVal) : Nat × Flags :=
  let p := fmulEx a b
  let t := sumEx mode [p.1, x]
  roundOut f ftz mode (t.1, t.2 ||| p.2)

/-- The two-operand mould of Table 22.2. -/
def fltTwo (s : State) (c : Ctl) (ty : FltTy) (ftz : Bool) (r : Rnd) (f : Rnd → FVal → FVal → Nat × Flags) (d a b : Opd) :
    Res :=
  lanewise s c [(1, false, a), (2, false, b)] d fun s g l =>
    joinFlt (List.zipWith (f (rmode r (g.sh.lane l).rm)) (fltVals s g ty ftz a l) (fltVals s g ty ftz b l))

/-- FADD (R319). -/
def execFadd (c : Ctl) (ty : FltTy) (ftz : Bool) (r : Rnd) (d a b : Opd) (s : State) : Res :=
  fltTwo s c ty ftz r (faddEl (fltFmt ty) ftz) d a b

/-- FMUL (R319). -/
def execFmul (c : Ctl) (ty : FltTy) (ftz : Bool) (r : Rnd) (d a b : Opd) (s : State) : Res :=
  fltTwo s c ty ftz r (fmulEl (fltFmt ty) ftz) d a b

/-- FFMA (R319). -/
def execFfma (c : Ctl) (ty : FltTy) (ftz : Bool) (r : Rnd) (d a b x : Opd) (s : State) : Res :=
  lanewise s c [(1, false, a), (2, false, b), (3, false, x)] d fun s g l =>
    joinFlt (List.zipWith (fun (p : FVal × FVal) z => ffmaEl (fltFmt ty) ftz (rmode r (g.sh.lane l).rm) p.1 p.2 z)
      ((fltVals s g ty ftz a l).zip (fltVals s g ty ftz b l)) (fltVals s g ty ftz x l))

/-- An element's bits with a subnormal replaced by its zero under .ftz. -/
def flushBits (f : Fmt) (ftz : Bool) (x : Nat) : Nat :=
  if ftz && f.subnormal x then f.signed (decide (2 ^ (f.e + f.m) ≤ x)) 0 else x

/-- FMIN or FMAX of an element (R320). -/
def minMaxEl (f : Fmt) (ftz wantMax : Bool) (x y : Nat) : Nat × Flags :=
  let x := flushBits f ftz x
  let y := flushBits f ftz y
  fminMax f wantMax x y (f.value x) (f.value y)

/-- FMIN (R320). -/
def execFmin (c : Ctl) (ty : FltTy) (ftz : Bool) (_r : Rnd) (d a b : Opd) (s : State) : Res :=
  lanewise s c [(1, false, a), (2, false, b)] d fun s g l =>
    joinFlt (List.zipWith (minMaxEl (fltFmt ty) ftz false) (fltBits s g ty a l) (fltBits s g ty b l))

/-- FMAX (R320). -/
def execFmax (c : Ctl) (ty : FltTy) (ftz : Bool) (_r : Rnd) (d a b : Opd) (s : State) : Res :=
  lanewise s c [(1, false, a), (2, false, b)] d fun s g l =>
    joinFlt (List.zipWith (minMaxEl (fltFmt ty) ftz true) (fltBits s g ty a l) (fltBits s g ty b l))

/-- The rounded functions of Table 22.4, element by element. -/
def fltOne (s : State) (c : Ctl) (ty : FltTy) (ftz : Bool) (r : Rnd) (f : Rnd → FVal → Nat × Flags) (d a : Opd) : Res :=
  lanewise s c [(1, false, a)] d fun s g l =>
    joinFlt ((fltVals s g ty ftz a l).map fun v => ftzOut (fltFmt ty) ftz (f (rmode r (g.sh.lane l).rm) v))

/-- FRCP (R323). -/
def execFrcp (c : Ctl) (ty : FltTy) (ftz : Bool) (r : Rnd) (d a : Opd) (s : State) : Res :=
  fltOne s c ty ftz r (frcpVal (fltFmt ty)) d a

/-- FSQRT (R323). -/
def execFsqrt (c : Ctl) (ty : FltTy) (ftz : Bool) (r : Rnd) (d a : Opd) (s : State) : Res :=
  fltOne s c ty ftz r (fsqrtVal (fltFmt ty)) d a

/-- The faithful functions of Table 22.4, on FP32. -/
def fltFaithful (s : State) (c : Ctl) (ftz : Bool) (f : Word → FVal → Nat × Flags) (d a : Opd) : Res :=
  lanewise s c [(1, false, a)] d fun s g l =>
    let x := f32Bits s g a l
    joinFlt [ftzOut fp32 ftz (f (BitVec.ofNat 32 x) (fp32.input ftz x))]

/-- FRSQ (R323). -/
def execFrsq (c : Ctl) (ftz : Bool) (d a : Opd) (s : State) : Res := fltFaithful s c ftz frsqVal d a

/-- FEX2 (R323). -/
def execFex2 (c : Ctl) (ftz : Bool) (d a : Opd) (s : State) : Res := fltFaithful s c ftz fex2Val d a

/-- FLG2 (R323). -/
def execFlg2 (c : Ctl) (ftz : Bool) (d a : Opd) (s : State) : Res := fltFaithful s c ftz flg2Val d a

/-- FSIN (R323). -/
def execFsin (c : Ctl) (cos : Bool) (ftz : Bool) (d a : Opd) (s : State) : Res := fltFaithful s c ftz (fsinVal cos) d a

/-- The four 16-bit elements of a pair (R322). -/
def quadElems (x : DWord) : List Nat := (List.range 4).map fun i => (x.extractLsb' (16 * i) 16).toNat

/-- FDP4's exact sum with its flags (R111, R322). -/
def fdp4Ex (mode : Rnd) (as bs : List FVal) (x : FVal) : FVal × Flags :=
  let ps := List.zipWith fmulEx as bs
  let t := sumEx mode (x :: ps.map (·.1))
  (t.1, ps.foldl (fun f p => f ||| p.2) t.2)

/-- FDP4 (R322). -/
def execFdp4 (c : Ctl) (ty : FltTy) (ftz : Bool) (r : Rnd) (d a b x : Opd) (s : State) : Res :=
  lanewise s c [(1, false, a), (2, false, b), (3, false, x)] d fun s g l =>
    let mode := rmode r (g.sh.lane l).rm
    let el (o : Opd) : List FVal := (quadElems (rd64 s g o l)).map ((fltFmt ty).input ftz)
    joinFlt [roundOut fp32 ftz mode (fdp4Ex mode (el a) (el b) (fp32.input ftz (f32Bits s g x l)))]

/-- The element of a source of FCMP (R321). -/
def fcBits (s : State) (g : Grp) (ty : FcTy) (o : Opd) (l : Nat) : Nat :=
  match ty with
  | .f32 => f32Bits s g o l
  | _ => match o with
    | .imm x => (x ++ 0#2).toNat
    | o => (rd s g false o l).toNat

/-- A float comparison (Table 3.9): ordered conditions are false and unordered ones true of a NaN. -/
def fltCond (k : Cond) (a b : FVal) : Bool :=
  let un := a.isNan || b.isNan
  let o := if un then Ordering.eq else fcmpVal a b
  match k with
  | .eq => !un && o == .eq
  | .ne => !un && o != .eq
  | .lt => !un && o == .lt
  | .le => !un && o != .gt
  | .gt => !un && o == .gt
  | .ge => !un && o != .lt
  | .num => !un
  | .nan => un
  | .ltu => un || o == .lt
  | .leu => un || o != .gt
  | .gtu => un || o == .gt
  | .geu => un || o != .lt
  | .equ => un || o == .eq
  | .neu => un || o != .eq

/-- FCMP (R321). -/
def execFcmp (c : Ctl) (ty : FcTy) (k : Cond) (d a b : Opd) (s : State) : Res :=
  lanewise s c [(1, false, a), (2, false, b)] d fun s g l =>
    let x := (fcFmt ty).value (fcBits s g ty a l)
    let y := (fcFmt ty).value (fcBits s g ty b l)
    (cmpResult d (fltCond k x y), flagIf (x.isSig || y.isSig) fIV)

end Sys2Proof.Machine
end

