-- ==== Sys2Proof/Machine/Cross.lean ====
section
/-!
DEFINITION. Class 0x4: the instructions that exchange values among lanes, which wait for their members (R72, R113, R114,
R346, R347, R352, R354, R364), and RAND (R115, R345).
-/

namespace Sys2Proof.Machine

/-! ### Members (R72, R346) -/

/-- The mask of a cross-lane extension word. -/
def maskHas (sh : Sheet) (x : XExt) (l : Nat) : Bool := x.all || (sh.mReg x.mask.toNat).getLsbD l

/-- The member mask as a group reads it at issue (R60). -/
def xMask (sh : Sheet) (x : XExt) : Lanes := laneMask ((List.range sh.width).filter (maskHas sh x))

/-- The member mask that a lane blocked at a cross-lane word has brought. -/
def xBrought (sh : Sheet) (l : Nat) : Lanes :=
  match (sh.lane l).wait with
  | .blocked (.xlane _ _ m) => m
  | _ => 0#64

/-- The member set: the masks of the executing lanes, which groups of them may have read at different times (log 53), together with the
executing lanes. -/
def xMembers (sh : Sheet) (ex : List Nat) : List Nat :=
  (List.range sh.width).filter fun l => ex.contains l || ex.any fun k => (xBrought sh k).getLsbD l

/-- The lanes that execute the cross-lane word at `pc`: those blocked there. -/
def xExec (sh : Sheet) (pc : Word) : List Nat :=
  (List.range sh.lanes.length).filter fun l =>
    (sh.lane l).live && (sh.lane l).pc == pc && (match (sh.lane l).wait with
      | .blocked (.xlane _ _ _) => true
      | _ => false)

/-- Every live member stands at the word, executing or recorded there as disabled. -/
def xReady (sh : Sheet) (pc : Word) (ex : List Nat) : Bool :=
  (xMembers sh ex).all fun l => !(sh.lane l).running || ex.contains l || (sh.lane l).present.contains pc

/-- A member that is absent: not live, or only recorded as disabled. With a member that executes it is present. -/
def anyAbsent (sh : Sheet) (ex : List Nat) : Bool := (xMembers sh ex).any fun l => !ex.contains l

/-! ### Reductions (R113, R347) -/

/-- What a lane without a value contributes (Table 4.4). -/
def redIdentity (op : RedOp) (ty : XTy) : Word :=
  match op, ty with
  | .add, _ | .or, _ | .xor, _ => 0#32
  | .and, _ => 0xFFFFFFFF#32
  | .min, .f32 => 0x7F800000#32
  | .min, .i32 => 0x7FFFFFFF#32
  | .min, _ => 0xFFFFFFFF#32
  | .max, .f32 => 0xFF800000#32
  | .max, .i32 => 0x80000000#32
  | .max, _ => 0#32

/-- One node of a reduction, with its flags. -/
def redNode (op : RedOp) (ty : XTy) (mode : Rnd) (a b : Word) : Word × Flags :=
  match ty with
  | .f32 =>
    let r : Nat × Flags := match op with
      | .min => minMaxEl fp32 false false a.toNat b.toNat
      | .max => minMaxEl fp32 false true a.toNat b.toNat
      | _ => faddEl fp32 false mode (fp32.value a.toNat) (fp32.value b.toNat)
    (BitVec.ofNat 32 r.1, r.2)
  | .i32 => (match op with
    | .min => if a.toInt ≤ b.toInt then a else b
    | .max => if a.toInt ≤ b.toInt then b else a
    | _ => a + b, 0#7)
  | .u32 => (match op with
    | .min => if a.toNat ≤ b.toNat then a else b
    | .max => if a.toNat ≤ b.toNat then b else a
    | _ => a + b, 0#7)
  | .b32 => (match op with
    | .and => a &&& b
    | .or => a ||| b
    | _ => a ^^^ b, 0#7)

/-- Two blocks joined, the left one first. -/
def redJoin (op : RedOp) (ty : XTy) (mode : Rnd) (a b : Word × Flags) : Word × Flags :=
  let r := redNode op ty mode a.1 b.1
  (r.1, r.2 ||| a.2 ||| b.2)

/-- One level of the tree: neighbours joined. -/
def redLevel (op : RedOp) (ty : XTy) (mode : Rnd) : List (Word × Flags) → List (Word × Flags)
  | a :: b :: rest => redJoin op ty mode a b :: redLevel op ty mode rest
  | xs => xs

/-- The block B(k, 0) of 2^k values (R113). -/
def redTree (op : RedOp) (ty : XTy) (mode : Rnd) : Nat → List (Word × Flags) → Word × Flags
  | 0, xs => xs.headD (0#32, 0#7)
  | k + 1, xs => redTree op ty mode k (redLevel op ty mode xs)

/-- The inclusive prefix of the first `n` values: their blocks by the powers of two of `n`, largest first (R113). -/
def redPrefix (op : RedOp) (ty : XTy) (mode : Rnd) (n : Nat) : Nat → List (Word × Flags) → Option (Word × Flags) →
    Word × Flags
  | 0, _, acc => acc.getD (redIdentity op ty, 0#7)
  | k + 1, xs, acc =>
    if n.testBit k then
      let b := redTree op ty mode k (xs.take (2 ^ k))
      redPrefix op ty mode n k (xs.drop (2 ^ k)) (some (match acc with
        | some p => redJoin op ty mode p b
        | none => b))
    else redPrefix op ty mode n k xs acc

/-- The values of a reduction: executing members' values, the identity elsewhere. -/
def redValues (s : State) (g : Grp) (op : RedOp) (ty : XTy) (a : Opd) : List (Word × Flags) :=
  (List.range g.sh.width).map fun l => (if g.act.contains l then rd s g false a l else redIdentity op ty, 0#7)

/-! ### CSAMP (R114) -/

/-- The prefix sums of weights, ascending. -/
def prefixSums (ws : List Nat) : List Nat :=
  (ws.foldl (fun (a : List Nat × Nat) w =>
    let p := (faddEl fp32 false .rne (fp32.value a.2) (fp32.value w)).1
    (a.1 ++ [p], p)) ([], 0)).1

/-- CSAMP's result over the lanes' weights; none when it fails. -/
def csample (ws : List Nat) (members : List Nat) (u : Word) : Option Nat :=
  let bad (w : Nat) : Bool := match fp32.value w with
    | .nan _ => true
    | .inf _ => true
    | .fin neg m _ => neg && decide (m ≠ 0)
  let ps := prefixSums ws
  let total := fp32.value (ps.getLastD 0)
  if members.isEmpty || ws.any bad || total.isZero || total.isInf false then none
  else
    let t := fp32.value (roundVal fp32 .rne (fmulEx (.fin false (u >>> 8).toNat (-24)) total).1).1
    match members.find? fun l => fcmpVal (fp32.value (ps.getD l 0)) t == .gt with
    | some l => some l
    | none => members.reverse.find? fun l => !(fp32.value (ws.getD l 0)).isZero

/-! ### Performing -/

/-- SHFL's source lane (R354); none where it lies outside the sheet. -/
def shflFrom (mode : ShflMode) (width i sel : Nat) : Option Nat :=
  match mode with
  | .idx => some (sel % width)
  | .up => if sel ≤ i then some (i - sel) else none
  | .down => if i + sel < width then some (i + sel) else none
  | .xor => let k := Nat.xor i (sel % width); if k < width then some k else none

/-- Writes each executing lane's result and flags. -/
def xWrite (g : Grp) (d : Opd) (f : Nat → DWord × Flags) (sh : Sheet) : Sheet :=
  g.act.foldl (fun sh l => wr g.act d l (f l).1 (sh.status l (f l).2)) sh

/-- The result of a prefix (R101, R352): the prefix of one value is that value, of which a NaN is canonical and a signalling one
raises IV, as at every other lane. -/
def scanEnd (ty : XTy) (n : Nat) (v : Word × Flags) : Word × Flags :=
  let x := fp32.value v.1.toNat
  match ty with
  | .f32 => (if x.isNan then BitVec.ofNat 32 fp32.nan else v.1, v.2 ||| flagIf (n == 1 && x.isSig) fIV)
  | _ => v

/-- An operand that a blocked lane has read at issue (R60): a W register, which another group may write meanwhile, is kept as the
value it had. -/
def frozenOpd (s : State) (g : Grp) (o : Opd) : Opd :=
  match o with
  | .u _ _ _ => .raw (rd s g false o g.lead)
  | o => o

/-- The second operand of the cross-lane word at which a lane is blocked. -/
def xSecond (sh : Sheet) (l : Nat) : Opd :=
  match (sh.lane l).wait with
  | .blocked (.xlane (.shfl _ _ _ b) _ _) => b
  | .blocked (.xlane (.csamp _ _ b) _ _) => b
  | _ => .none

/-- A cross-lane operation's own effect on its executing lanes, and whether it succeeded. -/
def xEffect (s : State) (g : Grp) (w : XWork) (sh : Sheet) : Sheet × Bool :=
  let l0 := g.act.headD 0
  let mode (r : Rnd) : Rnd := rmode r (g.sh.lane l0).rm
  match w with
  | .shfl m d a _ =>
    let pair := opdPart a = .pair
    let val (l : Nat) : DWord := if pair then rd64 s g a l else (rd s g false a l).setWidth 64
    (xWrite g d (fun i => (match shflFrom m g.sh.width i (rd s g false (xSecond sh i) i).toNat with
      | none => val i
      | some k => if g.act.contains k then val k else 0#64, 0#7)) sh, true)
  | .vote op d a =>
    let one (l : Nat) : Bool := g.act.contains l && rd s g false a l == 1#32
    let r : DWord := match op with
      | .any => if g.act.any one then 1#64 else 0#64
      | .all => if g.act.all one then 1#64 else 0#64
      | .ballot => laneMask (g.act.filter one)
    (xWrite g d (fun _ => (r, 0#7)) sh, true)
  | .rdux op ty r d a =>
    let v := redTree op ty (mode r) (Nat.log2 g.sh.width) (redValues s g op ty a)
    (xWrite g d (fun _ => (v.1.setWidth 64, v.2)) sh, true)
  | .scan op ty r excl d a =>
    let xs := redValues s g op ty a
    (xWrite g d (fun i =>
      let n := if excl then i else i + 1
      let v := scanEnd ty n (redPrefix op ty (mode r) n 7 xs none)
      (v.1.setWidth 64, v.2)) sh, true)
  | .csamp d a _ =>
    let ws := (List.range g.sh.width).map fun l => if g.act.contains l then (rd s g false a l).toNat else 0
    match csample ws (xMembers g.sh g.act) (rd s g false (xSecond sh l0) l0) with
    | some l => (xWrite g d (fun _ => (BitVec.ofNat 64 l, 0#7)) sh, true)
    | none => (xWrite g d (fun _ => (0xFFFFFFFF#64, 0#7)) sh, false)

/-- The instruction performs once for all lanes that execute it at `pc` (R72): results, the result predicate, and every
record of a disabled lane there is cleared, that of a lane which has left the mask since too. -/
def xPerform (s : State) (w : Where) (sh : Sheet) (pc : Word) (ex : List Nat) (wk : XWork) (x : XExt) : Sheet :=
  let g : Grp := ⟨w, sh, ex.headD 0, ex, ex⟩
  let (sh', ok) := xEffect s g wk sh
  let p := ok && !anyAbsent sh ex
  let sh' := sh'.modLanes ex fun t => t.pWrite x.pdst.toNat p
  let sh' := sh'.modLanes (List.range sh'.lanes.length) fun t => { t with present := t.present.filter fun q => q != pc }
  stepLanes ex false sh'

/-- The lanes at a cross-lane word perform if every live member has come. -/
def xTry (s : State) (w : Where) (sh : Sheet) (pc : Word) (wk : XWork) (x : XExt) : Sheet :=
  let ex := xExec sh pc
  if !ex.isEmpty && xReady sh pc ex then xPerform s w sh pc ex wk x else sh

/-- Every cross-lane word at which lanes stand blocked looks at its members again: a lane of them may have ended, or be outside the running
body now (R72). -/
def xSettle (s : State) (w : Where) (sh : Sheet) : Sheet :=
  (List.range sh.lanes.length).foldl (fun sh l => match (sh.lane l).wait with
    | .blocked (.xlane wk x _) => if (sh.lane l).live then xTry s w sh (sh.lane l).pc wk x else sh
    | _ => sh) sh

/-- A group reaches a cross-lane word: its executing lanes block there, its disabled members are recorded there and go on,
and the instruction performs if it was only waiting for them (R72). -/
def xArrive (s : State) (g : Grp) (c : Ctl) (wk : XWork) (x : XExt) : State :=
  let off := g.grp.filter fun l => !g.act.contains l
  let sh := g.sh.modLanes (off.filter fun l => maskHas g.sh x l) fun t =>
    { t with present := if t.present.contains g.pc then t.present else t.present ++ [g.pc] }
  let sh := sh.modLanes g.act fun t => { t with present := t.present.filter fun q => q != g.pc }
  s.put g (xTry s g.w (blockLanes g (.xlane wk x (xMask g.sh x)) c.yld sh) g.pc wk x)

/-- SHFL (R354). -/
def execShfl (c : Ctl) (mode : ShflMode) (d a b : Opd) (x : XExt) (s : State) : Res :=
  atWord s c fun s g => withSources s g [(1, false, a), (2, false, b)] (xArrive s g c (.shfl mode d a (frozenOpd s g b)) x)

/-- VOTE (R364). -/
def execVote (c : Ctl) (op : VoteOp) (d a : Opd) (x : XExt) (s : State) : Res :=
  atWord s c fun s g => xArrive s g c (.vote op d a) x

/-- RDUX (R347): with no executing lane the destination still receives the identity. -/
def execRdux (c : Ctl) (op : RedOp) (ty : XTy) (r : Rnd) (d a : Opd) (x : XExt) (s : State) : Res :=
  atWord s c fun s g =>
    withSources s g [(1, false, a)] (
      if g.act.isEmpty then
        let sh := wr [g.lead] d g.lead ((redIdentity op ty).setWidth 64) g.sh
        xArrive s { g with sh := sh } c (.rdux op ty r d a) x
      else xArrive s g c (.rdux op ty r d a) x)

/-- SCAN (R352). -/
def execScan (c : Ctl) (op : RedOp) (ty : XTy) (r : Rnd) (excl : Bool) (d a : Opd) (x : XExt) (s : State) : Res :=
  atWord s c fun s g => withSources s g [(1, false, a)] (xArrive s g c (.scan op ty r excl d a) x)

/-- CSAMP (R307, R308). -/
def execCsamp (c : Ctl) (d a b : Opd) (x : XExt) (s : State) : Res :=
  atWord s c fun s g => withSources s g [(1, false, a), (2, false, b)] (xArrive s g c (.csamp d a (frozenOpd s g b)) x)

/-! ### RAND (R115, R345) -/

/-- One round of Philox on the counter words. -/
def philoxRound (c : Word × Word × Word × Word) (k0 k1 : Word) : Word × Word × Word × Word :=
  let p := 0xD2511F53 * c.1.toNat
  let q := 0xCD9E8D57 * c.2.2.1.toNat
  (BitVec.ofNat 32 (q / 2 ^ 32) ^^^ c.2.1 ^^^ k0, BitVec.ofNat 32 q, BitVec.ofNat 32 (p / 2 ^ 32) ^^^ c.2.2.2 ^^^ k1,
    BitVec.ofNat 32 p)

/-- Rounds of Philox, the key stepping after each. -/
def philox : Nat → Word × Word × Word × Word → Word → Word → Word × Word × Word × Word
  | 0, c, _, _ => c
  | n + 1, c, k0, k1 => philox n (philoxRound c k0 k1) (k0 + 0x9E3779B9#32) (k1 + 0xBB67AE85#32)

/-- Word N of PHILOX. -/
def randWord (n : Nat) (key lo hi : DWord) : Word :=
  let r := philox 10 (loWord lo, hiWord lo, loWord hi, hiWord hi) (loWord key) (hiWord key)
  match n with
  | 0 => r.1
  | 1 => r.2.1
  | 2 => r.2.2.1
  | _ => r.2.2.2

/-- RAND (R345). -/
def execRand (c : Ctl) (n : BitVec 2) (d a b x : Opd) (s : State) : Res :=
  lanewise s c [(1, false, a), (2, false, b), (3, false, x)] d fun s g l =>
    ((randWord n.toNat (rd64 s g a l) (rd64 s g b l) (rd64 s g x l)).setWidth 64, 0#7)

end Sys2Proof.Machine
end

