-- ==== Sys2Proof/Machine/Control.lean ====
section
/-!
DEFINITION. Class 0x5: transfers, ejection, the ends of threads, YIELD, NOP and the trailer (R51 to R54, R67, R73 to R75,
R118, R301 to R304, R316, R338, R350, R366).
-/

namespace Sys2Proof.Machine

/-! ### Transfers (R51, R53, R301) -/

/-- The await list of the trailer that closes the group's run. -/
def State.awaits (s : State) : List AwaitReg := trlrEntries s.nextWord (bitsOf s.nextWord 71 3).toNat

/-- The continuation of a run's last word: the word after its trailer. -/
def Grp.cont (g : Grp) : Word := g.pc + 24#32

/-- Some lanes begin their next run, each at a word of its own: at the target of a transfer, or at the continuation. -/
def startLanes (s : State) (ls : List Nat) (dest : Nat → Word) (yld jumped : Bool) (sh : Sheet) : Sheet :=
  ls.foldl (fun sh l => sh.modLane l fun t => t.startRun (dest l) s.awaits yld s.steps jumped) sh

/-- The lanes of a group that do not execute. -/
def Grp.rest (g : Grp) : List Nat := g.grp.filter fun l => !g.act.contains l

/-- A transfer: executing lanes continue at their targets, the group's others at the continuation (R51). -/
def transfer (s : State) (g : Grp) (c : Ctl) (dest : Nat → Word) (sh : Sheet) : State :=
  s.put g (startLanes s g.rest (fun _ => g.cont) c.yld false (startLanes s g.act dest c.yld true sh))

/-- The target of a displacement (R301). -/
def dispTarget (g : Grp) (disp : Opd) : Word :=
  g.cont + 12#32 * (match disp with
    | .imm x => x.signExtend 32
    | .limm x => x.signExtend 32
    | _ => 0#32)

/-- BRA (R301). -/
def execBra (c : Ctl) (disp : Opd) (s : State) : Res :=
  atWord s c fun s g => transfer s g c (fun _ => dispTarget g disp) g.sh

/-- A transfer through a register: offsets are multiples of 12 (R303). -/
def indirect (s : State) (g : Grp) (c : Ctl) (a : Opd) : State :=
  withSources s g [(1, false, a)] (
    let bad := g.act.filter fun l => (rd s g false a l).toNat % 12 != 0
    if !bad.isEmpty then trap s g .align 1 bad else transfer s g c (fun l => rd s g false a l) g.sh)

/-- BRX (R303). -/
def execBrx (c : Ctl) (a : Opd) (s : State) : Res := atWord s c fun s g => indirect s g c a

/-- RET (R350). -/
def execRet (c : Ctl) (a : Opd) (s : State) : Res := atWord s c fun s g => indirect s g c a

/-- CALL (R304). -/
def execCall (c : Ctl) (d disp : Opd) (s : State) : Res :=
  atWord s c fun s g =>
    transfer s g c (fun _ => dispTarget g disp)
      (g.act.foldl (fun sh l => wr g.act d l (g.cont.setWidth 64) sh) g.sh)

/-- NOP (R338). -/
def execNop (c : Ctl) (s : State) : Res := atWord s c fun s g => finish s g c g.sh

/-- YIELD: the group of an ordinary sheet is yield-pending; the order of front-end threads and of handler sheets is not the yield's to
change (R67, R77, R366). -/
def execYield (c : Ctl) (s : State) : Res :=
  atWord s c fun s g => s.put g (stepLanes g.grp (match g.w with
    | .sheet _ _ _ => true
    | _ => c.yld) g.sh)

/-- TRLR: the group passes its trailer, and its next run waits for the registers the trailer names (R52, R53). -/
def execTrlr (awaits : List AwaitReg) (_len : BitVec 8) (s : State) : Res :=
  atWord s ⟨63#6, false, false, false, 0#4⟩ fun s g =>
    s.put g (g.grp.foldl (fun sh l => sh.modLane l fun t => t.startRun (g.pc + 12#32) awaits false s.steps false) g.sh)

/-! ### Pending ARITH traps (R34, R118) -/

/-- Delivers the pending ARITH traps of some lanes of the group, clearing their pend; without one the word goes on. -/
def withArith (s : State) (g : Grp) (ls : List Nat) (k : State) : State :=
  let bad := ls.filter fun l => (g.sh.lane l).pend
  if bad.isEmpty then k
  else if g.inHandler || (s.core (wCore g.w)).eventRoom then
    trap s { g with sh := g.sh.modLanes bad fun t => { t with pend := false } } .arith 15 bad
  else trap s g .arith 15 bad

/-! ### The ends of lanes (R70, R266, R316) -/

/-- A queued thread's last act: its AUTOEXIT arrivals wait behind the sheet's stores, also at an object that one of them registers, and
so does the add to a portal thread's join counter (R153, R266, R316). -/
def endEntries (s : State) (w : Where) (sh : Sheet) (ls : List Nat) (pc : Word) : State × List SqEntry :=
  let autos := match s.wgOf w with
    | some g => !g.autoexit.isEmpty || !sh.autoSoon.isEmpty
    | none => false
  let quietLane (l : Nat) : SqLane := ⟨l, 0#64, .ok (.spad (wCore w) 0) true, false, false, [], []⟩
  let joins : List SqLane := ls.filterMap fun l => (sh.lane l).join.map fun j =>
    ⟨l, j.2, if j.1 then .ok (.host j.2.toNat) true else .miss, false, false, leBytes 8 1, []⟩
  let (i, s) := s.fresh
  let (j, s) := s.fresh
  (s, (if autos then [⟨i, .autoArrive, ls.map quietLane, false, pc, 0#96⟩] else []) ++
    (if joins.isEmpty then [] else [⟨j, .join, joins, false, pc, 0#96⟩]))

/-- A producer of an ended lane that is discarded at once: it fills from the core itself (R316). -/
def FillKind.droppedAtExit : FillKind → Bool
  | .dqpop | .gtake _ | .tlbq | .mwait _ _ _ _ => true
  | _ => false

/-- A pending fill loses its ended lanes (R316). A DQPOP of a W register takes one entry for all its lanes, and ends without one
only when they have all ended (R18, R22). -/
def Sheet.dropEnded (sh : Sheet) (f : Fill) (ls : List Nat) : Sheet :=
  let mine := ls.filter fun l => f.lanes.any fun x => x.lane == l && !x.done
  match f.kind, f.dest with
  | .dqpop, .u _ _ _ =>
    if mine.isEmpty then sh
    else
      let sh := sh.modFill f.id fun y => { y with lanes := y.lanes.map fun x => if mine.contains x.lane then { x with done := true } else x }
      if f.lanes.all fun x => x.done || mine.contains x.lane then sh.dropLane f (f.act.headD 0) else sh
  | _, _ => mine.foldl (fun sh l => sh.dropLane f l) sh

/-- The code state after some lanes have ended: they leave every mask and wait, and their pending fills are dropped. -/
def Sheet.endLanes (sh : Sheet) (ls : List Nat) : Sheet :=
  let sh := (sh.fills.filter fun f => f.kind.droppedAtExit).foldl (fun sh f => sh.dropEnded f ls) sh
  let sh := (List.range 12).foldl (fun sh i => sh.setM i (sh.mReg i &&& ~~~ (laneMask ls))) sh
  sh.modLanes ls fun t => { t with live := false, wait := .ready, slot := none }

/-! ### The wait on a mask (R71, R94) -/

/-- The lanes blocked in WAITM at a word. -/
def waitmLanes (sh : Sheet) (pc : Word) : List Nat :=
  (List.range sh.lanes.length).filter fun l =>
    (sh.lane l).live && (sh.lane l).pc == pc && (match (sh.lane l).wait with
      | .blocked (.waitm _) => true
      | _ => false)

/-- WAITM's condition: every lane of the mask in the running body stands blocked at this word (R71, R94). -/
def waitmMet (sh : Sheet) (m : BitVec 4) (pc : Word) : Bool :=
  (maskLanes sh.lanes.length (sh.mReg m.toNat)).all fun l => !(sh.lane l).running || (waitmLanes sh pc).contains l

/-- The lanes at a WAITM word are released together once its condition holds. -/
def waitmTry (sh : Sheet) (m : BitVec 4) (pc : Word) : Sheet :=
  if waitmMet sh m pc then stepLanes (waitmLanes sh pc) false sh else sh

/-- Every WAITM of a sheet looks at its condition (R71). -/
def Sheet.settle (sh : Sheet) : Sheet :=
  (List.range sh.lanes.length).foldl (fun sh l => match (sh.lane l).wait with
    | .blocked (.waitm m) => if (sh.lane l).live then waitmTry sh m (sh.lane l).pc else sh
    | _ => sh) sh

/-- The other slot of this issue cycle has still to issue. -/
def State.paired (s : State) : Bool :=
  match s.agenda with
  | .second _ _ :: _ => true
  | _ => false

/-- After a change to a mask the WAITM conditions are evaluated: at once, or after the other slot of the same cycle (R71, R365). -/
def State.settled (s : State) (sh : Sheet) : Sheet := if s.paired then sh else sh.settle

/-- Some lanes of an agent end, by exit or ejection, from the code state `sh`: they leave their slot at the run's trailer (R66), and the
waits on masks and members look again (R70 to R72, R153, R316). -/
def State.endLanes (s : State) (w : Where) (sh : Sheet) (ls : List Nat) : State :=
  let (s, es) := endEntries s w sh ls ((sh.lane (ls.headD 0)).pc)
  let sh := (sh.endLanes ls).modLanes ls fun t => { t with pass := s.steps }
  let sh := xSettle s w (s.settled sh)
  { s.putSheet w { sh with sq := sh.sq ++ es } with
    monitors := s.monitors.filter fun m => !(decide (m.who = w) && ls.contains m.lane) }

/-- EXIT (R316). -/
def execExit (c : Ctl) (s : State) : Res :=
  atWord s c fun s g =>
    if g.act.isEmpty then transfer s g c (fun _ => g.cont) g.sh
    else if g.inHandler || g.sh.gen.isSome then trap s g .illegal 15 g.act
    else
      withArith s g g.act
        (s.endLanes g.w (startLanes s g.rest (fun _ => g.cont) c.yld false g.sh) g.act)

/-! ### Ejection (R73 to R75, R302) -/

/-- Whether a record belongs in a bin: launch, workgroup and entry, and for portal threads width, count and code. -/
def Bin.accepts (b : Bin) (g : Workgroup) (launch flat : Nat) (entry : Word) (width c : Nat) (code : DWord) : Bool :=
  b.launch == launch && b.flat == flat && b.entry == entry &&
    (g.portal.isNone || (b.width == width && b.c == c && b.code == code))

/-- Records in the vat (R74). -/
def Core.vatUsed (k : Core) : Nat := (k.bins.map fun b => b.recs.length).foldl (· + ·) 0

/-- Puts records into the bin of a key, or a free bin; none when the vat or the bins lack room. -/
def Core.addRecs (k : Core) (g : Workgroup) (entry : Word) (width c : Nat) (code : DWord) (rs : List SpawnRec) :
    Option Core :=
  if 16384 < k.vatUsed + rs.length then none
  else if k.bins.any fun b => b.accepts g g.launch g.flat entry width c code then
    some { k with bins := k.bins.map fun b =>
      if b.accepts g g.launch g.flat entry width c code then { b with recs := b.recs ++ rs } else b }
  else if k.bins.length < 64 then
    some { k with bins := k.bins ++ [⟨g.launch, g.flat, entry, width, c, code, rs, false⟩] }
  else none

/-- The eight words of a record's bytes. -/
def recordOf (bs : List Byte) : SpawnRec := ⟨(List.range 8).map fun k => leVal 32 ((bs.drop (4 * k)).take 4), none⟩

/-- Records of the workgroup in a slot enter their bin at the vat. -/
def Core.spawnInto (k : Core) (slot : Nat) (entry : Word) (width c : Nat) (code : DWord) (xs : List SqLane) : Core :=
  match k.wg slot with
  | none => k
  | some g => (k.addRecs g entry width c code (xs.map fun x => recordOf x.bytes)).getD k

/-- The records of the queued SPAWNs of a sheet that runs for the workgroup in a slot enter their bins. -/
def Core.spawnQueued (k : Core) (x : Nat × Sheet) : Core :=
  x.2.sq.foldl (fun k e => match e.kind with
    | .spawn entry width c code => k.spawnInto x.1 entry width c code e.lanes
    | _ => k) k

/-- A core with every queued SPAWN's records in the vat: the room that they hold is not free (R75, R357). -/
def State.pendingCore (s : State) (c : Nat) : Core :=
  let k := s.core c
  let ofWg (x : Option Workgroup × Nat) : List (Nat × Sheet) := match x.1 with
    | some g => (g.front.toList ++ g.sheets.filterMap id).map fun sh => (x.2, sh)
    | none => []
  let ofH (h : Option Handler) : List (Nat × Sheet) := (h.bind fun h => (wSlot h.ev.who).map fun slot => (slot, h.sheet)).toList
  (k.wgs.zipIdx.flatMap ofWg ++ ofH k.h1 ++ ofH k.h2).foldl Core.spawnQueued k

/-- Words vA to vA+n-1 of a lane, zero-filled to eight (R73). -/
def recordWords (sh : Sheet) (l : Nat) (a : Opd) (n : Nat) : List Word :=
  match a with
  | .v _ _ i => (List.range 8).map fun k => if k < n then (sh.vReg l (i.toNat + k)).val else 0#32
  | _ => List.replicate 8 0#32

/-- The registers of a record as sources. -/
def recordSrcs (a : Opd) (n : Nat) : List Src :=
  match a with
  | .v ew p i => (List.range n).map fun k => (1, false, Opd.v ew p (i + BitVec.ofNat 8 k))
  | _ => []

/-- BRD (R73, R75, R94, R302, R367). An ejected portal thread lives on in its record, which carries its join counter (R266). -/
def execBrd (c : Ctl) (n : BitVec 3) (a disp : Opd) (s : State) : Res :=
  atWord s c fun s g =>
    let target := dispTarget g disp
    let asBra (s : State) : State := transfer s g c (fun _ => target) g.sh
    let n := n.toNat + 1
    if g.act.isEmpty || g.rest.isEmpty || g.sh.gen.isSome then asBra s
    else
      match g.w, s.wgOf g.w with
      | .sheet co slot i, some wg =>
        let taken := decide (g.act.length ≤ g.rest.length)
        let out := if taken then g.act else g.rest
        let entry := if taken then target else g.cont
        let recs := out.map fun l => (⟨recordWords g.sh l a n, (g.sh.lane l).join⟩ : SpawnRec)
        match ((s.pendingCore co).addRecs wg entry g.sh.width g.sh.c g.sh.code recs).bind fun _ =>
            (s.core co).addRecs wg entry g.sh.width g.sh.c g.sh.code recs with
        | none =>
          asBra (s.modCore co fun k =>
            { k with refused := SMap.set 0 k.refused wg.owner (SMap.get 0 k.refused wg.owner + 1) })
        | some k =>
          withArith s g out
            (withSources s { g with act := out } (recordSrcs a n)
              (let sh := if taken then startLanes s g.rest (fun _ => g.cont) c.yld false g.sh
                         else startLanes s g.act (fun _ => target) c.yld true g.sh
               (s.modCore co fun _ => k).endLanes (.sheet co slot i) (sh.modLanes out fun t => { t with join := none }) out))
      | _, _ => asBra s

end Sys2Proof.Machine
end

