-- ==== Sys2Proof/Machine/Gen.lean ====
section
/-!
DEFINITION. Generator loops (R84 to R98): GENB, GYLD, GTAKE, GEND and the switch between the two bodies.
-/

namespace Sys2Proof.Machine

/-! ### The switch (R92) -/

/-- A lane outside the running body. -/
def Thread.park (t : Thread) : Thread := { t with wait := .parked, slot := none, waited := 0, forced := false }

/-- A producer lane as it freezes: it stops being ready, so its wait count starts again (R68). -/
def Thread.freeze (t : Thread) : Thread := { t with waited := 0, forced := false }

/-- ROUND: the producer lanes freeze, and lanes 0 to CR - 1 start at CENT as one group (R88, R92). -/
def startRound (pass : Nat) (sh : Sheet) (g : Gen) : Sheet :=
  let cr := min g.f sh.width
  let frozen := if g.frozen.isEmpty then sh.lanes.mapIdx fun l t => (l, t.freeze) else g.frozen
  { sh with
    gen := some { g with body := .consumer, cr := cr, frozen := frozen },
    lanes := sh.lanes.mapIdx fun l t => if l < cr then { t.startRun g.cent [] false pass true with live := true } else t.park }

/-- COMPLETE: every lane live at GENB continues at the join point as one group. -/
def completeGen (pass : Nat) (sh : Sheet) (g : Gen) : Sheet :=
  { sh with
    gen := none,
    lanes := sh.lanes.mapIdx fun l t => { t.startRun g.join [] false pass false with live := g.opened.getLsbD l } }

/-- What the producer side decides at a switch point, once its entries are appended. -/
def switchPoint (pass : Nat) (sh : Sheet) (g : Gen) : Sheet :=
  if sh.width ≤ g.f ∨ (g.a = 0 ∧ 0 < g.f) then { sh with gen := some { g with body := .switching } }
  else if g.a = 0 ∧ g.f = 0 then completeGen pass sh g
  else { sh with gen := some g }

/-- END_ROUND: the round's entries are released, and another round, the producer body or the join point follows. -/
def endRound (pass : Nat) (sh : Sheet) (g : Gen) : Sheet :=
  let g := { g with h := (g.h + g.cr) % g.capn, f := g.f - g.cr }
  if sh.width ≤ g.f then startRound pass sh g
  else if 0 < g.a then
    { sh with gen := some { g with body := .producer, resume := true }, lanes := sh.lanes.map Thread.park }
  else if 0 < g.f then startRound pass sh g
  else completeGen pass sh g

/-- A producer lane goes on where it froze; its registers, predicates and modes are the physical lane's (R88). -/
def Thread.resumeFrom (t : Thread) (old : Thread) : Thread :=
  { old with v := t.v, p := t.p, rm := t.rm, astat := t.astat, aen := t.aen, pend := t.pend, gsrc := t.gsrc, join := t.join }

/-- The producer groups resume, each at its word (R92); those that waited there for the felt or for a register look again. -/
def resumeProducers (sh : Sheet) (g : Gen) : Sheet :=
  Sheet.wake { sh with
    gen := some { g with resume := false, frozen := [] },
    lanes := sh.lanes.mapIdx fun l t => match g.frozen.find? fun x => x.1 == l with
      | some x => t.resumeFrom x.2
      | none => t }

/-- Whether a pending switch may take place: no producer group holds a slot and every yielded entry has reached the felt
(R92, R95). -/
def roundReady (sh : Sheet) : Bool :=
  (sh.lanes.all fun t => t.slot.isNone) && !(sh.sq.any fun e => decide (e.kind = .gyld))

/-- The event that starts a consumer round. -/
def execGeneratorRound (w : Where) (s : State) : Res :=
  .next (s.modSheet w fun sh => match sh.gen with
    | some g => if g.body = .switching ∧ roundReady sh then startRound s.steps sh g else sh
    | none => sh)

/-- The event that lets the producer groups resume. The consumer may have changed a mask, and a lane of one may have ended: the waits on
masks and members look again (R71, R72, R88). -/
def execGeneratorResume (w : Where) (s : State) : Res :=
  .next (s.modSheet w fun sh => match sh.gen with
    | some g => if g.resume then xSettle s w (resumeProducers sh g).settle else sh
    | none => sh)

/-! ### GENB (R87) -/

/-- Felt capacity in entries. -/
def feltCap (cap : BitVec 3) (width : Nat) : Nat := (cap.toNat + 1) * width

/-- An entry's code offset: the join point plus a displacement in words. -/
def genTarget (join : Word) (disp : Opd) : Word :=
  join + 12#32 * (match disp with
    | .imm x => x.signExtend 32
    | _ => 0#32)

/-- GENB performs: the generator's state is set and every live lane continues at PENT. -/
def openGen (s : State) (g : Grp) (c : Ctl) (cap : BitVec 3) (k : BitVec 8) (base : Nat) (prod cons : Opd) : State :=
  let join := g.pc + 24#32
  let gen : Gen :=
    { body := .producer, resume := false, k := k.toNat, capn := feltCap cap g.sh.width, base := base,
      pent := genTarget join prod, cent := genTarget join cons, join := join, y := 0, h := 0, f := 0, a := g.grp.length,
      ended := 0#64, cr := 0, srcl := [], opened := laneMask g.grp, frozen := [] }
  let awaits := trlrEntries s.nextWord (bitsOf s.nextWord 71 3).toNat
  s.put g { g.sh.modLanes g.grp (fun t => t.startRun gen.pent awaits c.yld s.steps true) with gen := some gen }

/-- The lanes that stand at a GENB and wait for the others. -/
def atGenb (sh : Sheet) (pc : Word) (l : Nat) : Bool := (sh.lane l).pc == pc && decide ((sh.lane l).wait = .blocked .genb)

/-- GENB waits until every live lane of the sheet stands at it, and then performs once, after the checks of the felt's
place. A k above C − 2 names no operand in SLOT (DEDUCED: R87 gives one list of ILLEGAL traps and no SLOT). -/
def execGenb (c : Ctl) (cap : BitVec 3) (k : BitVec 8) (a prod cons : Opd) (s : State) : Res :=
  atWord s c fun s g =>
    if g.sh.gen.isSome then trap s g .illegal 15 g.grp
    else if g.sh.c < k.toNat + 2 then trap s g .illegal 15 g.grp
    else
      withSources s g [(1, false, a)] (
        let all := g.sh.liveLanes
        if !(all.all fun l => g.grp.contains l || atGenb g.sh g.pc l) then s.put g (blockLanes g .genb c.yld g.sh)
        else
          let g := { g with grp := all, act := all }
          let base := rd s g false a (g.act.headD 0)
          let al := s.alloc g.w
          if base.toNat % 8 ≠ 0 then trapAt s g .align 1 .read g.act fun _ => base.setWidth 64
          else if al.size < base.toNat + 8 * feltCap cap g.sh.width then
            trapAt s g .bounds 1 .read g.act fun _ => base.setWidth 64
          else openGen s g c cap k base.toNat prod cons)

/-! ### GYLD (R89, R92) -/

/-- The generator of a sheet whose producer body runs. -/
def producing (sh : Sheet) : Option Gen :=
  match sh.gen with
  | some g => if g.body = .consumer then none else some g
  | none => none

/-- The generator of a sheet whose consumer body runs. -/
def consuming (sh : Sheet) : Option Gen :=
  match sh.gen with
  | some g => if g.body = .consumer then some g else none
  | none => none

/-- The felt slots of `n` more entries. -/
def Gen.nextSlots (g : Gen) (n : Nat) : List Nat := (List.range n).map fun i => (g.y + i) % g.capn

/-- A generator after the executing lanes have appended. -/
def Gen.append (g : Gen) (act : List Nat) : Gen :=
  { g with f := g.f + act.length, y := g.y + act.length,
           srcl := ((g.nextSlots act.length).zip act).foldl (fun m e => SMap.set 0 m e.1 e.2) g.srcl }

/-- The queue entry of a GYLD: value and tag of each executing lane, at its felt slot (R85, R163). -/
def yieldEntry (s : State) (g : Grp) (gen : Gen) (al : Alloc) (id : Nat) (a b : Opd) : SqEntry :=
  let va (j : Nat) : DWord := BitVec.ofNat 64 (gen.base + 8 * j)
  { id := id, kind := .gyld, counted := false, pc := g.pc, word := s.curWord,
    lanes := ((gen.nextSlots g.act.length).zip g.act).map fun e =>
      ⟨e.2, va e.1, .ok (al.target (va e.1)) true, false, false,
        leBytes 4 (rd s g false a e.2).toNat ++ leBytes 4 (rd s g false b e.2).toNat, []⟩ }

/-- GYLD. -/
def execGyld (c : Ctl) (a b : Opd) (s : State) : Res :=
  atWord s c fun s g =>
    match producing g.sh with
    | none => trapActive s g c .illegal 15
    | some gen =>
      withSources s g [(1, false, a), (2, false, b)] (
        if gen.capn < gen.f + g.act.length then
          s.put g (waitHere g (.felt g.act.length) { g.sh with gen := some { gen with body := .switching } })
        else if g.act.isEmpty then s.put g (switchPoint s.steps (stepLanes g.grp c.yld g.sh) gen)
        else if ¬ g.sh.sqRoom then s.put g (waitHere g (.room false true) g.sh)
        else
          let (id, s) := s.fresh
          let sh := g.sh.addSq (yieldEntry s g gen (s.alloc g.w) id a b)
          s.put g (switchPoint s.steps (stepLanes g.grp c.yld sh) (gen.append g.act)))

/-! ### GTAKE (R90, R97) -/

/-- The felt slot that a lane of a round takes. -/
def Gen.slotOf (g : Gen) (l : Nat) : Nat := (g.h + l) % g.capn

/-- GTAKE. -/
def execGtake (c : Ctl) (d : Opd) (s : State) : Res :=
  atWord s c fun s g =>
    match consuming g.sh with
    | none => trapActive s g c .illegal 15
    | some gen =>
      if g.act.isEmpty then finish s g c g.sh
      else
        let (id, s) := s.fresh
        let al := s.alloc g.w
        let va (l : Nat) : DWord := BitVec.ofNat 64 (gen.base + 8 * gen.slotOf l)
        let f : Fill :=
          { id := id, kind := .gtake (g.act.map fun l => (l, SMap.get 0 gen.srcl (gen.slotOf l))), dest := d, pc := g.pc,
            word := s.curWord, lanes := g.act.map fun l => ⟨l, va l, .ok (al.target (va l)) true, false, none⟩ }
        finish s g c ((markEmptyAll g.act false d id g.sh).addFill f)

/-! ### GEND (R91, R98) -/

/-- GEND.p: the executing lanes park, and the producer side decides. -/
def gendProducer (s : State) (g : Grp) (c : Ctl) (gen : Gen) : State :=
  let rest := g.grp.filter fun l => !g.act.contains l
  let sh := (stepLanes rest c.yld g.sh).modLanes g.act Thread.park
  s.put g (xSettle s g.w (s.settled (switchPoint s.steps sh { gen with ended := gen.ended ||| laneMask g.act, a := gen.a - g.act.length })))

/-- The round ends once all its lanes stand at one GEND.c and no GTAKE of it is in flight. -/
def gendTry (pass : Nat) (sh : Sheet) : Sheet :=
  match sh.gen with
  | some g =>
    let there := (List.range g.cr).all fun l => decide ((sh.lane l).wait = .blocked .gendc) && (sh.lane l).pc == (sh.lane 0).pc
    let filled := !(sh.fills.any fun f => match f.kind with
      | .gtake _ => true
      | _ => false)
    if g.body = .consumer ∧ there ∧ filled then endRound pass sh g else sh
  | none => sh

/-- GEND. -/
def execGend (c : Ctl) (consumer : Bool) (s : State) : Res :=
  atWord s c fun s g =>
    if consumer then
      if (consuming g.sh).isNone then trap s g .illegal 15 g.grp
      else s.put g (gendTry s.steps (blockLanes { g with act := g.grp } .gendc c.yld g.sh))
    else
      match producing g.sh with
      | none => trapActive s g c .illegal 15
      | some gen => gendProducer s g c gen

end Sys2Proof.Machine
end

