-- ==== Sys2Proof/Machine/Sync.lean ====
section
/-!
DEFINITION. Class 0x9: atomics, fences, barrier objects and the wait on a word (R151 to R153, R166, R171 to R173, R294 to
R298, R336, R337, R349). What performs at a bank or a sync engine stands beside its instruction.
-/

namespace Sys2Proof.Machine

/-! ### ATOMOP (R295) -/

/-- FP32 atomics (R295): add rounds to nearest even; min and max of a NaN give the canonical NaN. -/
def atomF32 (op : Aop) (old v : Nat) : Nat :=
  match op with
  | .min => if (fp32.value old).isNan || (fp32.value v).isNan then fp32.nan else (minMaxEl fp32 false false old v).1
  | .max => if (fp32.value old).isNan || (fp32.value v).isNan then fp32.nan else (minMaxEl fp32 false true old v).1
  | .exch => v
  | _ => (faddEl fp32 false .rne (fp32.value old) (fp32.value v)).1

/-- One operand of an atomic minimum or maximum of `w` bits is at most the other. -/
def atomLe (signed : Bool) (w : Nat) (x y : DWord) : Bool :=
  if signed then decide ((x.setWidth w).toInt ≤ (y.setWidth w).toInt) else decide (x.toNat ≤ y.toNat)

/-- The new value of an atomic of `w` bits from the old one, its operand and cas's new value. -/
def atomNew (a : AtomOp) (old v new : DWord) : DWord :=
  let w := 8 * a.bytes
  let signed := match a.ty with
    | some e => elemSigned e
    | none => false
  match a.op with
  | .cas => if old = v then new else old
  | op =>
    if a.ty = some .fp32 then BitVec.ofNat 64 (atomF32 op old.toNat v.toNat)
    else
      match op with
      | .add => BitVec.ofNat 64 ((old + v).toNat % 2 ^ w)
      | .min => if atomLe signed w old v then old else v
      | .max => if atomLe signed w old v then v else old
      | .and => old &&& v
      | .or => old ||| v
      | .xor => old ^^^ v
      | _ => v

/-- An atomic on bytes: the old bytes and the new ones. -/
def atomBytes (a : AtomOp) (old v new : List Byte) : List Byte :=
  leBytes a.bytes (atomNew a (leVal 64 old) (leVal 64 v) (leVal 64 new)).toNat

/-- The operation that a word's AOP and XC name. -/
def atomOpOf (op : Aop) (x : AtomX) (wide : Bool) : AtomOp :=
  ⟨op, match x with | .ty e => some e | .new _ => none, wide⟩

/-- Whether a word's operation is 64 bits wide (R294). -/
def atomWide64 (b : Opd) (x : AtomX) : Bool :=
  match x with
  | .ty e => decide (e.bits = 64)
  | .new _ => decide (opdPart b = .pair)

/-- cas's new value as a source. -/
def atomNewOpd (x : AtomX) : Opd :=
  match x with
  | .ty _ => .none
  | .new o => o

/-- A value operand's bytes at the operation's width: an immediate is sign-extended. -/
def atomVal (s : State) (g : Grp) (wide : Bool) (o : Opd) (l : Nat) : List Byte :=
  leBytes (if wide then 8 else 4) (rd64 s g o l).toNat

/-- Lanes with the address of an atomic: base plus the immediate that stands in FD (R294). -/
def atomAddrs (s : State) (g : Grp) (d a : Opd) : List (Nat × DWord) :=
  g.act.map fun l => (l, rd64 s g a l + (match d with
    | .imm x => x.signExtend 64
    | .limm x => x.signExtend 64
    | _ => 0#64))

/-- Whether FD is a return destination. -/
def returns (d : Opd) : Bool :=
  match d with
  | .v _ _ _ => true
  | .u _ _ _ => true
  | _ => false

/-- An ordered atomic or a fence waits at the word until its thread's queue is empty and, as a release, for its earlier
accesses to be accepted at its scope (R166, R169, R297). -/
def withOrder (s : State) (g : Grp) (ord : Ord) (sc : Scope) (k : State) : State :=
  if ord = .rlx ∨ g.act.isEmpty then k
  else if !(g.sh.sq.isEmpty && g.sh.quiet g.act) then s.put g (waitHere g (.clear (laneMask g.act)) g.sh)
  else if ord = .rel ∨ ord = .ar then withRelease s g (some sc) k
  else k

/-- ATOM (R294 to R297). -/
def execAtom (c : Ctl) (op : Aop) (ord : Ord) (sc : Scope) (d a b : Opd) (x : AtomX) (s : State) : Res :=
  atWord s c fun s g =>
    withSources s g [(1, false, a), (2, false, b), (3, false, atomNewOpd x)] (
      let wide := atomWide64 b x
      let n := if wide then 8 else 4
      let xs := atomAddrs s g d a
      withDevice s g false .atomic n true xs fun s =>
        withOrder s g ord sc (
          if returns d ∧ ¬ xs.isEmpty ∧ g.sh.sqRoom then
            let (fid, s) := s.fresh
            let f : Fill :=
              { id := fid, kind := .atom, dest := d, pc := g.pc, word := s.curWord,
                lanes := xs.map fun y => ⟨y.1, y.2, .ok (.dev 0) true, false, none⟩ }
            queueDevice s g c (.atom (atomOpOf op x wide) fid ord sc) false .atomic n xs
              (fun l => atomVal s g wide b l) (fun l => atomVal s g wide (atomNewOpd x) l)
              ((markEmptyAll g.act false d fid g.sh).addFill f)
          else
            queueDevice s g c (.atom (atomOpOf op x wide) 0 ord sc) false .atomic n xs
              (fun l => atomVal s g wide b l) (fun l => atomVal s g wide (atomNewOpd x) l) g.sh))

/-- RED (R349). -/
def execRed (c : Ctl) (op : Aop) (ord : Ord) (sc : Scope) (ty : Elem) (d a b : Opd) (s : State) : Res :=
  atWord s c fun s g =>
    withSources s g [(1, false, a), (2, false, b)] (
      let wide := atomWide64 b (.ty ty)
      let n := if wide then 8 else 4
      let xs := atomAddrs s g d a
      withDevice s g false .atomic n true xs fun s =>
        withOrder s g ord sc (
          queueDevice s g c (.red (atomOpOf op (.ty ty) wide) ord sc) false .atomic n xs
            (fun l => atomVal s g wide b l) (fun _ => []) g.sh))

/-- ATOML (R294 to R297). -/
def execAtoml (c : Ctl) (op : Aop) (ord : Ord) (sc : Scope) (d a b : Opd) (x : AtomX) (s : State) : Res :=
  atWord s c fun s g =>
    withSources s g [(1, false, a), (2, false, b), (3, false, atomNewOpd x)] (
      let wide := atomWide64 b x
      let n := if wide then 8 else 4
      let xs := atomAddrs s g d a
      withLocal s g false n .atomic .none xs fun al =>
        withOrder s g ord sc (
          if xs.isEmpty then finish s g c g.sh
          else if 255 ≤ g.sh.lcc ∨ ¬ g.sh.sqRoom then s.put g (waitHere g (.room true true) g.sh)
          else
            let (id, s) := s.fresh
            let e : SqEntry :=
              { id := id, kind := .atoml (atomOpOf op x wide) ord sc, counted := true, pc := g.pc, word := s.curWord,
                lanes := xs.map fun y => ⟨y.1, y.2, .ok (al.target y.2) true, false, false,
                  atomVal s g wide b y.1, atomVal s g wide (atomNewOpd x) y.1⟩ }
            finish s g c (g.sh.addSq e)))

/-- FENCE (R166, R171). -/
def execFence (c : Ctl) (ord : Ord) (sc : Scope) (s : State) : Res :=
  atWord s c fun s g =>
    withOrder s g ord sc (
      let s := if (ord = .acq ∨ ord = .ar) ∧ ¬ g.act.isEmpty then s.acquire (wCore g.w) sc else s
      finish s g c g.sh)

/-! ### Barrier objects (R151 to R153, R298) -/

/-- A barrier object. -/
structure BarObj where
  expect : Word
  arrive : Word
  phase : Bool
  auto : Bool
  data : Word
  deriving DecidableEq, Repr

/-- The object that 16 bytes hold (Table 11.5). -/
def BarObj.of (bs : List Byte) : BarObj :=
  let w (o : Nat) : Word := leVal 32 ((bs.drop o).take 4)
  ⟨w 0, w 4, (w 8).getLsbD 0, (w 8).getLsbD 1, w 12⟩

/-- Reads an object at a scratchpad address; bytes of it that an AOUT has still to write are undefined (R128, Table 11.5). -/
def State.barrier (s : State) (c a : Nat) : State × BarObj :=
  let r := s.readPad c a 16
  (r.1, .of r.2)

/-- The 16 bytes of an object. -/
def BarObj.bytes (b : BarObj) : List Byte :=
  leBytes 4 b.expect.toNat ++ leBytes 4 b.arrive.toNat ++
    leBytes 4 ((if b.phase then 1 else 0) + (if b.auto then 2 else 0)) ++ leBytes 4 b.data.toNat

/-- An object as BARI writes it (R152). -/
def BarObj.init (expect : Word) (auto : Bool) : BarObj := ⟨expect, 0#32, false, auto, 0#32⟩

/-- ARRIVE_CHECK (R152): how far ARRIVE falls, whether PHASE flips, and whether any completion happened. With EXPECT = 0 the
phase flips once. -/
def BarObj.check (b : BarObj) : BarObj × Bool :=
  if b.expect = 0#32 then ({ b with arrive := 0#32, phase := !b.phase }, true)
  else
    let n := b.arrive.toNat / b.expect.toNat
    ({ b with arrive := BitVec.ofNat 32 (b.arrive.toNat % b.expect.toNat), phase := if n % 2 = 1 then !b.phase else b.phase },
      decide (n ≠ 0))

/-- The number by which the arrival marks know an agent of a workgroup: its sheet index, or 256 for the front-end thread. -/
def agentKey : Where → Option Nat
  | .sheet _ _ i => some i
  | .front _ _ => some 256
  | .handler _ _ => none

/-- The marks of an agent at an object. -/
def AutoObj.marks (o : AutoObj) (k : Nat) : Lanes := ((o.arrived.find? fun x => x.1 == k).map (·.2)).getD 0#64

/-- Adds marks of an agent. -/
def AutoObj.mark (o : AutoObj) (k : Nat) (m : Lanes) : AutoObj :=
  if o.arrived.any fun x => x.1 == k then
    { o with arrived := o.arrived.map fun x => if x.1 = k then (k, x.2 ||| m) else x }
  else { o with arrived := o.arrived ++ [(k, m)] }

/-- An object's marks after an arrival of an agent: cleared when a phase completed. -/
def AutoObj.note (o : AutoObj) (off : Nat) (done : Bool) (key : Option Nat) (marks : Lanes) : AutoObj :=
  if o.off = off then (if done then { o with arrived := [] } else (key.map fun k => o.mark k marks).getD o) else o

/-- An arrival at an object of an allocation: a sum for ARRIVE and one for DATA, marks, and ARRIVE_CHECK, which clears every
mark when a phase completes (R152, R153, R156). -/
def arriveAt (s : State) (w : Where) (core base off : Nat) (arrivals sum : Word) (marks : Lanes) : State :=
  let (s, b) := s.barrier core (base + off)
  let (b, done) := (BarObj.mk b.expect (b.arrive + arrivals) b.phase b.auto (b.data + sum)).check
  let s := s.storeHome (.spad core (base + off)) b.bytes
  s.modWgOf w fun g => { g with autoexit := g.autoexit.map fun o => o.note off done (agentKey w) marks }

/-- BARI performs: the object is written, and it enters or leaves the workgroup's AUTOEXIT register (R152, R153). -/
def performBari (s : State) (w : Where) (core base off : Nat) (expect : Word) (auto : Bool) : State :=
  let s := s.storeHome (.spad core (base + off)) (BarObj.init expect auto).bytes
  s.modWgOf w fun g =>
    let rest := g.autoexit.filter fun o => o.off != off
    { g with autoexit := if auto then rest ++ [⟨off, []⟩] else rest }

/-- The AUTOEXIT arrivals of ended lanes: 1 for each lane that has not arrived in the phase in which it ends, with its own
ARRIVE_CHECK, at each registered object (R153). -/
def performAuto (s : State) (w : Where) (ls : List Nat) : State :=
  match s.wgOf w, agentKey w with
  | some g, some k =>
    g.autoexit.foldl (fun s o =>
      (ls.filter fun l => !(o.marks k).getLsbD l).foldl (fun s _ => arriveAt s w (wCore w) g.spadBase o.off 1#32 1#32 0#64) s) s
  | _, _ => s

/-- A barrier word's object: the lowest executing lane's address, checked for bounds and 16-byte alignment (R151, R298). -/
def withBarrier (s : State) (g : Grp) (acc : Acc) (a b : Opd) (k : Alloc → DWord → State) : State :=
  match g.act with
  | [] => k ⟨0, 0, 0⟩ 0#64
  | l0 :: _ =>
    let va := ea s g a b l0
    withLocal s g false 16 acc .none [(l0, va)] fun al => k al va

/-- A barrier word's store-queue entry: one lane, the lowest executing one, with the bytes that BARI stores (R298). -/
def queueBarrier (s : State) (g : Grp) (c : Ctl) (kind : SqKind) (al : Alloc) (va : DWord) (bytes : List Byte) : State :=
  if 255 ≤ g.sh.lcc ∨ ¬ g.sh.sqRoom then s.put g (waitHere g (.room true true) g.sh)
  else
    let (id, s) := s.fresh
    finish s g c (g.sh.addSq { id := id, kind := kind, counted := true, pc := g.pc, word := s.curWord,
                               lanes := [⟨g.act.headD 0, va, .ok (al.target va) true, false, false, bytes, []⟩] })

/-- Offsets of AUTOEXIT objects that queued BARIs of a workgroup will register. -/
def Workgroup.autoSoon (g : Workgroup) : List Nat :=
  ((g.front.map Sheet.autoSoon).getD []) ++ g.sheets.flatMap fun sh => (sh.map Sheet.autoSoon).getD []

/-- BARI (R152, R153). An object that a queued BARI will take out of the register counts until that BARI performs (log 46). -/
def execBari (c : Ctl) (_sc : Scope) (auto : Bool) (d a b : Opd) (s : State) : Res :=
  atWord s c fun s g =>
    withSources s g [(0, false, d), (1, false, a), (2, false, b)] (
      withBarrier s g .write a b fun al va =>
        match g.act with
        | [] => finish s g c g.sh
        | l0 :: _ =>
          let e := rd s g false d l0
          let known := match s.wgOf g.w with
            | some wg => ((wg.autoexit.map (fun (o : AutoObj) => o.off) ++ wg.autoSoon).filter fun o => o != va.toNat).eraseDups
            | none => []
          if e = 0#32 ∨ 2 ^ 31 ≤ e.toNat then trap s g .illegal 0 [l0]
          else if auto ∧ 4 ≤ known.length then trap s g .illegal 15 [l0]
          else queueBarrier s g c (.bari e auto) al va (BarObj.init e auto).bytes)

/-- BARA (R152). -/
def execBara (c : Ctl) (_sc : Scope) (d a b : Opd) (s : State) : Res :=
  atWord s c fun s g =>
    withSources s g [(0, false, d), (1, false, a), (2, false, b)] (
      withBarrier s g .atomic a b fun al va =>
        if g.act.isEmpty then finish s g c g.sh
        else
          queueBarrier s g c (.bara (g.act.foldl (fun n l => n + rd s g false d l) 0#32) (laneMask g.act)) al va [])

/-- BARW may read its object: no operation that the sheet has queued on it and no earlier load or ordered atomic of the lanes is left
(R160, R162, R166, R168). -/
def State.objectMay (s : State) (w : Where) (sh : Sheet) (ls : List Nat) (t : Target) (va : DWord) : Bool :=
  !(sh.sq.any fun e => e.lanes.any fun x => !x.done && (match x.offset t va with
    | some o => meets o (max 16 x.bytes.length) 16
    | none => false)) && ls.all fun l => s.loadMay w sh s.nextId l

/-- BARW (R118, R152, R298): lanes whose bit equals PHASE block; the others go on. It reads the object after the sheet's own
queued operations on it and the lanes' earlier loads and ordered atomics (R160, R162, R166, R168). -/
def execBarw (c : Ctl) (_sc : Scope) (d a b : Opd) (s : State) : Res :=
  atWord s c fun s g =>
    withArith s g g.act (
      withSources s g [(0, false, d), (1, false, a), (2, false, b)] (
        withBarrier s g .read a b fun al va =>
          if g.act.isEmpty then finish s g c g.sh
          else
            if !s.objectMay g.w g.sh g.act (al.target va) va then
              s.put g (waitHere g (.object (laneMask g.act) al.core (al.base + va.toNat) va) g.sh)
            else
              let (s, b) := s.barrier al.core (al.base + va.toNat)
              let phase := b.phase
              let on := g.act.filter fun l => (rd s g false d l).getLsbD 0 == phase
              let sh := stepLanes (g.grp.filter fun l => !on.contains l) c.yld g.sh
              s.put g (sh.modLanes on fun t =>
                { t with wait := .blocked (.barw al.core (al.base + va.toNat) phase), slot := none, waited := 0,
                         forced := false, yieldMark := t.yieldMark || c.yld })))

/-! ### MWAIT (R173, R336, R337) -/

/-- Lanes that hit outside this module's device memory. -/
def offModule (s : State) (w : Where) (xs : List (Nat × DWord)) : List Nat :=
  (xs.filter fun x => match s.translate (wCore w) .read x.2 with
    | .ok (.dev _) _ => false
    | .ok _ _ => true
    | _ => false).map (·.1)

/-- MWAIT (R336, R337): the destination is empty and the executing lanes block until their words differ. -/
def execMwait (c : Ctl) (acq : Bool) (sc : Scope) (d a b : Opd) (s : State) : Res :=
  atWord s c fun s g =>
    withSources s g [(1, false, a), (2, false, b)] (
      let wide := decide (opdPart d = .pair)
      let n := if wide then 8 else 4
      let xs := g.act.map fun l => (l, rd64 s g a l)
      withDevice s g false .read n true xs fun s =>
        let off := offModule s g.w xs
        if !off.isEmpty then trapAt s g .perm 1 .read off (addrIn xs)
        else if xs.isEmpty then finish s g c g.sh
        else withRequests s g xs.length (
          let (id, s) := s.fresh
          let cmp := g.act.map fun l => (l, leVal 64 (atomVal s g wide b l))
          let f : Fill :=
            { id := id, kind := .mwait wide cmp acq sc, dest := d, pc := g.pc, word := s.curWord,
              lanes := xs.map fun y => ⟨y.1, y.2, trOf (s.translate (wCore g.w) .read y.2) true, false, none⟩ }
          let ms : List Monitor := cmp.map fun y =>
            { core := wCore g.w, who := g.w, lane := y.1, fill := id, pa := 0, wide := wide, cmp := y.2, armed := false,
              hit := none, acq := acq, sc := sc }
          let sh := blockGroup g (.mwait id) c.yld ((markEmptyAll g.act false d id g.sh).addFill f)
          let s := { s with monitors := s.monitors ++ ms }
          (missFor (s.put g sh) g.w (missesOf s g false .read n (.fill id) xs)).1))

end Sys2Proof.Machine
end

