-- ==== Sys2Proof/Machine/Switch.lean ====
section
/-!
DEFINITION. Saving and restoring threads (R37, R226, R259) and what the core itself does in a change of owner (R233 to R236):
the context block, the hard save and its reload, the wipe, and the starts of the save and restore handlers.
-/

namespace Sys2Proof.Machine

/-! ### Drained threads (R37) -/

/-- Producers that must end before a save: every one but those that wait on an event (R37). -/
def FillKind.mustEnd : FillKind → Bool
  | .dqpop | .tlbq | .mwait _ _ _ _ => false
  | _ => true

/-- A lane whose translation waits for a walk or for the handler of its fault. -/
def Tr.faulted : Tr → Bool
  | .ok _ _ => false
  | _ => true

/-- Only faulted lanes, or lanes behind a load that waits, hold the head of a store queue (R37, R162, R225). -/
def sqHeld (sh : Sheet) : Bool :=
  match sh.sq with
  | [] => true
  | e :: _ => e.lanes.all fun x => x.done || x.tr.faulted || !sh.mayAccept e x.lane

/-- The atomic of a producer waits in the queue. -/
def Sheet.queuedAtom (sh : Sheet) (id : Nat) : Bool :=
  sh.sq.any fun e => match e.kind with
    | .atom _ f _ _ => f == id
    | _ => false

/-- A producer is a GTAKE. -/
def FillKind.takes : FillKind → Bool
  | .gtake _ => true
  | _ => false

/-- Whether a producer may be saved as it stands: it waits on an event, or only faulted lanes are left, lanes behind what waits, and GTAKE's
lanes behind an earlier write of their destination, whose values the save reads (R37, R97). -/
def Sheet.fillQuiet (v : Variant) (sh : Sheet) (f : Fill) : Bool :=
  !f.kind.mustEnd || sh.queuedAtom f.id || f.lanes.all fun x =>
    x.done || x.tr.faulted || sh.behindHeld v f x || (f.kind.takes && !sh.firstInLine f x.lane)

/-- Lanes that wait for something which must end before a save. -/
def Thread.quiet (t : Thread) : Bool :=
  match t.wait with
  | .blocked (.answers _) => false
  | .blocked (.tlbi _ _) => false
  | .blocked .kill => false
  | _ => true

/-- Every producer of a sheet has ended as R37 asks. -/
def Sheet.drained (v : Variant) (sh : Sheet) : Bool :=
  sqHeld sh && sh.fills.all (sh.fillQuiet v) && sh.lanes.all Thread.quiet

/-- A GTAKE that is still pending at a save completes: its entry is in the felt already, whatever of its lane waits before it (R37,
R96). -/
def State.takeDone (w : Where) (s : State) (f : Fill) (x : LaneReq) (srcs : List (Nat × Nat)) : State :=
  match s.sheetAt w, x.tr with
  | some _, .ok t _ =>
    if x.done || x.data.isSome then s
    else
      let r := s.loadBytes (wCore w) t 8
      r.1.modSheet w fun sh => sh.takeLane f x.lane srcs r.2
  | _, _ => s

/-- Every pending GTAKE of a sheet completes. -/
def State.sheetTakes (s : State) (w : Where) : State :=
  match s.sheetAt w with
  | none => s
  | some sh => sh.fills.foldl (fun s f => match f.kind with
      | .gtake srcs => f.lanes.foldl (fun s x => s.takeDone w f x srcs) s
      | _ => s) s

/-- The agents of a workgroup in a slot. -/
def Workgroup.agents (g : Workgroup) (c slot : Nat) : List Where :=
  (if g.front.isSome then [Where.front c slot] else []) ++
    (List.range g.sheets.length).filterMap fun i => if ((g.sheets[i]?).join).isSome then some (.sheet c slot i) else none

/-- Every pending GTAKE of a workgroup completes. -/
def State.takesDone (s : State) (c slot : Nat) : State :=
  match (s.core c).wg slot with
  | some g => (g.agents c slot).foldl State.sheetTakes s
  | none => s

/-- The code states of a workgroup. -/
def Workgroup.codes (g : Workgroup) : List Sheet := g.front.toList ++ g.sheets.filterMap id

/-- No access of an agent is on its way, and no monitor of it has seen its value and not filled. -/
def State.agentsQuiet (s : State) (p : Where → Bool) : Bool :=
  s.flights.all (fun f => !p f.who) && s.engine.all (fun e => !p e.who) && s.monitors.all fun m => !(p m.who && m.hit.isSome)

/-! ### Withdrawal (R226) -/

/-- Whether a handler that runs serves a lane: it stands at the trapped word or waits for the handler's RFH. -/
def servedBy (hs : List HEvent) (w : Where) (l : Nat) : Bool :=
  hs.any fun e => decide (e.who = w) && decide (e.cause ≠ .walk) && (e.grp.getLsbD l || e.fmask.getLsbD l)

/-- A saved thread: without wait count and yield mark (Table 2.8), and without its slot, but for a group that runs on while a switch
pends (R92, R96); a lane that waited for a walk or an event will issue its word again. -/
def Thread.withdrawn (runsOn served arith : Bool) (t : Thread) : Thread :=
  let again : Bool := match t.wait with
    | .trapped | .held | .fetch => !served
    | .stalled _ => true
    | _ => false
  { t with slot := if runsOn && decide (t.wait = .ready) then t.slot else none, waited := 0, forced := false, yieldMark := false, pend := t.pend || (arith && !served),
           wait := if again then .ready else t.wait }

/-- A saved lane's translation is made anew when it is restored, its poison met anew with it; scratchpad and join-counter targets stay. -/
def withdrawTr (keep served done : Bool) (tr : Tr) : Tr :=
  if keep || served || done then tr
  else match tr with
    | .ok (.spad _ _) _ => tr
    | _ => .miss

/-- Whether the lanes of a producer keep their targets. -/
def FillKind.keeps : FillKind → Bool
  | .atom => true
  | _ => false

/-- Whether a queue entry's lane keeps its target. -/
def SqLane.keeps (k : SqKind) (x : SqLane) : Bool :=
  match k with
  | .join => match x.tr with
    | .ok (.host _) _ => true
    | _ => false
  | _ => false

/-- A producer as it is saved. -/
def Fill.withdrawn (hs : List HEvent) (w : Where) (f : Fill) : Fill :=
  { f with lanes := f.lanes.map fun x => { x with tr := withdrawTr f.kind.keeps (servedBy hs w x.lane) x.done x.tr } }

/-- A queue entry as it is saved. -/
def SqEntry.withdrawn (hs : List HEvent) (w : Where) (e : SqEntry) : SqEntry :=
  { e with lanes := e.lanes.map fun x => { x with tr := withdrawTr (x.keeps e.kind) (servedBy hs w x.lane) x.done x.tr } }

/-- Lanes of an agent that have an ARITH trap queued: it is pending again once the event is withdrawn. -/
def arithQueued (qs : List HEvent) (w : Where) : Lanes :=
  (qs.filter fun e => decide (e.who = w) && decide (e.cause = .arith)).foldl (fun m e => m ||| e.fmask) 0#64

/-- A sheet as it is saved: `hs` are the events that running handlers serve, `qs` the queued events that go. -/
def Sheet.withdrawn (hs qs : List HEvent) (w : Where) (sh : Sheet) : Sheet :=
  let m := arithQueued qs w
  let runsOn := match sh.gen with
    | some g => decide (g.body = .switching)
    | none => false
  let sh := sh.bothBodies fun sh =>
    { sh with lanes := sh.lanes.mapIdx fun l t => t.withdrawn runsOn (servedBy hs w l) (m.getLsbD l) }
  { sh with fills := sh.fills.map (Fill.withdrawn hs w), sq := sh.sq.map (SqEntry.withdrawn hs w) }

/-- A workgroup as it is saved from a slot. -/
def Workgroup.withdrawn (hs qs : List HEvent) (c slot : Nat) (g : Workgroup) : Workgroup :=
  { g with front := g.front.map (Sheet.withdrawn hs qs (.front c slot)),
           sheets := g.sheets.mapIdx fun i sh => sh.map (Sheet.withdrawn hs qs (.sheet c slot i)) }

/-- A workgroup as it is restored: its sheets take a new age (R81, Table 4.2). -/
def Workgroup.renewed (age : Nat) (g : Workgroup) : Workgroup :=
  { g with front := g.front.map (fun sh => { sh with age := age }), sheets := g.sheets.map (Option.map fun sh => { sh with age := age }) }

/-- A channel as it is saved: a COPY whose fault nothing serves yet meets it again (R226). -/
def Channel.withdrawn (hs : List HEvent) (ch : Channel) : Channel :=
  { ch with q := ch.q.map fun j => if servedBy hs j.who j.lane then j else { j with held := none } }

/-- The events that the handlers of a core serve. -/
def Core.servedEvents (k : Core) : List HEvent := k.h1.toList.map (·.ev) ++ k.h2.toList.map (·.ev)

/-! ### Reissue at a restore (R226) -/

/-- ACCESS of a queue entry's requests. -/
def SqKind.access : SqKind → Nat
  | .atom _ _ _ _ | .red _ _ _ | .join => 3
  | .cwb => 1
  | _ => 2

/-- The lanes of a sheet whose accesses issue again. -/
def Sheet.openRequests (w : Where) (sh : Sheet) : List MissReq :=
  (sh.fills.flatMap fun f => (f.lanes.filter fun x => !x.done && decide (x.tr = .miss)).map fun x =>
    MissReq.mk w x.lane x.va 1 1 (.fill f.id) f.pc f.word) ++
  sh.sq.flatMap fun e => (e.lanes.filter fun x => !x.done && decide (x.tr = .miss)).map fun x =>
    MissReq.mk w x.lane x.va e.kind.access 1 (.store e.id) e.pc e.word

/-- Monitors of an agent's waits, which compare again (R173). -/
def Sheet.openMonitors (w : Where) (sh : Sheet) : List Monitor :=
  sh.fills.flatMap fun f => match f.kind with
    | .mwait wide cmp acq sc =>
      (cmp.filter fun y => f.lanes.any fun x => x.lane == y.1 && !x.done).map fun y =>
        { core := wCore w, who := w, lane := y.1, fill := f.id, pa := 0, wide := wide, cmp := y.2, armed := false,
          hit := none, acq := acq, sc := sc }
    | _ => []

/-- An agent stands on its core again: its waits arm again, its lanes that wait on masks and members look at their conditions (R71, R72,
R81), and its lanes with fault records issue their accesses. -/
def reissueAgent (s : State) (w : Where) : State :=
  match s.sheetAt w with
  | none => s
  | some sh =>
    let rs := sh.openRequests w
    let s := { s with monitors := s.monitors ++ sh.openMonitors w }
    let s := s.modSheet w fun sh => xSettle s w sh.settle
    if rs.isEmpty then s else reissue s w rs

/-- The agents of a core. -/
def Core.agents (k : Core) (c : Nat) : List Where :=
  ((List.range k.wgs.length).flatMap fun slot => match k.wg slot with
    | some g => g.agents c slot
    | none => []) ++ (if k.h1.isSome then [Where.handler c 1] else []) ++ (if k.h2.isSome then [Where.handler c 2] else [])

/-- Every agent of a core stands again. -/
def reissueCore (s : State) (c : Nat) : State := ((s.core c).agents c).foldl reissueAgent s

/-! ### The context block and the areas (R233 to R235, Tables 16.2 and 16.12) -/

/-- The eight bytes that a context block begins with while it stands for saved state (log 10); never zero. -/
def contextBytes (num : Nat) : List Byte := leBytes 8 (Config.contextWord num ||| 1#64).toNat

/-- H of R211, the size of a hard-save area. -/
def Owner.areaSize (o : Owner) : Nat :=
  (0x200000 + o.spadMax + 1024 * o.accMax + 256 * o.mouldMax + 65535) / 65536 * 65536

/-- The image offsets that an area holds, in its order (R235). -/
def Owner.areaParts (o : Owner) : List (Nat × Nat) :=
  [(0x1C80000, 0x180000), (0x1C00000, 0x80000), (0, o.spadMax), (0x800000, 1024 * o.accMax)] ++
    (List.range 256).map fun n => (0xC00000 + 65536 * n, o.mouldMax)

/-- Where an area begins in the ballast (Table 16.2). -/
def Owner.areaBase (o : Owner) (k : Nat) : Nat := o.bbase + 0x10000 + k * o.areaSize

/-- Writes the parts of a core's image to an area, one after another. -/
def writeArea (c : Nat) : Nat → List (Nat × Nat) → State → State
  | _, [], s => s
  | pa, (a, n) :: rest, s =>
    writeArea c (pa + n) rest (s.storeHome (.dev pa) ((List.range n).map fun i => (s.core c).imageByte (a + i)))

/-- Loads the parts of a core's image from an area. -/
def readArea (c : Nat) : Nat → List (Nat × Nat) → State → State
  | _, [], s => s
  | pa, (a, n) :: rest, s =>
    let s := s.glance (.dev pa) n
    readArea c (pa + n) rest (s.putBytes (.spad c a) (s.bytesAt (.dev pa) n))

/-- The lowest free hard-save area of an owner. -/
def Owner.freeArea (o : Owner) : Option Nat := (List.range o.hsaven).find? fun k => !o.held.contains k

/-! ### The steps of R233 -/

/-- The event of a save or restore handler; it has no faulted group, and runs in lane 0 (log 12). -/
def saveEvent (c : Nat) (now : Nat) : HEvent :=
  { who := .handler c 1, grp := 0#64, cause := .save, slot := 15, access := 0, fmask := 1#64, dmask := 0#64, taddr := 0#64,
    tpc := 0#32, word := 0#96, source := 0#32, launch := 0#32, args := [(0, 0#64, 0#32, 0#32, 0#32)], of := none, left := false, page := [],
    since := now }

/-- Saved state whose image lies in an area, or nowhere. -/
def Saved.inArea (v : Saved) (area : Option Nat) : Saved := { v with hard := area }

/-- What an owner keeps for a core, replaced. -/
def Owner.savesWith (x : Owner) (c : Nat) (v : Option Saved) : SMap Saved :=
  (x.saves.filter fun e => e.1 != c) ++ (v.map fun v => (c, v)).toList

/-- Step 5: the core is wiped, what the owner left is kept for it, a negative quant is its debt (R232), and the core waits
for the next owner. -/
def endSave (s : State) (c next : Nat) (v : Option Saved) (area : Option Nat) : State :=
  let k := s.core c
  let s := match k.owner with
    | none => s
    | some o => s.modOwner o fun x =>
        { x with debts := SMap.set 0 x.debts c (min k.quant 0),
                 held := match area with
                   | some a => x.held ++ [a]
                   | none => x.held,
                 saves := x.savesWith c (v.map fun v => Saved.inArea v area) }
  (s.modCore c fun k => { k.wipe with switch := some (.saved next) })

/-- The hard save (R235): the lowest free area takes the state; with every area held, the launches of the core's workgroups
are cancelled with status SAVEFAIL (Table 16.11). -/
def hardSave (s : State) (c next : Nat) : State :=
  match (s.core c).owner.bind s.owner, (s.core c).saved with
  | some o, some v =>
    match o.freeArea with
    | some a => endSave (writeArea c (o.areaBase a) o.areaParts s) c next (some v) (some a)
    | none => endSave (s.cancelAll v.launches 6) c next none none
  | _, _ => endSave s c next none none

/-- Steps 1 and 2: the owner's threads stop, a loop that was disturbed and is cut leaves its C undefined already (R128), and their state stands in the core image's context block; step 3: the save
handler starts, but for a stalled context, which is hard-saved at once (R231). -/
def beginSave (s : State) (c next : Nat) : State :=
  match (s.core c).owner.bind s.owner with
  | none => s.modCore c fun k => { k.wipe with switch := some (.saved next) }
  | some o =>
    let s := (List.range (s.core c).wgs.length).foldl (fun s slot => spoilSlot ((cutMatrix s c slot).takesDone c slot) c slot) s
    let (num, s) := s.fresh
    let k := s.core c
    let hs := k.servedEvents
    let v : Saved :=
      { num := num, wgs := k.wgs.mapIdx fun slot g => g.map (Workgroup.withdrawn hs k.events c slot),
        h1 := k.h1.map fun h =>
          { h with sheet := h.sheet.withdrawn hs [] (.handler c 1), frozen := h.frozen && (k.stall.isSome || k.h2.isSome) },
        h2 := k.h2.map fun h => { h with sheet := h.sheet.withdrawn hs [] (.handler c 2) },
        mq := k.mq, xq := k.xq,
        channels := k.channels.map (Channel.withdrawn hs),
        bins := k.bins, tags := k.tags, launchQ := k.launchQ, stall := k.stall, hard := none,
        frame := s.bytesAt (.dev (o.frameAt c 1)) 128, frame2 := s.bytesAt (.dev (o.frameAt c 2)) 128 }
    let s := { s with monitors := s.monitors.filter (fun m => m.core != c) }
    let s := s.modCore c fun k =>
      { k with wgs := List.replicate 8 none, h1 := none, h2 := none, misses := [], events := [], channels := List.replicate 16 Channel.reset,
               mq := [], xq := [], bins := [], launchQ := [], stall := none, saved := some v,
               vatImage := k.vat, context := Memory.write [] 0 (contextBytes num),
               switch := some (.saving next) }
    if v.stall.isSome then hardSave s c next else enterHandler s c 1 (saveEvent c s.clock) 5 false none

/-- Steps 6 and 7: the next owner's identity, limits and masks, its image where it was hard-saved, and its restore handler
(R232, R233). -/
def beginRestore (s : State) (c next : Nat) : State :=
  match s.owner next with
  | none => s.modCore c fun k => { k with switch := none }
  | some o =>
    let s := s.modCore c fun k => { k with owner := some next, quant := (o.quantum : Int) + SMap.get 0 o.debts c, switch := some .restoring }
    let s := s.modOwner next fun x => { x with debts := SMap.set 0 x.debts c 0 }
    let area := (o.saves.find? fun e => e.1 == c).bind fun e => e.2.hard
    let s := match area with
      | some a => (readArea c (o.areaBase a) o.areaParts s).modOwner next fun x => { x with held := x.held.filter fun y => y != a }
      | none => s
    enterHandler s c 1 (saveEvent c s.clock) 6 true area

/-- A launch has quires that are not placed. -/
def State.unplaced (s : State) (li : Nat) : Bool := (s.launches[li]?).any fun l => !l.unplaced.isEmpty

/-- Step 8: the owner's sheets, handlers and queues come back from the context block. The channels take their COPYs again and count
on from the wipe (R147), and the launches that were placed meanwhile do not come back (R252). A block left at zero stands for nothing;
one whose integrity word fails cancels the owner's launches on the core (R234). -/
def endRestore (s : State) (c : Nat) : State :=
  match (s.core c).owner.bind s.owner with
  | none => s.modCore c fun k => { k with switch := none }
  | some o =>
    let k := s.core c
    let was := (o.saves.find? fun e => e.1 == c).map (·.2)
    let s := s.modOwner o.id fun x => { x with saves := x.savesWith c none }
    let s := s.modCore c fun k => { k with switch := none, context := [] }
    match was with
    | none => s
    | some v =>
      if k.context = [] then s
      else if k.context = Memory.write [] 0 (contextBytes v.num) then
        let s := s.modCore c fun x =>
          { x with wgs := v.wgs.map (Option.map (Workgroup.renewed s.clock)), h1 := v.h1, h2 := v.h2,
                   channels := List.zipWith (fun new old => { new with q := new.q ++ old.q }) x.channels v.channels, mq := v.mq, xq := v.xq,
                   bins := binsFrom k.vat 0 v.bins, vatImage := SMap.clear k.vat 0 (vatBytes v.bins).length, tags := v.tags,
                   launchQ := v.launchQ.filter s.unplaced, stall := v.stall, acquired := s.nextId }
        let s := if v.h1.isSome then s.storeHome (.dev (o.frameAt c 1)) v.frame else s
        let s := if v.h2.isSome then s.storeHome (.dev (o.frameAt c 2)) v.frame2 else s
        reissueCore s c
      else s.cancelAll v.launches 3

/-- RFH of a save or restore handler (R228, Table 16.7). A COPY of it that still stands in its channel goes with the wipe that ends a save, and
runs on after a restore: R222 does not speak of it (log 58). -/
def returnSave (s : State) (c : Nat) (mode : RfhMode) : State :=
  match (s.core c).switch with
  | some (.saving next) =>
    let s := freeHandler s c 1
    if mode = .fail then hardSave s c next else endSave s c next (s.core c).saved none
  | some .restoring =>
    let s := freeHandler s c 1
    if mode = .fail then
      let ls := match ((s.core c).owner.bind s.owner).bind fun o => o.saves.find? fun e => e.1 == c with
        | some e => e.2.launches
        | none => []
      let s := s.cancelAll ls 3
      match (s.core c).owner with
      | some o => (s.modOwner o fun x => { x with saves := x.savesWith c none }).modCore c fun k =>
          { k with switch := none, context := [] }
      | none => s.modCore c fun k => { k with switch := none }
    else endRestore s c
  | _ => freeHandler s c 1

end Sys2Proof.Machine
end

