-- ==== Sys2Proof/Machine/System.lean ====
section
/-!
DEFINITION. Class 0xE: translations, the return from a handler, software traps, special registers and MEND (R31 to R35,
R188, R209, R213 to R218, R228, R229, R333, R351, R359, R362, R363).
-/

namespace Sys2Proof.Machine

/-! ### TLBW (R215) -/

/-- Whether an attribute word is free of reserved bits and codes (Table 16.5). -/
def atOk (w : Word) : Bool :=
  w.toNat / 1024 == 0 && !w.getLsbD 2 && !w.getLsbD 7 && decide (w.toNat % 4 ≠ 3)

/-- The page size of an attribute word. -/
def atSize (w : Word) : Nat :=
  match w.toNat % 4 with
  | 0 => 0x10000
  | 1 => 0x200000
  | _ => 0x40000000

/-- The entry that a lane installs. -/
def tlbEntry (va pa : DWord) (w : Word) : TlbEntry :=
  { va := va.toNat, pa := pa, size := atSize w, r := w.getLsbD 3, w := w.getLsbD 4, x := w.getLsbD 5, policy := w.getLsbD 6,
    hint := w.extractLsb' 8 2, sizeCode := w.extractLsb' 0 2 }

/-- Whether one valid extent holds a frame and grants what its entry grants (R215). -/
def Extent.grants (x : Extent) (e : TlbEntry) : Bool :=
  x.valid && decide (x.base.toNat ≤ e.pa.toNat) && decide (e.pa.toNat + e.size ≤ x.base.toNat + x.units * 65536) &&
    (!e.r || x.r) && (!e.w || x.w) && (!e.x || x.x)

/-- Two ranges of addresses have one in common. -/
def TlbEntry.overlaps (a b : TlbEntry) : Bool := decide (a.va < b.va + b.size) && decide (b.va < a.va + a.size)

/-- Entries of the second-level TLB (R213). -/
def tlbRoom : Nat := 8192

/-- Installs an entry: overlapping ones go, and where the TLB is full one that the manual does not name is replaced
(R213, R215; log 8). -/
def State.install (s : State) (c : Nat) (e : TlbEntry) : State :=
  let rest := (s.core c).tlb.filter fun x => !x.overlaps e
  if rest.length < tlbRoom then s.modCore c fun k => { k with tlb := rest ++ [e] }
  else { s with free := s.free + 1 }.modCore c fun k =>
    { k with tlb := rest.eraseIdx (Config.tlbVictim s.free % rest.length) ++ [e] }

/-- The first check of R215 that a lane's entry fails. -/
inductive TlbwFail where
  | code | page | frame | bounds
  deriving DecidableEq, Repr

/-- The checks of R215 on one lane's entry, in their order. -/
def tlbwCheck (o : Option Owner) (w : Word) (e : TlbEntry) : Option TlbwFail :=
  let granted : Bool := match o with
    | some o => o.extents.any fun y => y.grants e
    | none => false
  if !atOk w then some .code
  else if decide (2 ^ 48 ≤ e.va) || e.va % e.size != 0 then some .page
  else if e.pa.toNat % e.size != 0 then some .frame
  else if !granted then some .bounds
  else none

/-- TLBW (R215): every check lane by lane, and the first that fails decides, with the lanes that it is the first to fail in; then
the installs in ascending lane order. -/
def execTlbw (c : Ctl) (a b x : Opd) (s : State) : Res :=
  atWord s c fun s g =>
    withSources s g [(1, false, a), (2, false, b), (3, false, x)] (
      let ent (l : Nat) : TlbEntry := tlbEntry (rd64 s g a l) (rd64 s g b l) (rd s g false x l)
      let check (l : Nat) : Option TlbwFail := tlbwCheck (s.ownerOf g.w) (rd s g false x l) (ent l)
      let lanes (f : TlbwFail) : List Nat := g.act.filter fun l => decide (check l = some f)
      match g.act.findSome? fun l => (check l).map fun f => (l, f) with
      | none => finish (g.act.foldl (fun s l => s.install (wCore g.w) (ent l)) s) g c g.sh
      | some (_, .code) => trap s g .illegal 3 (lanes .code)
      | some (_, .page) => trap s g .align 1 (lanes .page)
      | some (_, .frame) => trap s g .align 2 (lanes .frame)
      | some (l, .bounds) => s.boundsEvent (wCore g.w) (rd64 s g a l) (rd64 s g b l))

/-! ### TLBI (R217) -/

/-- The cores of a scope around a core: itself, its quire, its die, or the module. -/
def State.coresIn (s : State) (c : Nat) (sc : Scope) : List Nat :=
  (List.range s.cores.length).filter fun d => match sc with
    | .quire => d / 4 == c / 4
    | .die => coreDie d == coreDie c
    | .dev | .sys => true
    | _ => d == c

/-- The cores of a scope on which an agent's owner is resident. -/
def State.ownCores (s : State) (w : Where) (sc : Scope) : List Nat :=
  (s.coresIn (wCore w) sc).filter fun d => decide ((s.core d).owner = (s.core (wCore w)).owner)

/-- The entries of a core that a TLBI removes. -/
def Core.removed (k : Core) (all : Bool) (vas : List Nat) : List TlbEntry :=
  if all then k.tlb else k.tlb.filter fun e => vas.any e.covers

/-- Removes a TLBI's entries from the cores of its scope; their address ranges. -/
def State.invalidate (s : State) (w : Where) (all : Bool) (sc : Scope) (vas : List Nat) : State × List (Nat × Nat) :=
  let cs := s.ownCores w sc
  let gone := cs.flatMap fun d => ((s.core d).removed all vas).map fun e => (e.va, e.size)
  (cs.foldl (fun s d => s.modCore d fun k =>
    { k with tlb := if all then [] else k.tlb.filter fun e => !vas.any e.covers }) s, gone.eraseDups)

/-- A translated lane that has not performed, at an address of some ranges. -/
def openIn (ranges : List (Nat × Nat)) (va : DWord) (tr : Tr) (done : Bool) : Bool :=
  !done && (match tr with
    | .ok (.spad _ _) _ => false
    | .ok _ _ => ranges.any fun r => decide (r.1 ≤ va.toNat) && decide (va.toNat < r.1 + r.2)
    | _ => false)

/-- Whether a sheet has an access in flight that was translated at an address of some ranges. -/
def Sheet.openAccess (ranges : List (Nat × Nat)) (sh : Sheet) : Bool :=
  sh.fills.any (fun f => f.lanes.any fun x => openIn ranges x.va x.tr x.done) ||
    sh.sq.any fun e => e.lanes.any fun x => openIn ranges x.va x.tr x.done

/-- Every code state on a core. -/
def Core.codes (k : Core) : List Sheet :=
  k.wgs.flatMap (fun g => (g.map Workgroup.codes).getD []) ++ k.h1.toList.map (·.sheet) ++ k.h2.toList.map (·.sheet)

/-- A TLBI may complete: nothing that was translated through a removed entry is left in flight (R217). -/
def State.tlbiDone (s : State) (w : Where) (sc : Scope) (ranges : List (Nat × Nat)) : Bool :=
  ranges.isEmpty || (s.ownCores w sc).all fun d =>
    ((s.core d).codes.all fun sh => !sh.openAccess ranges) && s.flights.all (fun f => f.core != d) && s.engine.all fun e => e.core != d

/-- TLBI (R217): the entries go at once, and the executing lanes wait for what was translated through them. -/
def execTlbi (c : Ctl) (all : Bool) (sc : Scope) (a : Opd) (s : State) : Res :=
  atWord s c fun s g =>
    withSources s g (if all then [] else [(1, false, a)]) (
      if g.act.isEmpty then finish s g c g.sh
      else
        let r := s.invalidate g.w all sc (if all then [] else g.act.map fun l => (rd64 s g a l).toNat)
        if r.1.tlbiDone g.w sc r.2 then finish r.1 g c g.sh
        else r.1.put g (blockGroup g (.tlbi sc r.2) c.yld g.sh))

/-! ### TLBQ (R218) -/

/-- The index of the host extent that holds a frame. -/
def Owner.extentOf (o : Owner) (f : DWord) : Option (Nat × Extent) :=
  ((List.range o.extents.length).filterMap fun i => (o.extents[i]?).map fun x => (i, x)).find? fun x =>
    x.2.valid && decide (x.2.base.toNat ≤ f.toNat) && decide (f.toNat < x.2.base.toNat + x.2.units * 65536)

/-- KIND and the bits below it for the frame of a probed byte. -/
def probeFrame (o : Option Owner) (f : DWord) : Nat :=
  match frameTarget f with
  | .host _ => 2 ^ 52 + (match o.bind fun o => o.extentOf f with
    | some (i, x) => i * 2 ^ 46 + (f.toNat - x.base.toNat) % 2 ^ 44
    | none => 0)
  | .peer m pa => 2 * 2 ^ 52 + m * 2 ^ 46 + pa % 2 ^ 44
  | _ => f.toNat % 2 ^ 44

/-- The probe's result (R218). -/
def State.probe (s : State) (w : Where) (va : DWord) : DWord :=
  match (s.core (wCore w)).tlbFind va.toNat with
  | none => 0#64
  | some e => BitVec.ofNat 64 (2 ^ 63 + e.sizeCode.toNat * 2 ^ 61 + (if e.x then 2 ^ 60 else 0) + (if e.w then 2 ^ 59 else 0) +
      (if e.r then 2 ^ 58 else 0) + (if e.policy then 2 ^ 56 else 0) + e.hint.toNat * 2 ^ 54 +
      probeFrame (s.ownerOf w) (e.frame va.toNat))

/-- TLBQ (R218): the destination is empty until the probe answers. -/
def execTlbq (c : Ctl) (d a : Opd) (s : State) : Res :=
  atWord s c fun s g =>
    withSources s g [(1, false, a)] (
      let ls := performers g.act d
      if ls.isEmpty then finish s g c g.sh
      else
        let (id, s) := s.fresh
        let f : Fill :=
          { id := id, kind := .tlbq, dest := d, pc := g.pc, word := s.curWord,
            lanes := ls.map fun l => ⟨l, rd64 s g a l, .ok (.spad (wCore g.w) 0) true, false, none⟩ }
        finish s g c ((markEmptyAll ls false d id g.sh).addFill f))

/-! ### RFH (R228, R351) -/

/-- Every live lane of the handler sheet stands at the word: in the group, or blocked there. -/
def rfhReady (g : Grp) : Bool :=
  g.sh.liveLanes.all fun l => g.grp.contains l || ((g.sh.lane l).pc == g.pc && (match (g.sh.lane l).wait with
    | .blocked (.rfh _) => true
    | _ => false))

/-- RFH: it waits for the sheet's live lanes, and for the stores that the sheet has queued (log 44), then the event ends as Table 16.7
says; a mode that the cause does not accept traps in the handler. -/
def execRfh (c : Ctl) (mode : RfhMode) (s : State) : Res :=
  atWord s c fun s g =>
    match g.w with
    | .handler co lv =>
      match (s.core co).handler lv with
      | none => s
      | some h =>
        if !modeOk h.ev mode then trap s g .illegal 15 g.act
        else if !rfhReady g then s.put g (blockLanes g (.rfh mode) c.yld g.sh)
        else if !g.sh.sq.isEmpty then s.put g (waitHere g .drained g.sh)
        else if h.ev.cause = .save then returnSave s co mode
        else returnFrom s co lv h mode
    | _ => trap s g .illegal 15 g.act

/-! ### TRAP (R363) -/

/-- TRAP: a SOFT trap of the executing lanes. -/
def execTrap (c : Ctl) (a : Opd) (s : State) : Res :=
  atWord s c fun s g =>
    withSources s g [(1, false, a)] (if g.act.isEmpty then finish s g c g.sh else trap s g .soft 15 g.act)

/-! ### SRD and SWR (R31 to R35, R359, R362) -/

/-- SRD: each lane's value, read at issue; the clock as a pair is read at one instant (R32). -/
def execSrd (c : Ctl) (d a : Opd) (s : State) : Res :=
  atWord s c fun s g =>
    finish s g c (g.act.foldl (fun sh l =>
      wr g.act d l (match a with
        | .sr .pair i => special s g.w g.sh l (i.toNat + 1) ++ special s g.w g.sh l i.toNat
        | .sr _ i => (special s g.w g.sh l i.toNat).setWidth 64
        | _ => 0#64) sh) g.sh)

/-- Who may write a special register (Table 2.3). -/
def swrAllowed (i : Nat) (w : Where) : Bool :=
  match w with
  | .front _ _ => [0x8C, 0x8D, 0x8E, 0x8F, 0x9C, 0x9D, 0x9E].contains i
  | .sheet _ _ _ => [0x8C, 0x8D, 0x8E].contains i
  | .handler _ _ => [0x8C, 0x8D, 0x8E, 0x9C, 0x9D, 0x9E].contains i

/-- Whether a value has neither a reserved bit nor a reserved code (Tables 2.3 to 2.6). -/
def swrValueOk (i : Nat) (x : Word) : Bool :=
  match i with
  | 0x8C => x.toNat / 16 == 0 && decide (x.toNat % 8 < 5)
  | 0x8D | 0x8E => x.toNat / 128 == 0
  | 0x9C | 0x9D => x.extractLsb' 28 3 == 0#3 && x.extractLsb' 8 16 == 0#16
  | 0x9E => x.extractLsb' 28 3 == 0#3 && x.extractLsb' 5 19 == 0#19
  | _ => true

/-- Writes a thread's own register. -/
def Thread.setSpecial (t : Thread) (i : Nat) (x : Word) : Thread :=
  match i with
  | 0x8C => { t with rm := x }
  | 0x8D => { t with astat := x }
  | _ => { t with aen := x }

/-- ftime as SWR writes it (R33). -/
def clampFtime (x : Word) : Nat := max 16 (min 65535 x.toNat)

/-- A sheet's groups are forced by a wait count against ftime (R68). -/
def Sheet.force (promise : Bool) (ftime : Nat) (sh : Sheet) : Sheet :=
  { sh with lanes := sh.lanes.map fun t => { t with forced := promise && decide (ftime < t.waited) } }

/-- A workgroup with a new ftime, which decides at the next selection which groups are forced (R33, R68). -/
def Workgroup.setFtime (g : Workgroup) (n : Nat) : Workgroup :=
  { g with ftime := n, sheets := g.sheets.map (Option.map (Sheet.force g.promise n)) }

/-- Selects a window in a hash register. -/
def Owner.select (o : Owner) (i : Nat) (win : BitVec 4) : Owner :=
  match i with
  | 0x9C => { o with selA := win }
  | 0x9D => { o with selB := win }
  | _ => { o with selC := win }

/-- Sets the mask of a window. -/
def Window.setMask (w : Window) (i : Nat) (m : BitVec 8) : Window :=
  match i with
  | 0x9C => { w with hashA := m }
  | 0x9D => { w with hashB := m }
  | _ => { w with hashC := m.setWidth 5 }

/-- Every row of a window dies (R188): the window's rows in its stack, or in each stack where it is interleaved. -/
def State.killWindow (s : State) (w : Window) : State :=
  let ids := if w.interleaved then List.range s.variant.stackCount else [w.stack]
  ids.foldl (fun s st => s.killRows (rowKey st w.row 0 0) (w.rows * 8192)) s

/-- Every row of a window that goes is wiped (R200). -/
def State.wipeWindow (s : State) (w : Window) : State :=
  let ids := if w.interleaved then List.range s.variant.stackCount else [w.stack]
  ids.foldl (fun s st => s.wipeRows (rowKey st w.row 0 0) (w.rows * 8192)) s

/-- Whether an index names a window of the owner. -/
def Owner.window (o : Owner) (win : BitVec 4) : Option Window :=
  (o.windows[win.toNat]?).bind fun w => if w.valid then some w else none

/-- SWR to a window register (R35, R188, R189): a selection, or a new mask, which kills the window and makes the lanes wait
for the kill (R209). -/
def swrMask (s : State) (g : Grp) (c : Ctl) (i : Nat) (x : Word) (l : Nat) : State :=
  match s.ownerOf g.w with
  | none => finish s g c g.sh
  | some o =>
    let win := x.extractLsb' 24 4
    match o.window win with
    | none => trap s g .illegal 1 [l]
    | some w =>
      if x.getLsbD 31 then finish (s.modOwner o.id fun o => o.select i win) g c g.sh
      else if w.shared then trap s g .perm 0 [l]
      else if !s.released g.w g.sh g.act .dev then s.put g (waitHere g (.release (laneMask g.act) .dev) g.sh)
      else
        let s := s.killWindow w
        let s := s.modOwner o.id fun o =>
          { o.select i win with windows := o.windows.modify win.toNat fun w => w.setMask i (x.extractLsb' 0 8) }
        s.put g (blockGroup g .kill c.yld g.sh)

/-- SWR (R31 to R35, R362): the per-thread registers in each executing lane, every other once from the lowest. -/
def execSwr (c : Ctl) (d a : Opd) (s : State) : Res :=
  atWord s c fun s g =>
    match d with
    | .sr _ i =>
      let i := i.toNat
      withSources s g [(1, false, a)] (
        if g.act.isEmpty then finish s g c g.sh
        else if !swrAllowed i g.w then trap s g .perm 0 g.act
        else if [0x8C, 0x8D, 0x8E].contains i then
          let bad := g.act.filter fun l => !swrValueOk i (rd s g false a l)
          if !bad.isEmpty then trap s g .illegal 1 bad
          else finish s g c (g.act.foldl (fun sh l => sh.modLane l fun t => t.setSpecial i (rd s g false a l)) g.sh)
        else
          let l := g.act.headD 0
          let x := rd s g false a l
          if !swrValueOk i x then trap s g .illegal 1 [l]
          else if i = 0x8F then (finish s g c g.sh).modWgOf g.w fun wg => wg.setFtime (clampFtime x)
          else swrMask s g c i x l)
    | _ => finish s g c g.sh

/-! ### MEND (R229, R333) -/

/-- Whether a word's load is of four registers. -/
def mendQuad (s : State) (e : HEvent) : Bool :=
  match e.of with
  | some (.fill id) => match s.sheetAt e.who with
    | some sh => ((sh.fills.find? fun f => f.id == id).map Fill.quad).getD false
    | none => false
  | _ => false

/-- The words of a MEND value: raw bits, an immediate sign-extended to the destination's width. -/
def mendWords (s : State) (g : Grp) (pair : Bool) (a : Opd) (l : Nat) : List Word :=
  if pair then wordsOf (rd64 s g a l) else [rd s g false a l]

/-- The producer whose destination an event's lanes still owe. -/
def mendFill (s : State) (e : HEvent) : Option Nat :=
  match e.of with
  | some (.fill id) => some id
  | some (.store id) =>
    ((s.sheetAt e.who).bind fun sh => sh.sq.find? fun x => x.id == id).bind fun x => match x.kind with
      | .atom _ f _ _ => some f
      | _ => none
  | _ => none

/-- A register of a destination waits in a lane for the data of a producer. -/
def Sheet.owes (sh : Sheet) (d : Opd) (l id : Nat) : Bool :=
  (spanRegs false d).any fun r => (sh.reg l r).pend.any fun e => e.id == id && e.got.isNone

/-- A MEND value fills the trapped word's destination in a lane: as the data of the producer that it stands for, while the destination waits
for that, or else as a write: without a producer, in a lane that is mended already, or where another lane has filled a W register. -/
def mendLane (s : State) (e : HEvent) (again : Bool) (d : Opd) (act : List Nat) (l : Nat) (ws : List Word) : State :=
  s.modSheet e.who fun sh =>
    (match (if again then none else (mendFill s e).filter (sh.owes d l)) with
      | some id => fillOpd act false d id l ws sh
      | none => wr act d l (leVal 64 (ws.flatMap fun (w : Word) => leBytes 4 w.toNat)) sh).wake

/-- FD of a trapped word as a destination: of a register its index, PART and EW, whatever stands in its reserved bits (R333). -/
def mendField (f : BitVec 16) : Option Opd := parseOpd (if f.getLsbD 15 then f else f &&& 0xF8FF#16)

/-- MEND (R229, R333). -/
def execMend (c : Ctl) (a : Opd) (s : State) : Res :=
  atWord s c fun s g =>
    match g.w with
    | .handler co lv =>
      match (s.core co).handler lv with
      | none => s
      | some h =>
        let ok : Bool := match h.ev.cause with
          | .extemu => true
          | .poison => h.mendRight
          | _ => false
        let d := mendField (fFd h.ev.word)
        if !ok then trapActive s g c .perm 15
        else
          match d with
          | some d =>
            let reg : Bool := match d with
              | .v _ _ _ => true
              | .u _ _ _ => true
              | _ => false
            let pair := decide (opdPart d = .pair)
            let partOk : Bool := match a with
              | .v _ p _ => decide (p = .pair) == pair
              | .u _ p _ => decide (p = .pair) == pair
              | _ => true
            if !reg || mendQuad s h.ev || !partOk then trapActive s g c .illegal 1
            else
              withSources s g [(1, false, a)] (
                let ls := performers g.act d
                let s := ls.foldl (fun s l => mendLane s h.ev (h.mended.getLsbD l) d g.act l (mendWords s g pair a l)) s
                let s := s.modCore co fun k => k.modHandler lv fun h => { h with mended := h.mended ||| laneMask g.act }
                finish s g c g.sh)
          | none => trapActive s g c .illegal 1
    | _ => trapActive s g c .perm 15

end Sys2Proof.Machine
end

