-- ==== Sys2Proof/Machine/Answer.lean ====
section
/-!
DEFINITION. Loads in flight: a bank's answer to a lane, and the arrival of a device-memory lane's data (R140, R145, R146,
R149, R160 to R168, R203 to R205, R218, R237, R330, R331).
-/

namespace Sys2Proof.Machine

/-- A lane of a sheet is live, in the running body or among the frozen lanes of a generator (R92). -/
def Sheet.alive (sh : Sheet) (l : Nat) : Bool :=
  (sh.lane l).live || (match sh.gen with
    | some g => ((g.frozen.find? fun x => x.1 == l).map fun x => x.2.live).getD false
    | none => false)

/-- A producer with a lane of it that is not done. -/
def Sheet.openFill (sh : Sheet) (id l : Nat) : Option (Fill × LaneReq) :=
  (sh.fills.find? fun f => f.id == id).bind fun f => (f.lanes.find? fun x => x.lane == l && !x.done).map fun x => (f, x)

/-- A lane of a producer is done with a result. -/
def fillAt (s : State) (w : Where) (f : Fill) (l : Nat) (ws : List Word) : State := s.modSheet w fun sh => sh.fillLane f l ws

/-- A load lane of the scratchpad performs: from its own queue, or at its bank once it need not wait for its own queued
stores (R162, R164). -/
def bankLoad (s : State) (w : Where) (sh : Sheet) (f : Fill) (x : LaneReq) (n : Nat) (ws : List Byte → List Word) : State :=
  match x.tr with
  | .ok t _ =>
    match sh.forward s.variant f.id x.lane t x.va n with
    | .wait => s
    | .bytes bs => fillAt s w f x.lane (ws bs)
    | .pass =>
      let r := s.loadBytes (wCore w) t n
      fillAt r.1 w f x.lane (ws r.2)
  | _ => s

/-- Two scratchpad lanes touch one 16-byte granule (R140). -/
def Tr.sameGranule : Tr → Tr → Bool
  | .ok (.spad c a) _, .ok (.spad d b) _ => c == d && a / 16 == b / 16
  | _, _ => false

/-- The lanes of an LDL that share the bank request of one of its lanes: those that touch its granule and go to the bank (R140). -/
def Fill.sharing (s : State) (w : Where) (sh : Sheet) (f : Fill) (x : LaneReq) (n : Nat) : List LaneReq :=
  f.lanes.filter fun y => !y.done && y.lane != x.lane && sh.alive y.lane && x.tr.sameGranule y.tr && s.loadMay w sh f.id y.lane &&
    (match y.tr with
      | .ok t _ => decide (sh.forward s.variant f.id y.lane t y.va n = .pass)
      | _ => false)

/-- A lane of an LDL performs, and its bank's data goes to every lane that shares its request (R140). -/
def ldlLoad (s : State) (w : Where) (sh : Sheet) (f : Fill) (x : LaneReq) (sz : Size) : State :=
  let n := sizeBytes sz
  let one (s : State) (y : LaneReq) : State := bankLoad s w sh f y n (loadWords sz)
  match x.tr with
  | .ok t _ =>
    if sh.forward s.variant f.id x.lane t x.va n = .pass then (f.sharing s w sh x n).foldl one (one s x) else one s x
  | _ => s

/-- A DQPOP's entry reaches its destination in a lane; a W register takes it once, for every lane of the DQPOP (R18, R22). -/
def Sheet.takeDecision (sh : Sheet) (f : Fill) (l : Nat) (ws : List Word) : Sheet :=
  match f.dest with
  | .u _ _ _ =>
    (sh.modFill f.id fun y => { y with lanes := y.lanes.map fun x => { x with done := true } }).fillLane f (f.act.headD 0) ws
  | _ => sh.fillLane f l ws

/-- P of a channel of a core, as RDWP reads it (R149). -/
def Core.writePtr (k : Core) (ch : Nat) : DWord := ((k.channels[ch]?).map (·.p)).getD 0#64

/-- A GTAKE's lane reads its entry and fills, and gsrc changes with it (R97). -/
def gtakeAnswer (s : State) (w : Where) (sh : Sheet) (f : Fill) (x : LaneReq) (srcs : List (Nat × Nat)) : State :=
  if !sh.firstInLine f x.lane then s
  else (bankLoad s w sh f x 8 fun bs => wordsOf (leVal 64 bs)).modSheet w fun sh =>
    if (sh.openFill f.id x.lane).isNone then sh.setSource x.lane srcs else sh

/-- The answer of one lane of a producer that its own core serves. -/
def bankAnswer (s : State) (w : Where) (sh : Sheet) (f : Fill) (x : LaneReq) : State :=
  match f.kind with
  | .tlbq => fillAt s w f x.lane (wordsOf (s.probe w x.va))
  | .dqpop => match x.data with
    | some bs => s.modSheet w fun sh => sh.takeDecision f x.lane (wordsOf (leVal 64 bs))
    | none => s
  | .gtake srcs => match x.data with
    | some bs => s.modSheet w fun sh => sh.takeLane f x.lane srcs bs
    | none => if s.loadMay w sh f.id x.lane then gtakeAnswer s w sh f x srcs else s
  | k =>
    if !s.loadMay w sh f.id x.lane then s
    else
      match k with
      | .ldl sz => ldlLoad s w sh f x sz
      | .tagl => match s.wgOf w with
        | some g => fillAt s w f x.lane [(s.core (wCore w)).tagLookup g x.va]
        | none => s
      | .rdwp ch core =>
        (fillAt s w f x.lane (wordsOf ((s.core core).writePtr ch))).acquire (wCore w) .quire
      | _ => s

/-- BANK_ANSWER: the scratchpad, the tag table, the TLBs, a quire member's channel or the decision queue answers one lane. The
answer to a lane that has ended is discarded (R316). -/
def execBankAnswer (w : Where) (id lane : Nat) (s : State) : Res :=
  .next (match s.sheetAt w with
    | none => s
    | some sh =>
      match sh.openFill id lane with
      | none => s
      | some (f, x) =>
        match f.kind with
        | .ldl _ | .gtake _ | .tagl | .rdwp _ _ | .dqpop | .tlbq =>
          if sh.alive lane then bankAnswer s w sh f x else s.modSheet w fun sh => sh.dropLane f lane
        | _ => s)

/-! ### LOAD_FILL (R330, R331) -/

/-- Whether a request stands in the miss table. -/
def Core.hasRequest (k : Core) (w : Where) (of : ReqOf) (l : Nat) : Bool :=
  k.misses.any fun m => m.reqs.any fun r => decide (r.who = w) && decide (r.of = of) && r.lane == l

/-- Lanes of an instruction whose miss has found no room in the table, in lane order (R224, R240). -/
def leftOut (s : State) (w : Where) (sh : Sheet) (of : ReqOf) : List MissReq :=
  (sh.openRequests w).filter fun r => decide (r.of = of) && !(s.core (wCore w)).hasRequest w of r.lane

/-- A lane that found the miss table full tries again, once the lower lanes of its instruction have joined (R224, R240). -/
def rejoin (s : State) (r : MissReq) : State :=
  let first := ((s.sheetAt r.who).bind fun sh => (leftOut s r.who sh r.of).head?.map fun x => x.lane == r.lane).getD false
  if !first then s
  else match r.who with
    | .handler c _ => if (s.core c).stall.isSome then s else reissue s r.who [r]
    | _ => reissue s r.who [r]

/-- Another lane of the instruction has taken the charge of a sector (R237). -/
def sectorTaken (xs : List (Nat × Bool × Tr)) (l : Nat) (t : Target) : Bool :=
  xs.any fun x => x.1 != l && x.2.1 && (match x.2.2 with
    | .ok u _ => u.charged && decide (u.sector = t.sector)
    | _ => false)

/-- Lanes of a fill, for the sector charge: those that are done have made their request, but for the ones that the queue served or
that ended without a result. -/
def Fill.sectors (f : Fill) : List (Nat × Bool × Tr) := f.lanes.map fun x => (x.lane, x.done && x.data.isNone, x.tr)

/-- The lanes of a load that consume poison with `n` bytes: those alive and at their performance points whose request must go to the home,
not served by their queue or the L1 (R164, R205, R331). -/
def poisonedLanes (s : State) (w : Where) (sh : Sheet) (f : Fill) (n : Nat) : List (Nat × DWord × Target) :=
  f.lanes.filterMap fun x => match x.tr with
    | .ok (.dev pa) around =>
      let t := Target.dev pa
      if !x.done && sh.alive x.lane && s.loadMay w sh f.id x.lane && decide (sh.forward s.variant f.id x.lane t x.va n = .pass) &&
          !s.engineHolds t n && (around || !(s.core (wCore w)).l1Has pa) && s.poisonFor (wCore w) t n then some (x.lane, x.va, t)
      else none
    | _ => none

/-- Lanes consume poison with `n` bytes, those whose requests may leave: their event joins the queue, if it has room (R205, R220, R232). -/
def consumePoison (s : State) (w : Where) (of : ReqOf) (acc : Nat) (line : Bool) (paid : Nat → Target → Bool) (n : Nat)
    (lanes : List (Nat × DWord × Target)) (pc : Word) (word : IWord) : State :=
  let r := s.poisonGo w line paid lanes
  if (s.core (wCore w)).eventRoom && !r.2.isEmpty then
    lateFault (r.2.foldl (fun s x => s.consume (s.ownerId w) x.2.2 n) r.1) w of .poison 1 acc (r.2.map fun x => (x.1, x.2.1)) pc word true
  else s

/-- The acquire of an ordered load takes effect with each lane (R168). -/
def ldAcquire (s : State) (c : Nat) (acc : Access) : State :=
  match acc with
  | .ordered sc => s.acquire c sc
  | _ => s

/-- The TLB entry of an address gives its accesses the latency class F (Table 16.5). -/
def Core.hintF (k : Core) (va : DWord) : Bool := ((k.tlbFind va.toNat).map fun e => e.hint == 3#2).getD false

/-- A load lane of an agent is an L1 miss of class F that may go to its home now. -/
def firstMiss (s : State) (w : Where) (sh : Sheet) (f : Fill) (x : LaneReq) : Bool :=
  match f.kind, x.tr with
  | .ld sz _, .ok (.dev pa) false =>
    let t := Target.dev pa
    let n := sizeBytes sz
    !x.done && (s.core (wCore w)).hintF x.va && !(s.core (wCore w)).l1Has pa && sh.alive x.lane && s.loadMay w sh f.id x.lane &&
      decide (sh.forward s.variant f.id x.lane t x.va n = .pass) && !s.engineHolds t n && !s.poisonFor (wCore w) t n && s.mayRequest w t
  | _, _ => false

/-- Of the outstanding L1 misses of a core those of class F go first (R331). -/
def State.firstMisses (s : State) (c : Nat) : Bool :=
  ((s.core c).agents c).any fun w => ((s.sheetAt w).map fun sh => sh.fills.any fun f => f.lanes.any (firstMiss s w sh f)).getD false

/-- What a thread has accessed around the L1 its later loads do not find older there: the core's L1 drops the line (R160). -/
def State.dropLine (s : State) (c : Nat) (t : Target) : State :=
  match t with
  | .dev pa => s.modCore c fun k => k.l1Drop pa
  | _ => s

/-- A load lane reads at its home, as a line fill into the L1 or a sector read around it, with its charge (R237, R331, R369). -/
def readHome (s : State) (w : Where) (sz : Size) (acc : Access) (f : Fill) (x : LaneReq) (t : Target) (around : Bool) : State :=
  let o := s.ownerId w
  if t.charged && !s.mayRequest w t || (!around && !(s.core (wCore w)).hintF x.va && s.firstMisses (wCore w)) then s
  else
    let s := s.readIn o t (sizeBytes sz)
    let bs := s.coreBytes (wCore w) t (sizeBytes sz)
    let s := if around then (if sectorTaken f.sectors x.lane t then s else s.charge o t 32).dropLine (wCore w) t
      else match t with
        | .dev pa => (s.charge o t 128).fillLine (wCore w) pa
        | _ => s
    ldAcquire (fillAt s w f x.lane (loadWords sz bs)) (wCore w) acc

/-- A lane of a load takes its bytes from its own queue, and makes no request (R164). -/
def Sheet.served (id l : Nat) (bs : List Byte) (sh : Sheet) : Sheet :=
  sh.modFill id fun f => f.modLane l fun y => { y with data := some bs }

/-- A load lane performs at a target: from its own queue, from the L1, or at its home. -/
def deviceLoad (s : State) (w : Where) (sh : Sheet) (sz : Size) (acc : Access) (f : Fill) (x : LaneReq) (t : Target)
    (around fromL1 : Bool) : State :=
  let n := sizeBytes sz
  match sh.forward s.variant f.id x.lane t x.va n with
  | .wait => s
  | .bytes bs => ldAcquire (fillAt (s.modSheet w (Sheet.served f.id x.lane bs)) w f x.lane (loadWords sz bs)) (wCore w) acc
  | .pass =>
      match t, fromL1 with
      | .dev pa, true =>
        if !around && (s.core (wCore w)).l1Has pa && !s.engineBusy (wCore w) t n then
          ldAcquire (fillAt s w f x.lane (loadWords sz ((s.core (wCore w)).l1Bytes pa n))) (wCore w) acc
        else s
      | _, true => s
      | _, false =>
        if s.engineHolds t n then s
        else if s.poisonFor (wCore w) t n then
          consumePoison s w (.fill f.id) 1 (!around) (fun l u => around && sectorTaken f.sectors l u) n (poisonedLanes s w sh f n) f.pc f.word
        else readHome s w sz acc f x t around

/-- LOAD_FILL: a device-memory load lane's data arrives, from the core's L1 (`fromL1`) or from the home. -/
def execLoadFill (w : Where) (id lane : Nat) (fromL1 : Bool) (s : State) : Res :=
  .next (match s.sheetAt w with
    | none => s
    | some sh =>
      match sh.openFill id lane with
      | none => s
      | some (f, x) =>
        match f.kind with
        | .ld sz acc =>
          if !sh.alive lane then s.modSheet w fun sh => sh.dropLane f lane
          else match x.tr with
            | .miss => rejoin s ⟨w, lane, x.va, 1, 1, .fill id, f.pc, f.word⟩
            | .held _ => s
            | .ok t around => if s.loadMay w sh id lane then deviceLoad s w sh sz acc f x t around fromL1 else s
        | _ => s)

end Sys2Proof.Machine
end

