-- ==== Sys2Proof/Machine/Work.lean ====
section
/-!
DEFINITION. Launches (R245, R250, R251), and of class 0xD CANCEL and CNTW (R253 to R257).
-/

namespace Sys2Proof.Machine

/-! ### The LAUNCH packet (Table 18.3) -/

/-- A field of `n` bytes of a packet. -/
def pktField (bs : List Byte) (off n : Nat) : Nat := leNat ((bs.drop off).take n)

/-- Lanes of a width code. -/
def widthOf (code : Nat) : Nat :=
  match code with
  | 0 => 16
  | 1 => 32
  | _ => 64

/-- log2 of a slot size code of R145. -/
def slotLogOf (code : Nat) : Nat :=
  match code with
  | 0 => 9
  | 1 => 11
  | _ => 13

/-- The fields of a LAUNCH packet. -/
def launchFields (bs : List Byte) : LaunchPkt :=
  let f := pktField bs
  let shape := f 0x1A 2
  let dflt (x d : Nat) : Nat := if x = 0 then d else x
  { launchId := BitVec.ofNat 32 (f 4 4), code := BitVec.ofNat 64 (f 8 8), sentry := f 0x10 2, fentry := f 0x12 2,
    gridX := f 0x14 2, gridY := f 0x16 2, gridZ := f 0x18 2, width := widthOf (shape / 16384), qn := shape / 4096 % 4 + 1,
    sheets := shape % 32, regs := f 0x1C 1 * 8, slotLog := slotLogOf (f 0x1D 1 % 4), tagSets := f 0x1E 2, spad := f 0x20 4,
    ftime := dflt (f 0x24 2) 256, bint := dflt (f 0x26 2) 512, acc := f 0x28 2, mould := f 0x2A 2,
    watchdog := dflt (f 0x2C 4) 1000000, arg := BitVec.ofNat 64 (f 0x30 8), graph := f 0x38 2, phase := f 0x3A 2,
    job := f 0x3C 2, noPromise := f 0x3E 2 % 2 == 1, serial := f 0x3E 2 / 2 % 2 == 1 }

/-- Workgroups of a launch. -/
def LaunchPkt.units (p : LaunchPkt) : Nat := p.gridX * p.gridY * p.gridZ

/-- Whether a number is 0 or a power of two up to 512. -/
def tagSetsOk (n : Nat) : Bool := n == 0 || (List.range 10).any fun k => n == 2 ^ k

/-- The limits of Table 18.3; a packet outside them is a BADPACKET (R244). -/
def launchOk (bs : List Byte) : Bool :=
  let f := pktField bs
  let p := launchFields bs
  let shape := f 0x1A 2
  f 0 4 == 1 && f 4 4 != 0 && f 8 8 % 64 == 0 && decide (1 ≤ p.gridX ∧ 1 ≤ p.gridY ∧ 1 ≤ p.gridZ) && p.units % p.qn == 0 &&
    decide (shape / 16384 < 3) && shape / 32 % 128 == 0 && decide (p.sheets ≤ 16) && decide (1 ≤ f 0x1C 1 ∧ f 0x1C 1 ≤ 32) &&
    decide (f 0x1D 1 < 3) && tagSetsOk p.tagSets && p.spad % 8192 == 0 && decide (8192 ≤ p.spad ∧ p.spad ≤ 2 ^ 23) &&
    (f 0x24 2 == 0 || decide (16 ≤ f 0x24 2)) && decide (p.acc ≤ 3072) && decide (p.mould ≤ 256) && decide (f 0x3E 2 < 4)

/-- Most sheets of a width and register count in a quadrant (R26). -/
def quadLimit (width c : Nat) : Nat :=
  min 32 (if width = 16 then 2 * (2016 / c) else if width = 32 then 2016 / c else 1008 / c)

/-- The status that a launch gets when it is parsed, for an owner (R244, R251). One that is both NOFIT and LIMIT is NOFIT, which no rule says
(log 59). -/
def launchStatus (o : Owner) (bs : List Byte) : Nat :=
  let p := launchFields bs
  if ¬ launchOk bs then 0x0A
  else if quadLimit p.width p.regs < (p.sheets + 3) / 4 then 7
  else if o.spadMax < p.spad ∨ o.accMax < p.acc ∨ o.mouldMax < 256 * p.mould then 8
  else 0

/-- A new launch is recorded and counted, with its quires to be placed (R245, R253). -/
def State.createLaunch (s : State) (o : Nat) (p : LaunchPkt) (queue : Option Nat) (index die : Nat) : State × Nat :=
  let l : Launch :=
    { owner := o, pkt := p, queue := queue, index := index, die := die, unplaced := List.range (p.units / p.qn), units := p.units,
      status := 0, sticky := false, ended := false, elapsed := 0 }
  let s' := p.levels.foldl (fun s x => s.countUp o x.1 x.2 die) { s with launches := s.launches ++ [l] }
  (s', s.launches.length)

/-! ### Levels (R254, R255) -/

/-- An agent's own launch. -/
def State.ownLaunch (s : State) (w : Where) : Option (Nat × Launch) :=
  (s.wgOf w).bind fun g => (s.launches[g.launch]?).map fun l => (g.launch, l)

/-- The id of a named level: 0 means the issuer's own. -/
def levelId (own : Option (Nat × Launch)) (lv : Level) (id : Nat) : Nat :=
  if id ≠ 0 then id
  else
    match own, lv with
    | some x, .graph => x.2.pkt.graph
    | some x, .phase => x.2.pkt.phase
    | some x, .job => x.2.pkt.job
    | _, _ => 0

/-- The id that a launch's packet gives at a level. -/
def LaunchPkt.idAt (p : LaunchPkt) : Level → Nat
  | .graph => p.graph
  | .phase => p.phase
  | .job => p.job
  | _ => p.launchId.toNat

/-- Launches of an owner that a level and id name. -/
def State.named (s : State) (own : Option (Nat × Launch)) (o : Nat) (lv : Level) (id : Nat) : List Nat :=
  match lv, own with
  | .launch, some x => if id = 0 then [x.1] else
      (List.range s.launches.length).filter fun i => (s.launches[i]?).any fun l => l.owner == o && l.pkt.launchId.toNat == id
  | .launch, none =>
      (List.range s.launches.length).filter fun i => (s.launches[i]?).any fun l => l.owner == o && l.pkt.launchId.toNat == id && id != 0
  | .unit, _ => []
  | lv, own =>
      let id := levelId own lv id
      (List.range s.launches.length).filter fun i => (s.launches[i]?).any fun l => l.owner == o && id != 0 && l.pkt.idAt lv == id

/-! ### CANCEL (R255, R256) -/

/-- The resident workgroup of a slot ends with a status, without its unit's release; with the last of its quire the completed members
leave too (R62). -/
def State.cancelUnit (s : State) (c slot st : Nat) : State :=
  match (s.core c).wg slot with
  | none => s
  | some g =>
    let s := (s.evictWg c slot).freeQuire c g
    (s.modCore c fun k => { k with bins := k.bins.filter fun b => !(b.launch == g.launch && b.flat == g.flat) }).endUnit g.launch g.flat st

/-- What CANCEL ends. -/
def cancelLevel (s : State) (w : Where) (lv : Level) (id : Nat) : State :=
  match lv with
  | .unit => if id = 0 then (match wSlot w with
      | some slot => s.cancelUnit (wCore w) slot 1
      | none => s) else s
  | lv => s.cancelAll (s.named (s.ownLaunch w) (s.ownerId w) lv id) 1

/-- Whether a level and id name a record (R255). -/
def cancelNames (s : State) (w : Where) (lv : Level) (id : Nat) : Bool :=
  match lv with
  | .unit => id == 0
  | lv => !(s.named (s.ownLaunch w) (s.ownerId w) lv id).isEmpty

/-- Writes that stopped agents of an owner had accepted before a number are still on their way (R182, R255). -/
def State.landing (s : State) (o before : Nat) : Bool :=
  s.flights.any (fun f => decide (f.who = ghost f.core) && f.owner == o && decide (f.seq < before)) ||
    s.engine.any fun e => decide (e.who = ghost e.core) && e.owner == o && decide (e.seq < before)

/-- CANCEL: an acquire at .dev once it is done and every write of the level has landed; an id that names no record completes at once. One
that ends its own workgroup never completes. -/
def execCancel (c : Ctl) (lv : Level) (a : Opd) (s : State) : Res :=
  atWord s c fun s g =>
    withSources s g [(1, false, a)] (
      match g.act with
      | [] => finish s g c g.sh
      | l :: _ =>
        let id := (rd s g false a l).toNat
        let s' := cancelLevel s g.w lv id
        match s'.sheetAt g.w with
        | none => s'
        | some _ =>
          if cancelNames s g.w lv id && s'.landing (s.ownerId g.w) s'.nextId then
            s'.put g (blockLanes g (.cancel s'.nextId) c.yld g.sh)
          else finish (s'.acquire (wCore g.w) .dev) g c g.sh)

/-! ### CNTW (R254) -/

/-- The status of a level that is complete, or none while it is outstanding; 0xFF where nothing was ever counted. Of launches that share a
LAUNCHID no rule says which record it names: all must have ended, and the last one's status is the result (log 59). -/
def cntwStatus (s : State) (w : Where) (lv : Level) (id : Nat) : Option Nat :=
  let own := s.ownLaunch w
  match lv with
  | .unit =>
    match own with
    | none => some 0xFF
    | some x =>
      if x.2.pkt.units ≤ id then some 0xFF
      else match s.counters.find? fun r => decide (r.level = .unit) && r.launch == x.1 && r.id == id with
        | some r => some r.status
        | none => if x.2.ended then some x.2.status else none
  | .launch =>
    let ls := (s.named own (s.ownerId w) .launch id).filterMap fun i => s.launches[i]?
    match ls.getLast? with
    | none => some 0xFF
    | some l => if ls.all (·.ended) then some l.status else none
  | lv =>
    match s.counters.find? fun r => r.named (s.ownerId w) lv (levelId own lv id) with
    | some r => if r.count = 0 then some r.status else none
    | none => some 0xFF

/-- CNTW's result in the executing lanes. -/
def cntwWrite (act : List Nat) (d : Opd) (st : Nat) (sh : Sheet) : Sheet :=
  act.foldl (fun sh l => wr act d l (BitVec.ofNat 64 st) sh) sh

/-- CNTW: an acquire at .dev once the record is complete. -/
def execCntw (c : Ctl) (lv : Level) (d a : Opd) (s : State) : Res :=
  atWord s c fun s g =>
    withSources s g [(1, false, a)] (
      match g.act with
      | [] => finish s g c g.sh
      | l :: _ =>
        let id := rd s g false a l
        match cntwStatus s g.w lv id.toNat with
        | some st => finish (s.acquire (wCore g.w) .dev) g c (cntwWrite g.act d st g.sh)
        | none => s.put g (blockGroup g (.cntw lv id d g.act) c.yld g.sh))

end Sys2Proof.Machine
end

