-- ==== Sys2Proof/Machine/Accept.lean ====
section
/-!
DEFINITION. Stores and atomics on their way: acceptance from a store queue, arrival at a home, the sync engines and their
monitors (R146, R152, R153, R160 to R173, R199, R204, R205, R225, R227, R237, R266, R295, R312, R336, R337, R349, R361).
-/

namespace Sys2Proof.Machine

/-! ### Acceptance from a store queue (R163) -/

/-- A lane of the queue's head that is not done. -/
def Sheet.openHead (sh : Sheet) (l : Nat) : Option (SqEntry × SqLane) :=
  match sh.sq with
  | [] => none
  | e :: _ => (e.lanes.find? fun x => x.lane == l && !x.done).map fun x => (e, x)

/-- A lane of the head is accepted. -/
def acceptLane (s : State) (w : Where) (e : SqEntry) (l : Nat) : State := s.modSheet w fun sh => sh.sqDone e.id l

/-- A whole entry is accepted at once. -/
def acceptAll (s : State) (w : Where) (e : SqEntry) : State :=
  s.modSheet w fun sh => e.lanes.foldl (fun sh x => sh.sqDone e.id x.lane) sh

/-- The scratchpad address of a target, and its core. -/
def Target.pad : Target → Nat × Nat
  | .spad c a => (c, a)
  | _ => (0, 0)

/-- The lanes of a queue entry that have not been dropped (R370). -/
def SqEntry.fellows (e : SqEntry) : Lanes := laneMask ((e.lanes.filter fun x => !x.done || x.tr.isOk).map (·.lane))

/-- A store leaves the core toward its home (R169). -/
def fly (s : State) (w : Where) (e : SqEntry) (x : SqLane) (t : Target) (bytes : List Byte) (dead : Bool) : State :=
  let (seq, s) := s.fresh
  { s with flights := s.flights ++ [{ seq := seq, entry := e.id, core := wCore w, who := w, lane := x.lane, va := x.va, target := t, bytes := bytes,
                                      all := e.fellows, owner := s.ownerId w, dead := dead, pc := e.pc, word := e.word }] }

/-- Lanes of a queue entry, for the sector charge: those that are done or sent have made their request. -/
def SqEntry.sectors (e : SqEntry) : List (Nat × Bool × Tr) := e.lanes.map fun x => (x.lane, x.done || x.sent, x.tr)

/-- The charge of a lane's request, once per sector of its entry (R237). -/
def chargeSector (s : State) (w : Where) (e : SqEntry) (l : Nat) (t : Target) : State :=
  if !t.charged || sectorTaken e.sectors l t then s else s.charge (s.ownerId w) t 32

/-- The open lanes of an entry that consume poison with `n` bytes: those that may be accepted now (R162, R205). -/
def SqEntry.poisonedLanes (s : State) (w : Where) (sh : Sheet) (e : SqEntry) (n : Nat) : List (Nat × DWord × Target) :=
  e.lanes.filterMap fun x => match x.tr with
    | .ok t _ => if !x.done && !x.sent && sh.mayAccept e x.lane && s.poisonFor (wCore w) t n then some (x.lane, x.va, t) else none
    | _ => none

/-- A device-memory lane goes on: without poison, with tokens, and where the core may hold a request more (R205, R232, R237, R331). -/
def deviceGo (s : State) (w : Where) (e : SqEntry) (x : SqLane) (t : Target) (n acc : Nat) (k : State → State) : State :=
  if s.poisonFor (wCore w) t n then
    match s.sheetAt w with
    | some sh =>
      consumePoison s w (.store e.id) acc false (fun l u => sectorTaken e.sectors l u) n (e.poisonedLanes s w sh n) e.pc e.word
    | none => s
  else if t.charged && !(s.mayRequest w t && s.mayAdd (wCore w) 1) then s
  else k (chargeSector s w e x.lane t)

/-- A release at the head of a queue has still to wait: an access of the core, which another of its threads may have had accepted since the
release issued, is on its way, or an access that happens before it (R162, R169, R170). -/
def releaseOpen (s : State) (w : Where) (e : SqEntry) (sc : Option Scope) : Bool :=
  sc.any fun sc => scopeFar sc && s.releaseFarBut (wCore w) sc fun v id => decide (v = w) && id == e.id

/-- The scope at which an atomic is a release. -/
def releaseScope (ord : Ord) (sc : Scope) : Option Scope :=
  match ord with
  | .rel | .ar => some sc
  | _ => none

/-- A device store lane is accepted: it updates a present line of the L1, or goes around it, and leaves for its home (R361). -/
def acceptStore (s : State) (w : Where) (e : SqEntry) (x : SqLane) (t : Target) (around : Bool) (rel : Option Scope) : State :=
  if releaseOpen s w e rel then s else deviceGo s w e x t x.bytes.length 2 fun s =>
    let s := match t with
      | .dev pa => if around then s.dropLine (wCore w) t else s.modCore (wCore w) fun k => k.l1Store pa x.bytes
      | _ => s
    acceptLane (fly s w e x t x.bytes false) w e x.lane

/-- A lane of an STL to a quire member leaves for that member's bank, which accepts it: until then it is not done (R142, R162). -/
def sendMember (s : State) (w : Where) (e : SqEntry) (x : SqLane) (t : Target) : State :=
  if x.sent then s
  else (fly s w e x t x.bytes false).modSheet w fun sh => sh.modSq e.id fun e => e.modLane x.lane fun x => { x with sent := true }

/-- An atomic lane is sent to its sync engine, the host or a peer; RED is accepted there (R349). -/
def sendAtomic (s : State) (w : Where) (e : SqEntry) (x : SqLane) (t : Target) (a : AtomOp) (fill : Option Nat) (ord : Ord)
    (sc : Scope) (accepted : Bool) : State :=
  if x.sent || releaseOpen s w e (releaseScope ord sc) then s
  else deviceGo s w e x t a.bytes 3 fun s =>
    let (seq, s) := s.fresh
    let op : EngineOp :=
      { seq := seq, core := wCore w, who := w, lane := x.lane, va := x.va, entry := e.id, fill := fill, target := t, a := a, val := x.bytes,
        new := x.new, all := e.fellows, owner := s.ownerId w, ord := ord, sc := sc, pc := e.pc, word := e.word }
    let s := { s with engine := s.engine ++ [op] }
    if accepted then acceptLane s w e x.lane
    else s.modSheet w fun sh => sh.modSq e.id fun e => e.modLane x.lane fun x => { x with sent := true }

/-- An atomic on the scratchpad performs at its bank (R295); its acquire follows (R168). -/
def performAtoml (s : State) (w : Where) (e : SqEntry) (x : SqLane) (t : Target) (a : AtomOp) (ord : Ord) (sc : Scope) : State :=
  if releaseOpen s w e (releaseScope ord sc) then s
  else
    let r := s.loadBytes (wCore w) t a.bytes
    let s := r.1.storeHome t (atomBytes a r.2 x.bytes x.new)
    let s := if ord = .acq ∨ ord = .ar then s.acquire (wCore w) sc else s
    acceptLane s w e x.lane

/-- TAGS installs its lanes' entries in ascending lane order (R146). -/
def performTags (s : State) (w : Where) (e : SqEntry) (way : Nat) : State :=
  match s.wgOf w with
  | some g => acceptAll (s.modCore (wCore w) fun k =>
      e.lanes.foldl (fun k x => k.tagInstall g way x.va (leVal 32 x.bytes)) k) w e
  | none => acceptAll s w e

/-- TAGI invalidates (R146). -/
def performTagi (s : State) (w : Where) (e : SqEntry) (all : Bool) : State :=
  match s.wgOf w with
  | some g => acceptAll (s.modCore (wCore w) fun k =>
      if all then k.tagClear g else e.lanes.foldl (fun k x => k.tagDrop g x.va) k) w e
  | none => acceptAll s w e

/-- An accepted lane of an entry has named the line of a PA (R312). -/
def SqEntry.lineBefore (e : SqEntry) (pa : Nat) : Bool :=
  e.lanes.any fun y => y.done && (match y.tr with
    | .ok (.dev a) _ => a / 128 == pa / 128
    | _ => false)

/-- A CWB lane: the L1 drops the line, and the home writes it back if it is dirty, with its charge; lanes that name one line
share that writeback (R312). -/
def performCwb (s : State) (w : Where) (e : SqEntry) (x : SqLane) (t : Target) : State :=
  match t with
  | .dev pa =>
    if e.lineBefore pa then acceptLane (s.dropLine (wCore w) t) w e x.lane
    else if s.inFlight (wCore w) (.dev (pa / 128 * 128)) 128 then s
    else
      let s := s.modCore (wCore w) fun k => k.l1Drop pa
      match s.place pa with
      | some p =>
        let line := p.cell / 128
        if s.dram.held? line = some true then
          if !s.mayRequest w t then s
          else
            let s := { s with dram := { s.dram.writeBack line with cached := SMap.set none s.dram.cached line (some false) } }
            acceptLane (s.charge (s.ownerId w) t 128) w e x.lane
        else acceptLane s w e x.lane
      | none => acceptLane s w e x.lane
  | _ => acceptLane s w e x.lane

/-- An accepted lane of an entry has named the chunk of a PA (R199). -/
def SqEntry.deadBefore (v : Variant) (e : SqEntry) (pa : Nat) : Bool :=
  e.lanes.any fun y => y.done && (match y.tr with
    | .ok (.dev a) _ => sameChunk v a pa
    | _ => false)

/-- A DEAD lane leaves for its home; the core's own L1 drops the chunk's lines. Lanes that name one chunk share one action (R199). -/
def performDead (s : State) (w : Where) (e : SqEntry) (x : SqLane) (t : Target) : State :=
  match t with
  | .dev pa => if e.deadBefore s.variant pa then acceptLane s w e x.lane else if !s.mayAdd (wCore w) 1 then s else
    let s := s.modCore (wCore w) fun k => { k with l1 := k.l1.filter fun y => !sameChunk s.variant pa (y.1 * 128) }
    acceptLane (fly s w e x t [] true) w e x.lane
  | _ => acceptLane s w e x.lane

/-- A portal thread's end adds 1 to its join counter, as a release at .sys (R266). -/
def performJoin (s : State) (w : Where) (e : SqEntry) (x : SqLane) (t : Target) : State :=
  sendAtomic s w e x t ⟨.add, some .uint64, true⟩ none .rel .sys true

/-- One lane of the queue's head is accepted or performs, if it may: the earlier loads and acquires come first (R162, R168). -/
def acceptOne (w : Where) (s : State) (l : Nat) : State :=
  match s.sheetAt w with
  | none => s
  | some sh =>
    match sh.openHead l with
    | none => s
    | some (e, x) =>
      if !sh.mayAccept e l then s
      else
        match x.tr with
        | .miss => rejoin s ⟨w, l, x.va, e.kind.access, 1, .store e.id, e.pc, e.word⟩
        | .held _ => s
        | .ok t around =>
          let pad := t.pad
          match e.kind with
          | .spawn _ _ _ _ => s
          | .stl => if pad.1 = wCore w then acceptLane (s.storeHome t x.bytes) w e l else sendMember s w e x t
          | .gyld => acceptLane (s.storeFelt w pad.2 x.bytes) w e l
          | .cvtq => acceptAll (e.lanes.foldl (fun s y => s.storeHome (.spad pad.1 (pad.2 - x.va.toNat + y.va.toNat)) y.bytes) s) w e
          | .atoml a ord sc => performAtoml s w e x t a ord sc
          | .bari expect auto => acceptLane (performBari s w pad.1 (pad.2 - x.va.toNat) x.va.toNat expect auto) w e l
          | .bara v ls => acceptLane (arriveAt s w pad.1 (pad.2 - x.va.toNat) x.va.toNat v v ls) w e l
          | .autoArrive => acceptAll (performAuto s w (e.lanes.map (·.lane))) w e
          | .tags way => performTags s w e way
          | .tagi all => performTagi s w e all
          | .st rel _ => acceptStore s w e x t around rel
          | .atom a fill ord sc => sendAtomic s w e x t a (if fill = 0 then none else some fill) ord sc false
          | .red a ord sc => sendAtomic s w e x t a none ord sc true
          | .cwb => performCwb s w e x t
          | .dead => performDead s w e x t
          | .join => performJoin s w e x t

/-- STORE_ACCEPT: lanes of the head of an agent's store queue are accepted, in the order named. -/
def execStoreAccept (w : Where) (lanes : List Nat) (s : State) : Res := .next (lanes.foldl (acceptOne w) s)

/-! ### At the home (R169, R172) -/

/-- Bytes that a flight writes: a DEAD's whole chunk (R199). -/
def Flight.size (v : Variant) (f : Flight) : Nat :=
  match f.dead, f.target with
  | true, .dev pa => chunkSize v pa
  | _, _ => f.bytes.length

/-- What comes before an access with a number at its home: the earlier stores of its core to some of its bytes (R160), and the
atomics of any core that left before it for them, in the order in which they left (R172). -/
def State.earlier (s : State) (core seq : Nat) (t : Target) (n : Nat) : Bool :=
  s.flights.any (fun f => f.core == core && decide (f.seq < seq) && (match f.target.above t with
    | some o => meets o (f.size s.variant) n
    | none => false)) ||
  s.engine.any fun e => decide (e.seq < seq) && (match e.target.above t with
    | some o => meets o e.a.bytes n
    | none => false)

/-- A lane stands in its sheet's queue again, at its place in its entry or with that entry's number (R36, R160, R163). -/
def Sheet.requeue (sh : Sheet) (e : SqEntry) (x : SqLane) : Sheet :=
  if sh.sq.any fun y => y.id == e.id then
    sh.modSq e.id fun y => { y with lanes := (y.lanes.filter fun z => decide (z.lane < x.lane)) ++ x :: y.lanes.filter fun z => decide (x.lane < z.lane) }
  else { sh with sq := (sh.sq.filter fun y => decide (y.id < e.id)) ++ { e with lanes := [x] } :: sh.sq.filter fun y => decide (e.id < y.id) }

/-- The other lanes of an instruction that have performed, while one of them is at its home: those of the entry's mask that are neither
in the queue, on the way nor at an engine (R36, R227). -/
def State.landedLanes (s : State) (who : Where) (entry : Nat) (all : Lanes) (l : Nat) : List Nat :=
  (maskLanes 64 all).filter fun k => k != l && !s.atEngine who entry k &&
    !s.flights.any (fun f => decide (f.who = who) && f.entry == entry && f.lane == k) &&
    !((s.sheetAt who).map fun sh => sh.sq.any fun e => e.id == entry && e.lanes.any fun x => x.lane == k && !x.done).getD false

/-- A store or RED that has left its queue and then meets poison stands in the queue again, held by its event (R205, R225); one whose agent
has stopped consumes the poison and is gone (R182, log 38). `s` is the state without it, `back` the one to stay in while the event queue is
full. -/
def requeue (s back : State) (o : Nat) (w : Where) (e : SqEntry) (x : SqLane) (all : Lanes) (t : Target) (acc n : Nat) : State :=
  if w = ghost (wCore w) then s.consume o t n
  else if (s.core (wCore w)).eventRoom then
    let done := s.landedLanes w e.id all x.lane
    let s := s.modSheet w fun sh => sh.requeue e { x with tr := .held .poison }
    lateEvent (s.consume o t n) w (.store e.id) .poison 1 acc done [(x.lane, x.va)] e.pc e.word true
  else back

/-- An access of a lane that has left its queue comes after an earlier one of that lane to some of its `n` bytes, which has come back to the
queue since (R160). -/
def State.overtakes (s : State) (w : Where) (id l : Nat) (t : Target) (va : DWord) (n : Nat) : Bool :=
  ((s.sheetAt w).map fun sh => sh.sq.any fun e => decide (e.id < id) &&
    e.lanes.any fun x => x.lane == l && !x.done && x.touches s.variant e.kind t va n).getD false

/-- The queue entry and the lane that a flight left. -/
def Flight.queued (f : Flight) : SqEntry × SqLane :=
  (⟨f.entry, if f.dead then .dead else .st none false, [], false, f.pc, f.word⟩, ⟨f.lane, f.va, .ok f.target false, false, false, f.bytes, []⟩)

/-- The queue entry and the lane that a RED left. -/
def EngineOp.queued (e : EngineOp) : SqEntry × SqLane :=
  (⟨e.entry, .red e.a e.ord e.sc, [], false, e.pc, e.word⟩, ⟨e.lane, e.va, .ok e.target false, false, false, e.val, e.new⟩)

/-- The compute die that a device PA's bytes are homed on. -/
def State.route (s : State) (pa : Nat) : Nat := ((paParts s.variant pa).map fun x => homeDie x.2.1).getD 0

/-- Whether a write of the same requester that came before the k-th of the ordering point satisfies a condition. -/
def State.inboundBefore (s : State) (k : Nat) (i : Inbound) (p : Inbound → Bool) : Bool :=
  (s.inbound.take k).any fun x => x.requester == i.requester && p x

/-- An access of the host or of a peer waits at a home: an atomic that reached the engine before it has not performed, or a mitigation delays
its rows (R172, R202). -/
def State.arrivalWaits (s : State) (pa n : Nat) : Bool := s.engineHolds (.dev pa) n || s.bankDelayed (s.homeOwner pa) (.dev pa)

/-- The home die cache accepts a forwarded inbound write, in the route's order, and so acknowledges it (R175); after the atomics that its
engine received before, and once no mitigation delays the row (R172, R202). -/
def acceptInbound (s : State) (k : Nat) : State :=
  match s.inbound[k]? with
  | none => s
  | some i =>
    if !i.forwarded || s.inboundBefore k i (fun x => s.route x.pa == s.route i.pa) || s.arrivalWaits i.pa i.bytes.length then s
    else { s with inbound := s.inbound.eraseIdx k }.arriveStore i.pa i.bytes

/-- STORE_ACCEPT_HOME: the flight numbered here is accepted at its home, or stands in its queue again behind an earlier store of its lane that
has come back there (R160); numbers from the length of the flights' list on name the
inbound writes of the ordering point. -/
def execStoreAcceptHome (k : Nat) (s : State) : Res :=
  .next (match s.flights[k]? with
    | none => acceptInbound s (k - s.flights.length)
    | some f =>
      let n := f.size s.variant
      if s.earlier f.core f.seq f.target n then s
      else
        let t := { s with flights := s.flights.eraseIdx k }
        let done (x : State) : State := x.modSheet f.who fun sh => sh.sqDone f.entry f.lane
        if s.overtakes f.who f.entry f.lane f.target f.va n then t.modSheet f.who fun sh => sh.requeue f.queued.1 f.queued.2
        else
          match f.target with
          | .dev pa =>
            if f.dead then done (t.killChunk pa)
            else if s.bankDelayed f.owner f.target then s
            else if s.poisonedAt f.target n then requeue t s f.owner f.who f.queued.1 f.queued.2 f.all f.target 2 n
            else done (t.storeIn f.owner f.target f.bytes)
          | _ => done (t.storeHome f.target f.bytes))

/-! ### The sync engines (R172, R173) -/

/-- Where a returned value of an atomic goes (R295). -/
def fillAtomic (s : State) (e : EngineOp) (old : List Byte) : State :=
  match e.fill with
  | none => s
  | some id => s.modSheet e.who fun sh => match sh.openFill id e.lane with
      | some (f, _) =>
        if sh.alive e.lane then sh.fillLane f e.lane (wordsOf (leVal 64 old)) else sh.dropLane f e.lane
      | none => sh

/-- An atomic performs at its engine, the host or a peer: once, on the value just before it (R172, R295). -/
def performAtomic (s : State) (e : EngineOp) : State :=
  let s := s.readIn e.owner e.target e.a.bytes
  let old := s.bytesAt e.target e.a.bytes
  let s := s.storeHome e.target (atomBytes e.a old e.val e.new)
  let s := match e.target with
    | .dev pa => s.modCore e.core fun k => k.l1Drop pa
    | _ => s
  let s := if e.ord = .acq ∨ e.ord = .ar then s.acquire e.core e.sc else s
  (fillAtomic s e old).modSheet e.who fun sh => sh.sqDone e.entry e.lane

/-- An atomic meets poison: its lane takes the event and has not performed (R205, R227). -/
def poisonAtomic (s : State) (e : EngineOp) (k : Nat) : State :=
  let t := { s with engine := s.engine.eraseIdx k }
  match ((s.sheetAt e.who).bind fun sh => sh.sq.find? fun x => x.id == e.entry && x.lanes.any fun y => y.lane == e.lane && !y.done) with
  | some _ =>
    if (s.core e.core).eventRoom then
      let t := t.modSheet e.who fun sh => sh.modSq e.entry fun x => x.modLane e.lane fun y => { y with sent := false }
      lateFault (t.consume e.owner e.target e.a.bytes) e.who (.store e.entry) .poison 1 3 [(e.lane, e.va)] e.pc e.word true
    else s
  | none => requeue t s e.owner e.who e.queued.1 e.queued.2 e.all e.target 3 e.a.bytes

/-- An atomic's lane stands in its queue again, to be sent anew. -/
def recallAtomic (s : State) (e : EngineOp) : State :=
  s.modSheet e.who fun sh =>
    if sh.sq.any fun x => x.id == e.entry && x.lanes.any fun y => y.lane == e.lane && !y.done then
      sh.modSq e.entry fun x => x.modLane e.lane fun y => { y with sent := false }
    else sh.requeue e.queued.1 e.queued.2

/-- Monitors armed at a die's engine (R337). -/
def State.armedAt (s : State) (die : Nat) : Nat :=
  (s.monitors.filter fun m => m.armed && (match s.place m.pa with
    | some p => homeDie p.stack == die
    | none => false)).length

/-- Changes the monitor of a lane's wait. -/
def State.modMonitor (s : State) (k : Nat) (f : Monitor → Monitor) : State := { s with monitors := s.monitors.modify k f }

/-- The engine compares a waiting lane's word and arms its monitor, or finds it different (R173, R337). All that the lane has queued comes
before it, stores to other bytes too: R161 would let a load pass those, and does not say that this wait is one (log 53). -/
def armMonitor (s : State) (k : Nat) (m : Monitor) : State :=
  match (s.sheetAt m.who).bind fun sh => (sh.openFill m.fill m.lane).map fun y => (sh, y) with
  | none => { s with monitors := s.monitors.eraseIdx k }
  | some (sh, f, x) =>
    let n := if m.wide then 8 else 4
    match x.tr with
    | .miss => rejoin s ⟨m.who, m.lane, x.va, 1, 1, .fill m.fill, f.pc, f.word⟩
    | .held _ => s
    | .ok t _ =>
      let own := sh.sq.any fun e => decide (e.id < f.id) && e.lanes.any fun y => y.lane == m.lane && !y.done
      if own || !s.loadMay m.who sh f.id m.lane || s.inFlight m.core t n then s
      else
        match t with
        | .dev pa =>
          if s.poisonFor m.core t n then
            consumePoison s m.who (.fill f.id) 1 false (fun _ _ => false) n [(m.lane, x.va, t)] f.pc f.word
          else
            let die := match s.place pa with
              | some p => homeDie p.stack
              | none => 0
            if 8192 ≤ s.armedAt die || !s.mayRequest m.who t then s
            else
              let s := ((s.readIn (s.ownerId m.who) t n).charge (s.ownerId m.who) t 32).dropLine m.core t
              let v : DWord := leVal 64 (s.bytesAt t n)
              if v = m.cmp then s.modMonitor k fun m => { m with pa := pa, armed := true }
              else s.modMonitor k fun m => { m with pa := pa, hit := some v }
        | _ =>
          if (s.core m.core).eventRoom then
            lateFault s m.who (.fill f.id) .perm 1 1 [(m.lane, x.va)] f.pc f.word true
          else s

/-- ATOMIC_PERFORM: the operation numbered here performs at its engine; numbers from the length of the engines' list on name
the waits of MWAIT lanes that compare and arm. -/
def execAtomicPerform (k : Nat) (s : State) : Res :=
  .next (match s.engine[k]? with
    | some e =>
      if s.overtakes e.who e.entry e.lane e.target e.va e.a.bytes then recallAtomic { s with engine := s.engine.eraseIdx k } e
      else if s.earlier e.core e.seq e.target e.a.bytes || s.bankDelayed e.owner e.target then s
      else if s.poisonedAt e.target e.a.bytes then poisonAtomic s e k
      else performAtomic { s with engine := s.engine.eraseIdx k } e
    | none =>
      let i := k - s.engine.length
      match s.monitors[i]? with
      | some m => if m.armed || m.hit.isSome then s else armMonitor s i m
      | none => s)

/-- Lanes that satisfy a condition on what they wait for go on to their next word. -/
def Sheet.releaseBlocks (p : Block → Bool) : Sheet → Sheet :=
  Sheet.bothBodies fun sh => { sh with lanes := sh.lanes.map fun t => match t.wait with
    | .blocked b => if t.live && p b then t.stepOn false else t
    | _ => t }

/-- Lanes that wait in an MWAIT go on once all of its lanes are filled (R337). -/
def Sheet.mwaitDone (id : Nat) (sh : Sheet) : Sheet :=
  if sh.fills.any fun f => f.id == id then sh
  else sh.releaseBlocks fun b => match b with
    | .mwait f => f == id
    | _ => false

/-- MONITOR_FIRE: the monitor numbered here fills its lane with the first value that differed (R173); later loads of the thread find none older
in the L1 (R160). -/
def execMonitorFire (k : Nat) (s : State) : Res :=
  .next (match s.monitors[k]? with
    | none => s
    | some m =>
      match m.hit with
      | none => s
      | some v =>
        let t := { s with monitors := s.monitors.eraseIdx k }.dropLine m.core (.dev m.pa)
        let t := t.modSheet m.who fun sh => match sh.openFill m.fill m.lane with
          | some (f, _) => (sh.fillLane f m.lane (if m.wide then wordsOf v else [loWord v])).mwaitDone m.fill
          | none => sh
        if m.acq then t.acquire m.core m.sc else t)

end Sys2Proof.Machine
end

