-- ==== Sys2Proof/Machine/Convert.lean ====
section
/-!
DEFINITION. Class 0x2: conversions, Q4X encoding and decoding, packing (R102 to R108, R309 to R313, R339, R340).
-/

namespace Sys2Proof.Machine

/-- A source of CVT: 64 bits for the 64-bit types. -/
def cvtSrc (s : State) (g : Grp) (st : Elem) (o : Opd) (l : Nat) : DWord :=
  if st.bits = 64 then rd64 s g o l else (rd s g (elemSigned st) o l).setWidth 64

/-- CVT (R309). -/
def execCvt (c : Ctl) (sat : Bool) (r : Rnd) (dt st : Elem) (d a : Opd) (s : State) : Res :=
  lanewise s c [(1, false, a)] d fun s g l =>
    let rm := (g.sh.lane l).rm
    convElem dt st (rmode r rm) (saton sat rm) (cvtSrc s g st a l)

/-- The 20 bytes of a block in five consecutive registers (R313). -/
def blockRegs (g : Grp) (o : Opd) (l : Nat) : List Byte :=
  (List.range 5).flatMap fun k => leBytes 4 (match o with
    | .v _ _ i => (g.sh.vReg l (i.toNat + k)).val
    | .u _ _ i => (g.sh.uReg (i.toNat + k)).val
    | _ => 0#32).toNat

/-- The `n` single-register sources from an operand's register on. -/
def runSrcs (slot n : Nat) (o : Opd) : List Src :=
  match o with
  | .v ew p i => (List.range n).map fun k => (slot, false, Opd.v ew p (i + BitVec.ofNat 8 k))
  | .u ew p i => (List.range n).map fun k => (slot, false, Opd.u ew p (i + BitVec.ofNat 8 k))
  | o => [(slot, false, o)]

/-- The five registers that hold a block. -/
def blockSrcs (o : Opd) : List Src := runSrcs 1 5 o

/-- DEQ (R313). -/
def execDeq (c : Ctl) (sat : Bool) (r : Rnd) (dt : Elem) (d a b : Opd) (s : State) : Res :=
  lanewise s c (blockSrcs a ++ [(2, false, b)]) d fun s g l =>
    let rm := (g.sh.lane l).rm
    let blk := qDecode (blockRegs g a l)
    let e := blk.1.getD ((rd s g false b l).toNat % 32) (.fin false 0 0, 0#7)
    let y := match elemFmt dt with
      | some f => narrowVal f (rmode r rm) (saton sat rm) e.1
      | none => (0, 0#7)
    (BitVec.ofNat 64 y.1, y.2 ||| e.2 ||| flagIf blk.2 fQX)

/-- The elements that PACK converts, low one first (R340). -/
def packSrc (s : State) (g : Grp) (unpack : Bool) (dt st : Elem) (a b : Opd) (l : Nat) : List DWord :=
  if unpack then
    let x := rd s g false a l
    let e := if st.bits = 16 then 0 else 2 * (rd s g false b l).toNat
    [(x >>> (e * st.bits)).setWidth 64, (x >>> ((e + 1) * st.bits)).setWidth 64]
  else if dt.bits = 16 then [(rd s g false a l).setWidth 64, (rd s g false b l).setWidth 64]
  else
    let x := rd64 s g a l
    let y := rd64 s g b l
    [(loWord x).setWidth 64, (hiWord x).setWidth 64, (loWord y).setWidth 64, (hiWord y).setWidth 64]

/-- Elements side by side, low one first. -/
def packBits (w : Nat) (xs : List DWord) : DWord :=
  xs.reverse.foldl (fun acc x => (acc <<< w) ||| BitVec.ofNat 64 (x.toNat % 2 ^ w)) 0#64

/-- PACK and PACK.unpack (R340). -/
def execPack (c : Ctl) (unpack sat : Bool) (r : Rnd) (dt st : Elem) (d a b : Opd) (s : State) : Res :=
  lanewise s c [(1, false, a), (2, false, b)] d fun s g l =>
    let rm := (g.sh.lane l).rm
    let ys := (packSrc s g unpack dt st a b l).map (convElem dt st (rmode r rm) (saton sat rm))
    (packBits dt.bits (ys.map (·.1)), ys.foldl (fun f y => f ||| y.2) 0#7)

/-! ### CVTQ (R104, R310, R311) -/

/-- x / s as a value that lies where the exact quotient lies against every number with at most 300 fraction bits: the
quotient cut off far below, with one more bit set when anything is left. -/
def quotient (x s : FVal) : FVal :=
  match x, s with
  | .fin neg m e, .fin sneg n k =>
    let p := Nat.log2 n + 400
    let q := m * 2 ^ p / n
    .fin (neg != sneg) (2 * q + (if m * 2 ^ p % n = 0 then 0 else 1)) (e - k - p - 1)
  | .inf neg, s => .inf (neg != s.neg)
  | _, _ => .nan false

/-- |q| > θ, or q is NaN (R104 step 2). -/
def isOutlier (q θ : FVal) : Bool :=
  match q with
  | .nan _ => true
  | .inf _ => !θ.isNan && fcmpVal (.inf false) θ == .gt
  | .fin _ m e => !θ.isNan && fcmpVal (.fin false m e) θ == .gt

/-- An ordinary element's nibble and flags (R104 step 4). -/
def nibbleOf (mode : Rnd) (q : FVal) : Int × Flags :=
  match q with
  | .nan _ => (0, 0#7)
  | .inf neg => (if neg then -7 else 7, fST ||| fNX)
  | .fin neg m e =>
    let (x, inexact) := roundInt mode neg m e
    if x < -7 then (-7, fST ||| fNX) else if 7 < x then (7, fST ||| fNX) else (x, flagIf inexact fNX)

/-- One element of a block to encode: its value, and its lane's mode and SATON. -/
structure QIn where
  x : FVal
  mode : Rnd
  sat : Bool

/-- The outliers placed in a block, in order, with their bytes and flags, and the positions taken (R104 step 3). -/
def placeOutliers (qs : List FVal) (xs : List QIn) (θ : FVal) : List (Nat × Nat × Flags) × List Nat :=
  (List.range 32).foldl (fun (a : List (Nat × Nat × Flags) × List Nat) j =>
    let q := qs.getD j (.fin false 0 0)
    if isOutlier q θ ∧ a.1.length < 4 ∧ ¬ a.2.contains j ∧ ¬ a.2.contains (Nat.xor j 1) then
      let y := narrowVal e4m3 ((xs.map (·.mode)).getD j .rne) true q
      (a.1 ++ [(j, y.1, y.2)], a.2 ++ [j, Nat.xor j 1])
    else a) ([], [])

/-- An encoded block: its 20 bytes, which elements are outliers, the side-list entries, and each element's flags. -/
structure QOut where
  bytes : List Byte
  outliers : List Bool
  side : List (Nat × Nat)
  flags : List Flags

/-- A block with a scale that is zero, infinite or NaN (R104). -/
def badScale (scale : Nat) : QOut :=
  { bytes := List.replicate 16 0#8 ++ leBytes 2 scale ++ [0#8, 0#8], outliers := List.replicate 32 false, side := [],
    flags := List.replicate 32 fIV }

/-- Encodes a block under R104. A signalling threshold is a signalling input of the conversion, in every element of it (R101). Below a
threshold under zero every element is an outlier, those that no lane supplies (x = 0) among them (log 51). -/
def qEncode (xs : List QIn) (scale : Nat) (θ : FVal) : QOut :=
  let sv := bf16.value scale
  match sv with
  | .fin _ (_ + 1) _ =>
    let qs := xs.map fun x => quotient x.x sv
    let placed := (placeOutliers qs xs θ).1
    let one (j : Nat) : Nat × Bool × Flags :=
      let x := xs.getD j ⟨.fin false 0 0, .rne, false⟩
      let q := qs.getD j (.fin false 0 0)
      let sig := flagIf x.x.isSig fIV
      match placed.find? fun p => p.1 == j with
      | some p => (8, false, p.2.2 ||| sig)
      | none =>
        let toSide := (narrowVal bf16 x.mode x.sat x.x).2
        match placed.find? fun p => p.1 == Nat.xor j 1 with
        | some p =>
          if isOutlier q θ then (p.2.1 / 16, true, toSide)
          else
            let n := nibbleOf x.mode q
            if n.1 = 0 then (p.2.1 / 16, false, n.2 ||| sig) else (p.2.1 / 16, true, toSide)
        | none =>
          if isOutlier q θ then (0, true, toSide)
          else
            let n := nibbleOf x.mode q
            ((BitVec.ofInt 4 n.1).toNat, false, n.2 ||| sig)
    let els := (List.range 32).map one
    let nib (j : Nat) : Nat := (els.getD j (0, false, 0#7)).1
    let spill := (placed.zipIdx).foldl (fun acc p => acc + p.1.2.1 % 16 * 16 ^ p.2) 0
    { bytes := ((List.range 16).map fun k => BitVec.ofNat 8 (nib (2 * k) + 16 * nib (2 * k + 1))) ++ leBytes 2 scale ++
        leBytes 2 spill,
      outliers := qs.map fun q => isOutlier q θ,
      side := (List.range 32).filterMap fun j =>
        let x := xs.getD j ⟨.fin false 0 0, .rne, false⟩
        if (els.getD j (0, false, 0#7)).2.1 then some (j, (narrowVal bf16 x.mode x.sat x.x).1) else none,
      flags := els.map fun e => e.2.2 ||| flagIf θ.isSig fIV }
  | _ => badScale scale

/-- The format of CVTQ's source. -/
def cvtqFmt (st : Elem) : Fmt := (elemFmt st).getD fp32

/-- The blocks of CVTQ: block b takes element i from lane 32 b + i where that lane executes (R311). -/
def cvtqBlocks (s : State) (g : Grp) (sat : Bool) (r : Rnd) (st : Elem) (a : Opd) (scale : Nat) (θ : FVal) : List QOut :=
  (List.range ((g.sh.width + 31) / 32)).map fun b =>
    qEncode ((List.range 32).map fun i =>
      let l := 32 * b + i
      let rm := (g.sh.lane l).rm
      ⟨if g.act.contains l then (cvtqFmt st).value (rd s g false a l).toNat else .fin false 0 0, rmode r rm, saton sat rm⟩)
      scale θ

/-- Bytes of two ranges, those of an overlap replaced by undefined values (R13, R311). -/
def blurOverlap (s : State) (a : Nat) (xs : List Byte) (b : Nat) (ys : List Byte) : State × List Byte × List Byte :=
  let inside (lo n p : Nat) : Bool := decide (lo ≤ p) && decide (p < lo + n)
  let k := s.free
  let fresh (p : Nat) : Byte := (Config.freeValue (k + p)).setWidth 8
  let xs' := xs.mapIdx fun i x => if inside b ys.length (a + i) then fresh (a + i) else x
  let ys' := ys.mapIdx fun i y => if inside a xs.length (b + i) then fresh (b + i) else y
  ({ s with free := k + 2 ^ 23 }, xs', ys')

/-- CVTQ (R310, R311). Its four words stand in four consecutive registers (R28). Its one store-queue entry is the lowest executing lane's: R311
says of no other lane that the bytes are its store (R160, log 53). -/
def execCvtq (c : Ctl) (sat : Bool) (r : Rnd) (st : Elem) (d a b : Opd) (s : State) : Res :=
  atWord s c fun s g =>
    withSources s g ((1, false, a) :: runSrcs 2 4 b) (
      match g.act with
      | [] => finish s g c g.sh
      | l0 :: _ =>
        let ws := rdQuad g b l0
        let dest := (ws.getD 0 0#32).toNat
        let scaleW := (ws.getD 1 0#32).toNat
        let side := (ws.getD 3 0#32).toNat
        if 2 ^ 16 ≤ scaleW then trap s g .illegal 2 g.act
        else
          let outs := cvtqBlocks s g sat r st a scaleW (fp32.value (ws.getD 2 0#32).toNat)
          let bytes := outs.flatMap (·.bytes)
          let entries := (outs.zipIdx).flatMap fun o => o.1.side.map fun e => (32 * o.2 + e.1, e.2)
          let sideBytes := entries.flatMap fun e => leBytes 2 e.1 ++ leBytes 2 e.2
          let al := s.alloc g.w
          let va (x : Nat) : DWord := BitVec.ofNat 64 x
          let past := al.outside (va dest) bytes.length || (!sideBytes.isEmpty && al.outside (va side) sideBytes.length)
          if past then trapAt s g .bounds 1 .write g.act fun _ => va (if al.outside (va dest) bytes.length then dest else side)
          else if dest % 4 ≠ 0 ∨ side % 4 ≠ 0 then
            trapAt s g .align 2 .write g.act fun _ => va (if dest % 4 ≠ 0 then dest else side)
          else if 255 ≤ g.sh.lcc ∨ ¬ g.sh.sqRoom then s.put g (waitHere g (.room true true) g.sh)
          else
            let (s, xs, ys) := blurOverlap s dest bytes side sideBytes
            let (id, s) := s.fresh
            let lane (at_ : Nat) (bs : List Byte) : SqLane :=
              ⟨l0, va at_, .ok (al.target (va at_)) true, false, false, bs, []⟩
            let e : SqEntry :=
              { id := id, kind := .cvtq, counted := true, pc := g.pc, word := s.curWord,
                lanes := if ys.isEmpty then [lane dest xs] else [lane dest xs, lane side ys] }
            let flags := outs.flatMap (·.flags)
            let sh := g.act.foldl (fun sh l => sh.status l (flags.getD l 0#7)) g.sh
            let mask := outs.flatMap (·.outliers)
            let m := laneMask ((List.range mask.length).filter fun l => mask.getD l false)
            let w (k : Nat) (x : Word) (sh : Sheet) : Sheet :=
              match d with
              | .u _ _ i => sh.modReg l0 (true, i.toNat + k) fun q => q.write .full x
              | _ => sh
            finish s g c (w 2 (BitVec.ofNat 32 entries.length) (w 1 (hiWord m) (w 0 (loWord m) (sh.addSq e)))))

end Sys2Proof.Machine
end

