-- ==== Sys2Proof/Machine/Mask.lean ====
section
/-!
DEFINITION. Class 0x6: lane masks and the wait on them (R70, R71, R94, R328, R334, R365).
-/

namespace Sys2Proof.Machine

/-- The word changes a mask, the group goes on, and the waits on masks look at their conditions (R71). -/
def finishMask (s : State) (g : Grp) (c : Ctl) (sh : Sheet) : State := s.put g (s.settled (stepLanes g.grp c.yld sh))

/-- JOIN (R70, R328). -/
def execJoin (c : Ctl) (m : BitVec 4) (s : State) : Res :=
  atWord s c fun s g => finishMask s g c (g.sh.setM m.toNat (g.sh.mReg m.toNat ||| laneMask g.act))

/-- LEAVE (R70, R328). -/
def execLeave (c : Ctl) (m : BitVec 4) (s : State) : Res :=
  atWord s c fun s g => finishMask s g c (g.sh.setM m.toNat (g.sh.mReg m.toNat &&& ~~~ (laneMask g.act)))

/-- WAITM (R71, R365). -/
def execWaitm (c : Ctl) (m : BitVec 4) (s : State) : Res :=
  atWord s c fun s g =>
    withArith s g g.act (s.put g (s.settled (blockLanes g (.waitm m) c.yld g.sh)))

/-- The value that MMOV moves. -/
def mmovValue (s : State) (g : Grp) (a : Opd) : DWord := rd64 s g a g.lead

/-- MMOV into a mask: PART 00 keeps lanes 32 to 63; bits of lanes that are not live are zero (R334). -/
def mmovMask (sh : Sheet) (pair : Bool) (i : Nat) (x : DWord) : Sheet :=
  let x := if pair then x else hiWord (sh.mReg i) ++ loWord x
  sh.setM i (x &&& laneMask sh.liveLanes)

/-- MMOV (R334). -/
def execMmov (c : Ctl) (d a : Opd) (s : State) : Res :=
  atWord s c fun s g =>
    withSources s g [(1, false, a)] (
      if g.act.isEmpty then finish s g c g.sh
      else
        let x := mmovValue s g a
        match d with
        | .m p i => finishMask s g c (mmovMask g.sh (decide (p = .pair)) i.toNat x)
        | d => finish s g c (wr [g.lead] d g.lead x g.sh))

end Sys2Proof.Machine
end

