-- ==== Sys2Proof/Machine/Spawn.lean ====
section
/-!
DEFINITION. Class 0xC beside the generators: SPAWN and the decision queue (R18, R74, R75, R77 to R79, R314, R315, R356 to
R358).
-/

namespace Sys2Proof.Machine

/-! ### SPAWN -/

/-- The entry that SPAWN names: a displacement, or in a handler sheet a word index of the trapped group's segment. -/
def spawnEntry (s : State) (g : Grp) (disp : Opd) : Word :=
  if g.inHandler then 12#32 * rd s g false disp (g.act.headD 0)
  else g.pc + 12#32 + 12#32 * (match disp with
    | .imm x => x.signExtend 32
    | .limm x => x.signExtend 32
    | _ => 0#32)

/-- The sheet whose width, register count and code segment a spawned thread takes: the spawner, or for a handler sheet the group it
serves (R358); a front-end thread's threads are of its launch's width. -/
def spawnKey (s : State) (g : Grp) (wg : Workgroup) : Nat × Nat × DWord :=
  let who : Option Where := match g.w with
    | .handler c lv => ((s.core c).handler lv).map fun h => h.ev.who
    | w => some w
  match who.bind fun w => (s.sheetAt w).map fun sh => (w, sh) with
  | some (.sheet _ _ _, sh) => (sh.width, sh.c, sh.code)
  | _ => (wg.width, wg.c, wg.code)

/-- How many of `n` records the vat has room for, none when the key finds no bin (R75). -/
def Core.spawnRoom (k : Core) (g : Workgroup) (entry : Word) (key : Nat × Nat × DWord) (n : Nat) : Nat :=
  let m := min n (16384 - k.vatUsed)
  match k.addRecs g entry key.1 key.2.1 key.2.2 (List.replicate m ⟨[], none⟩) with
  | some _ => m
  | none => 0

/-- The records' queue entry: one lane each, with the record's bytes. -/
def spawnSq (s : State) (g : Grp) (id : Nat) (entry : Word) (key : Nat × Nat × DWord) (a : Opd) (n : Nat) (ls : List Nat) : SqEntry :=
  { id := id, kind := .spawn entry key.1 key.2.1 key.2.2, counted := false, pc := g.pc, word := s.curWord,
    lanes := ls.map fun l => ⟨l, 0#64, .ok (.spad (wCore g.w) 0) true, false, false,
      (recordWords g.sh l a n).flatMap (fun x => leBytes 4 x.toNat), []⟩ }

/-- The success predicate of each executing lane: set in accepted lanes, cleared in refused ones (R75, R357). -/
def spawnPreds (g : Grp) (d : Opd) (ok : List Nat) (sh : Sheet) : Sheet :=
  g.act.foldl (fun sh l => wr g.act d l (if ok.contains l then 1#64 else 0#64) sh) sh

/-- SPAWN (R356 to R358). -/
def execSpawn (c : Ctl) (n : BitVec 3) (d a disp : Opd) (s : State) : Res :=
  atWord s c fun s g =>
    match s.wgSlot g.w, s.wgOf g.w with
    | some _, some wg =>
      withSources s g (recordSrcs a (n.toNat + 1)) (
        if g.act.isEmpty then finish s g c g.sh
        else if ¬ g.sh.sqRoom then s.put g (waitHere g (.room false true) g.sh)
        else
          let entry := spawnEntry s g disp
          let key := spawnKey s g wg
          let ok := g.act.take ((s.pendingCore (wCore g.w)).spawnRoom wg entry key g.act.length)
          let sh := spawnPreds g d ok g.sh
          if ok.isEmpty then finish s g c sh
          else
            let (id, s) := s.fresh
            finish s g c (sh.addSq (spawnSq s g id entry key a (n.toNat + 1) ok)))
    | _, _ => trap s g .illegal 15 g.act

/-- The event in which the records at the head of an agent's store queue enter their bin at the vat (R74, R357), once the
lanes' earlier loads have performed. -/
def execSpawnRecordAccept (w : Where) (s : State) : Res :=
  .next (match s.sheetAt w with
    | none => s
    | some sh =>
      match sh.sq with
      | [] => s
      | e :: _ =>
        match e.kind with
        | .spawn entry width c code =>
          if e.lanes.all fun x => sh.mayAccept e x.lane then
            let s := match s.wgSlot w with
              | some slot => s.modCore (wCore w) fun k => k.spawnInto slot entry width c code e.lanes
              | none => s
            s.modSheet w fun sh => e.lanes.foldl (fun sh x => sh.sqDone e.id x.lane) sh
          else s
        | _ => s)

/-! ### The decision queue (R18, R79, R314, R315) -/

/-- Gives an entry to a waiting DQPOP. -/
def Sheet.giveDecision (sh : Sheet) (id : Nat) (x : DWord) : Sheet :=
  sh.modFill id fun f => { f with lanes := f.lanes.map fun y => { y with data := some (leBytes 8 x.toNat) } }

/-- Whether a DQPOP still waits. -/
def Workgroup.waits (g : Workgroup) (p : Nat × Nat) : Bool :=
  match (g.sheets[p.1]?).join with
  | some sh => sh.fills.any fun f => f.id == p.2
  | none => false

/-- A pushed entry goes to the oldest waiting DQPOP, or joins the queue. -/
def Workgroup.push (g : Workgroup) (x : DWord) : Workgroup :=
  match g.popWait.filter g.waits with
  | p :: rest => { g with popWait := rest, sheets := g.sheets.modify p.1 (Option.map fun sh => sh.giveDecision p.2 x) }
  | [] => { g with popWait := [], dq := g.dq ++ [x] }

/-- DQPUSH: a full queue makes the thread wait; it is a release at .wg. -/
def execDqpush (c : Ctl) (a : Opd) (s : State) : Res :=
  atWord s c fun s g =>
    withSources s g [(1, false, a)] (
      match g.act with
      | [] => finish s g c g.sh
      | l :: _ =>
        withRelease s g (some .wg) (
          if ((s.wgOf g.w).map (fun wg => wg.dq.length)).getD 0 < 64 then
            (finish s g c g.sh).modWgOf g.w fun wg => wg.push (rd64 s g a l)
          else s.put g (waitHere g .decisions g.sh)))

/-- DQPOP: the destination is empty; the oldest entry is taken at once, or the first that arrives, by all executing lanes, whose
later accesses perform after it (R168). -/
def execDqpop (c : Ctl) (d : Opd) (s : State) : Res :=
  atWord s c fun s g =>
    let ls := g.act
    if ls.isEmpty then finish s g c g.sh
    else
      let (id, s) := s.fresh
      let head := ((s.wgOf g.w).map (fun wg => wg.dq)).getD []
      let data : Option (List Byte) := head.head?.map fun x => leBytes 8 x.toNat
      let f : Fill :=
        { id := id, kind := .dqpop, dest := d, pc := g.pc, word := s.curWord,
          lanes := ls.map fun l => ⟨l, 0#64, .ok (.spad (wCore g.w) 0) true, false, data⟩ }
      let idx := match g.w with
        | .sheet _ _ i => i
        | _ => 0
      (finish s g c ((markEmptyAll ls false d id g.sh).addFill f)).modWgOf g.w fun wg =>
        match wg.dq with
        | _ :: rest => { wg with dq := rest }
        | [] => { wg with popWait := wg.popWait ++ [(idx, id)] }

end Sys2Proof.Machine
end

