-- ==== Sys2Proof/Machine/Threads.lean ====
section
/-!
DEFINITION. Events of threads and sheets: the deckle (R19, R26, R74, R76, R265), the ends of sheets, workgroups and quires
(R61, R62, R145, R153, R253, R317) and forced groups (R68).
-/

namespace Sys2Proof.Machine

/-! ### Register rows (R26) -/

/-- Register rows that a sheet of a width and count takes in its quadrant, in half-rows: a 16-wide sheet takes half of its rows'
columns, so two of equal C share them (R26). -/
def sheetRows (n16 c : Nat) : Nat := (n16 + 1) / 2 * c

/-- The sheets of a quadrant: width and register count of each. -/
def Core.quadUse (k : Core) (q : Nat) : List (Nat × Nat) :=
  (List.range 8).flatMap fun slot => match k.wg slot with
    | some g => (List.range g.sheets.length).filterMap fun i =>
        if i % 4 = q then ((g.sheets[i]?).join).map fun sh => (sh.width, sh.c) else none
    | none => []

/-- Rows that some sheets take together. Two 16-wide sheets of equal C share a set of rows wherever they were placed: a half that a partner
left is the next one's, and two lone halves count as one set (R26, log 54). -/
def rowsUsed (xs : List (Nat × Nat)) : Nat :=
  let wide := (xs.map fun x => if x.1 = 64 then 2 * x.2 else if x.1 = 32 then x.2 else 0).foldl (· + ·) 0
  let cs := ((xs.filter fun x => x.1 == 16).map (·.2)).eraseDups
  wide + (cs.map fun c => sheetRows (xs.filter fun x => x.1 == 16 && x.2 == c).length c).foldl (· + ·) 0

/-- More sheets fit a quadrant: rows and the limit of 32 sheets (R26). -/
def Core.quadFits (k : Core) (q : Nat) (more : List (Nat × Nat)) : Bool :=
  let xs := k.quadUse q ++ more
  decide (rowsUsed xs ≤ 2016) && decide (xs.length ≤ 32)

/-! ### The deckle (R19, R76, R265) -/

/-- The lane of a spawned thread (R19). -/
def recordLane (pc : Word) (r : SpawnRec) : Thread :=
  { (r.words.foldl (fun (a : Nat × Thread) x => (a.1 + 1, a.2.withV a.1 x)) (0, Thread.start pc)).2 with join := r.join }

/-- The sheet that some records make: lanes in the order of the bin, the unfilled ones inactive (R19). -/
def deckleSheet (b : Bin) (rs : List SpawnRec) (age : Nat) : Sheet :=
  { kind := .sheet, width := b.width, c := b.c, code := b.code, age := age,
    lanes := rs.map (recordLane b.entry) ++ List.replicate (b.width - rs.length) Thread.absent,
    u := [], m := [], sq := [], fills := [], pairs := [], gen := none }

/-- The slot of the resident workgroup that a bin belongs to. -/
def Core.binSlot (k : Core) (b : Bin) : Option Nat :=
  (List.range 8).find? fun slot => match k.wg slot with
    | some g => g.launch == b.launch && g.flat == b.flat
    | none => false

/-- The lowest free sheet index of a workgroup (R76). -/
def Workgroup.freeSheet (g : Workgroup) : Option Nat := (List.range 16).find? fun i => ((g.sheets[i]?).join).isNone

/-- A sheet in an index of a workgroup. -/
def Workgroup.putNew (g : Workgroup) (i : Nat) (sh : Sheet) : Workgroup :=
  { g with sheets := (g.sheets ++ List.replicate (16 - g.sheets.length) none).set i (some sh) }

/-- BIN_TIMER_EXPIRE: the timer of a bin with records runs out while its workgroup is resident (R76). -/
def execBinTimerExpire (core bin : Nat) (s : State) : Res :=
  .next (
    let k := s.core core
    match k.bins[bin]? with
    | some b =>
      if !b.recs.isEmpty && (k.binSlot b).isSome then
        s.modCore core fun k => { k with bins := k.bins.modify bin fun b => { b with expired := true } }
      else s
    | none => s)

/-- DECKLE_LAUNCH: a bin with a sheet's width of records, or whose timer has expired, launches once an index and rows are free
(R76). A portal thread's start is an acquire at .sys (R266). -/
def execDeckleLaunch (core bin : Nat) (s : State) : Res :=
  .next (
    let k := s.core core
    match k.bins[bin]? with
    | none => s
    | some b =>
      match k.binSlot b with
      | none => s
      | some slot =>
        match (k.wg slot).bind fun g => g.freeSheet.map fun i => (g, i) with
        | none => s
        | some (g, i) =>
          if b.recs.isEmpty || !(decide (b.width ≤ b.recs.length) || b.expired) || k.switch.isSome ||
              !k.quadFits (i % 4) [(b.width, b.c)] then s
          else
            let rs := b.recs.take b.width
            let left := b.recs.drop b.width
            let s := s.modCore core fun k =>
              { (k.modWg slot fun g => g.putNew i (deckleSheet b rs s.clock)) with
                bins := if left.isEmpty then k.bins.eraseIdx bin else k.bins.set bin { b with recs := left, expired := false } }
            if g.portal.isSome then s.acquire core .sys else s)

/-! ### The ends of sheets, workgroups and quires (R62, R317) -/

/-- No live lane, and nothing left in the store queue (R317). -/
def Sheet.isOver (sh : Sheet) : Bool := sh.liveLanes.isEmpty && sh.sq.isEmpty

/-- Takes the sheet or front-end thread of an agent out of its workgroup. -/
def Workgroup.drop (g : Workgroup) (w : Where) : Workgroup :=
  match w with
  | .front _ _ => { g with front := none }
  | .sheet _ _ i => { g with sheets := g.sheets.set i none }
  | .handler _ _ => g

/-- The arrival marks of an agent that has ended are no other sheet's. -/
def Workgroup.unmark (g : Workgroup) (w : Where) : Workgroup :=
  match agentKey w with
  | some k => { g with autoexit := g.autoexit.map fun o => { o with arrived := o.arrived.filter fun x => x.1 != k } }
  | none => g

/-- A workgroup has completed (R62): its threads, its records in the vat, its queued operations and its stores are done. -/
def State.unitOver (s : State) (c slot : Nat) (g : Workgroup) : Bool :=
  let k := s.core c
  g.front.isNone && g.sheets.all (·.isNone) && !g.finished &&
    k.bins.all (fun b => !(b.launch == g.launch && b.flat == g.flat)) &&
    k.mq.all (fun e => e.slot != slot) && k.xq.all (fun e => e.slot != slot) &&
    k.channels.all (fun ch => ch.q.all fun j => !inSlot slot j.who) &&
    s.flights.all (fun f => !atSlot c slot f.who) && s.engine.all fun e => !atSlot c slot e.who

/-- A workgroup that has completed ends its unit, and leaves its tags and AUTOEXIT objects (R62, R145, R153, R253). -/
def State.endWorkgroup (s : State) (c slot : Nat) : State :=
  match (s.core c).wg slot with
  | none => s
  | some g =>
    if s.unitOver c slot g then
      let s := s.modCore c fun k => (k.tagClear g).modWg slot fun g => { g with finished := true, autoexit := [], dq := [], popWait := [] }
      let s := { s with flows := s.flows.filter fun f => !(f.core == c && f.launch == g.launch && f.flat == g.flat) }
      (s.endUnit g.launch g.flat 0).freeQuire c g
    else s

/-- Requests of an agent that has ended leave the miss table (R316). -/
def Core.forget (k : Core) (w : Where) : Core :=
  { k with misses := (k.misses.map fun m => { m with reqs := m.reqs.filter fun r =>
      !(decide (r.who = w) && (match r.of with
        | .copy _ => false
        | _ => true)) }).filter fun m => !m.reqs.isEmpty }

/-- SHEET_END: a sheet or front-end thread that is over frees its place, and its workgroup completes if nothing of it is left. -/
def execSheetEnd (w : Where) (s : State) : Res :=
  .next (
    match w with
    | .handler _ _ => s
    | w =>
      let c := wCore w
      let slot := (wSlot w).getD 0
      match s.sheetAt w with
      | some sh =>
        if sh.isOver then (s.modCore c fun k => (k.forget w).modWg slot fun g => (g.drop w).unmark w).endWorkgroup c slot
        else s
      | none => s.endWorkgroup c slot)

/-! ### Forced groups (R68) -/

/-- GROUP_FORCED: cycles pass in which the ready group of a lane holds no slot; past ftime it is forced, unless the launch has
no progress promise. -/
def execGroupForced (w : Where) (lane cycles : Nat) (s : State) : Res :=
  .next (
    match s.sheetAt w, s.wgOf w with
    | some sh, some g =>
      let t := sh.lane lane
      if t.canIssue && t.slot.isNone && eligible sh lane then
        let n := groupWaited sh lane + cycles
        s.putSheet w (sh.modLanes (groupOf sh lane) fun t => { t with waited := n, forced := g.promise && decide (g.ftime < n) })
      else s
    | _, _ => s)

end Sys2Proof.Machine
end

