-- ==== Sys2Proof/Machine/Trouble.lean ====
section
/-!
DEFINITION. The owners' fault paths: walk events, the delivery of queued events, and what ends an owner stall (R220, R224,
R230, R231, R240, Table 16.10).
-/

namespace Sys2Proof.Machine

/-! ### Walks (R224, R230, R240) -/

/-- The lowest address that an entry's requests miss at. -/
def MissEntry.lowest (m : MissEntry) : DWord :=
  (m.reqs.foldl (fun (best : Option DWord) r => match best with
    | some b => if r.va.toNat < b.toNat then some r.va else some b
    | none => some r.va) none).getD 0#64

/-- Whether a request is of a handler level. -/
def MissReq.ofHandler (r : MissReq) : Bool :=
  match r.who with
  | .handler _ _ => true
  | _ => false

/-- The event of a walk round over some entries (R224, R240); SOURCE and LAUNCH are those of the oldest entry's first
request, as TCAUSE and TPC are (DEDUCED from R240, log 25). -/
def walkEvent (s : State) (c level : Nat) (ms : List MissEntry) : HEvent :=
  let first : Option MissReq := ms.head?.bind fun m => m.reqs.head?
  { who := .handler c level, grp := 0#64, cause := .walk, slot := (first.map (·.slot)).getD 15,
    access := (first.map (·.access)).getD 0, fmask := laneMask (List.range ms.length), dmask := 0#64,
    taddr := (ms.head?.map MissEntry.lowest).getD 0#64, tpc := (first.map (·.pc)).getD 0#32, word := 0#96,
    source := (first.map fun r => sourceWord r.who).getD 0#32, launch := (first.map fun r => s.launchIdOf r.who).getD 0#32,
    args := ms.mapIdx fun i m => (i, m.lowest, 0#32, 0#32, 0#32), of := none, left := false, page := ms.map (·.page),
    since := s.clock }

/-- WALK_EVENT: the oldest 64 or fewer entries go to the free level-1 slot; while a level-1 handler is frozen at its own miss,
its pages go to the level-2 slot (R224, R230). -/
def execWalkEvent (core : Nat) (s : State) : Res :=
  .next (
    let k := s.core core
    if k.stall.isSome then s
    else
      match k.h1, k.h2 with
      | none, _ =>
        let ms := (k.misses.filter fun m => m.reqs.all fun r => !r.ofHandler).take 64
        if ms.isEmpty then s else enterHandler s core 1 (walkEvent s core 1 ms) (handlerEntry .walk) false none
      | some h, none =>
        let ms := (k.misses.filter fun m => m.reqs.any MissReq.ofHandler).take 64
        if !h.frozen || ms.isEmpty then s
        else enterHandler s core 2 (walkEvent s core 2 ms) (handlerEntry .walk) false none
      | some _, some _ => s)

/-- HANDLER_DELIVERY: the free level-1 slot takes the oldest event, unless a walk goes ahead of it (R220, R224). -/
def execHandlerDelivery (core : Nat) (s : State) : Res :=
  .next (
    let k := s.core core
    match k.events with
    | [] => s
    | e :: rest =>
      if k.stall.isSome || k.h1.isSome || !k.misses.isEmpty || k.owner.isNone then s
      else enterHandler (s.modCore core fun k => { k with events := rest }) core 1 e (handlerEntry e.cause) false none)

/-! ### Owner stalls (R230, R231, Table 16.10) -/

/-- A stalled handler's code state as it goes on: its word issues again, and its held accesses miss anew. -/
def Sheet.resumed (sh : Sheet) : Sheet :=
  let again (done : Bool) (tr : Tr) : Tr := if done then tr else match tr with
    | .held _ => .miss
    | x => x
  { sh with
    lanes := sh.lanes.map (fun t => match t.wait with
      | .trapped | .held | .fetch => { t with wait := .ready }
      | _ => t),
    fills := sh.fills.map (fun f => { f with lanes := f.lanes.map fun x => { x with tr := again x.done x.tr } }),
    sq := sh.sq.map fun e => { e with lanes := e.lanes.map fun x => { x with tr := again x.done x.tr } } }

/-- A handler that the host has resumed. -/
def Handler.resumed (h : Handler) : Handler := { h with sheet := h.sheet.resumed, frozen := false }

/-- Saved state whose stall the host has ended. -/
def Saved.resumed (v : Saved) : Saved :=
  match v.stall with
  | none => v
  | some lv => if lv = 2 then { v with stall := none, h2 := v.h2.map Handler.resumed }
    else { v with stall := none, h1 := v.h1.map Handler.resumed }

/-- A COPY of a handler that stopped at a fault goes on. -/
def Channel.resumed (ch : Channel) : Channel :=
  { ch with q := ch.q.map fun j => match j.who with
      | .handler _ _ => { j with held := none }
      | _ => j }

/-- Owners whose saved context on a core is stalled. -/
def Owner.stalledAt (c : Nat) (o : Owner) : Bool := o.saves.any fun e => e.1 == c && e.2.stall.isSome

/-- STALL_RESUME: the host resumes the stalled context of a core, or the one that a change of owner has saved; the handler whose
access or word caused the stall issues it again, translated anew (R230). -/
def execStallResume (core : Nat) (s : State) : Res :=
  .next (
    match (s.core core).stall with
    | some lv =>
      let s := s.modCore core fun k =>
        { (k.modHandler lv Handler.resumed) with stall := none, channels := k.channels.map Channel.resumed }
      let w := Where.handler core lv
      match s.sheetAt w with
      | none => s
      | some sh =>
        let rs := (sh.openRequests w).filter fun r => !(s.core core).hasRequest w r.of r.lane
        if rs.isEmpty then s else reissue s w rs
    | none =>
      { s with owners := s.owners.map fun o =>
          { o with saves := o.saves.map fun e => if e.1 = core then (e.1, e.2.resumed) else e } })

/-- Launches of an owner that share a job with some launches (Table 16.10). -/
def State.jobMates (s : State) (o : Nat) (ls : List Nat) : List Nat :=
  let jobs := (ls.filterMap fun li => (s.launches[li]?).map fun l => l.pkt.job).filter fun j => j != 0
  (List.range s.launches.length).filter fun li => ls.contains li || (match s.launches[li]? with
    | some l => l.owner == o && jobs.contains l.pkt.job
    | none => false)

/-- The stalled context of a core ends (Table 16.10): the launches with a workgroup there, and those of their jobs, are
cancelled with status DOUBLEFAULT, and no handler is left, nor a COPY of one. A change of owner that the stall held up goes on without state. -/
def cancelStalled (s : State) (c : Nat) : State :=
  let k := s.core c
  match k.owner with
  | none => s
  | some o =>
    let mine := match k.switch with
      | some (.saving _) => (k.saved.map Saved.launches).getD []
      | some .restoring => ((s.owner o).bind fun x => (x.saves.find? fun e => e.1 == c).map fun e => e.2.launches).getD []
      | _ => s.launchesOn c
    let s := s.cancelAll (s.jobMates o mine) 5
    let s := s.modCore c fun k =>
      { k with h1 := none, h2 := none, stall := none, misses := k.misses.filter (fun m => m.reqs.all fun r => !r.ofHandler),
               channels := k.channels.map fun ch => { ch with q := ch.q.filter fun j => !ofHandler j.who } }
    match k.switch with
    | some (.saving next) => endSave s c next none none
    | some .restoring => (s.modOwner o fun x => { x with saves := x.savesWith c none }).modCore c fun k =>
        { k with switch := none, context := [] }
    | _ => s

/-- The saved stalled contexts of a core end (R231). -/
def cancelSavedStall (s : State) (c : Nat) : State :=
  (s.owners.filter (Owner.stalledAt c)).foldl (fun s o =>
    let mine := ((o.saves.find? fun e => e.1 == c).map fun e => e.2.launches).getD []
    (s.cancelAll (s.jobMates o.id mine) 5).modOwner o.id fun x =>
      { x with saves := x.saves.map fun e => if e.1 = c then (e.1, { e.2 with h1 := none, h2 := none, stall := none }) else e }) s

/-- The host's cancellation and the stall limit end a stall alike. -/
def endStall (s : State) (c : Nat) : State := if (s.core c).stall.isSome then cancelStalled s c else cancelSavedStall s c

/-- STALL_CANCEL. -/
def execStallCancel (core : Nat) (s : State) : Res := .next (endStall s core)

/-- STALL_LIMIT_EXPIRE. -/
def execStallLimitExpire (core : Nat) (s : State) : Res := .next (endStall s core)

end Sys2Proof.Machine
end

