-- ==== Sys2Proof/Machine/Time.lean ====
section
/-!
DEFINITION. Time and owners on cores: the ticks of quanta and token buckets, and when a core changes hands (R232 to R235, R239,
R258, Table 16.11).
-/

namespace Sys2Proof.Machine

/-! ### Work that waits for a core (R258) -/

/-- Whether an owner's saved state on a core holds a workgroup. -/
def Owner.savedOn (o : Owner) (c : Nat) : Bool := o.saves.any fun e => e.1 == c && e.2.wgs.any (·.isSome)

/-- Whether an owner has work waiting for a core: a workgroup saved there, or a quire to be placed on its die, where the owner is
not quarantined. -/
def State.wants (s : State) (o : Owner) (c : Nat) : Bool :=
  !(s.core c).quarantined.contains o.id && (o.savedOn c ||
    s.launches.any fun l => l.owner == o.id && !l.ended && !l.unplaced.isEmpty && l.die == coreDie c)

/-- Another owner's work waits for a core. -/
def State.othersWant (s : State) (c : Nat) : Bool :=
  s.owners.any fun o => decide ((s.core c).owner ≠ some o.id) && s.wants o c

/-- The holder runs a handler. -/
def Core.handling (k : Core) : Bool := k.h1.isSome || k.h2.isSome

/-- The holder has no workgroup on a core. -/
def Core.idle (k : Core) : Bool := k.wgs.all (·.isNone)

/-- Whether a core goes from its holder to an owner now (R258). -/
def State.handsOver (s : State) (c : Nat) (b : Owner) : Bool :=
  let k := s.core c
  match k.owner.bind s.owner with
  | none => true
  | some a =>
    decide (b.prio < a.prio) || k.idle ||
      (b.prio == a.prio && decide (k.quant ≤ 0) && (!k.handling || decide (k.quant ≤ -20000)))

/-! ### QUANT_TICK and TOKEN_TICK (R232, R239, R258) -/

/-- QUANT_TICK: 5 ns of the holder's quantum pass; with no other owner's work waiting it is renewed as it runs out. Between the wipe
and the load of step 6 the time is the next owner's (R236); a hard save's time passes before it, while the holder still has the core. -/
def execQuantTick (core : Nat) (s : State) : Res :=
  .next (
    let k := s.core core
    match k.owner, k.switch with
    | some o, _ =>
      let q := k.quant - 5
      let full : Int := ((s.owner o).map fun x => (x.quantum : Int)).getD 0
      let q := if q ≤ 0 ∧ ¬ s.othersWant core then full + q else q
      s.modCore core fun k => { k with quant := q }
    | none, some (.saved next) => s.modOwner next fun x => { x with debts := SMap.set 0 x.debts core (SMap.get 0 x.debts core - 5) }
    | none, _ => s)

/-- A bucket after one tick: it gains its rate for 5 ns, kept to 1/256 byte, up to its depth. -/
def refill (balance : Int) (rate depth : Nat) : Int := min (balance + (rate * 5 * 256 / 1000 : Nat)) (depth * 256 : Nat)

/-- The JOIN of a refused record gains 2^32 (R266). -/
def State.addRefused (s : State) (t : Target) : State :=
  let s := s.glance t 8
  s.serviceStore t (leBytes 8 (leNat (s.bytesAt t 8) + 2 ^ 32))

/-- Where an owner's address lies, by a translation that one of its cores holds. -/
def State.mapped (s : State) (owner : Nat) (va : DWord) : Option Target :=
  (List.range s.cores.length).findSome? fun c =>
    if (s.core c).owner = some owner then (match s.translate c .atomic va with
      | .ok t _ => some t
      | _ => none) else none

/-- The JOINs of an owner's refused records that some core maps now gain their 2^32; the others stay owed (R266, log 18). -/
def State.settleJoins (s : State) (owner : Nat) : State :=
  let due (x : Nat × DWord) : Option Target := if x.1 = owner then s.mapped owner x.2 else none
  { (s.joins.filterMap due).foldl State.addRefused s with joins := s.joins.filter fun x => (due x).isNone }

/-- TOKEN_TICK: the owner's buckets gain what 5 ns bring. A bucket stays dry while it is empty, or a handler still waits for it
(R232). The joins owed to the owner's refused records are tried again. -/
def execTokenTick (owner : Nat) (s : State) : Res :=
  .next ((s.settleJoins owner).modOwner owner fun o =>
    let h := refill o.hbm o.hbmRate o.hbmDepth
    let k := refill o.lnk o.lnkRate o.lnkDepth
    { o with hbm := h, lnk := k, hbmDry := decide (h ≤ 0) || (o.hbmDry && s.handlerWaits owner false),
             lnkDry := decide (k ≤ 0) || (o.lnkDry && s.handlerWaits owner true) })

/-! ### OWNER_SWITCH (R233, R258) -/

/-- A COPY or transform that has started and not been stopped by a fault. -/
def Core.enginesQuiet (k : Core) : Bool :=
  k.channels.all (fun ch => match ch.q with
    | j :: _ => !j.started || j.held.isSome
    | [] => true) && (match k.xq with
    | j :: _ => !j.started
    | [] => true)

/-- A core whose threads can be saved: producers ended, queues drained or held, engines at their boundaries, and nothing of it, or
toward it, on its way (R37, R233 step 2). -/
def State.coreQuiet (s : State) (c : Nat) : Bool :=
  let k := s.core c
  (k.codes.all (Sheet.drained s.variant)) && k.enginesQuiet && s.agentsQuiet (fun w => wCore w == c) &&
    s.flights.all fun f => match f.target with
      | .spad d _ => d != c
      | _ => true

/-- Two cores hold members of one quire, or an owner's saved states on them do: a quire is switched whole (Table 4.1). -/
def State.sharesQuire (s : State) (o : Owner) (c d : Nat) : Bool :=
  let both (xs ys : List (Option Workgroup)) : Bool := xs.any fun x => ys.any fun y => match x, y with
    | some g, some h => g.launch == h.launch && g.quire == h.quire && g.portal.isNone && h.portal.isNone
    | _, _ => false
  let saved (e : Nat) : List (Option Workgroup) := ((o.saves.find? fun x => x.1 == e).map fun x => x.2.wgs).getD []
  both (s.core c).wgs (s.core d).wgs || both (saved c) (saved d)

/-- Cores with those that share a quire with one of them. -/
def State.withPartners (s : State) (o : Owner) (cs : List Nat) : List Nat :=
  (quireCores (cs.headD 0)).filter fun d => cs.contains d || cs.any fun c => s.sharesQuire o c d

/-- The cores that go to an owner together with a core: those of its quires, and of theirs. -/
def State.together (s : State) (o : Owner) (c : Nat) : List Nat :=
  (s.withPartners o (s.withPartners o (s.withPartners o [c]))).filter fun d => decide ((s.core d).owner ≠ some o.id)

/-- A core that nobody else wants goes with the core that its holder loses to an owner: they hold members of one quire (Table 4.1), and a
quantum that is renewed at every tick would keep it for ever (R258). A handler runs to its end. -/
def State.goesAlong (s : State) (core c : Nat) : Bool :=
  c != core && decide ((s.core c).owner = (s.core core).owner) && !s.othersWant c && !(s.core c).handling

/-- A core may start to go to an owner now, with the core that the owner wants: it is handed over or goes along, in no other change, and what
it holds can be saved. -/
def State.maySwitch (s : State) (o : Owner) (core c : Nat) : Bool :=
  (s.core c).switch.isNone && (s.handsOver c o || s.goesAlong core c) && ((s.core c).owner.isNone || s.coreQuiet c)

/-- A core starts to go to an owner. -/
def State.switchTo (o : Owner) (s : State) (c : Nat) : State :=
  if (s.core c).owner.isNone then beginRestore s c o.id else beginSave s c o.id

/-- OWNER_SWITCH: the core goes toward an owner, together with the cores that hold the rest of its quires. It first stops and saves the
holder, and once that is saved it loads the next. -/
def execOwnerSwitch (core owner : Nat) (s : State) : Res :=
  .next (
    match s.owner owner with
    | none => s
    | some b =>
      match (s.core core).switch with
      | some (.saved next) =>
        if next = owner ∨ (s.owner next).isNone then beginRestore s core owner else s
      | some _ => s
      | none =>
        let cs := s.together b core
        if decide ((s.core core).owner ≠ some owner) && s.wants b core && cs.all (s.maySwitch b core) then cs.foldl (State.switchTo b) s else s)

/-- SAVE_GRACE_EXPIRE: the save handler has had its 50 µs, and hardware saves the state (R233 step 4, R235). -/
def execSaveGraceExpire (core : Nat) (s : State) : Res :=
  .next (
    match (s.core core).switch with
    | some (.saving next) =>
      if (s.core core).h1.isSome then
        hardSave (s.modCore core fun k => { k with h1 := none, h2 := none, stall := none, misses := [] }) core next
      else s
    | _ => s)

/-- The owner in the holder's class that a core goes to when a handler has run to its limit: the first whose work waits. -/
def State.nextOwner (s : State) (c : Nat) : Option Owner :=
  s.owners.find? fun b => decide ((s.core c).owner ≠ some b.id) && s.wants b c && s.handsOver c b

/-- HANDLER_DEBT_LIMIT: a handler that has run on to a quant of -20,000 ns is stopped and saved with its owner's state (R258,
Table 16.11). -/
def execHandlerDebtLimit (core : Nat) (s : State) : Res :=
  .next (
    let k := s.core core
    if k.switch.isNone && k.handling && decide (k.quant ≤ -20000) && s.coreQuiet core then
      match s.nextOwner core with
      | some b => let cs := s.together b core; if cs.all (s.maySwitch b core) then cs.foldl (State.switchTo b) s else s
      | none => s
    else s)

end Sys2Proof.Machine
end

