-- ==== Sys2Proof/Machine/Placement.lean ====
section
/-!
DEFINITION. The service processors' placement: which quire goes where (R250), a workgroup's start (R246), pre-emption and restore
within one owner (R226, R259), LAUNCH with its core's launch queue (R252) and the watchdog (R260).
-/

namespace Sys2Proof.Machine

/-! ### Room for a member (R250) -/

/-- Some ranges leave `[a, a + n)` free. -/
def rangeFree (used : List (Nat × Nat)) (a n : Nat) : Bool := used.all fun u => decide (u.1 + u.2 ≤ a) || decide (a + n ≤ u.1)

/-- The lowest place for `n` below a limit: 0, or the end of a range in use. -/
def lowestHole (used : List (Nat × Nat)) (n limit : Nat) : Option Nat :=
  (0 :: used.map fun u => u.1 + u.2).foldl (fun (best : Option Nat) a =>
    if a + n ≤ limit ∧ rangeFree used a n then match best with
      | some b => some (min a b)
      | none => some a
    else best) none

/-- The workgroups on a core, pre-empted ones among them: all keep their allocations (R259). -/
def Core.groups (k : Core) : List Workgroup := k.wgs.filterMap id

/-- A sum over a core's workgroups. -/
def Core.total (k : Core) (f : Workgroup → Nat) : Nat := (k.groups.map f).foldl (· + ·) 0

/-- A free workgroup slot. -/
def Core.freeSlot (k : Core) : Option Nat := (List.range 8).find? fun i => (k.wg i).isNone

/-- The sheets of a quadrant that a workgroup of `n` sheets brings. -/
def newSheets (n width c q : Nat) : List (Nat × Nat) := ((List.range n).filter fun i => i % 4 == q).map fun _ => (width, c)

/-- A core that a quire of an owner may be placed on. -/
def Core.usable (k : Core) (o : Nat) : Bool :=
  decide (k.owner = some o) && !k.quarantined.contains o && k.switch.isNone

/-- The lowest free tag sets of a core, as many as a workgroup takes (R145, R250). -/
def Core.freeSets (k : Core) (n : Nat) : Option (List Nat) :=
  let free := (List.range 512).filter fun i => k.groups.all fun g => !g.tagIdx.contains i
  if n ≤ free.length then some (free.take n) else none

/-- Where a member of a launch would stand on a core: slot, scratchpad base and tag sets (R211, R250). -/
def Core.room (k : Core) (o : Owner) (p : LaunchPkt) : Option (Nat × Nat × List Nat) :=
  if !k.usable o.id || !([0, 1, 2, 3].all fun q => k.quadFits q (newSheets p.sheets p.width p.regs q)) ||
      decide (o.accMax < k.total (·.accRows) + p.acc) || decide (o.mouldMax < k.total (·.mouldUse) + 256 * p.mould) then none
  else
    match k.freeSlot, lowestHole (k.groups.map fun g => (g.spadBase, g.spadSize)) p.spad o.spadMax,
        k.freeSets p.tagSets with
    | some slot, some a, some t => some (slot, a, t)
    | _, _, _ => none

/-- The cores of a physical quire that a new quire takes (R250). -/
def State.quireFit (s : State) (o : Owner) (p : LaunchPkt) (pq : Nat) : Option (List Nat) :=
  let cs := ((List.range 4).map fun i => 4 * pq + i).filter fun c =>
    decide (c < s.cores.length) && ((s.core c).room o p).isSome
  if p.qn ≤ cs.length then some (cs.take p.qn) else none

/-- The physical quires of a die, in core order. -/
def dieQuires (die : Nat) : List Nat := [3 * die, 3 * die + 1, 3 * die + 2]

/-! ### Quires that wait -/

/-- A quire that waits: of a launch, its number, and the cores that hold it when it is a pre-empted one. -/
structure Waiting where
  launch : Nat
  quire : Nat
  back : List (Nat × Nat)
  deriving DecidableEq, Repr

/-- Pre-empted workgroups of a core, by their index from 8 on. -/
def Core.away (k : Core) : List (Nat × Workgroup) :=
  (List.range k.wgs.length).filterMap fun i => if 8 ≤ i then (k.wg i).map fun g => (i, g) else none

/-- The pre-empted members of a quire, as core and index, by rank order of cores. -/
def State.awayMembers (s : State) (li q : Nat) : List (Nat × Nat) :=
  (List.range s.cores.length).flatMap fun c =>
    ((s.core c).away.filter fun x => x.2.launch == li && x.2.quire == q).map fun x => (c, x.1)

/-- Every quire that waits for a place: pre-empted ones, and those of launches that are not placed yet. -/
def State.waiting (s : State) : List Waiting :=
  (List.range s.launches.length).flatMap fun li =>
    match s.launches[li]? with
    | none => []
    | some l =>
      if l.ended then []
      else
        let qs := ((List.range s.cores.length).flatMap fun c =>
          ((s.core c).away.filter fun x => x.2.launch == li).map fun x => x.2.quire).eraseDups
        (qs.map fun q => ⟨li, q, s.awayMembers li q⟩) ++ l.unplaced.map fun q => ⟨li, q, []⟩

/-- A pre-empted member has a slot and register rows again on its core (R259). -/
def Core.roomBack (k : Core) (g : Workgroup) : Bool :=
  k.usable g.owner && k.freeSlot.isSome &&
    [0, 1, 2, 3].all fun q => k.quadFits q ((List.range g.sheets.length).filterMap fun i =>
      if i % 4 = q then ((g.sheets[i]?).join).map fun sh => (sh.width, sh.c) else none)

/-- The core whose launch queue holds a launch (R252). -/
def State.launcher (s : State) (li : Nat) : Option Nat :=
  (List.range s.cores.length).find? fun c => (s.core c).launchQ.contains li

/-- The cores that a waiting quire takes now, by preference (R250, R252, R259). -/
def State.fit (s : State) (w : Waiting) : Option (List Nat) :=
  match s.launches[w.launch]? with
  | none => none
  | some l =>
    match s.owner l.owner with
    | none => none
    | some o =>
      if !w.back.isEmpty then
        if w.back.all fun m => (((s.core m.1).wg m.2).map (s.core m.1).roomBack).getD false then some (w.back.map (·.1)) else none
      else
        let own : Option (List Nat) := (s.launcher w.launch).bind fun c => s.quireFit o l.pkt (c / 4)
        match own with
        | some cs => some cs
        | none => (dieQuires l.die).findSome? fun pq => s.quireFit o l.pkt pq

/-- The rank of a waiting quire (R250), smaller first. A launch of an instruction has no queue: priority 0 and no number (log 14). -/
def State.rankOf (s : State) (w : Waiting) : List Int :=
  match s.launches[w.launch]? with
  | none => []
  | some l =>
    let prio : Int := ((s.owner l.owner).map fun o => (o.prio : Int)).getD 0
    let quant : Int := match s.fit w with
      | some cs => (cs.map fun c => (s.core c).quant).foldl max (-(2 ^ 62))
      | none => -(2 ^ 62)
    let qprio : Int := match l.queue.bind fun q => s.queues[q]? with
      | some q => (q.qprio.toNat % 4 : Nat)
      | none => 0
    [prio, -quant, -qprio, if w.back.isEmpty then 1 else 0, l.index, w.quire, (l.queue.getD 1000 : Nat)]

/-- Lexicographic order of ranks. -/
def ranksBelow : List Int → List Int → Bool
  | a :: x, b :: y => decide (a < b) || (a == b && ranksBelow x y)
  | _, _ => false

/-! ### A workgroup starts (R246) -/

/-- Writes one W or S register of a starting sheet. -/
def Sheet.withU (sh : Sheet) (i : Nat) (x : Word) : Sheet := sh.setU i ⟨x, []⟩

/-- A sheet at its start: every lane live at an entry, ARG in w0:w1 or s0:s1. -/
def startSheet (p : LaunchPkt) (kind : CodeKind) (width entry age : Nat) : Sheet :=
  let sh : Sheet :=
    { kind := kind, width := width, c := p.regs, code := p.code, age := age, lanes := List.replicate width (Thread.start (BitVec.ofNat 32 (12 * entry))),
      u := [], m := [], sq := [], fills := [], pairs := [], gen := none }
  (sh.withU 0 (loWord p.arg)).withU 1 (hiWord p.arg)

/-- A member of a quire at its start. -/
def startGroup (l : Launch) (li flat rank quire spadBase : Nat) (tagIdx : List Nat) (age : Nat) : Workgroup :=
  let p := l.pkt
  { launch := li, flat := flat, x := BitVec.ofNat 32 (flat % p.gridX), y := BitVec.ofNat 32 (flat / p.gridX % p.gridY),
    z := BitVec.ofNat 32 (flat / (p.gridX * p.gridY)), qrank := rank, quire := quire, owner := l.owner, width := p.width,
    c := p.regs, code := p.code, sentry := BitVec.ofNat 32 p.sentry, spadBase := spadBase, spadSize := p.spad,
    slotLog := p.slotLog, tagIdx := tagIdx, accRows := p.acc, mouldUse := 256 * p.mould,
    ftime := p.ftime, promise := !p.noPromise, binTime := p.bint,
    front := if p.fentry = 0xFFFF then none else some (startSheet p .front 1 p.fentry age),
    sheets := (List.range 16).map fun i => if i < p.sheets then some (startSheet p .sheet p.width p.sentry age) else none,
    dq := [], popWait := [], orc := 0, agw := none, issued := 0, autoexit := [], portal := none, savedMq := [], finished := false }

/-- One member is placed on a core, and starts after an acquire at .sys (R246). -/
def placeMember (l : Launch) (o : Owner) (w : Waiting) (s : State) (x : Nat × Nat) : State :=
  match (s.core x.2).room o l.pkt with
  | none => s
  | some (slot, a, t) =>
    let g := startGroup l w.launch (w.quire * l.pkt.qn + x.1) x.1 w.quire a t s.clock
    (s.modCore x.2 fun k => { k with wgs := k.wgs.set slot (some g) }).acquire x.2 .sys

/-- A launch leaves its core's launch queue once it is placed in whole, or has gone to the service processor (R252). -/
def leaveQueue (s : State) (li : Nat) (cs : List Nat) : State :=
  match s.launcher li with
  | none => s
  | some c =>
    let placed := ((s.launches[li]?).map fun l => l.unplaced.isEmpty).getD true
    if placed || cs.any (fun d => d / 4 != c / 4) then s.modCore c fun k => { k with launchQ := k.launchQ.filter fun x => x != li }
    else s

/-! ### Agents that move between places -/

/-- An agent's place after its workgroup has moved from one index to another. -/
def moveWhere (c old new : Nat) : Where → Where
  | .front d i => if d = c ∧ i = old then .front d new else .front d i
  | .sheet d i k => if d = c ∧ i = old then .sheet d new k else .sheet d i k
  | w => w

/-- A workgroup moves to another index of its core, with what names it there. -/
def State.moveGroup (s : State) (c old new : Nat) (g : Workgroup) : State :=
  let mv := moveWhere c old new
  s.modCore c fun k =>
    { k with
      wgs := ((k.wgs ++ List.replicate (new + 1 - k.wgs.length) none).set old none).set new (some g),
      channels := k.channels.map (fun ch => { ch with q := ch.q.map fun j => { j with who := mv j.who } }),
      xq := k.xq.map (fun j => if j.slot = old then { j with slot := new } else j),
      mq := k.mq.map (fun e => if e.slot = old then { e with slot := new } else e),
      misses := k.misses.map (fun m => { m with reqs := m.reqs.map fun r => { r with who := mv r.who } }),
      events := k.events.map fun e => { e with who := mv e.who } }

/-- Requests and events of an agent that is saved, but for its COPYs' (R226, R259). -/
def Core.withdraw (k : Core) (slot : Nat) : Core :=
  let copyOf : ReqOf → Bool := fun of => match of with
    | .copy _ => true
    | _ => false
  { k with
    misses := (k.misses.map fun m => { m with reqs := m.reqs.filter fun r => !inSlot slot r.who || copyOf r.of }).filter (fun m =>
      !m.reqs.isEmpty),
    events := k.events.filter fun e => !inSlot slot e.who || ((e.of.map copyOf).getD false) }

/-! ### PREEMPT (R259) -/

/-- A member of a quire can be saved now: drained, and none of its events, a walk among them, being served (R37, R226). -/
def State.memberQuiet (s : State) (m : Nat × Nat) : Bool :=
  let k := s.core m.1
  decide (m.2 < 8) && k.stall.isNone && k.switch.isNone && (match k.wg m.2 with
    | some g => g.codes.all (Sheet.drained s.variant)
    | none => false) &&
    s.agentsQuiet (atSlot m.1 m.2) && k.servedEvents.all fun e => !inSlot m.2 e.who &&
      k.misses.all fun x => !e.page.contains x.page || x.reqs.all fun r => !inSlot m.2 r.who

/-- A member is saved: it leaves its slot and its register rows, its matrix entries go with it, and its COPYs run on. -/
def saveMember (s : State) (m : Nat × Nat) : State :=
  let s := (cutMatrix s m.1 m.2).takesDone m.1 m.2
  match (s.core m.1).wg m.2 with
  | none => s
  | some g =>
    let k := s.core m.1
    let mine := k.mq.filter fun e => e.slot == m.2
    let g := { g.withdrawn [] k.events m.1 m.2 with savedMq := mine }
    let s := s.modCore m.1 fun k => { (k.withdraw m.2) with mq := k.mq.filter fun e => e.slot != m.2 }
    let s := { s with monitors := s.monitors.filter fun x => !atSlot m.1 m.2 x.who }
    s.moveGroup m.1 m.2 (max 8 k.wgs.length) g

/-- The resident quires of a waiting quire's owner that rank below it, as restored work, which they are once saved, each as its members
(R250, R259). -/
def State.lowerQuires (s : State) (w : Waiting) : List (List (Nat × Nat)) :=
  let o := (s.launches[w.launch]?).map (·.owner)
  let below (g : Workgroup) : Bool := decide (o = some g.owner) && g.portal.isNone && decide (g.launch ≠ w.launch ∨ g.quire ≠ w.quire) &&
    ranksBelow ((s.rankOf w).drop 2) ((s.rankOf ⟨g.launch, g.quire, [(0, 0)]⟩).drop 2)
  ((List.range s.cores.length).flatMap fun c => (List.range 8).filterMap fun i => ((s.core c).wg i).bind fun g =>
    if below g then some (s.quireMembers c g) else none).eraseDups

/-- The state with some quires saved. -/
def State.withSaved (s : State) (qs : List (List (Nat × Nat))) : State := qs.foldl (fun s ms => ms.foldl saveMember s) s

/-- Of quires that together make room for a waiting one those without which there would be none, the first spared first (log 14). -/
def State.needed (s : State) (w : Waiting) (kept : List (List (Nat × Nat))) : List (List (Nat × Nat)) → List (List (Nat × Nat))
  | [] => kept
  | q :: rest => if ((s.withSaved (kept ++ rest)).fit w).isSome then s.needed w kept rest else s.needed w (kept ++ [q]) rest

/-- Once some quires have been saved, none of them goes ahead of the waiting one for which they were (R250, R259). -/
def State.staysFirst (s : State) (w : Waiting) (qs : List (List (Nat × Nat))) : Bool :=
  let t := s.withSaved qs
  t.waiting.all fun v => s.waiting.contains v || !ranksBelow (t.rankOf v) (t.rankOf w)

/-- Saving a quire makes room for a waiting one that fits nowhere, alone or with others that rank below it too (R250, R259). -/
def State.makesRoom (s : State) (w : Waiting) (ms : List (Nat × Nat)) : Bool :=
  let qs := s.lowerQuires w
  (s.fit w).isNone && qs.contains ms && ((s.withSaved qs).fit w).isSome && (
    let out := s.needed w [] (qs.filter (fun q => decide (q ≠ ms)) ++ [ms])
    out.contains ms && s.staysFirst w out)

/-- PREEMPT: the quire of a slot is saved, where that makes room for a quire of the same owner that ranks above it and fits nowhere. -/
def execPreempt (core slot : Nat) (s : State) : Res :=
  .next (
    match (s.core core).wg slot with
    | none => s
    | some g =>
      let ms := s.quireMembers core g
      if g.portal.isNone && ms.all s.memberQuiet && s.waiting.any fun w => s.makesRoom w ms then ms.foldl saveMember s else s)

/-! ### PLACE_QUIRE (R250, R252, R259) -/

/-- A pre-empted member takes a slot of its core again: its matrix entries rejoin the queue, its waits arm and its faulted lanes
issue again; its sheets take a new age (R38, R81, R136, R226). -/
def restoreMember (s : State) (m : Nat × Nat) : State :=
  match (s.core m.1).wg m.2, (s.core m.1).freeSlot with
  | some g, some slot =>
    let s := s.moveGroup m.1 m.2 slot { g.renewed s.clock with savedMq := [] }
    let s := s.modCore m.1 fun k => { k with mq := k.mq ++ g.savedMq.map fun e => { e with slot := slot } }
    (g.agents m.1 slot).foldl reissueAgent s
  | _, _ => s

/-- The die whose service processor places a waiting quire (R248, R252). -/
def State.dieOf (s : State) (w : Waiting) : Option Nat := (s.launches[w.launch]?).map (·.die)

/-- PLACE_QUIRE: a waiting quire is placed on the cores that R250 gives it, unless one of its die that ranks above it fits somewhere. -/
def execPlaceQuire (launch quire : Nat) (cores : List Nat) (s : State) : Res :=
  .next (
    match s.waiting.find? fun w => w.launch == launch && w.quire == quire with
    | none => s
    | some w =>
      let ahead := s.waiting.any fun v => decide (v ≠ w) && decide (s.dieOf v = s.dieOf w) && (s.fit v).isSome && ranksBelow (s.rankOf v) (s.rankOf w)
      if ahead || decide (s.fit w ≠ some cores) then s
      else if !w.back.isEmpty then w.back.foldl restoreMember s
      else
        match s.launches[launch]? with
        | none => s
        | some l =>
          match s.owner l.owner with
          | none => s
          | some o =>
            let s := (cores.mapIdx fun i c => (i, c)).foldl (placeMember l o w) s
            leaveQueue (s.modLaunch launch fun l => { l with unplaced := l.unplaced.filter fun q => q != quire }) launch cores)

/-! ### LAUNCH (R252) -/

/-- Whether a core's launch queue is full. -/
def Core.launchFull (k : Core) : Bool := decide (16 ≤ k.launchQ.length)

/-- A core hands the launches of its queue that do not fit its own physical quire to its die's service processor (R252). -/
def State.handOff (s : State) (co : Nat) : State :=
  let stays (li : Nat) : Bool := match s.launches[li]? with
    | some l => ((s.owner l.owner).bind fun o => s.quireFit o l.pkt (co / 4)).isSome
    | none => false
  s.modCore co fun k => { k with launchQ := k.launchQ.filter stays }

/-- LAUNCH. A full launch queue first hands off what it cannot place. -/
def execLaunch (c : Ctl) (d a b : Opd) (s : State) : Res :=
  atWord s c fun s g =>
    withSources s g [(1, false, a), (2, false, b)] (
      match g.act, s.ownerOf g.w with
      | l :: _, some o =>
        let co := wCore g.w
        let va := ea s g a b l
        withLocal s g false 64 .read .none [(l, va)] fun al =>
          withRelease s g (some .dev) (
            let (s, bs) := s.loadBytes co (al.target va) 64
            let st := launchStatus o bs
            if st ≠ 0 then finish s g c (wr g.act d l (BitVec.ofNat 64 st) g.sh)
            else if ((s.handOff co).core co).launchFull then s.put g (waitHere g .launches g.sh)
            else
              let s := if (s.core co).launchFull then s.handOff co else s
              let (s, li) := s.createLaunch o.id (launchFields bs) none s.launches.length (coreDie co)
              (finish s g c (wr g.act d l 0#64 g.sh)).modCore co fun k => { k with launchQ := k.launchQ ++ [li] })
      | _, _ => finish s g c g.sh)

/-! ### WATCHDOG_EXPIRE (R260) -/

/-- Some workgroup of a launch is resident. -/
def State.resident (s : State) (li : Nat) : Bool :=
  (List.range s.cores.length).any fun c => (List.range 8).any fun slot =>
    (((s.core c).wg slot).map fun g => g.launch == li && !g.finished).getD false

/-- WATCHDOG_EXPIRE: `us` microseconds pass with the launch resident; at its limit it is cancelled with status WATCHDOG. -/
def execWatchdogExpire (launch us : Nat) (s : State) : Res :=
  .next (
    match s.launches[launch]? with
    | none => s
    | some l =>
      if l.ended || !s.resident launch then s
      else
        let s := s.modLaunch launch fun l => { l with elapsed := l.elapsed + us }
        if l.pkt.watchdog ≤ l.elapsed + us then s.cancelLaunch launch 2 else s)

end Sys2Proof.Machine
end

