-- ==== Sys2Proof/Machine/Queues.lean ====
section
/-!
DEFINITION. The hardware queues and their packets (R241 to R249), and the ingest control packets (R269, R270, R272).
-/

namespace Sys2Proof.Machine

/-! ### Addresses in the form of QBASE (Table 18.1) -/

/-- The physical addresses of the owner's extents of device memory. -/
def Owner.spans (o : Owner) : List (Nat × Nat) :=
  o.extents.filterMap fun e =>
    if e.valid && decide (e.base.toNat < 2 ^ 44) then some (e.base.toNat, e.base.toNat + e.units * 65536) else none

/-- `n` bytes of device memory lie in the owner's extents (R210). -/
def Owner.holds (o : Owner) (pa n : Nat) : Bool := spansHold o.spans o.spans.length pa (pa + n)

/-- Bit 63 clear: `n` bytes of device memory in the owner's extents; bit 63 set: a host address. Either way aligned. -/
def Owner.formOk (o : Owner) (a : DWord) (n align : Nat) : Bool := a.toNat % align == 0 && (a.getLsbD 63 || o.holds a.toNat n)

/-- What an address in the form of QBASE names. -/
def formTarget (a : DWord) : Target := if a.getLsbD 63 then .host (a.toNat % 2 ^ 63) else .dev a.toNat

/-- A doubleword field of a packet. -/
def pktAddr (bs : List Byte) (off : Nat) : DWord := BitVec.ofNat 64 (pktField bs off 8)

/-! ### Queues -/

/-- A queue. -/
def State.queue (s : State) (q : Nat) : Queue := s.queues.getD q Queue.reset

/-- Changes a queue. -/
def State.modQueue (s : State) (q : Nat) (f : Queue → Queue) : State := { s with queues := s.queues.modify q f }

/-- QERR for a status and a packet index (Table 18.1). -/
def qerrWord (st : Nat) (idx : Word) : Word := BitVec.ofNat 32 (st * 2 ^ 24 + idx.toNat % 2 ^ 24)

/-- Packets that a ring holds. -/
def Queue.ring (u : Queue) : Nat := 2 ^ (u.qsize.toNat % 32)

/-- The geometry that R243 asks for at enabling. -/
def Owner.geometryOk (o : Owner) (base : DWord) (size : Nat) : Bool :=
  decide (2 ≤ size) && decide (size ≤ 16) && o.formOk base (64 * 2 ^ size) 64

/-- QWRITE runs ahead of QREAD by more than the ring (R242). -/
def Queue.overrun (u : Queue) : Bool := decide (u.ring < (u.qwrite - u.qread).toNat)

/-- A bad index stops the queue (R242). -/
def Queue.badIndex (u : Queue) : Queue :=
  { u with enable := false, closing := false, wait := .none, qerr := qerrWord 0x0A u.qread }

/-- QWRITE: the notify register is written (R242, R243). -/
def execQwrite (q : Nat) (val : Word) (s : State) : Res :=
  .next (s.modQueue q fun u =>
    let u := { u with qwrite := val }
    if u.enable && u.overrun then u.badIndex else u)

/-- A queue is enabled for an owner, if its geometry allows. -/
def Queue.turnOn (o : Owner) (u : Queue) : Queue :=
  if u.enable then { u with closing := false }
  else if !o.geometryOk u.qbase u.qsize.toNat then { u with owner := some o.id, qerr := qerrWord 0x0A u.qread }
  else if u.overrun then { u with owner := some o.id }.badIndex
  else { u with owner := some o.id, enable := true, closing := false }

/-- A queue is disabled: at once, or when the packet that it parses is complete; a FENCE stops waiting (R243). -/
def Queue.turnOff (u : Queue) : Queue :=
  match u.wait with
  | .none => { u with enable := false, closing := false }
  | .fence _ => { u with enable := false, closing := false, wait := .none }
  | _ => { u with closing := u.enable }

/-- QCTL_ENABLE: ENABLE is written. A queue that is bound to no owner yet is bound to the one named (log 15). -/
def execQctlEnable (q : Nat) (on : Bool) (owner : Nat) (s : State) : Res :=
  .next (
    if on then
      match s.owner (((s.queue q).owner).getD owner) with
      | some o => s.modQueue q (Queue.turnOn o)
      | none => s
    else s.modQueue q Queue.turnOff)

/-- QCTL_RESET: parsing stops and the unparsed packets are discarded (R242). -/
def execQctlReset (q : Nat) (s : State) : Res :=
  .next (s.modQueue q fun u =>
    { u with qread := u.qwrite, wait := .none, enable := u.enable && !u.closing, closing := false })

/-! ### Packets (R242, R244) -/

/-- Where the next packet of a queue stands. -/
def Queue.slot (u : Queue) : Target := (formTarget u.qbase).plus (64 * (u.qread.toNat % u.ring))

/-- The state in which the next packet of a queue has been read: its line is read as any other (R203, R369). -/
def State.parsing (s : State) (q : Nat) : State := s.glance (s.queue q).slot 64

/-- The next packet of a queue: its owner and its 64 bytes; none while there is nothing to parse. -/
def State.packet (s : State) (q : Nat) : Option (Owner × List Byte) :=
  let u := s.queue q
  if u.enable && u.qread != u.qwrite && !u.overrun then
    (u.owner.bind s.owner).map fun o => (o, (s.parsing q).bytesAt u.slot 64)
  else none

/-- A packet is complete with a status: QREAD moves on, and a failure is recorded (R242 to R244, R248). -/
def Queue.complete (st : Nat) (u : Queue) : Queue :=
  { u with qread := u.qread + 1#32, wait := .none, qerr := if st = 0 then u.qerr else qerrWord st u.qread,
           firstStatus := Machine.firstStatus u.firstStatus st, enable := u.enable && !u.closing, closing := false }

/-- A packet of a queue is complete. -/
def State.donePacket (s : State) (q st : Nat) : State := s.modQueue q (Queue.complete st)

/-- Bytes [lo, hi) of a packet are zero, as reserved ones are. -/
def zeroBytes (bs : List Byte) (lo hi : Nat) : Bool := pktField bs lo (hi - lo) == 0

/-- The entries of a FENCE packet (R247). -/
def fenceEntries (bs : List Byte) : List FenceEntry :=
  let base := pktAddr bs 8
  (List.range (min 12 (pktField bs 4 4))).map fun i =>
    let e := pktField bs (0x10 + 4 * i) 4
    { host := base.getLsbD 63, addr := base.toNat % 2 ^ 63 + 4 * natBits e 16 10, comp := natBits e 29 3, value := natBits e 0 16,
      found := false }

/-- A FENCE packet is in range (R247). -/
def fenceOk (o : Owner) (bs : List Byte) : Bool :=
  let n := pktField bs 4 4
  decide (1 ≤ n) && decide (n ≤ 12) && o.formOk (pktAddr bs 8) 4 4 &&
    (fenceEntries bs).all (fun e => decide (e.comp ≤ 4) && (e.host || o.holds e.addr 4)) &&
    (List.range n).all (fun i => natBits (pktField bs (0x10 + 4 * i) 4) 26 3 == 5 || natBits (pktField bs (0x10 + 4 * i) 4) 26 3 == 6) &&
    zeroBytes bs (0x10 + 4 * n) 64

/-- Bytes of a SIGNAL's value. -/
def signalWidth (bs : List Byte) : Nat := if natBits (pktField bs 4 4) 2 1 = 1 then 8 else 4

/-- A SIGNAL packet is in range (R248). -/
def signalOk (o : Owner) (bs : List Byte) : Bool :=
  let w := signalWidth bs
  decide (pktField bs 4 4 < 8) && o.formOk (pktAddr bs 8) w w &&
    (pktField bs 0x18 8 == 0 || o.formOk (pktAddr bs 0x18) 4 4) && zeroBytes bs 0x20 64

/-- A CHAIN packet is in range (R249). -/
def chainOk (o : Owner) (bs : List Byte) : Bool :=
  o.geometryOk (pktAddr bs 8) (pktField bs 0x10 4) && zeroBytes bs 4 8 && zeroBytes bs 0x14 64

/-- An owner may use a key slot (Table 16.1). -/
def Owner.mayUse (o : Owner) (slot : Nat) : Bool := (o.keys.getD (slot / 8) 0#8).getLsbD (slot % 8)

/-- The workgroup that a FLOWSET names, where it is resident: core and workgroup. -/
def State.flowHome (s : State) (o : Owner) (bs : List Byte) : Option (Nat × Workgroup) :=
  (List.range s.cores.length).findSome? fun c => (List.range 8).findSome? fun slot =>
    match (s.core c).wg slot with
    | some g =>
      if g.owner == o.id && g.flat == pktField bs 0x14 4 && !g.finished && g.portal.isNone && ((s.launches[g.launch]?).any fun l =>
          l.pkt.launchId.toNat == pktField bs 0x10 4) then some (c, g) else none
    | none => none

/-- A FLOWSET packet is in range (R269, R270). -/
def flowsetOk (s : State) (o : Owner) (bs : List Byte) : Bool :=
  let f := pktField bs
  let size := 2 ^ f 0x0D 1
  decide (f 4 2 < 4096) && (s.flows.all fun x => x.idx != f 4 2) && decide (f 6 1 < 4) && decide (f 7 1 < 4) && decide (f 8 4 < 2 ^ 24) &&
    (s.flows.all fun x => !(x.port == f 6 1 && x.job == f 8 4)) && o.mayUse (f 0x0C 1) && decide (16 ≤ f 0x0D 1) &&
    decide (f 0x0D 1 ≤ 22) && decide (f 0x0E 1 < 16) && zeroBytes bs 0x0F 0x10 && zeroBytes bs 0x1C 64 &&
    f 0x18 4 % size == 0 && decide (64 ≤ f 0x18 4) && (match s.flowHome o bs with
      | some (c, g) => decide (f 0x18 4 + size ≤ g.spadSize) && !s.flowOn c (f 0x0E 1)
      | none => false)

/-- A packet is well-formed: its type is one of R244's, no reserved field is set and every field is in range. The ingest packets
of an N24 are not looked at further (R269). -/
def packetOk (s : State) (o : Owner) (bs : List Byte) : Bool :=
  let n24 := decide (s.variant = .n24)
  match pktField bs 0 4 with
  | 0x01 => launchOk bs
  | 0x02 => fenceOk o bs
  | 0x03 => signalOk o bs
  | 0x04 => chainOk o bs
  | 0x10 => n24 || flowsetOk s o bs
  | 0x11 => n24 || (decide (pktField bs 4 2 < 4096) && zeroBytes bs 6 64)
  | 0x12 => n24 || (o.mayUse (pktField bs 4 1) && zeroBytes bs 5 8 && o.formOk (pktAddr bs 8) 1608 1 && zeroBytes bs 0x10 64)
  | 0x13 => n24 || (o.mayUse (pktField bs 4 1) && zeroBytes bs 5 64)
  | _ => false

/-- The event of one packet type: nothing happens unless the next packet is a well-formed one of that type. A read that the host refuses
gives no packet, and is made again (R263). -/
def onPacket (s : State) (q type : Nat) (f : State → Owner → List Byte → State) : Res :=
  .next (match s.packet q with
    | some (o, bs) =>
      if s.refused (s.queue q).slot then s.spend (s.queue q).slot
      else if pktField bs 0 4 == type && packetOk s o bs then f (s.parsing q) o bs else s
    | none => s)

/-- The packet that a queue waits on has been parsed: its bytes are not looked at again. -/
def Queue.parsed (u : Queue) : Bool :=
  match u.wait with
  | .serial _ | .fence _ => true
  | _ => false

/-- BAD_PACKET: the next packet is of no type, or has a field out of range, and has no other effect (R244). -/
def execBadPacket (q : Nat) (s : State) : Res :=
  .next (match s.packet q with
    | some (o, bs) =>
      if s.refused (s.queue q).slot then s.spend (s.queue q).slot
      else if !(s.queue q).parsed && !packetOk s o bs then (s.parsing q).donePacket q 0x0A else s
    | none => s)

/-! ### LAUNCH (R245, R251) -/

/-- A new LAUNCH is recorded; one that placement refuses completes at once with its status. -/
def parseLaunch (s : State) (q : Nat) (o : Owner) (bs : List Byte) : State :=
  let st := launchStatus o bs
  let u := s.queue q
  let (s, li) := s.createLaunch o.id (launchFields bs) (some q) u.qread.toNat (q / 64)
  let s := s.modQueue q fun u => { u with launches := u.launches ++ [li] }
  if st ≠ 0 then ((s.modLaunch li fun l => { l with status := st }).endLaunch li).donePacket q st
  else if (launchFields bs).serial then s.modQueue q fun u => { u with wait := .serial li }
  else s.donePacket q 0

/-- LAUNCH_PACKET: the packet is parsed, or a SERIAL one that is being waited on completes with its launch. -/
def execLaunchPacket (q : Nat) (s : State) : Res :=
  match (s.queue q).wait with
  | .serial li => .next (if ((s.launches[li]?).map (·.ended)).getD true then s.donePacket q 0 else s)
  | _ => onPacket s q 1 fun s => parseLaunch s q

/-! ### FENCE (R247) -/

/-- The word of a FENCE entry. -/
def FenceEntry.target (e : FenceEntry) : Target := if e.host then .host e.addr else .dev e.addr

/-- Entries of a FENCE are read, each at its home (R203, R369); a read that the host refuses finds nothing true (R263). -/
def fenceLook (s : State) (es : List FenceEntry) : State × List FenceEntry :=
  let t := es.foldl (fun t e => t.glance e.target 4) s
  (es.foldl (fun t e => t.spend e.target) t, es.map fun e => if s.refused e.target then e else e.look t)

/-- A FENCE goes on waiting, or is complete once every entry has been found true. -/
def fenceOn (s : State) (q : Nat) (es : List FenceEntry) : State :=
  if es.all (·.found) then s.donePacket q 0 else s.modQueue q fun u => { u with wait := .fence es }

/-- FENCE_PACKET: every entry is read once as the packet is parsed, and device words are watched from then on. -/
def execFencePacket (q : Nat) (s : State) : Res :=
  match (s.queue q).wait with
  | .fence es => .next (fenceOn s q es)
  | _ => onPacket s q 2 fun s _ bs => let r := fenceLook s (fenceEntries bs); fenceOn r.1 q r.2

/-- FENCE_HOST_REREAD: host words are read again. -/
def execFenceHostReread (q : Nat) (s : State) : Res :=
  .next (match (s.queue q).wait with
    | .fence es =>
      let t := (es.filter (·.host)).foldl (fun t e => t.spend e.target) s
      fenceOn t q (es.map fun e => if e.host && !s.refused e.target then e.look s else e)
    | _ => s)

/-! ### SIGNAL and CHAIN (R248, R249) -/

/-- The value that a SIGNAL leaves at its address. -/
def signalValue (s : State) (bs : List Byte) : List Byte :=
  let w := signalWidth bs
  let v := pktField bs 0x10 8
  let old := leNat (s.bytesAt (formTarget (pktAddr bs 8)) w)
  leBytes w (if natBits (pktField bs 4 4) 1 1 = 1 then old + v else v)

/-- A SIGNAL stores or adds its value, and then the status word, which starts afresh. A poisoned line takes either without a record (log 57). -/
def doSignal (s : State) (q : Nat) (bs : List Byte) : State :=
  let s := s.glance (formTarget (pktAddr bs 8)) (signalWidth bs)
  let s := s.postHost (formTarget (pktAddr bs 8)) (signalValue s bs)
  let s := if pktField bs 0x18 8 = 0 then s else s.postHost (formTarget (pktAddr bs 0x18)) (leBytes 4 (s.queue q).firstStatus)
  (s.donePacket q 0).modQueue q fun u => { u with firstStatus := 0 }

/-- Accesses of an owner that left their cores before a number are on their way beyond the module: they may happen before an acquire of that
moment, and so before a release at .sys that follows it (R169, R170). -/
def State.awayBefore (s : State) (o n : Nat) : Bool :=
  s.flights.any (fun f => f.owner == o && f.target.onLink && decide (f.seq < n)) ||
    s.engine.any fun e => e.owner == o && e.target.onLink && decide (e.seq < n)

/-- SIGNAL_PACKET: it waits as WAITALL asks, and then, as a release at .sys, for what may happen before the reading of its packet: an access
that is still on its way beyond the module (R242, R248). A unit completes only when its stores are home (R253). -/
def execSignalPacket (q : Nat) (s : State) : Res :=
  onPacket s q 3 fun s o bs =>
    let seen := match (s.queue q).wait with
      | .signal n => n
      | _ => s.nextId
    if pktField bs 4 4 % 2 == 1 && !((s.queue q).launches.all fun li => ((s.launches[li]?).map (·.ended)).getD true) ||
        s.awayBefore o.id seen then
      s.modQueue q fun u => { u with wait := .signal seen }
    else doSignal s q bs

/-- A queue goes on in another ring, with the same count; one that QWRITE has overrun stops (R242). -/
def Queue.chained (base : DWord) (size : Word) (u : Queue) : Queue :=
  let u := { u with qbase := base, qsize := size }
  if u.enable && u.overrun then u.badIndex else u

/-- CHAIN_PACKET: the queue goes on in the new ring. -/
def execChainPacket (q : Nat) (s : State) : Res :=
  onPacket s q 4 fun s _ bs => (s.donePacket q 0).modQueue q (Queue.chained (pktAddr bs 8) (BitVec.ofNat 32 (pktField bs 0x10 4)))

/-! ### Ingest control (R269, R270, R272) -/

/-- An ingest control packet: on an N24 it completes with status ABSENT. -/
def onIngest (s : State) (q type : Nat) (f : State → Owner → List Byte → State) : Res :=
  onPacket s q type fun s o bs => if s.variant = .n24 then s.donePacket q 9 else f s o bs

/-- A FLOWSET binds its flow: the control block is written with RPTR at P. -/
def bindFlow (s : State) (o : Owner) (bs : List Byte) (c : Nat) (g : Workgroup) : State :=
  let f := pktField bs
  let p0 := ((s.core c).channel (f 0x0E 1)).p
  let flow : Flow :=
    { idx := f 4 2, port := f 6 1, job := f 8 4, decrypt := f 7 1 % 2 == 1, ordered := f 7 1 / 2 == 1, key := f 0x0C 1, sizeLog := f 0x0D 1,
      ch := f 0x0E 1, core := c, launch := g.launch, flat := g.flat, rbase := f 0x18 4, p0 := p0, owner := o.id, lastSeq := none }
  let s := s.storeHome (.spad c (g.spadBase + f 0x18 4 - 64)) (leBytes 8 p0.toNat ++ List.replicate 56 0#8)
  { s with flows := s.flows ++ [flow] }

/-- FLOWSET: waits until the channel has no queued COPY, then binds. -/
def execFlowset (q : Nat) (s : State) : Res :=
  onIngest s q 0x10 fun s o bs =>
    match s.flowHome o bs with
    | none => s
    | some (c, g) =>
      if ((s.core c).channel (pktField bs 0x0E 1)).q.isEmpty then (bindFlow s o bs c g).donePacket q 0
      else s.modQueue q fun u => { u with wait := .flow }

/-- FLOWKILL: packets land or drop in one step, so none is on its way; a flow of another owner, or none, is left alone. -/
def execFlowkill (q : Nat) (s : State) : Res :=
  onIngest s q 0x11 fun s o bs =>
    let idx := pktField bs 4 2
    { s with flows := s.flows.filter fun f => !(f.idx == idx && f.owner == o.id) }.donePacket q 0

/-- KEYLOAD: the blob is decapsulated and unwrapped under this boot's key; a failure, and a read
that the host refuses, leave the slot unchanged (R263, R272). -/
def execKeyload (q : Nat) (s : State) : Res :=
  onIngest s q 0x12 fun s _ bs =>
    let t := formTarget (pktAddr bs 8)
    if s.refused t then (s.spend t).donePacket q 0x0A
    else
      let s := s.glance t 1608
      match Config.unwrapKey s.mgmt.boots (s.bytesAt t 1608) with
      | some key => { s with keys := SMap.set [] s.keys (pktField bs 4 1) key }.donePacket q 0
      | none => s.donePacket q 0x0A

/-- KEYCLEAR. -/
def execKeyclear (q : Nat) (s : State) : Res :=
  onIngest s q 0x13 fun s _ bs => { s with keys := SMap.set [] s.keys (pktField bs 4 1) [] }.donePacket q 0

end Sys2Proof.Machine
end

