-- ==== Sys2Proof/Machine/Outside.lean ====
section
/-!
DEFINITION. What the host and the links do to the module: BAR0 registers (R262), inbound writes and reads (R175), refused requests
(R263), Uluric flits (R267), the spawn portal (R264 to R266), the ingest ports (R268, R271, R272, R157, R181), reset, start-up and
attestation (R273 to R277), and the power cap (R278).
-/

namespace Sys2Proof.Machine

/-! ### BAR0 registers (R262, Tables 18.1 and 19.7) -/

/-- Changes the management block. -/
def State.modMgmt (s : State) (f : Mgmt → Mgmt) : State := { s with mgmt := f s.mgmt }

/-- A write of one whole field of a queue's block; QWRITE and QCTL have events of their own, and QREAD and QERR are not written. -/
def writeQueueReg (q r : Nat) (bs : List Byte) (s : State) : State :=
  let v := leNat bs
  match r, bs.length with
  | 0x00, 8 => s.modQueue q fun u => if u.enable then u else { u with qbase := BitVec.ofNat 64 v }
  | 0x10, 4 => s.modQueue q fun u => if u.enable then u else { u with qsize := BitVec.ofNat 32 (v % 32) }
  | 0x14, 4 => s.modQueue q fun u => { u with qprio := BitVec.ofNat 32 (v % 4) }
  | _, _ => s

/-- The range of PLIMIT in watts (Table 19.7). -/
def Variant.capRange : Variant → Nat × Nat
  | .x48 => (1200, 2400)
  | .n24 => (650, 1300)

/-- A write to the management block. A PLIMIT out of range is dropped (log 16). -/
def writeMgmt (r : Nat) (bs : List Byte) (s : State) : State :=
  let v := leNat bs
  let cap := s.variant.capRange
  if 0x340 ≤ r ∧ r + bs.length ≤ 0x360 then
    s.modMgmt fun m => { m with attNonce := overlay m.attNonce (r - 0x340) bs }
  else
    match r, bs.length with
    | 0x18, 4 => s.modMgmt fun m => { m with devnum := v % 64 }
    | 0x20, 4 => if cap.1 ≤ v ∧ v ≤ cap.2 then s.modMgmt fun m => { m with plimit := v } else s
    | 0x338, 8 => s.modMgmt fun m => { m with attAddr := BitVec.ofNat 64 v }
    | _, _ => s

/-- An offset of BAR0 in a spawn portal page (Table 19.2). -/
def inPortal (off : Nat) : Bool := decide (0x1000000 ≤ off ∧ off < 0x2000000)

/-- An access that a portal page does not accept is dropped and counted (R264). -/
def State.portalMiss (s : State) : State := s.modMgmt fun m => { m with portalDrop := m.portalDrop + 1 }

/-- A record that the portal accepts (R264); one whose CODE or JOIN is misaligned, or whose REGS is above 32, is dropped too
(log 17). -/
def portalOk (off : Nat) (bs : List Byte) : Bool :=
  let f := pktField bs
  off % 64 == 0 && bs.length == 64 && f 0x38 8 == 0 && decide (f 0x2D 1 < 2) && f 0x2C 1 % 4 != 3 && decide (1 ≤ f 0x2C 1 / 4) &&
    decide (f 0x2C 1 / 4 ≤ 32) && f 0x20 8 % 64 == 0 && f 0x30 8 % 8 == 0

/-- REGISTER_WRITE: a write to a register without a behaviour of its own, at an offset of BAR0; one to a portal page that is no record
is counted there. -/
def execRegisterWrite (off : Nat) (bytes : List Byte) (s : State) : Res :=
  .next (
    if off < 0x4000 then writeQueueReg (off / 64) (off % 64) bytes s
    else if 0x100000 ≤ off ∧ off < 0x101000 then writeMgmt (off - 0x100000) bytes s
    else if 0x2000000 ≤ off ∧ off + bytes.length ≤ 0x3000000 ∧ s.mgmt.bootstat = .waiting then
      s.modMgmt fun m => { m with bootSram := m.bootSram.write (off - 0x2000000) bytes }
    else if inPortal off ∧ ¬ portalOk off bytes then s.portalMiss
    else s)

/-- The register block of a queue as a read finds it (Table 18.1). -/
def Queue.block (u : Queue) : List Byte :=
  leBytes 8 u.qbase.toNat ++ leBytes 8 0 ++ leBytes 4 u.qsize.toNat ++ leBytes 4 u.qprio.toNat ++ leBytes 8 0 ++ leBytes 4 u.qwrite.toNat ++
    leBytes 4 u.qread.toNat ++ leBytes 4 (if u.enable then 1 else 0) ++ leBytes 4 u.qerr.toNat

/-- BOOTSTAT's code (Table 19.7). -/
def BootStat.code : BootStat → Nat
  | .waiting => 1
  | .verifying => 2
  | .badsig => 3
  | .ready => 4
  | .readyNoAttest => 5

/-- LIFECYCLE's code (Table 19.7). -/
def LifeState.code : LifeState → Nat
  | .manufacture => 1
  | .secure => 2
  | .rma => 3
  | .scrapped => 4

/-- The management block as a read finds it (Table 19.7). -/
def Mgmt.block (m : Mgmt) : List Byte :=
  leBytes 8 0 ++ leBytes 8 m.bootstat.code ++ leBytes 8 m.life.code ++ leBytes 4 m.devnum ++ leBytes 4 m.pnow.toNat ++ leBytes 4 m.plimit ++
    List.replicate 0x2DC 0#8 ++ m.noflow.flatMap (leBytes 8) ++ leBytes 8 m.portalDrop ++ leBytes 8 m.hostRefuse ++ leBytes 8 0 ++
    leBytes 8 m.attAddr.toNat ++ m.attNonce ++ List.replicate 0xA0 0#8 ++ m.measure

/-- A byte of BAR0 as a read finds it: reserved offsets and portal pages read zero (R262, R264). -/
def State.bar0Byte (s : State) (off : Nat) : Byte :=
  if off < 0x4000 then (((s.queues[off / 64]?).map Queue.block).getD []).getD (off % 64) 0#8
  else if 0x100000 ≤ off ∧ off < 0x101000 then s.mgmt.block.getD (off - 0x100000) 0#8
  else if 0x2000000 ≤ off ∧ off < 0x3000000 then s.mgmt.bootSram.get (off - 0x2000000)
  else 0#8

/-! ### The ordering point (R175) -/

/-- The pieces of an inbound write, none across a 256-byte granule, so that each is of one route. -/
def splitWrite (requester : Nat) (relaxed : Bool) : Nat → Nat → List Byte → List Inbound
  | 0, _, _ => []
  | n + 1, pa, bs =>
    let k := 256 - pa % 256
    if bs.isEmpty then [] else ⟨requester, relaxed, pa, bs.take k, false⟩ :: splitWrite requester relaxed n (pa + k) (bs.drop k)

/-- Device memory as the host sees it: one range from device address 0 on (Table 19.1). -/
def Variant.hdm : Variant → Nat
  | .x48 => 2 ^ 39
  | .n24 => 2 ^ 38

/-- INBOUND_WRITE: the ordering point receives a posted write and holds its pieces; nothing outside the range is the module's (R261). -/
def execInboundWrite (requester : Nat) (relaxed : Bool) (pa : Nat) (bytes : List Byte) (s : State) : Res :=
  .next (if s.variant.hdm < pa + bytes.length then s else { s with inbound := s.inbound ++ splitWrite requester relaxed (bytes.length / 256 + 2) pa bytes })

/-- INBOUND_WRITE_FORWARD: a held piece goes to its route in arrival order, once every earlier write of the requester to another
route has been acknowledged; a relaxed write neither waits for that nor makes others wait. -/
def execInboundWriteForward (k : Nat) (s : State) : Res :=
  .next (match s.inbound[k]? with
    | none => s
    | some i =>
      let same (x : Inbound) : Bool := s.route x.pa == s.route i.pa
      if s.inboundBefore k i (fun x => same x && !x.forwarded) || (!i.relaxed && s.inboundBefore k i fun x => !same x && !x.relaxed) then s
      else { s with inbound := s.inbound.set k { i with forwarded := true } })

/-- A read of the host or of a peer reaches its home: the lines come into the die cache, with what that finds, and the bytes go back (R203,
R369). -/
def State.arriveRead (s : State) (pa n : Nat) : State :=
  let s := s.readIn (s.homeOwner pa) (.dev pa) n
  { s with readBack := s.readBack ++ [s.bytesAt (.dev pa) n] }

/-- INBOUND_READ: the host reads device memory, in its one range (R261), or BAR0, behind the requester's earlier posted writes, and at the home behind the atomics that
its engine received before (R172). A read of a portal page is counted there (R262, R264). -/
def execInboundRead (requester : Nat) (addr : HostAddr) (n : Nat) (s : State) : Res :=
  .next (
    if s.inbound.any fun i => i.requester == requester then s
    else match addr with
      | .bar0 off =>
        let s := if inPortal off then s.portalMiss else s
        { s with readBack := s.readBack ++ [(List.range n).map fun i => s.bar0Byte (off + i)] }
      | .dev pa => if s.variant.hdm < pa + n || s.arrivalWaits pa n then s else s.arriveRead pa n)

/-! ### Refused requests (R263) -/

/-- A target in host memory. -/
def Target.isHost : Target → Bool
  | .host _ => true
  | _ => false

/-- The COPY at the head of a core's channel with a number. -/
def Core.copyHead (k : Core) (id : Nat) : Option (Nat × CopyJob) :=
  (List.range k.channels.length).findSome? fun ch => match (k.channel ch).q with
    | j :: _ => if j.id = id then some (ch, j) else none
    | [] => none

/-- Up to `n` units that a COPY would have stored in a sector which the host refuses: each is taken from its source and goes nowhere (R263). -/
def copyDrop (core ch : Nat) (sector : Nat × Nat) : Nat → State → State
  | 0, s => s
  | n + 1, s =>
    match ((s.core core).channel ch).q with
    | [] => s
    | j :: _ =>
      match copyNext s core j j.got false with
      | .go st dt =>
        if dt.isHost && decide (dt.sector = sector) && !copyDry s j st then
          let s := (copyTake (copyPay s j st dt) core ch j st).1
          let j := ((s.core core).channel ch).q.headD j
          if j.len ≤ j.got then copyEnd s core ch j else copyDrop core ch sector n s
        else s
      | _ => s

/-- The host refuses a COPY's request: a source read is a POISON consumption; of a store the bytes of its sector are dropped, and it counts
once (R237, R263). -/
def refuseCopy (s : State) (core ch : Nat) (j : CopyJob) : State :=
  if j.held.isSome || !j.started then s
  else
    match j.srcAt s core j.got with
    | .ok (.host a) _ => copyPoison s core ch j 1 1 (j.src + BitVec.ofNat 64 j.got) (.host a)
    | _ =>
      match copyNext s core j j.got false with
      | .go st dt =>
        if dt.isHost && !(copyDry s j st || copyDry s j dt) then (copyDrop core ch dt.sector 32 s).countRefuse else s
      | _ => s

/-- The host refuses a load lane's request: a POISON consumption, charged as the request is (R237, R263). A lane that its own queue serves, or
that may not perform yet, has made none. -/
def refuseLoad (s : State) (w : Where) (sh : Sheet) (f : Fill) (x : LaneReq) : State :=
  match f.kind, x.tr with
  | .ld sz _, .ok (.host a) _ =>
    let n := sizeBytes sz
    if sh.alive x.lane && s.loadMay w sh f.id x.lane && decide (sh.forward s.variant f.id x.lane (.host a) x.va n = .pass) then
      consumePoison s w (.fill f.id) 1 false (fun l u => sectorTaken f.sectors l u) n [(x.lane, x.va, .host a)] f.pc f.word
    else s
  | _, _ => s

/-- The host refuses a request of an agent. -/
def refuseAgent (w : Where) (id lane : Nat) (s : State) : State :=
  match (s.sheetAt w).bind fun sh => (sh.openFill id lane).map fun y => (sh, y) with
  | some (sh, f, x) => refuseLoad s w sh f x
  | none =>
    match s.flights.findIdx? fun f => decide (f.who = w) && f.seq == id && f.target.isHost with
    | some k => { s with flights := s.flights.eraseIdx k }.countRefuse
    | none =>
      match s.engine.findIdx? fun e => decide (e.who = w) && e.seq == id && e.target.isHost with
      | some k => match s.engine[k]? with
        | some e => poisonAtomic s e k
        | none => s
      | none =>
        match (s.core (wCore w)).copyHead id with
        | some (ch, j) => refuseCopy s (wCore w) ch j
        | none => s

/-- HOST_REFUSE: the host refuses a request (R263). -/
def execHostRefuse (r : Requester) (id lane : Nat) (s : State) : Res :=
  .next (match r with
    | .agent w => refuseAgent w id lane s
    | .module => { s with hostDeny := s.hostDeny ++ [id] })

/-! ### Uluric links (R267) -/

/-- Bytes of device memory that a flit reaches. -/
def flitSize : FlitBody → Nat
  | .store bs => bs.length
  | .atomic _ _ wide _ _ _ => if wide then 8 else 4
  | .load n => n

/-- A peer's atomic performs at this module's engine, on the value just before it, which goes back where it is asked for (R172, R177, R296);
at a poisoned line it does not perform, and the consumption is recorded (R205, log 38). -/
def arriveAtomic (s : State) (pa : Nat) (a : AtomOp) (val new : List Byte) (returns : Bool) : State :=
  let o := s.homeOwner pa
  let t : Target := .dev pa
  if s.poisonedAt t a.bytes then s.consume o t a.bytes
  else
    let s := s.readIn o t a.bytes
    let old := s.bytesAt t a.bytes
    let s := s.storeHome t (atomBytes a old val new)
    if returns then { s with readBack := s.readBack ++ [old] } else s

/-- FLIT_RECEIVE: a peer's store, atomic or load arrives over a trained link, and this module's home die cache or sync engine performs it
(R177, R267); a flit that fails its CRC is retried, and nothing comes of it yet. -/
def execFlitReceive (link : Nat) (crcOk : Bool) (pa : Nat) (body : FlitBody) (s : State) : Res :=
  .next (
    if !crcOk || !s.mgmt.links.any (fun l => l.1 == link) || decide (240 < flitSize body) || s.arrivalWaits pa (flitSize body) then s
    else match body with
      | .store bs => s.arriveStore pa bs
      | .atomic op ty wide val new returns => arriveAtomic s pa ⟨op, ty, wide⟩ val new returns
      | .load n => s.arriveRead pa n)

/-! ### The spawn portal (R264 to R266) -/

/-- A portal record (Table 19.3). -/
structure PortalRec where
  args : List Word
  code : DWord
  entry : Word
  width : Nat
  c : Nat
  host : Bool
  target : Nat
  join : DWord
  deriving DecidableEq, Repr

/-- The fields of a record. -/
def portalFields (bs : List Byte) : PortalRec :=
  let f := pktField bs
  let host := f 0x2D 1 % 2 == 1
  { args := (List.range 8).map fun i => BitVec.ofNat 32 (f (4 * i) 4), code := pktAddr bs 0x20, entry := BitVec.ofNat 32 (12 * f 0x28 4),
    width := widthOf (f 0x2C 1 % 4), c := f 0x2C 1 / 4 * 8, host := host, target := f 0x2E 2,
    join := if host then BitVec.ofNat 64 (f 0x30 8 % 2 ^ 63) else pktAddr bs 0x30 }

/-- The number that stands for no launch, in a portal workgroup. -/
def portalLaunch : Nat := 2 ^ 32

/-- The portal workgroup of an owner on a core, with its slot. -/
def Core.portalGroup (k : Core) : Option (Nat × Workgroup) :=
  (List.range 8).findSome? fun slot => match k.wg slot with
    | some g => if g.portal.isSome && !g.finished then some (slot, g) else none
    | none => none

/-- A new portal workgroup (R265). -/
def newPortal (o : Nat) (r : PortalRec) (spadBase : Nat) : Workgroup :=
  { launch := portalLaunch, flat := 0, x := 0#32, y := 0#32, z := 0#32, qrank := 0, quire := 0, owner := o, width := r.width, c := r.c,
    code := r.code, sentry := r.entry, spadBase := spadBase, spadSize := 8192, slotLog := 9, tagIdx := [], accRows := 0,
    mouldUse := 0, ftime := 256, promise := true, binTime := 512, front := none, sheets := List.replicate 16 none, dq := [], popWait := [],
    orc := 0, agw := none, issued := 0, autoexit := [], portal := some o, savedMq := [], finished := false }

/-- The core with the owner's portal workgroup, created if it is not there and has room. -/
def Core.withPortal (k : Core) (o : Owner) (r : PortalRec) : Option (Core × Workgroup) :=
  match k.portalGroup with
  | some (_, g) => some (k, g)
  | none =>
    match k.freeSlot, lowestHole (k.groups.map fun g => (g.spadBase, g.spadSize)) 8192 o.spadMax with
    | some slot, some a => some ({ k with wgs := k.wgs.set slot (some (newPortal o.id r a)) }, newPortal o.id r a)
    | _, _ => none

/-- The core with the record in its bin; none where it is refused (R265). -/
def Core.takeRecord (k : Core) (o : Owner) (r : PortalRec) : Option Core :=
  if k.owner = some o.id ∧ k.switch.isNone ∧ ¬ k.quarantined.contains o.id then
    (k.withPortal o r).bind fun x => x.1.addRecs x.2 r.entry r.width r.c r.code [⟨r.args, some (r.host, r.join)⟩]
  else none

/-- A refused record adds 2^32 to JOIN (R266): at the host, which may refuse it, or in device memory, once a core of the owner maps the
address (log 18). -/
def refuseRecord (s : State) (o : Owner) (r : PortalRec) : State :=
  if r.host then
    let t : Target := .host r.join.toNat
    if s.refused t then s.spend t else s.addRefused t
  else { s with joins := s.joins ++ [(o.id, r.join)] }.settleJoins o.id

/-- Whether a core takes the record: room that queued SPAWNs hold is not free (R75, R265). -/
def State.takes (s : State) (c : Nat) (o : Owner) (r : PortalRec) : Bool := ((s.pendingCore c).takeRecord o r).isSome

/-- PORTAL_RECORD: a posted write to an owner's portal page. `core` is the service processor's choice where TARGET is 0xFFFF: one that
takes the record, if any does. The write is behind the host's earlier ordered writes, so that its thread finds them (R175, R266). -/
def execPortalRecord (owner off : Nat) (bytes : List Byte) (core : Nat) (s : State) : Res :=
  .next (
    if s.inbound.any fun i => !i.relaxed then s
    else match s.owner owner with
    | none => s.portalMiss
    | some o =>
      if !portalOk off bytes then s.portalMiss
      else
        let r := portalFields bytes
        let c := if r.target = 0xFFFF then core else r.target
        match (if s.takes c o r then (s.core c).takeRecord o r else none) with
        | some k => { s with cores := s.cores.set c k }
        | none =>
          if r.target = 0xFFFF ∧ (List.range s.cores.length).any (fun d => s.takes d o r) then s
          else refuseRecord s o r)

/-! ### Ingest (R157, R181, R268, R271, R272) -/

/-- Where a flow's workgroup stands now: the base of its allocation, while its core is its owner's. -/
def State.flowBase (s : State) (f : Flow) : Option Nat :=
  let k := s.core f.core
  if k.owner = some f.owner ∧ k.switch.isNone then
    (k.groups.find? fun g => g.launch == f.launch && g.flat == f.flat).map (·.spadBase)
  else none

/-- An 8-byte field of the ring control block, as the port finds it (R128). -/
def State.readBlock (s : State) (t : Target) : State × Nat :=
  match t with
  | .spad c a => let r := s.readPad c a 8; (r.1, leNat r.2)
  | t => (s, leNat (s.bytesAt t 8))

/-- Adds to an 8-byte counter of the ring control block. -/
def addCounter (s : State) (t : Target) (n : Nat) : State :=
  let r := s.readBlock t
  r.1.storeHome t (leBytes 8 (r.2 + n))

/-- Changes a flow. -/
def State.modFlow (s : State) (idx : Nat) (f : Flow → Flow) : State :=
  { s with flows := s.flows.map fun x => if x.idx = idx then f x else x }

/-- The 16-byte header and the padded payload of a landed packet (Table 19.6). -/
def landedBytes (s : State) (f : Flow) (seq : Word) (pay : List Byte) : List Byte :=
  leBytes 2 pay.length ++ leBytes 2 f.idx ++ leBytes 4 seq.toNat ++ leBytes 8 s.clock ++ pay ++
    List.replicate ((16 - pay.length % 16) % 16) 0#8

/-- Bytes land in a ring from an offset on, wrapping at its end. -/
def landRing (core base size : Nat) : Nat → List Byte → State → State
  | _, [], s => s
  | off, b :: rest, s => landRing core base size (off + 1) rest (s.storeHome (.spad core (base + off % size)) [b])

/-- A packet that fails authentication is dropped and counted apart (R272). -/
def authFail (s : State) (block : Target) (n : Nat) : State := addCounter (addCounter s (block.plus 0x20) 1) (block.plus 0x28) n

/-- A packet that does not fit is dropped whole (R271). -/
def dropPacket (s : State) (block : Target) (seq : Word) (n : Nat) : State :=
  let (s, was) := s.readBlock (block.plus 8)
  let first := was = 0
  let s := addCounter (addCounter s (block.plus 8) 1) (block.plus 0x10) n
  let s := s.storeHome (block.plus 0x1C) (leBytes 4 seq.toNat)
  if first then s.storeHome (block.plus 0x18) (leBytes 4 seq.toNat) else s

/-- A packet that fits lands; then LANDED and P count it (R157, R181, R271). -/
def landPacket (s : State) (f : Flow) (base : Nat) (block : Target) (seq : Word) (pay : List Byte) : State :=
  let p := ((s.core f.core).channel f.ch).p
  let bs := landedBytes s f seq pay
  let s := landRing f.core (base + f.rbase) (2 ^ f.sizeLog) ((p - f.p0).toNat % 2 ^ f.sizeLog) bs s
  (addCounter s (block.plus 0x30) 1).modCore f.core fun k =>
    { k with channels := k.channels.modify f.ch fun h => { h with p := h.p + BitVec.ofNat 64 bs.length } }

/-- The plain payload of a packet: as received, or opened with the key that the flow's slot holds now (R272). -/
def openPayload (s : State) (f : Flow) (bs : List Byte) : Option (List Byte) :=
  if f.decrypt then
    match SMap.get [] s.keys f.key with
    | [] => none
    | key => Config.openPacket key bs
  else some bs

/-- INGEST_PACKET: a packet arrives at a port and lands or is dropped. Under ROD one out of sequence does not come up yet, and none does
while the flow's core is not its owner's (log 19). -/
def execIngestPacket (pkt : IngestPkt) (s : State) : Res :=
  .next (
    if s.variant = .n24 ∨ 4 ≤ pkt.port then s
    else
      match s.flows.find? fun f => f.port == pkt.port && f.job == pkt.job with
      | none => s.modMgmt fun m => { m with noflow := m.noflow.modify pkt.port (· + 1) }
      | some f =>
        match s.flowBase f with
        | none => s
        | some base =>
          if f.ordered && !((f.lastSeq.map fun n => pkt.seq.toNat == (n + 1) % 2 ^ 32).getD true) then s
          else
            let block := Target.spad f.core (base + f.rbase - 64)
            match openPayload s f pkt.bytes with
            | none => authFail s block pkt.bytes.length
            | some pay =>
              let p := ((s.core f.core).channel f.ch).p
              let s := s.modFlow f.idx fun x => { x with lastSeq := some pkt.seq.toNat }
              let (s, taken) := s.readBlock block
              if p.toNat + (landedBytes s f pkt.seq pay).length ≤ taken + 2 ^ f.sizeLog then
                landPacket s f base block pkt.seq pay
              else dropPacket s block pkt.seq pay.length)

/-! ### Reset and start-up (R273 to R277) -/

/-- The wipe and reset of R273. What the host and the peers hold, what the host has been told, and the model's own counters stay. -/
def State.wiped (s : State) (life : LifeState) : State :=
  { State.resetWith s.variant life s.mgmt.leaf s.mgmt.silicon with
    agenda := s.agenda, cur := s.cur, curWord := s.curWord, nextWord := s.nextWord, base := 0, steps := s.steps, free := s.free,
    nextId := s.nextId, hostMem := s.hostMem, peerMem := s.peerMem, hostEvents := s.hostEvents, readBack := s.readBack, hostDeny := s.hostDeny,
    mgmt := { Mgmt.reset s.variant life s.mgmt.leaf s.mgmt.silicon with boots := s.mgmt.boots } }

/-- RESET. -/
def execReset (s : State) : Res := .next (s.wiped s.mgmt.life)

/-- Uluric links of a variant. -/
def Variant.links : Variant → Nat
  | .x48 => 18
  | .n24 => 6

/-- A string of exactly `n` bytes. -/
def fixBytes (n : Nat) (bs : List Byte) : List Byte := (bs ++ List.replicate n 0#8).take n

/-- Ring slots of a code (Table 19.9). -/
def ringSlots (code : BitVec 2) : Nat :=
  match code.toNat with
  | 0 => 0
  | 1 => 64
  | 2 => 128
  | _ => 256

/-- feat0 to feat3 (Table 19.9). -/
def featWords (v : Variant) (codes : List (BitVec 2)) (silicon : Nat) : List Word :=
  let x := decide (v = .x48)
  let ring := (codes.mapIdx fun i c => c.toNat * 4 ^ i).foldl (· + ·) 0
  [BitVec.ofNat 32 ((if x then 1 else 2) * 2 ^ 28 + v.cores * 2 ^ 20 + v.links * 2 ^ 15 + v.stackCount * 2 ^ 11 + (if x then 4 else 0) * 2 ^ 8 +
      (if x then 3 else 0)),
    if x then 1#32 else 0#32, 0#32, BitVec.ofNat 32 (ring * 2 ^ 16 + silicon % 2 ^ 16)]

/-- The firmware of a verified image starts: measurement, the keys of this boot, which its number names, ring sizes, links and discovery registers (R273 steps 4 to 6, R274). -/
def bootWith (s : State) (links : List (Nat × Nat)) : State :=
  let m := s.mgmt
  let codes := (List.range s.variant.stackCount).map (Config.ringCode m.bootSram)
  { s with
    dram := { s.dram with rings := codes.map ringSlots },
    mgmt := { m with measure := fixBytes 64 (Config.measure m.bootSram),
                     bootstat := if m.leaf < 65536 then .ready else .readyNoAttest,
                     leaf := min 65536 (m.leaf + 1), boots := m.boots + 1, reports := 0,
                     links := links.filter fun l => decide (l.1 < s.variant.links ∧ l.2 < 64),
                     feat := featWords s.variant codes m.silicon } }

/-- BOOTCTL_GO: the boot ROM takes its next step after GO. It starts to verify the image; it finds it good and starts it, or bad, and
wipes it; after a bad one it waits again. A scrapped module takes none (R273, R276, log 20). `links` are the links that train, each with
its module. -/
def execBootctlGo (links : List (Nat × Nat)) (s : State) : Res :=
  .next (
    if s.mgmt.life = .scrapped then s.modMgmt fun m => { m with bootstat := .badsig }
    else match s.mgmt.bootstat with
    | .waiting => s.modMgmt fun m => { m with bootstat := .verifying }
    | .verifying =>
      if Config.signatureOk s.mgmt.bootSram then bootWith s links
      else s.modMgmt fun m => { m with bootstat := .badsig, bootSram := [] }
    | .badsig => s.modMgmt fun m => { m with bootstat := .waiting }
    | .ready | .readyNoAttest => s)

/-- The attestation report (Table 19.8). -/
def reportBytes (s : State) : List Byte :=
  let m := s.mgmt
  leBytes 4 1 ++ leBytes 4 (if s.variant = .x48 then 1 else 2) ++ leBytes 4 m.life.code ++ leBytes 4 (m.leaf - 1) ++
    fixBytes 64 (Config.fuseDigest (m.life.code)) ++ fixBytes 64 m.measure ++ m.feat.flatMap (fun x => leBytes 4 x.toNat) ++
    fixBytes 32 m.attNonce ++ fixBytes 64 (Config.kemDigest m.boots)

/-- BOOTCTL_ATTGO: a module that attests signs a report and writes it, with its signature and certificates, to the host (R274, R275). The
key has 1,024 signatures. -/
def execBootctlAttgo (s : State) : Res :=
  .next (
    if s.mgmt.bootstat = .ready ∧ s.mgmt.reports < 1024 then
      let r := reportBytes s
      (s.postHost (.host (s.mgmt.attAddr.toNat % 2 ^ 63)) (r ++ Config.attestSignature (s.mgmt.leaf * 1024 + s.mgmt.reports) r)).modMgmt
        fun m => { m with reports := m.reports + 1 }
    else s)

/-- A permitted successor (Table 19.10). -/
def LifeState.next (a b : LifeState) : Bool :=
  match a, b with
  | .manufacture, .secure | .manufacture, .scrapped | .secure, .rma | .secure, .scrapped | .rma, .scrapped => true
  | _, _ => false

/-- LIFECYCLE: a permitted successor is fused, and the module is wiped and reset; any other write is ignored (R276). -/
def execLifecycle (val : Word) (s : State) : Res :=
  .next (match [LifeState.manufacture, .secure, .rma, .scrapped].find? fun x => x.code == val.toNat with
    | some x => if s.mgmt.life.next x then s.wiped x else s
    | none => s)

/-! ### The power cap (R278) -/

/-- CLOCK_THROTTLE: the core clock goes down or up by 100 MHz, between 3.6 and 1.2 GHz. -/
def execClockThrottle (lower : Bool) (s : State) : Res :=
  .next (s.modMgmt fun m => { m with clockStep := if lower then min 24 (m.clockStep + 1) else m.clockStep - 1 })

end Sys2Proof.Machine
end

