-- ==== Sys2Proof/Machine/Envelope.lean ====
section
/-!
DEFINITION. Owners made and removed by firmware and the host: envelopes (R210, R211, Table 16.1), windows (R185, R189, R191), the lifting
of a quarantine (R216) and the host's cancellation (Table 18.2).
-/

namespace Sys2Proof.Machine

/-! ### The envelope record (Table 16.1) -/

/-- The window of a 16-byte entry; with MASKSET 0 it starts with the default masks (R189). -/
def windowOf (bs : List Byte) : Window :=
  let f := pktField bs
  let set := f 7 1 % 2 == 1
  let mask (off dflt : Nat) : Nat := if set then f off 1 else dflt
  { row := f 0 2, rows := f 2 2, interleaved := f 4 1 == 1, stack := f 5 1, valid := f 6 1 % 2 == 1, shared := f 6 1 / 2 % 2 == 1,
    hashA := BitVec.ofNat 8 (mask 8 0xFF), hashB := BitVec.ofNat 8 (mask 9 0xFF), hashC := BitVec.ofNat 5 (mask 10 0x1F) }

/-- The extent of a 16-byte entry. -/
def extentOf (bs : List Byte) : Extent :=
  let f := pktField bs
  let g := f 12 4
  { base := BitVec.ofNat 64 (f 0 8), units := f 8 4, valid := natBits g 3 1 == 1, r := natBits g 0 1 == 1, w := natBits g 1 1 == 1,
    x := natBits g 2 1 == 1 }

/-- A field whose zero means a default. -/
def orDefault (x d : Nat) : Nat := if x = 0 then d else x

/-- The owner that an envelope record describes, with its buckets full (R232). -/
def ownerOf (bs : List Byte) : Owner :=
  let f := pktField bs
  let id := f 0 4
  { id := id % 4096, prio := natBits id 12 2, mend := natBits id 17 1 == 1, quantum := orDefault (f 4 4) 2000000,
    stallLim := orDefault (f 8 4) 10000000, nearq := f 0xC 4 % 512, hbmRate := f 0x10 4, hbmDepth := f 0x14 4, lnkRate := f 0x18 4,
    lnkDepth := f 0x1C 4, bbase := f 0x20 8, bsize := f 0x28 4, spadMax := f 0x2C 4, mouldMax := f 0x30 4, accMax := f 0x34 4,
    ovBase := f 0x38 8, ovSize := f 0x40 4, hcode := f 0x58 4, hsaven := f 0x5C 4 % 256, hentry := (List.range 8).map fun i => f (0x60 + 4 * i) 4,
    keys := (bs.drop 0x80).take 32, windows := (List.range 16).map fun i => windowOf ((bs.drop (0x100 + 16 * i)).take 16),
    extents := (List.range 64).map fun i => extentOf ((bs.drop (0x200 + 16 * i)).take 16), record := bs, hbm := (f 0x14 4 * 256 : Nat),
    lnk := (f 0x1C 4 * 256 : Nat), hbmDry := false, lnkDry := false, selA := 0#4, selB := 0#4, selC := 0#4, seqs := [], held := [], debts := [], saves := [] }

/-! ### Windows (R185, R189, R191) -/

/-- Whether a window has rows in a stack. -/
def Window.inStack (w : Window) (st : Nat) : Bool := w.valid && (w.interleaved || w.stack == st)

/-- The stacks that a window has rows in. -/
def Window.inStacks (v : Variant) (w : Window) : List Nat := (List.range v.stackCount).filter w.inStack

/-- A window's place obeys R185: its rows exist, and it lies wholly below the ring of each of its stacks or wholly in the far segment. -/
def State.windowPlaced (s : State) (w : Window) : Bool :=
  (w.interleaved || decide (w.stack < s.variant.stackCount)) && decide (w.row + w.rows ≤ 8192) &&
    (decide (512 ≤ w.row) || (w.inStacks s.variant).all fun st => decide (w.row + w.rows ≤ 512 - s.dram.rings.getD st 0))

/-- Two windows have rows in common. -/
def Window.overlaps (a b : Window) : Bool :=
  a.valid && b.valid && (a.interleaved || b.interleaved || a.stack == b.stack) && decide (a.row < b.row + b.rows) &&
    decide (b.row < a.row + a.rows)

/-- Two windows are one shared window (R185, R189). -/
def Window.sharedWith (a b : Window) : Bool :=
  a.valid && b.valid && a.shared && b.shared && a.interleaved == b.interleaved && (a.interleaved || a.stack == b.stack) && a.row == b.row &&
    a.rows == b.rows

/-- The windows of the owners but one. -/
def State.othersWindows (s : State) (o : Nat) : List Window := (s.owners.filter fun x => x.id != o).flatMap fun x => x.windows.filter (·.valid)

/-- A window obeys R185 beside the windows of other owners. -/
def State.windowOk (s : State) (o : Nat) (w : Window) : Bool :=
  !w.valid || (s.windowPlaced w && (s.othersWindows o).all fun x => !w.overlaps x || w.sharedWith x)

/-- The near quotas of the owners with a window in a stack fit its ring (R191). -/
def State.quotasOk (s : State) (o : Owner) : Bool :=
  (List.range s.variant.stackCount).all fun st =>
    !(o.windows.any fun w => w.inStack st) ||
      decide (o.nearq + (((s.owners.filter fun x => x.id != o.id && x.windows.any fun w => w.inStack st).map (·.nearq)).foldl (· + ·) 0) ≤
        s.dram.rings.getD st 0)

/-- The masks of a shared window are held once: a new sharer takes those in force (R189). -/
def State.shareMasks (s : State) (o : Nat) (w : Window) : Window :=
  match (s.othersWindows o).find? fun x => w.sharedWith x with
  | some x => { w with hashA := x.hashA, hashB := x.hashB, hashC := x.hashC }
  | none => w

/-! ### Extents, the ballast and the overflow area (R210, R211) -/

/-- The physical addresses of a window (R185, R186). -/
def Window.span (v : Variant) (w : Window) : Nat × Nat :=
  if w.interleaved then (2 ^ 43 + w.row * 2 ^ 23 * v.stackCount, 2 ^ 43 + (w.row + w.rows) * 2 ^ 23 * v.stackCount)
  else (w.stack * 2 ^ 36 + w.row * 2 ^ 23, w.stack * 2 ^ 36 + (w.row + w.rows) * 2 ^ 23)

/-- An extent of device memory lies within the owner's windows. -/
def Owner.extentInside (v : Variant) (o : Owner) (e : Extent) : Bool :=
  let ws := (o.windows.filter (·.valid)).map (Window.span v)
  spansHold ws ws.length e.base.toNat (e.base.toNat + e.units * 65536)

/-- An extent that R210 accepts. -/
def Owner.extentOk (v : Variant) (o : Owner) (e : Extent) : Bool :=
  !e.valid || (frameOk v e.base && e.base.toNat % 65536 == 0 &&
    (if e.base.getLsbD 63 then decide (e.units * 65536 ≤ 2 ^ 44) else e.base.getLsbD 62 || o.extentInside v e))

/-- Every number of the record is in the range that Table 16.1 gives it (log 21). -/
def Owner.rangesOk (o : Owner) (bs : List Byte) : Bool :=
  let q := pktField bs 4 4
  (q == 0 || decide (100000 ≤ q)) && decide (pktField bs 0xC 4 < 512) && o.bbase % 65536 == 0 && o.spadMax % 8192 == 0 && decide (o.spadMax ≤ 2 ^ 23) &&
    o.mouldMax % 4096 == 0 && decide (o.mouldMax ≤ 65536) && decide (o.accMax ≤ 3072) && o.hcode % 64 == 0 && decide (0x4000 ≤ o.hcode) &&
    decide (1 ≤ o.hsaven ∧ o.hsaven ≤ 48)

/-- An envelope that firmware accepts (R210). -/
def State.envelopeOk (s : State) (o : Owner) (bs : List Byte) : Bool :=
  bs.length == 1536 && (s.owner o.id).isNone && o.rangesOk bs && o.windows.all (s.windowOk o.id) && s.quotasOk o &&
    o.extents.all (o.extentOk s.variant) && o.holds o.bbase (o.bsize * 65536) && (o.ovSize == 0 || o.holds o.ovBase (o.ovSize * 65536)) &&
    decide (65536 + o.hsaven * o.areaSize ≤ o.bsize * 65536)

/-- Firmware runs (R273). -/
def State.booted (s : State) : Bool := decide (s.mgmt.bootstat = .ready) || decide (s.mgmt.bootstat = .readyNoAttest)

/-- ENVELOPE_CREATE: the owner comes to be, and a copy of its record stands at ballast offset 0. -/
def execEnvelopeCreate (record : List Byte) (s : State) : Res :=
  .next (
    let o := ownerOf record
    if s.booted && s.envelopeOk o record then
      let o := { o with windows := o.windows.map (s.shareMasks o.id) }
      { s with owners := s.owners ++ [o] }.storeHome (.dev o.bbase) record
    else s)

/-! ### Removal (R189, R200) -/

/-- A core that an owner holds is wiped; a change of owner to or from it is over. -/
def Core.without (o : Nat) (k : Core) : Core :=
  let k := { k with quarantined := k.quarantined.filter (· != o), refused := SMap.set 0 k.refused o 0 }
  if k.owner = some o then k.wipe
  else
    match k.switch with
    | some (.saving n) | some (.saved n) => if n = o ∧ k.owner.isNone then { k with switch := none } else k
    | _ => k

/-- What a removed owner had accepted: stores and atomics to its windows, whose rows die, or to a scratchpad, which is wiped, go with them;
others go on to the host or the peer (R182, R189). -/
def State.dropWrites (s : State) (owner : Nat) : State :=
  { s with flights := s.flights.filter (fun f => !(f.owner == owner) || f.target.onLink),
           engine := s.engine.filter fun e => !(e.owner == owner) || e.target.onLink }

/-- OWNER_REMOVE: the owner's launches are cancelled, its state leaves every core, every row of its windows dies, those of shared ones
too (R200), and its queues, flows, keys and records go. -/
def execOwnerRemove (owner : Nat) (s : State) : Res :=
  .next (
    match s.owner owner with
    | none => s
    | some o =>
      let holds (c : Nat) : Bool := decide ((s.core c).owner = some owner)
      let s := s.cancelWhere (fun l => l.owner == owner) 1
      let s := (s.orphan fun w => holds (wCore w)).dropWrites owner
      let s := { s with flows := s.flows.filter (fun f => f.owner != owner), joins := s.joins.filter fun x => x.1 != owner }
      let s := { s with cores := s.cores.map (Core.without owner) }
      let s := { s with
        queues := s.queues.map (fun u => if u.owner = some owner then { Queue.reset with qread := u.qread, qwrite := u.qread } else u),
        keys := s.keys.filter (fun e => !o.mayUse e.1), counters := s.counters.filter (fun x => x.owner != owner),
        launches := s.launches.map fun l => if l.owner = owner then { l with owner := 2 ^ 32 } else l }
      let s := (o.windows.filter (·.valid)).foldl State.wipeWindow s
      { s with owners := s.owners.filter fun x => x.id != owner })

/-- WINDOW_GRANT: firmware gives an existing owner a window in place of one of its sixteen. The one it replaces is removed, for every
sharer of it, and its rows are wiped; sharers of the same window keep one set of masks (R185, R189, R191). -/
def execWindowGrant (owner idx : Nat) (entry : List Byte) (s : State) : Res :=
  .next (
    match s.owner owner with
    | none => s
    | some o =>
      let w := windowOf entry
      let old := o.windows[idx]?
      let again := (old.map fun x => x.valid && x.sharedWith w).getD false
      let new := if again then w else s.shareMasks owner w
      let o' := { o with windows := o.windows.set idx new }
      if idx < 16 ∧ s.windowOk owner w ∧ s.quotasOk o' ∧ o'.extents.all (o'.extentOk s.variant) then
        let s := match old with
          | some x => if x.valid then s.wipeWindow x else s
          | none => s
        let s := if again then { s with owners := s.owners.map fun x =>
          { x with windows := x.windows.map fun y => if y.sharedWith new then new else y } } else s
        s.modOwner owner fun x => { x with windows := x.windows.set idx new }
      else s)

/-! ### The host's other acts -/

/-- QUARANTINE_LIFT: the owner's work may be placed on the core again (R216). -/
def execQuarantineLift (core owner : Nat) (s : State) : Res :=
  .next (s.modCore core fun k => { k with quarantined := k.quarantined.filter (· != owner) })

/-- HOST_CANCEL: the launch numbered here is cancelled (R255, Table 18.2). -/
def execHostCancel (launch : Nat) (s : State) : Res := .next (s.cancelLaunch launch 1)

end Sys2Proof.Machine
end

