-- ==== Sys2Proof/Machine/Rows.lean ====
section
/-!
DEFINITION. The home controllers: what PROMOTE, DEMOTE and MADR find in the banks, the end of a window's kill, refresh,
scrubbing and disturbance mitigation (R190, R191, R193 to R198, R201 to R203, R209, R344).
-/

namespace Sys2Proof.Machine

/-! ### Rows and ring slots (R190, R191, R194 to R196) -/

/-- P of a stack. -/
def Dram.ring (d : Dram) (stack : Nat) : Nat := d.rings.getD stack 0

/-- A ring slot is in the bank of a place. -/
def RingSlot.inBank (r : RingSlot) (p : Place) : Bool := r.stack == p.stack && r.pc == p.pc && r.bank == p.bank

/-- The slot that holds the row of a place. -/
def Dram.slotOf (d : Dram) (p : Place) : Option RingSlot := d.slots.find? fun r => r.inBank p && r.row == p.row

/-- A fixed near row (R190). -/
def Dram.nearRow (d : Dram) (p : Place) : Bool := decide (p.row < 512 - d.ring p.stack)

/-- CODE, SLOT and EVICT of Table 14.5. -/
structure RowStatus where
  code : Nat
  slot : Nat
  evict : Bool
  deriving DecidableEq, Repr

/-- The status word. -/
def RowStatus.word (r : RowStatus) : Word := BitVec.ofNat 32 (r.slot + r.code * 256 + if r.evict then 4096 else 0)

/-- The owner's slots in the bank of a place. -/
def Dram.held (d : Dram) (p : Place) (o : Nat) : List RingSlot := d.slots.filter fun r => r.inBank p && r.owner == o

/-- The lowest free slot of a bank. -/
def Dram.freeSlot (d : Dram) (p : Place) : Option Nat :=
  (List.range (d.ring p.stack)).find? fun i => !d.slots.any fun r => r.inBank p && r.idx == i

/-- The victim of R195: the owner's unpinned slot with the oldest sequence number, the lower index on a tie. -/
def victimOf (rs : List RingSlot) : Option RingSlot :=
  rs.foldl (fun best r =>
    if r.pin then best
    else match best with
      | none => some r
      | some b => if r.seq < b.seq ∨ (r.seq = b.seq ∧ r.idx < b.idx) then some r else some b) none

/-- PROMOTE of one row (R194). Its in-bank copies activate the far rows that they move (R202, log 13). -/
def promoteRow (s : State) (o : Nat) (p : Place) (pin : Bool) (seq : Nat) : State × RowStatus :=
  let d := s.dram
  if !d.isLive p.rowKey then (s, ⟨5, 0, false⟩)
  else if d.nearRow p then (s, ⟨2, 0, false⟩)
  else
    match d.slotOf p with
    | some r =>
      let slots := if pin && r.owner == o then d.slots.map fun x => if x = r then { x with pin := true } else x else d.slots
      ({ s with dram := { d with slots := slots } }, ⟨1, r.idx, false⟩)
    | none =>
      let quota := ((s.owner o).map (·.nearq)).getD 0
      let new (i : Nat) : RingSlot :=
        { stack := p.stack, pc := p.pc, bank := p.bank, idx := i, owner := o, row := p.row, seq := seq, pin := pin, dirty := false }
      if quota = 0 ∨ d.ring p.stack = 0 then (s, ⟨4, 0, false⟩)
      else if (d.held p o).length < quota then
        match d.freeSlot p with
        | some i => ({ s with dram := { d.activate p o with slots := d.slots ++ [new i] } }.charge o (.dev 0) 2048, ⟨0, i, false⟩)
        | none => (s, ⟨3, 0, false⟩)
      else
        match victimOf (d.held p o) with
        | some v =>
          let d' := if v.dirty then (d.activate p o).activate { p with row := v.row } o else d.activate p o
          ({ s with dram := { d' with slots := (d.slots.filter fun x => decide (x ≠ v)) ++ [new v.idx] } }.charge o
            (.dev 0) 4096, ⟨0, v.idx, true⟩)
        | none => (s, ⟨3, 0, false⟩)

/-- DEMOTE of one row (R196). -/
def demoteRow (s : State) (o : Nat) (p : Place) : State × RowStatus :=
  match s.dram.slotOf p with
  | some r =>
    if r.owner = o then
      let d := if r.dirty then s.dram.activate p o else s.dram
      let t := { s with dram := { d with slots := s.dram.slots.filter fun x => decide (x ≠ r) } }
      (if r.dirty then t.charge o (.dev 0) 2048 else t, ⟨6, r.idx, false⟩)
    else (s, ⟨7, 0, false⟩)
  | none => (s, ⟨7, 0, false⟩)

/-- The word of MADR (Table 14.7). -/
def madrWord (d : Dram) (p : Place) : DWord :=
  let cls := match d.slotOf p with
    | some r => 2 ^ 32 + r.idx * 2 ^ 34 + if r.pin then 2 ^ 42 else 0
    | none => if d.nearRow p then 0 else 2 * 2 ^ 32
  BitVec.ofNat 64 (p.stack + p.pc * 8 + p.bank * 2 ^ 11 + p.row * 2 ^ 16 + p.quarter * 2 ^ 29 + cls +
    (if d.isLive p.rowKey then 0 else 2 ^ 43) + p.win * 2 ^ 44)

/-! ### CONTROLLER_ANSWER (R193, R344) -/

/-- Where a lane of a row instruction points. -/
def LaneReq.place (s : State) (o : Nat) (x : LaneReq) : Option Place :=
  match x.tr with
  | .ok (.dev pa) _ => (match s.owner o with
    | some ow => ow.place s.variant pa
    | none => none)
  | _ => none

/-- The lanes that share the action of a lane: not answered, and in its row (R193). -/
def Fill.sharers (s : State) (o : Nat) (f : Fill) (p : Place) : List Nat :=
  (f.lanes.filter fun y => !y.done && (match y.place s o with
    | some q => q.rowKey == p.rowKey
    | none => false)).map (·.lane)

/-- A lower lane of the same bank has no answer yet (R193). -/
def Fill.lowerOpen (s : State) (o : Nat) (f : Fill) (p : Place) (l : Nat) : Bool :=
  f.lanes.any fun y => !y.done && decide (y.lane < l) && (match y.place s o with
    | some q => q.stack == p.stack && q.pc == p.pc && q.bank == p.bank
    | none => false)

/-- What each of the lanes that share an action receives: the first the action's status, later ones the status that the row
then has: ALREADY after a promotion, NOTHELD after a demotion (R196, R344). -/
def sharedStatus (r : RowStatus) (first : Bool) : RowStatus :=
  if first then r
  else if r.code = 0 then ⟨1, r.slot, false⟩
  else if r.code = 6 then ⟨7, 0, false⟩
  else r

/-- One action: the new state, and each lane's answer. -/
def rowAction (s : State) (o : Nat) (f : Fill) (p : Place) (ls : List Nat) : State × List (Nat × List Byte) :=
  match f.kind with
  | .promote pin seqs =>
    let seq := ((seqs.find? fun e => e.1 == p.stack).map (·.2)).getD 0
    let r := promoteRow s o p pin seq
    (r.1, ls.mapIdx fun i l => (l, leBytes 4 (sharedStatus r.2 (i == 0)).word.toNat))
  | .demote => let r := demoteRow s o p; (r.1, ls.mapIdx fun i l => (l, leBytes 4 (sharedStatus r.2 (i == 0)).word.toNat))
  | _ =>
    (s, ls.map fun l => (l, leBytes 8 (match (f.lanes.find? fun y => y.lane == l).bind fun y => y.place s o with
      | some q => (madrWord s.dram q).toNat
      | none => 0)))

/-- Records answers. -/
def Fill.answered (f : Fill) (as : List (Nat × List Byte)) : Fill :=
  { f with lanes := f.lanes.map fun x => match as.find? fun a => a.1 == x.lane with
      | some a => { x with done := true, data := some a.2 }
      | none => x }

/-- Once every lane has its answer, FD is written and the lanes go on. -/
def Sheet.rowsDone (f : Fill) (sh : Sheet) : Sheet :=
  let sh' := { sh with fills := sh.fills.map fun x => if x.id = f.id then f else x }
  if f.lanes.all (·.done) then
    let sh'' := f.lanes.foldl (fun sh x => wr f.act f.dest x.lane (leVal 64 (x.data.getD [])) sh)
      { sh' with fills := sh'.fills.filter fun x => x.id != f.id }
    sh''.releaseBlocks fun b => decide (b = .answers f.id)
  else sh'

/-- Whether a producer is one of the three instructions whose group waits for the controllers. -/
def FillKind.rows : FillKind → Bool
  | .promote _ _ | .demote | .madr => true
  | _ => false

/-- A row instruction waits for tokens, and for an activation of its bank that a mitigation delays, before the controllers serve it;
MADR takes and activates none (R194, R196, R202, R232). -/
def rowsDry (s : State) (w : Where) (k : FillKind) (p : Place) : Bool :=
  let o := s.ownerId w
  let copies := match k with
    | .promote pin _ => decide ((promoteRow s o p pin 0).2.code = 0)
    | _ => (s.dram.slotOf p).any fun r => r.owner == o && r.dirty
  match k with
  | .madr => false
  | _ => !s.mayTake (ofHandler w) o false || (copies && s.dram.delays.contains (p.stack, p.pc, p.bank, o))

/-- CONTROLLER_ANSWER: the controller of a lane's bank handles its row, for every lane that shares it. -/
def execControllerAnswer (w : Where) (lane : Nat) (s : State) : Res :=
  .next (match s.sheetAt w with
    | none => s
    | some sh =>
      match sh.fills.find? fun f => f.kind.rows && f.lanes.any fun x => x.lane == lane && !x.done with
      | none => s
      | some f =>
        let o := s.ownerId w
        match (f.lanes.find? fun x => x.lane == lane).bind fun x => x.place s o with
        | none => s.modSheet w (Sheet.rowsDone (f.answered [(lane, leBytes 8 0)]))
        | some p =>
            if f.lowerOpen s o p lane || rowsDry s w f.kind p then s
            else
              let r := rowAction s o f p (f.sharers s o p)
              r.1.modSheet w (Sheet.rowsDone (f.answered r.2)))

/-- WINDOW_KILL_DONE: the kill of an SWR has taken effect everywhere, and its lanes go on (R209). -/
def execWindowKillDone (w : Where) (s : State) : Res :=
  .next (s.modSheet w (Sheet.releaseBlocks fun b => decide (b = .kill)))

/-! ### Refresh, scrubbing, disturbance (R201 to R203) -/

/-- A place that names a row. -/
def rowPlace (stack pc bank row : Nat) : Place :=
  { win := 0, stack := stack, pc := pc, bank := bank, row := row, quarter := 0, byte := 0, off := 0 }

/-- A tracker counts a row of a bank. -/
def Tracker.at (t : Tracker) (stack pc bank row : Nat) : Bool := t.stack == stack && t.pc == pc && t.bank == bank && t.row == row

/-- A row has been refreshed: its trackers start again (R201, R202). -/
def Dram.refreshRow (d : Dram) (stack pc bank row : Nat) : Dram :=
  { d with trackers := d.trackers.filter fun t => !t.at stack pc bank row }

/-- REFRESH: a controller refreshes a live row or a held slot's row. -/
def execRefresh (stack pc bank row : Nat) (s : State) : Res :=
  .next (
    let p := rowPlace stack pc bank row
    if s.dram.isLive p.rowKey || (s.dram.slotOf p).isSome then { s with dram := s.dram.refreshRow stack pc bank row } else s)

/-- PATROL_SCRUB: the scrubber reads a live row in its stack; errors are corrected, or poison their lines (R203). The value of a line
that the die cache holds is the cache's: an uncorrectable error is logged, and the next read of the stack finds the pattern. -/
def execPatrolScrub (stack pc bank row : Nat) (s : State) : Res :=
  .next (
    let key := (rowPlace stack pc bank row).rowKey
    if s.dram.isLive key then
      (List.range 8).foldl (fun s i =>
        let line := key * 8 + i
        if (s.dram.held? line).isSome && (List.range 4).any fun u => decide (2 ≤ s.dram.badSymbols line u) then s.logPoison line []
        else s.readStack line stack) s
    else s)

/-- DISTURBANCE_MITIGATION: a tracker has reached 512; its neighbours are refreshed, it starts again, its owner is charged 64
KiB and delayed at the bank, and the hypervisor is told (R202). -/
def execDisturbanceMitigation (stack pc bank row owner : Nat) (s : State) : Res :=
  .next (
    let mine (t : Tracker) : Bool := t.at stack pc bank row && t.owner == owner
    if s.dram.trackers.any fun t => mine t && decide (512 ≤ t.count) then
      let d := ([row - 2, row - 1, row + 1, row + 2].filter fun r => r != row).foldl (fun d r => d.refreshRow stack pc bank r) s.dram
      let d := { d with trackers := d.trackers.map (fun t => if mine t then { t with count := 0 } else t),
                        delays := d.delays ++ [(stack, pc, bank, owner)] }
      (({ s with dram := d }).charge owner (.dev 0) 65536).post (.disturbance owner stack pc bank row)
    else s)

/-- DISTURBANCE_DELAY_EXPIRE: an owner's delayed activations of a bank proceed (R202). -/
def execDisturbanceDelayExpire (stack pc bank owner : Nat) (s : State) : Res :=
  .next { s with dram := { s.dram with delays := s.dram.delays.filter fun d => decide (d ≠ (stack, pc, bank, owner)) } }

/-- SOFT_ERROR: a soft error strikes the symbol that holds a cell of a live row (R203). -/
def execSoftError (cell : Nat) (s : State) : Res :=
  .next (if s.dram.isLive (cell / 1024) then { s with dram := { s.dram with errors := SMap.set false s.dram.errors (cell / 2) true } } else s)

end Sys2Proof.Machine
end

