-- ==== Sys2Proof/Machine/Waits.lean ====
section
/-!
DEFINITION. The end of waits: what a lane that waits at its word waits for (R28, R54), and the release of blocked lanes (R65).
-/

namespace Sys2Proof.Machine

/-! ### Blocked lanes (R54, R65) -/

/-- The lanes that are blocked as a lane is, at its word. -/
def Sheet.blockedWith (sh : Sheet) (l : Nat) : List Nat :=
  (List.range sh.lanes.length).filter fun k =>
    (sh.lane k).live && (sh.lane k).pc == (sh.lane l).pc && decide ((sh.lane k).wait = (sh.lane l).wait)

/-- Every live lane of a sheet stands blocked as a lane is: it can issue its word (R87, R351). -/
def Sheet.allStand (sh : Sheet) (l : Nat) : Bool := sh.liveLanes.all fun k => (sh.blockedWith l).contains k

/-- Some lanes are ready to issue the word where they stand. -/
def Sheet.ready (sh : Sheet) (ls : List Nat) : Sheet := sh.modLanes ls fun t => { t with wait := .ready }

/-- What a lane's block comes to: if its condition holds, the lanes that wait on it go on. -/
def releaseBlock (s : State) (w : Where) (sh : Sheet) (l : Nat) (b : Block) : State :=
  let pc := (sh.lane l).pc
  let on (sh : Sheet) : Sheet := stepLanes (sh.blockedWith l) false sh
  match b with
  | .waitm _ => s.putSheet w sh.settle
  | .barw core _ _ => (s.putSheet w (sh.lookPhase s.free (s.core core))).blurred core
  | .xlane wk x _ => s.putSheet w (xTry s w sh pc wk x)
  | .lwait => if sh.localDone then s.putSheet w (on sh) else s
  | .cntw lv id d act => match cntwStatus s w lv id.toNat with
    | some st =>
      let ls := sh.blockedWith l
      (s.putSheet w (stepLanes ls false (cntwWrite (ls.filter act.contains) d st sh))).acquire (wCore w) .dev
    | none => s
  | .msync t => if s.msyncDone w t then s.putSheet w (on sh) else s
  | .mrdy ref before act =>
    if s.mrdyMay w sh before act then (s.putSheet w (on sh)).modWgOf w fun wg => wg.ready ref else s
  | .mwait id => s.putSheet w (sh.mwaitDone id)
  | .genb => if sh.allStand l then s.putSheet w (sh.ready sh.liveLanes) else s
  | .gendc => s.putSheet w (gendTry s.steps sh)
  | .rfh _ => if sh.allStand l then s.putSheet w (sh.ready sh.liveLanes) else s
  | .tlbi sc ranges => if s.tlbiDone w sc ranges then s.putSheet w (on sh) else s
  | .cancel before => if s.landing (s.ownerId w) before then s else (s.putSheet w (on sh)).acquire (wCore w) .dev
  | .kill => s
  | .answers _ => s
  | .joining of =>
    let s := (leftOut s w sh of).foldl rejoin s
    match s.sheetAt w with
    | none => s
    | some sh => if (leftOut s w sh of).isEmpty then s.putSheet w (stepLanes (sh.blockedWith l) false sh) else s

/-- What a lane waits for at its word has come, in its sheet or outside it (R54, R65, R220, R224, R252). -/
def State.stallOver (s : State) (w : Where) (sh : Sheet) (on : Stall) : Bool :=
  let co := wCore w
  let k := s.core co
  let lanes (ls : Lanes) : List Nat := maskLanes sh.lanes.length ls
  match on with
  | .loads ls => (lanes ls).all fun l => s.loadMay w sh s.nextId l
  | .object ls c addr va => s.objectMay w sh (lanes ls) (.spad c addr) va
  | .release ls sc => s.released w sh (lanes ls) sc
  | .requests n => s.mayAdd co n
  | .table vas =>
    let rs : List MissReq := (vas.filter fun va => decide (s.translate co .read va = .miss)).map fun va =>
      ⟨w, 0, va, 1, 15, .word, 0#32, 0#96⟩
    (s.join co rs).2.isEmpty
  | .events => k.eventRoom
  | .channel ch => !(k.channel ch).full
  | .matrix want => !k.mqFull && ((s.wgOf w).map fun g => decide (want ≤ g.orc)).getD true
  | .transforms => decide (k.xq.length < 8)
  | .decisions => ((s.wgOf w).map fun g => decide (g.dq.length < 64)).getD true
  | .launches => !((s.handOff co).core co).launchFull
  | on => on.near sh

/-- BLOCK_RELEASE: a lane that waits looks at its condition again; one whose wait at its word is over is ready, with its group, to try the
word again. -/
def execBlockRelease (w : Where) (lane : Nat) (s : State) : Res :=
  .next (
    match s.sheetAt w with
    | none => s
    | some sh =>
      if (sh.lane lane).live then
        match (sh.lane lane).wait with
        | .stalled on => if s.stallOver w sh on then s.putSheet w (sh.ready (sh.blockedWith lane)) else s
        | .blocked b => releaseBlock s w sh lane b
        | _ => s
      else s)

end Sys2Proof.Machine
end

