-- ==== Sys2Proof/Machine/Xform.lean ====
section
/-!
DEFINITION. Class 0xF: the transform engine (R154 to R156, R180).
-/

namespace Sys2Proof.Machine

/-! ### XFORM at issue (R154) -/

/-- XFORM: the issue checks of the two records and the barrier object (BOUNDS with the SLOT 1 of R139 before ALIGN, R151), then a place
in the engine's queue. Of several operands that fail the destination record is reported before the source record and both before the barrier,
with the accesses write, read and atomic: no rule gives that order or those accesses (log 56). -/
def execXform (c : Ctl) (op : Xop) (r : Rnd) (d a b x : Opd) (s : State) : Res :=
  atWord s c fun s g =>
    withSources s g [(0, false, d), (1, false, a), (2, false, b), (3, false, x)] (
      match g.act, s.wgSlot g.w with
      | l :: _, some slot =>
        let al := s.alloc g.w
        let off (o : Opd) : DWord := (rd s g false o l).setWidth 64
        let sides : List (Nat × DWord × Nat × Acc) := [(0, off d, 64, .write), (1, off a, 64, .read), (2, off b, 16, .atomic)]
        match sides.find? fun y => al.outside y.2.1 y.2.2.1 with
        | some y => trapAt s g .bounds 1 y.2.2.2 [l] fun _ => y.2.1
        | none =>
          match sides.find? fun y => y.2.1.toNat % y.2.2.1 != 0 with
          | some y => trapAt s g .align y.1 y.2.2.2 [l] fun _ => y.2.1
          | none =>
            if 8 ≤ (s.core (wCore g.w)).xq.length then s.put g (waitHere g .transforms g.sh)
            else
              let rm := (g.sh.lane l).rm
              let j : XfJob :=
                { slot := slot, op := op, rnd := rmode r rm, sat := saton false rm, dl := (off d).toNat, sl := (off a).toNat,
                  bar := (off b).toNat, idx := (off x).toNat, started := false }
              (finish s g c g.sh).modCore (wCore g.w) fun k => { k with xq := k.xq ++ [j] }
      | _, _ => finish s g c g.sh)

/-! ### Layout records (Table 11.6) -/

/-- A layout record. -/
structure XRec where
  base : Nat
  rank : Nat
  fmt : Nat
  perm : Nat
  sizes : List Nat
  strides : List Int
  qthr : Nat
  qscale : Nat
  deriving DecidableEq, Repr

/-- Reads a record at a scratchpad address. -/
def readRec (m : Memory) (a : Nat) : XRec :=
  let w (o : Nat) : Word := m.word (a + o)
  let rank := (w 4).toNat % 256
  { base := (w 0).toNat, rank := rank, fmt := (w 4).toNat / 256 % 256, perm := (w 4).toNat / 65536,
    sizes := ((List.range 5).map fun i => (w (8 + 4 * i)).toNat).take rank,
    strides := ((List.range 5).map fun i => (w (28 + 4 * i)).toInt).take rank, qthr := (w 52).toNat, qscale := (w 56).toNat }

/-- The element type that a code names (Table 3.7). -/
def xElem (code : Nat) : Option Elem :=
  if code < 16 then elemOf code else none

/-- Whether a record is of Q4X. -/
def XRec.isQ (r : XRec) : Bool := decide (xElem r.fmt = some .q4x)

/-- Bytes of an element, or of a block of Q4X. -/
def XRec.unit (r : XRec) : Nat :=
  match xElem r.fmt with
  | some .q4x => 20
  | some e => e.bits / 8
  | none => 1

/-- The alignment of a record's elements: their size, or 4 for a block of Q4X. -/
def XRec.al (r : XRec) : Nat := if r.isQ then 4 else r.unit

/-- How many elements a record has. -/
def XRec.count (r : XRec) : Nat := r.sizes.foldl (· * ·) 1

/-- A record's own layout is sound: rank, sizes, alignment, whole Q4X blocks (Table 11.7, code 1). -/
def XRec.ok (r : XRec) : Bool :=
  decide (1 ≤ r.rank ∧ r.rank ≤ 5) && r.sizes.all (fun n => decide (n ≠ 0)) && decide (r.count < 2 ^ 28) &&
    r.base % r.al == 0 &&
    ((r.sizes.zip r.strides).zipIdx.all fun e => e.1.1 == 1 || (r.isQ && e.2 == 0) || e.1.2 % (r.al : Int) == 0) &&
    (!r.isQ || r.sizes.headD 0 % 32 == 0)

/-- The coordinates of a flat index, dimension 0 fastest. -/
def coords : List Nat → Nat → List Nat
  | [], _ => []
  | n :: rest, i => i % n :: coords rest (i / n)

/-- The offset of an element, or of its block (R155). -/
def XRec.at_ (r : XRec) (ix : List Nat) : Int :=
  (r.base : Int) + (((ix.zip r.strides).zipIdx).map fun e =>
    if r.isQ && e.2 == 0 then ((e.1.1 / 32 * 20 : Nat) : Int) else (e.1.1 : Int) * e.1.2).foldl (· + ·) 0

/-- Entry i of PERM. -/
def XRec.permAt (r : XRec) (i : Nat) : Nat := r.perm / 8 ^ i % 8

/-- PERM is a permutation of the dimensions, with bit 15 zero. -/
def XRec.permOk (r : XRec) : Bool :=
  decide (r.perm < 2 ^ 15) && (List.range r.rank).all fun i => (List.range r.rank).any fun j => r.permAt j == i

/-- A record is dense: STRIDE0 is the element size, and every stride the product of those before it. -/
def XRec.dense (r : XRec) : Bool :=
  let inner := if r.isQ then (r.sizes.headD 0) / 32 * 20 else r.unit * r.sizes.headD 0
  (r.isQ || r.strides.headD 0 == (r.unit : Int)) &&
    ((List.range r.rank).all fun i => i == 0 || r.strides.getD i 0 ==
      ((inner * ((r.sizes.take i).drop 1).foldl (· * ·) 1 : Nat) : Int))

/-- The size relation of an operation. -/
def sizesOk (op : Xop) (d s : XRec) : Bool :=
  match op with
  | .transpose => d.rank == s.rank && d.permOk && (List.range d.rank).all fun i => d.sizes.getD i 0 == s.sizes.getD (d.permAt i) 0
  | .gather => d.rank == s.rank && d.sizes.take (d.rank - 1) == s.sizes.take (s.rank - 1)
  | .cvt => d.rank == s.rank && d.sizes == s.sizes
  | .pack => d.rank == s.rank && d.sizes == s.sizes && d.dense
  | .unpack => d.rank == s.rank && d.sizes == s.sizes && s.dense

/-- The format pair of an operation: equal formats, or for .cvt a pair that CVT accepts, or a Q4X destination. -/
def fmtsOk (op : Xop) (d s : XRec) : Bool :=
  match xElem d.fmt, xElem s.fmt with
  | some dt, some st => match op with
    | .cvt => cvtPair dt st || (decide (dt = .q4x) && decide (st ≠ .q4x))
    | _ => decide (dt = st)
  | _, _ => false

/-! ### Elements -/

/-- A gather's list entry for a destination coordinate: outside the allocation, outside the dimension, or a coordinate. -/
def gatherIx (m : Memory) (base size idx : Nat) (s : XRec) (i : Nat) : Nat × Nat :=
  if size < idx + 4 * i + 4 then (3, 0)
  else
    let e := (m.word (base + idx + 4 * i)).toInt
    if e < 0 ∨ (s.sizes.getD (s.rank - 1) 0 : Int) ≤ e then (4, 0) else (0, e.toNat)

/-- The source coordinates of a destination element, or a status code. -/
def srcIx (op : Xop) (m : Memory) (base size idx : Nat) (d s : XRec) (ix : List Nat) : Nat × List Nat :=
  match op with
  | .transpose => (0, (List.range d.rank).map fun q =>
      ((List.range d.rank).find? fun i => d.permAt i == q).elim 0 fun i => ix.getD i 0)
  | .gather =>
    let r := gatherIx m base size idx s (ix.getD (d.rank - 1) 0)
    (r.1, ix.take (d.rank - 1) ++ [r.2])
  | _ => (0, ix)

/-- Whether bytes lie in an allocation. -/
def inAlloc (size : Nat) (a : Int) (n : Nat) : Bool := decide (0 ≤ a) && decide (a + n ≤ (size : Int))

/-- The value and flags of a source element. -/
def srcVal (m : Memory) (base : Nat) (s : XRec) (ix : List Nat) : FVal × Flags :=
  let a := base + (s.at_ ix).toNat
  match xElem s.fmt with
  | some .q4x =>
    let q := qDecode (m.read a 20)
    let e := q.1.getD (ix.headD 0 % 32) (.fin false 0 0, 0#7)
    (e.1, e.2 ||| flagIf q.2 fQX)
  | some e => match elemFmt e with
    | some f => (f.value (leNat (m.read a s.unit)), 0#7)
    | none => (FVal.ofInt (elemInt e (leVal 64 (m.read a s.unit))) 0, 0#7)
  | none => (.fin false 0 0, 0#7)

/-- What a transform has done: destination writes (offset, bytes), source ranges read, flags, elements produced and
dropped, and the status code. -/
structure XOut where
  writes : List (Nat × List Byte)
  reads : List (Nat × Nat)
  flags : Flags
  count : Nat
  drop : Nat
  code : Nat

/-- One destination element of a format other than Q4X. -/
def xOne (op : Xop) (rnd : Rnd) (sat : Bool) (m : Memory) (base size idx : Nat) (d s : XRec) (o : XOut) (i : Nat) : XOut :=
  if o.code ≠ 0 then o
  else
    let ix := coords d.sizes i
    let r := srcIx op m base size idx d s ix
    let a := s.at_ r.2
    let b := d.at_ ix
    if r.1 ≠ 0 then { o with code := r.1 }
    else if ¬ inAlloc size a s.unit ∨ ¬ inAlloc size b d.unit then { o with code := 3 }
    else
      let bs := m.read (base + a.toNat) s.unit
      let y : List Byte × Flags := match op, xElem d.fmt, xElem s.fmt with
        | .cvt, some dt, some st =>
          let z := convElem dt st rnd sat (leVal 64 bs)
          (leBytes d.unit z.1.toNat, z.2)
        | _, _, _ => (bs, 0#7)
      { o with writes := o.writes ++ [(b.toNat, y.1)], reads := o.reads ++ [(a.toNat, s.unit)], flags := o.flags ||| y.2,
               count := o.count + 1 }

/-- One destination block of Q4X, encoded with the record's scale and threshold; elements for the side list are coded zero
and counted (R104, R155). -/
def xBlock (op : Xop) (rnd : Rnd) (sat : Bool) (m : Memory) (base size idx : Nat) (d s : XRec) (o : XOut) (blk : Nat) : XOut :=
  if o.code ≠ 0 then o
  else
    let ixs := (List.range 32).map fun k => coords d.sizes (32 * blk + k)
    let rs := ixs.map (srcIx op m base size idx d s)
    let bad := rs.findSome? fun r => if r.1 ≠ 0 then some r.1 else if inAlloc size (s.at_ r.2) s.unit then none else some 3
    let b := d.at_ (ixs.headD [])
    match bad with
    | some c => { o with code := c }
    | none =>
      if ¬ inAlloc size b 20 then { o with code := 3 }
      else
        let vs := rs.map fun r => srcVal m base s r.2
        let q := qEncode (vs.map fun v => ⟨v.1, rnd, sat⟩) (d.qscale % 65536) (fp32.value d.qthr)
        { o with writes := o.writes ++ [(b.toNat, q.bytes)], reads := o.reads ++ rs.map (fun r => ((s.at_ r.2).toNat, s.unit)),
                 flags := q.flags.foldl (· ||| ·) (vs.foldl (fun f v => f ||| v.2) o.flags), count := o.count + 32,
                 drop := o.drop + q.side.length }

/-- A whole transform on an allocation (R155, R156). -/
def xRun (j : XfJob) (m : Memory) (base size : Nat) : XOut :=
  let d := readRec m (base + j.dl)
  let s := readRec m (base + j.sl)
  let none_ (c : Nat) : XOut := ⟨[], [], 0#7, 0, 0, c⟩
  if !d.ok || !s.ok || !sizesOk j.op d s then none_ 1
  else if !fmtsOk j.op d s then none_ 2
  else if d.isQ then (List.range (d.count / 32)).foldl (xBlock j.op j.rnd j.sat m base size j.idx d s) (none_ 0)
  else (List.range d.count).foldl (xOne j.op j.rnd j.sat m base size j.idx d s) (none_ 0)

/-! ### The engine's events (R154, R156) -/

/-- The transform at the head of the engine's queue starts. -/
def execXformStart (core : Nat) (s : State) : Res :=
  .next (s.modCore core fun k => { k with xq := match k.xq with
    | j :: rest => { j with started := true } :: rest
    | [] => [] })

/-- Whether two ranges of bytes meet. -/
def rangesMeet (a n b m : Nat) : Bool := decide (a < b + m) && decide (b < a + n)

/-- Whether a transform's destination meets its source, its index list or a record: the destination values are then undefined (R155). -/
def xBlur (m : Memory) (base : Nat) (j : XfJob) (o : XOut) : Bool :=
  let idxLen := if j.op = .gather then 4 * (readRec m (base + j.dl)).sizes.getLastD 0 else 0
  let fixed := [(j.dl, 64), (j.sl, 64), (j.idx, idxLen)]
  o.writes.any fun w => (fixed ++ o.reads).any fun r => rangesMeet w.1 w.2.length r.1 r.2

/-- Undefined bytes in place of a transform's writes. -/
def blurWrites (free : Nat) (ws : List (Nat × List Byte)) : List (Nat × List Byte) :=
  ws.map fun w => (w.1, w.2.mapIdx fun i _ => (Config.freeValue (free + w.1 + i)).setWidth 8)

/-- What a transform writes in its workgroup's allocation, in the engine's order: its elements, DROP for a Q4X destination, and STATUS. -/
def xWrites (m : Memory) (base free : Nat) (j : XfJob) (o : XOut) : List (Nat × List Byte) :=
  (if xBlur m base j o then blurWrites free o.writes else o.writes) ++
    (if (readRec m (base + j.dl)).isQ then [(j.dl + 60, leBytes 4 o.drop)] else []) ++ [(j.dl + 48, leBytes 4 (o.code * 2 ^ 28 + o.count))]

/-- Writes at offsets of an allocation. -/
def padWrites (core base : Nat) (ws : List (Nat × List Byte)) (s : State) : State :=
  ws.foldl (fun s w => s.storeHome (.spad core (base + w.1)) w.2) s

/-- The started transform at the head of the queue ends: what is left of its elements and its STATUS is written, its flags merge, and it
makes its one arrival. Before that, the event with a list of its writes makes those visible, in any order (R180). -/
def execXformEnd (x : XformMove) (s : State) : Res :=
  .next (match (s.core x.core).xq with
    | j :: _ =>
      match (s.core x.core).wg j.slot with
      | none => s
      | some g =>
        if j.started then
          let m := (s.core x.core).seen s.free
          let o := xRun j m g.spadBase g.spadSize
          let ws := xWrites m g.spadBase (s.free + 2 ^ 23) j o
          let s := { s with free := s.free + 2 ^ 24 }
          if x.early.isEmpty then
            let s := mergeFront (padWrites x.core g.spadBase ws s) x.core j.slot (o.flags.setWidth 32)
            let s := arriveAt s (.front x.core j.slot) x.core g.spadBase j.bar 1#32 (BitVec.ofNat 32 o.count) 0#64
            s.modCore x.core fun k => { k with xq := k.xq.drop 1 }
          else padWrites x.core g.spadBase (x.early.filterMap fun i => ws[i]?) s
        else s
    | [] => s)

end Sys2Proof.Machine
end

