-- ==== Sys2Proof/Machine/Dispatch.lean ====
section
/-!
DEFINITION. One arm per constructor of `Instr`: the meaning of each instruction and event.
-/

namespace Sys2Proof.Machine

/-- What an instruction or event does at a state. -/
def exec (i : Instr) (s : State) : Host.Outcome State Fault Refusal :=
  match i with
  | .iadd c ty sat d a b => Sys2Proof.Machine.execIadd c ty sat d a b s
  | .isub c ty sat d a b => Sys2Proof.Machine.execIsub c ty sat d a b s
  | .imul c ty sat h d a b => Sys2Proof.Machine.execImul c ty sat h d a b s
  | .imad c ty sat h d a b x => Sys2Proof.Machine.execImad c ty sat h d a b x s
  | .imin c ty d a b => Sys2Proof.Machine.execImin c ty d a b s
  | .imax c ty d a b => Sys2Proof.Machine.execImax c ty d a b s
  | .land c ty d a b => Sys2Proof.Machine.execLand c ty d a b s
  | .lor c ty d a b => Sys2Proof.Machine.execLor c ty d a b s
  | .lxor c ty d a b => Sys2Proof.Machine.execLxor c ty d a b s
  | .shl c ty d a b => Sys2Proof.Machine.execShl c ty d a b s
  | .shr c ty d a b => Sys2Proof.Machine.execShr c ty d a b s
  | .bfx c ty d a b x => Sys2Proof.Machine.execBfx c ty d a b x s
  | .bfi c d a b x => Sys2Proof.Machine.execBfi c d a b x s
  | .popc c ty d a => Sys2Proof.Machine.execPopc c ty d a s
  | .clz c ty d a => Sys2Proof.Machine.execClz c ty d a s
  | .lea c ty n d a b => Sys2Proof.Machine.execLea c ty n d a b s
  | .mov c ty d b => Sys2Proof.Machine.execMov c ty d b s
  | .fadd c ty ftz r d a b => Sys2Proof.Machine.execFadd c ty ftz r d a b s
  | .fmul c ty ftz r d a b => Sys2Proof.Machine.execFmul c ty ftz r d a b s
  | .ffma c ty ftz r d a b x => Sys2Proof.Machine.execFfma c ty ftz r d a b x s
  | .fmin c ty ftz r d a b => Sys2Proof.Machine.execFmin c ty ftz r d a b s
  | .fmax c ty ftz r d a b => Sys2Proof.Machine.execFmax c ty ftz r d a b s
  | .frcp c ty ftz r d a => Sys2Proof.Machine.execFrcp c ty ftz r d a s
  | .frsq c ftz d a => Sys2Proof.Machine.execFrsq c ftz d a s
  | .fsqrt c ty ftz r d a => Sys2Proof.Machine.execFsqrt c ty ftz r d a s
  | .fex2 c ftz d a => Sys2Proof.Machine.execFex2 c ftz d a s
  | .flg2 c ftz d a => Sys2Proof.Machine.execFlg2 c ftz d a s
  | .fsin c cos ftz d a => Sys2Proof.Machine.execFsin c cos ftz d a s
  | .fdp4 c ty ftz r d a b x => Sys2Proof.Machine.execFdp4 c ty ftz r d a b x s
  | .cvt c sat r dt st d a => Sys2Proof.Machine.execCvt c sat r dt st d a s
  | .cvtq c sat r st d a b => Sys2Proof.Machine.execCvtq c sat r st d a b s
  | .deq c sat r dt d a b => Sys2Proof.Machine.execDeq c sat r dt d a b s
  | .pack c unpack sat r dt st d a b => Sys2Proof.Machine.execPack c unpack sat r dt st d a b s
  | .icmp c ty k d a b => Sys2Proof.Machine.execIcmp c ty k d a b s
  | .fcmp c ty k d a b => Sys2Proof.Machine.execFcmp c ty k d a b s
  | .plop c tt d a b => Sys2Proof.Machine.execPlop c tt d a b s
  | .sel c ty d a b x => Sys2Proof.Machine.execSel c ty d a b x s
  | .shfl c mode d a b x => Sys2Proof.Machine.execShfl c mode d a b x s
  | .vote c op d a x => Sys2Proof.Machine.execVote c op d a x s
  | .rdux c op ty r d a x => Sys2Proof.Machine.execRdux c op ty r d a x s
  | .scan c op ty r excl d a x => Sys2Proof.Machine.execScan c op ty r excl d a x s
  | .csamp c d a b x => Sys2Proof.Machine.execCsamp c d a b x s
  | .rand c n d a b x => Sys2Proof.Machine.execRand c n d a b x s
  | .bra c disp => Sys2Proof.Machine.execBra c disp s
  | .brx c a => Sys2Proof.Machine.execBrx c a s
  | .brd c n a disp => Sys2Proof.Machine.execBrd c n a disp s
  | .call c d disp => Sys2Proof.Machine.execCall c d disp s
  | .ret c a => Sys2Proof.Machine.execRet c a s
  | .exit c => Sys2Proof.Machine.execExit c s
  | .yield c => Sys2Proof.Machine.execYield c s
  | .nop c => Sys2Proof.Machine.execNop c s
  | .trlr awaits len => Sys2Proof.Machine.execTrlr awaits len s
  | .join c m => Sys2Proof.Machine.execJoin c m s
  | .leave c m => Sys2Proof.Machine.execLeave c m s
  | .waitm c m => Sys2Proof.Machine.execWaitm c m s
  | .mmov c d a => Sys2Proof.Machine.execMmov c d a s
  | .ldl c q sz d a b x => Sys2Proof.Machine.execLdl c q sz d a b x s
  | .stl c q sz d a b x => Sys2Proof.Machine.execStl c q sz d a b x s
  | .lwait c => Sys2Proof.Machine.execLwait c s
  | .tagl c d a b => Sys2Proof.Machine.execTagl c d a b s
  | .tags c way a b x => Sys2Proof.Machine.execTags c way a b x s
  | .tagi c all a b => Sys2Proof.Machine.execTagi c all a b s
  | .ld c acc sz d a b => Sys2Proof.Machine.execLd c acc sz d a b s
  | .st c acc sz d a b => Sys2Proof.Machine.execSt c acc sz d a b s
  | .pref c dc a b => Sys2Proof.Machine.execPref c dc a b s
  | .cwb c bw a b => Sys2Proof.Machine.execCwb c bw a b s
  | .promote c pin bw d a b => Sys2Proof.Machine.execPromote c pin bw d a b s
  | .demote c bw d a b => Sys2Proof.Machine.execDemote c bw d a b s
  | .madr c bw d a b => Sys2Proof.Machine.execMadr c bw d a b s
  | .dead c bw a b => Sys2Proof.Machine.execDead c bw a b s
  | .atom c op ord sc d a b x => Sys2Proof.Machine.execAtom c op ord sc d a b x s
  | .atoml c op ord sc d a b x => Sys2Proof.Machine.execAtoml c op ord sc d a b x s
  | .red c op ord sc ty d a b => Sys2Proof.Machine.execRed c op ord sc ty d a b s
  | .fence c ord sc => Sys2Proof.Machine.execFence c ord sc s
  | .bari c sc auto d a b => Sys2Proof.Machine.execBari c sc auto d a b s
  | .bara c sc d a b => Sys2Proof.Machine.execBara c sc d a b s
  | .barw c sc d a b => Sys2Proof.Machine.execBarw c sc d a b s
  | .mwait c acq sc d a b => Sys2Proof.Machine.execMwait c acq sc d a b s
  | .mrdy c a => Sys2Proof.Machine.execMrdy c a s
  | .mloop c steps d a b x => Sys2Proof.Machine.execMloop c steps d a b x s
  | .msync c a => Sys2Proof.Machine.execMsync c a s
  | .aclr c d a b => Sys2Proof.Machine.execAclr c d a b s
  | .aout c src32 dt relu r d a => Sys2Proof.Machine.execAout c src32 dt relu r d a s
  | .copy c ch kind conv rank f d a b => Sys2Proof.Machine.execCopy c ch kind conv rank f d a b s
  | .rdwp c ch q rank d => Sys2Proof.Machine.execRdwp c ch q rank d s
  | .spawn c n d a disp => Sys2Proof.Machine.execSpawn c n d a disp s
  | .genb c cap k a prod cons => Sys2Proof.Machine.execGenb c cap k a prod cons s
  | .gyld c a b => Sys2Proof.Machine.execGyld c a b s
  | .gtake c d => Sys2Proof.Machine.execGtake c d s
  | .gend c consumer => Sys2Proof.Machine.execGend c consumer s
  | .dqpush c a => Sys2Proof.Machine.execDqpush c a s
  | .dqpop c d => Sys2Proof.Machine.execDqpop c d s
  | .launch c d a b => Sys2Proof.Machine.execLaunch c d a b s
  | .cancel c lv a => Sys2Proof.Machine.execCancel c lv a s
  | .cntw c lv d a => Sys2Proof.Machine.execCntw c lv d a s
  | .tlbw c a b x => Sys2Proof.Machine.execTlbw c a b x s
  | .tlbi c all sc a => Sys2Proof.Machine.execTlbi c all sc a s
  | .tlbq c d a => Sys2Proof.Machine.execTlbq c d a s
  | .rfh c mode => Sys2Proof.Machine.execRfh c mode s
  | .trap c a => Sys2Proof.Machine.execTrap c a s
  | .srd c d a => Sys2Proof.Machine.execSrd c d a s
  | .swr c d a => Sys2Proof.Machine.execSwr c d a s
  | .mend c a => Sys2Proof.Machine.execMend c a s
  | .xform c op r d a b x => Sys2Proof.Machine.execXform c op r d a b x s
  | .bankAnswer w id lane => Sys2Proof.Machine.execBankAnswer w id lane s
  | .loadFill w id lane fromL1 => Sys2Proof.Machine.execLoadFill w id lane fromL1 s
  | .storeAccept w lanes => Sys2Proof.Machine.execStoreAccept w lanes s
  | .storeAcceptHome k => Sys2Proof.Machine.execStoreAcceptHome k s
  | .atomicPerform k => Sys2Proof.Machine.execAtomicPerform k s
  | .monitorFire k => Sys2Proof.Machine.execMonitorFire k s
  | .controllerAnswer w lane => Sys2Proof.Machine.execControllerAnswer w lane s
  | .windowKillDone w => Sys2Proof.Machine.execWindowKillDone w s
  | .walkEvent core => Sys2Proof.Machine.execWalkEvent core s
  | .handlerDelivery core => Sys2Proof.Machine.execHandlerDelivery core s
  | .stallResume core => Sys2Proof.Machine.execStallResume core s
  | .stallCancel core => Sys2Proof.Machine.execStallCancel core s
  | .stallLimitExpire core => Sys2Proof.Machine.execStallLimitExpire core s
  | .copyStart core ch => Sys2Proof.Machine.execCopyStart core ch s
  | .copyDelivery core ch n => Sys2Proof.Machine.execCopyDelivery core ch n s
  | .matrixEntryBegin core => Sys2Proof.Machine.execMatrixEntryBegin core s
  | .matrixEntryComplete core => Sys2Proof.Machine.execMatrixEntryComplete core s
  | .xformStart core => Sys2Proof.Machine.execXformStart core s
  | .xformEnd x => Sys2Proof.Machine.execXformEnd x s
  | .spawnRecordAccept w => Sys2Proof.Machine.execSpawnRecordAccept w s
  | .binTimerExpire core bin => Sys2Proof.Machine.execBinTimerExpire core bin s
  | .deckleLaunch core bin => Sys2Proof.Machine.execDeckleLaunch core bin s
  | .sheetEnd w => Sys2Proof.Machine.execSheetEnd w s
  | .groupForced w lane cycles => Sys2Proof.Machine.execGroupForced w lane cycles s
  | .blockRelease w lane => Sys2Proof.Machine.execBlockRelease w lane s
  | .generatorRound w => Sys2Proof.Machine.execGeneratorRound w s
  | .generatorResume w => Sys2Proof.Machine.execGeneratorResume w s
  | .quantTick core => Sys2Proof.Machine.execQuantTick core s
  | .tokenTick owner => Sys2Proof.Machine.execTokenTick owner s
  | .ownerSwitch core owner => Sys2Proof.Machine.execOwnerSwitch core owner s
  | .saveGraceExpire core => Sys2Proof.Machine.execSaveGraceExpire core s
  | .handlerDebtLimit core => Sys2Proof.Machine.execHandlerDebtLimit core s
  | .preempt core slot => Sys2Proof.Machine.execPreempt core slot s
  | .placeQuire launch quire cores => Sys2Proof.Machine.execPlaceQuire launch quire cores s
  | .watchdogExpire launch us => Sys2Proof.Machine.execWatchdogExpire launch us s
  | .qwrite q val => Sys2Proof.Machine.execQwrite q val s
  | .qctlEnable q on owner => Sys2Proof.Machine.execQctlEnable q on owner s
  | .qctlReset q => Sys2Proof.Machine.execQctlReset q s
  | .registerWrite off bytes => Sys2Proof.Machine.execRegisterWrite off bytes s
  | .launchPacket q => Sys2Proof.Machine.execLaunchPacket q s
  | .fencePacket q => Sys2Proof.Machine.execFencePacket q s
  | .fenceHostReread q => Sys2Proof.Machine.execFenceHostReread q s
  | .signalPacket q => Sys2Proof.Machine.execSignalPacket q s
  | .chainPacket q => Sys2Proof.Machine.execChainPacket q s
  | .badPacket q => Sys2Proof.Machine.execBadPacket q s
  | .flowset q => Sys2Proof.Machine.execFlowset q s
  | .flowkill q => Sys2Proof.Machine.execFlowkill q s
  | .keyload q => Sys2Proof.Machine.execKeyload q s
  | .keyclear q => Sys2Proof.Machine.execKeyclear q s
  | .ingestPacket pkt => Sys2Proof.Machine.execIngestPacket pkt s
  | .portalRecord owner off bytes core => Sys2Proof.Machine.execPortalRecord owner off bytes core s
  | .inboundWrite requester relaxed pa bytes => Sys2Proof.Machine.execInboundWrite requester relaxed pa bytes s
  | .inboundWriteForward k => Sys2Proof.Machine.execInboundWriteForward k s
  | .inboundRead requester addr n => Sys2Proof.Machine.execInboundRead requester addr n s
  | .hostRefuse r id lane => Sys2Proof.Machine.execHostRefuse r id lane s
  | .flitReceive link crcOk pa body => Sys2Proof.Machine.execFlitReceive link crcOk pa body s
  | .reset => Sys2Proof.Machine.execReset s
  | .bootctlGo links => Sys2Proof.Machine.execBootctlGo links s
  | .bootctlAttgo => Sys2Proof.Machine.execBootctlAttgo s
  | .lifecycle val => Sys2Proof.Machine.execLifecycle val s
  | .clockThrottle lower => Sys2Proof.Machine.execClockThrottle lower s
  | .refresh stack pc bank row => Sys2Proof.Machine.execRefresh stack pc bank row s
  | .patrolScrub stack pc bank row => Sys2Proof.Machine.execPatrolScrub stack pc bank row s
  | .disturbanceMitigation stack pc bank row owner => Sys2Proof.Machine.execDisturbanceMitigation stack pc bank row owner s
  | .envelopeCreate record => Sys2Proof.Machine.execEnvelopeCreate record s
  | .ownerRemove owner => Sys2Proof.Machine.execOwnerRemove owner s
  | .quarantineLift core owner => Sys2Proof.Machine.execQuarantineLift core owner s
  | .hostCancel launch => Sys2Proof.Machine.execHostCancel launch s
  | .windowGrant owner idx entry => Sys2Proof.Machine.execWindowGrant owner idx entry s
  | .softError cell => Sys2Proof.Machine.execSoftError cell s
  | .disturbanceDelayExpire stack pc bank owner => Sys2Proof.Machine.execDisturbanceDelayExpire stack pc bank owner s

end Sys2Proof.Machine
end

