-- ==== Sys2Proof/Machine/Issue.lean ====
section
/-!
DEFINITION. From an issue cycle to an instruction: selection (Table 4.2, R66 to R68, R77), fetching an instruction's bytes
(R39, R219, R246), the run checks (R51, R52) and the decoder's verdict (R57, R58).
-/

namespace Sys2Proof.Machine

/-! ### Fetch -/

/-- What a fetch finds. -/
inductive Fetched where
  | word (w : IWord)
  | miss (va : DWord)
  | perm (va : DWord)
  deriving DecidableEq, Repr

/-- The 12 bytes at an offset of an agent's code segment: physically from the ballast for a handler (R219), else through
a translation of the segment's addresses. Of a poisoned line they are the zeros of its pattern: R205 does not list a fetch (log 57). -/
def State.fetchBy (s : State) (xl : DWord → Xlat) (w : Where) (off : Nat) : Fetched :=
  let c := wCore w
  match w with
  | .handler _ _ => match s.ownerOf w with
    | some o => .word (leVal 96 (s.coreBytes c (.dev (o.bbase + o.hcode + off)) 12))
    | none => .word 0#96
  | w => match s.wgOf w with
    | none => .word 0#96
    | some g =>
      let va := ((s.sheetAt w).map (·.code)).getD g.code + BitVec.ofNat 64 off
      match xl va, xl (va + 11#64) with
      | .ok _ _, .ok _ _ =>
        .word (leVal 96 ((List.range 12).map fun k => match xl (va + BitVec.ofNat 64 k) with
          | .ok x _ => s.coreByte c x
          | _ => 0#8))
      | .miss, _ => .miss va
      | .perm, _ => .perm va
      | _, .miss => .miss (va + 11#64)
      | _, .perm => .perm (va + 11#64)

/-- The fetch of a word, through the owner's execute mapping (R246). -/
def State.fetch (s : State) (w : Where) (off : Nat) : Fetched := s.fetchBy (s.translate (wCore w) .execute) w off

/-- A word that is to be executed is read at its home, as its first and its last byte are: the errors of its lines are found, and the lines
come into the home die cache (R203, R369); a poisoned one is read as it stands (log 57). -/
def State.fetchIn (s : State) (w : Where) (off : Nat) : State :=
  let look (s : State) : Xlat → State
    | .ok t _ => s.glance t 1
    | _ => s
  match w with
  | .handler _ _ => match s.ownerOf w with
    | some o => look (look s (.ok (.dev (o.bbase + o.hcode + off)) true)) (.ok (.dev (o.bbase + o.hcode + off + 11)) true)
    | none => s
  | w => match s.wgOf w with
    | none => s
    | some g =>
      let va := ((s.sheetAt w).map (·.code)).getD g.code + BitVec.ofNat 64 off
      let xl (va : DWord) : Xlat := s.translate (wCore w) .execute va
      look (look s (xl va)) (xl (va + 11#64))

/-- A word of the segment that is looked at and not executed: by its mapping, whatever that permits (log 43). -/
def State.peek (s : State) (w : Where) (off : Nat) : Fetched :=
  s.fetchBy (fun va =>
    if va.toNat ≥ 2 ^ 48 then .perm
    else match (s.core (wCore w)).tlbFind va.toNat with
      | none => .miss
      | some e => .ok (frameTarget (e.frame va.toNat)) e.policy) w off

/-! ### What a word is decoded under -/

/-- The declared register count of an agent's code (R26, R219). -/
def State.regCount (s : State) (w : Where) : Nat :=
  match w with
  | .handler _ _ => 32
  | w => match s.sheetAt w with
    | some sh => sh.c
    | none => 0

/-- What R57's checks depend on: the kind of code, C or the running body's frame (R88), and the transform unit's bit. -/
def State.decodeCtx (s : State) (w : Where) (sh : Sheet) : DecodeCtx :=
  let tx := (s.mgmt.feat.getD 1 0#32).getLsbD 0
  match sh.gen with
  | some g => match g.body with
    | .consumer => ⟨sh.kind, s.regCount w, g.k + 1, tx⟩
    | _ => ⟨sh.kind, g.k + 1, 0, tx⟩
  | none => ⟨sh.kind, s.regCount w, 0, tx⟩

/-! ### The checks of R51, R52 and R57 -/

/-- A next state, or an instruction that executes at a state. -/
inductive Prep where
  | done (s : State)
  | run (i : Instr) (s : State)

/-- A group's fetch misses: its lanes wait for the walk (R224, R246). -/
def fetchMiss (s : State) (g : Grp) (va : DWord) : State :=
  let rs := g.grp.map fun l => (⟨g.w, l, va, 4, 15, .word, g.pc, 0#96⟩ : MissReq)
  if (s.core (wCore g.w)).canMiss va.toNat then
    ((s.put g (g.sh.modLanes g.grp fun t => { t with wait := .fetch, slot := none, waited := 0, forced := false })).join
      (wCore g.w) rs).1
  else s.put g (waitHere g (.table [va]) g.sh)

/-- What the check of R51 finds of a transfer's target. -/
inductive Start where
  | yes
  | no
  | miss (va : DWord)
  deriving DecidableEq, Repr

/-- Whether an offset is a run start (R51): the segment's first word, or the word after a TRLR, which must be translated to be
looked at. -/
def State.runStart (s : State) (w : Where) (off : Nat) : Start :=
  if off % 12 ≠ 0 then .no
  else if off = 0 then .yes
  else match s.peek w (off - 12) with
    | .word x => if isTrlr x then .yes else .no
    | .miss va => .miss va
    | .perm _ => .no

/-- A RUN or ILLEGAL trap of the checks before execution: GROUP in fmask, SLOT 0xF (R57). -/
def checkTrap (s : State) (g : Grp) (c : Cause) (slot : Nat) (tpc : Word) (w : IWord) : Prep :=
  .done (takeTrap s g ⟨c, slot, 0, g.grp, [], fun _ => 0#64, tpc, w⟩)

/-- EXTEMU (R58): FA, FB and XC of kind 00 or 01 are waited for in the executing lanes, then the trap is taken with the
executing lanes in fmask. The check does not depend on the guard (R57): a word that no lane executes traps too, with fmask 0 (log 32). -/
def extemu (s : State) (g : Grp) (w : IWord) : State :=
  let full (f : BitVec 16) (l : Nat) : Bool :=
    match plainField f with
    | some o => opdFull g.sh false o l
    | none => true
  if g.act.all fun l => full (fFa w) l && full (fFb w) l && full (fXc w) l then
    takeTrap s g ⟨.extemu, 15, 0, g.act, [], fun _ => 0#64, g.pc, w⟩
  else s.put g (waitHere g (.regs (laneMask g.act) ([fFa w, fFb w, fXc w].flatMap fun f => ((plainField f).map (spanRegs false)).getD []))
    g.sh)

/-- A trailer's own checks, where a group stands at the run's last word or at the trailer itself (R51, R52). -/
def trailerFault (x : DecodeCtx) (run : Nat) (w : IWord) : Option Cause :=
  if trlrLen w = run ∧ 1 ≤ run ∧ run ≤ 24 then (if trlrOk x w then none else some .illegal) else some .run

/-- Whether a word is GENB, which must stand last in its run as a transfer does (R87). -/
def isGenb (w : IWord) : Bool := fOpcode w == 0xC * 64 + 4

/-- The verdict on a fetched word and the word after it. -/
def judge (s : State) (g : Grp) (w next : IWord) : Prep :=
  let t := g.sh.lane g.lead
  let x := s.decodeCtx g.w g.sh
  if isTrlr w then
    match trailerFault x t.runPos w with
    | some c => checkTrap s g c 15 g.pc w
    | none => .run (.trlr (trlrEntries w (bitsOf w 71 3).toNat) (bitsOf w 0 8)) s
  else if 24 ≤ t.runPos then checkTrap s g .run 15 g.pc w
  else
    match (if isTrlr next then trailerFault x (t.runPos + 1) next else none) with
    | some c => checkTrap s g c 15 (g.pc + 12#32) next
    | none =>
      if (isTransfer w || isGenb w) && !isTrlr next then checkTrap s g .run 15 g.pc w
      else
        match decode x w with
        | .ok i => .run i s
        | .error (.illegal slot) => checkTrap s g .illegal slot g.pc w
        | .error .extemu => .done (extemu s (Grp.of g.w g.sh g.lead (fCtl w)) w)

/-- A selected group takes its slot; at a run start its yield mark clears and its wait count starts again (R66 to R68). Its await
list has been met and is not checked again (R55). -/
def takeSlot (g : Grp) (slot : Nat) : Sheet :=
  let yields := groupYields g.sh g.lead
  g.sh.modLanes g.grp fun t =>
    { t with slot := some slot, awaits := [], yieldMark := yields && t.runPos != 0, waited := 0, forced := false }

/-- A fetch that lacks permission traps PERM in the whole group, ahead of any of the word's own checks (R215, R246). -/
def fetchPerm (s : State) (g : Grp) (va : DWord) (tpc : Word) : State :=
  takeTrap { s with curWord := 0#96 } g ⟨.perm, 15, 4, g.grp, [], fun _ => va, tpc, 0#96⟩

/-- A group whose word is fetched goes on to the word after it and to the verdict. The word after it is needed where it is the trailer, which
is checked before the run's last word performs, or where it must be one (R51, R87): there a fetch of it that lacks permission traps. -/
def issueWord (s : State) (g : Grp) (x : IWord) : Prep :=
  let alone : Prep := judge { s with cur := some (g.w, g.lead), curWord := x, nextWord := 0#96 } g x 0#96
  let after := g.pc.toNat + 12
  if isTrlr x ∨ 24 ≤ (g.sh.lane g.lead).runPos then alone
  else
    let s := s.fetchIn g.w after
    let at_ (y : IWord) : State := { s with cur := some (g.w, g.lead), curWord := x, nextWord := y }
    match s.fetch g.w after with
    | .miss va => .done (fetchMiss s g va)
    | .word y => judge (at_ y) g x y
    | .perm va =>
      match s.peek g.w after with
      | .miss va => .done (fetchMiss s g va)
      | .word y => if isTransfer x || isGenb x || isTrlr y then .done (fetchPerm s g va (g.pc + 12#32)) else alone
      | .perm _ => if isTransfer x || isGenb x then .done (fetchPerm s g va (g.pc + 12#32)) else alone

/-- Issues the group of an agent's lane (R54, R57). -/
def issueAt (s : State) (w : Where) (l slot : Nat) : Prep :=
  match s.sheetAt w with
  | none => .done s
  | some sh =>
    let grp := groupOf sh l
    let sh := takeSlot ⟨w, sh, l, grp, grp⟩ slot
    let g : Grp := ⟨w, sh, l, grp, grp⟩
    let off := g.pc.toNat
    let s := (s.put g sh).fetchIn w off
    match s.fetch w off with
    | .miss va => .done (fetchMiss s g va)
    | .perm va => .done (fetchPerm s g va g.pc)
    | .word x =>
      if grp.any fun k => (sh.lane k).jumped then
        match s.runStart w off with
        | .no => checkTrap s g .run 15 g.pc x
        | .miss va => .done (fetchMiss s g va)
        | .yes =>
          let sh := sh.modLanes grp fun t => { t with jumped := false }
          issueWord (s.put g sh) { g with sh := sh } x
      else issueWord s g x

/-! ### Selection (Table 4.2) -/

/-- A generator's switch is pending: no group of its producer takes a slot (R92). -/
def switching (sh : Sheet) : Bool :=
  match sh.gen with
  | some g => decide (g.body = .switching)
  | none => false

/-- The leaders of a sheet's ready groups (R65): the lowest lane of each. -/
def readyLeaders (sh : Sheet) : List Nat :=
  (List.range sh.lanes.length).filter fun l =>
    (sh.lane l).canIssue && eligible sh l && decide ((groupOf sh l).head? = some l) &&
      ((sh.lane l).slot.isSome || !switching sh)

/-- A group's rank in a competition for a slot, smaller first; of groups that hold a run the one with the lower PC comes first (Table 4.2
step 4). -/
def rank (sh : Sheet) (l : Nat) : List Nat :=
  let t := sh.lane l
  let forced := groupForced sh l
  if t.runPos ≠ 0 then [0, 0, t.pc.toNat]
  else [if groupYields sh l then 1 else 0, 1, if forced then 0 else 1,
    if forced then 2 ^ 64 - groupWaited sh l else 0, 64 - (groupOf sh l).length, t.pc.toNat]

/-- Lexicographic order of ranks. -/
def rankLt : List Nat → List Nat → Bool
  | a :: x, b :: y => decide (a < b) || (a == b && rankLt x y)
  | _, _ => false

/-- The least element of a list by a rank. -/
def leastBy {α : Type} (r : α → List Nat) : List α → Option α
  | [] => none
  | a :: rest => match leastBy r rest with
    | some b => if rankLt (r b) (r a) then some b else some a
    | none => some a

/-- The ready group that holds a slot of a sheet. -/
def holder (sh : Sheet) (slot : Nat) : Option Nat := (readyLeaders sh).find? fun l => (sh.lane l).slot == some slot

/-- The groups that the two slots of a sheet serve, each as slot and leader: those that hold a slot, and else the best of the others, but no
new run in a slot that is denied (Table 4.2 steps 4 and 5). A group that goes on inside a run after a wait has its slot back in either case
(R66). -/
def slotGroups (sh : Sheet) (denied : List Nat) : List (Nat × Nat) :=
  let free := (readyLeaders sh).filter fun l => (sh.lane l).slot.isNone
  let best (b : Nat) (ls : List Nat) : Option Nat :=
    leastBy (rank sh) (ls.filter fun l => !denied.contains b || (sh.lane l).runPos != 0)
  let a := (holder sh 0).or (best 0 free)
  let b := (holder sh 1).or (best 1 (free.filter fun l => a != some l))
  (a.map fun l => (0, l)).toList ++ (b.map fun l => (1, l)).toList

/-- The ordinary sheets of a quadrant (R26): sheet s of a workgroup in quadrant s mod 4. -/
def Core.quadSheets (k : Core) (q : Nat) : List (Nat × Nat × Sheet) :=
  (List.range 8).flatMap fun slot =>
    match k.wg slot with
    | some g => (List.range g.sheets.length).filterMap fun i =>
        if i % 4 = q then ((g.sheets[i]?).join).map fun sh => (slot, i, sh) else none
    | none => []

/-- Whether a sheet has a ready group. -/
def hasReady (sh : Sheet) : Bool := !(readyLeaders sh).isEmpty

/-- The forced groups' longest wait, as a rank with the sheet's age (Table 4.2 step 3). Of sheets of one age the one in the lower workgroup
slot comes first, then the lower sheet index (log 54). -/
def sheetRank (x : Nat × Nat × Sheet) : List Nat :=
  let w := ((readyLeaders x.2.2).filter (groupForced x.2.2)).foldl (fun m l => max m (groupWaited x.2.2 l + 1)) 0
  [if w = 0 then 1 else 0, 2 ^ 64 - w, x.2.2.age, x.1, x.2.1]

/-- Whether a sheet has a forced ready group. -/
def hasForced (sh : Sheet) : Bool := (readyLeaders sh).any (groupForced sh)

/-- The handler sheet of a quadrant that has a ready group (Table 4.2 step 1, R219). -/
def Core.readyHandler (k : Core) (q : Nat) : Option Nat :=
  let lv := if q = 0 then 1 else 2
  if q = 0 ∨ q = 2 then (k.handler lv).bind fun h => if !h.frozen && hasReady h.sheet then some lv else none else none

/-- The slots that issued last and were freed by it: a lane of the sheet passed its trailer in that step, took the transfer before it, or
ended (R66). -/
def LastIssue.justFreed (x : LastIssue) (sh : Sheet) : List Nat :=
  (x.issued.filter fun e => sh.lanes.any fun t => t.pass == e.2).map (·.1)

/-- The slots of the sheet that were freed at a trailer and not filled since (Table 4.2 step 5). -/
def LastIssue.freed (x : LastIssue) (sh : Sheet) : List Nat := x.idle ++ x.justFreed sh

/-- The last issue of a quadrant, where it was of a sheet. After a cycle that served a handler sheet, or none, the ordinary sheet that was
served before still is the one that issued last: Table 4.2 does not say which then counts (log 54). -/
def Core.lastOf (k : Core) (q slot idx : Nat) : Option LastIssue :=
  (k.lastSheet.getD q none).bind fun i => if i.slot = slot ∧ i.idx = idx then some i else none

/-- The sheet of a quadrant that the issue cycle serves, and its slots that may take no new run (Table 4.2): a handler of the quadrant first,
unless the cycle is one in which it is held; the sheet that issued last while it holds a run, whose freed slots stay idle while another sheet
has a forced group, or while it fills the slot that its last run freed; else the sheet with the longest forced wait, or the oldest. -/
def served (s : State) (c q : Nat) (held : List Nat) : Option (Where × List Nat) :=
  let k := s.core c
  match if held.contains 2 then none else k.readyHandler q with
  | some lv => some (.handler c lv, [])
  | none =>
    let sheets := (k.quadSheets q).filter fun x => hasReady x.2.2
    let forced (x : Nat × Nat × Sheet) : Bool := sheets.any fun y => !(y.1 == x.1 && y.2.1 == x.2.1) && hasForced y.2.2
    let again (x : Nat × Nat × Sheet) (i : LastIssue) : Bool :=
      (readyLeaders x.2.2).any (fun l => (x.2.2.lane l).slot.isSome) || (!(i.justFreed x.2.2).isEmpty && !forced x)
    match sheets.find? fun x => (k.lastOf q x.1 x.2.1).any (again x) with
    | some x => some (.sheet c x.1 x.2.1, if forced x then ((k.lastOf q x.1 x.2.1).map fun i => i.freed x.2.2).getD [] else [])
    | none => (leastBy sheetRank sheets).map fun x => (.sheet c x.1 x.2.1, [])

/-- The front-end thread that a core's pipeline issues next, round-robin by workgroup slot (R77); held ones are passed over. -/
def pickFront (s : State) (c : Nat) (held : List Nat) : Option Where :=
  let k := s.core c
  ((List.range 8).map fun i => (k.rrNext + i) % 8).findSome? fun slot =>
    match (k.wg slot).bind (·.front) with
    | some sh => if (sh.lane 0).canIssue && eligible sh 0 && !held.contains slot then some (Where.front c slot) else none
    | none => none

/-- A trailer takes no issue slot (R53): once a group has passed its own, the same cycle selects again. -/
def passing (a : Act) : Prep → Prep
  | .run (.trlr e n) s => .run (.trlr e n) { s with agenda := a :: s.agenda }
  | p => p

/-- A group stands at a trailer. -/
def atTrlr (s : State) (w : Where) (sh : Sheet) (l : Nat) : Bool :=
  match s.fetch w (sh.lane l).pc.toNat with
  | .word x => isTrlr x
  | _ => false

/-- Both slots of a sheet issue in one cycle: first the group `x` with the lower PC, then the other, and after both the waits on masks
look at their conditions (R25, R69, R71, R365). The sheet keeps which producers are whose, since the loads of the lower PC come first. -/
def issuePair (s : State) (w : Where) (sh : Sheet) (x y : Nat × Nat) : Prep :=
  let sh := takeSlot ⟨w, sh, y.2, groupOf sh y.2, groupOf sh y.2⟩ y.1
  issueAt { s.putSheet w { sh with pairs := sh.pairs ++ [(s.nextId, 0, 0)] } with
    agenda := .second w y.1 :: .settle w :: s.agenda } w x.2 x.1

/-- A sheet of a quadrant issues from some slots, the first in this step and the other in the next; slots that it leaves idle stay so. -/
def State.issuedFrom (s : State) (q : Nat) (w : Where) (sh : Sheet) (slots : List Nat) : State :=
  match w with
  | .sheet c a b => s.modCore c fun k =>
      let idle := (((k.lastOf q a b).map fun i => i.freed sh).getD []).filter fun i => !slots.contains i
      { k with lastSheet := k.lastSheet.set q (some ⟨a, b, slots.mapIdx fun i x => (x, s.steps + i), idle⟩) }
  | _ => s

/-- One issue cycle of a quadrant. One that serves a handler sheet, or none, leaves the sheet that issued last as it was, since only ordinary sheets
are kept there; Table 4.2 step 2 does not say which sheet then counts (R66, log 54). -/
def issueQuad (s : State) (c q : Nat) (held : List Nat) : Prep :=
  match served s c q held with
  | none => .done s
  | some (w, denied) =>
    match s.sheetAt w with
    | none => .done s
    | some sh =>
      let alone (x : Nat × Nat) : Prep := passing (.issue c q held) (issueAt (s.issuedFrom q w sh [x.1]) w x.2 x.1)
      match (slotGroups sh denied).filter fun x => !held.contains x.1 with
      | [] => .done s
      | [x] => alone x
      | x :: y :: _ =>
        if atTrlr s w sh x.2 then alone x
        else if atTrlr s w sh y.2 then alone y
        else
          let (x, y) := if (sh.lane y.2).pc.toNat < (sh.lane x.2).pc.toNat then (y, x) else (x, y)
          issuePair (s.issuedFrom q w sh [x.1, y.1]) w sh x y

/-- The producers of the lower PC have their numbers; those of the other slot follow (R69). -/
def Sheet.openSecond (n : Nat) (sh : Sheet) : Sheet :=
  { sh with pairs := sh.pairs.map fun p => if p.2.1 = 0 then (p.1, n, 0) else p }

/-- Both slots have issued: the pair is kept while its second slot has loads that wait for some of its first (R69). -/
def Sheet.closePairs (n : Nat) (sh : Sheet) : Sheet :=
  let closed := sh.pairs.map fun p => if p.2.2 = 0 then (p.1, p.2.1, n) else p
  let open_ (lo hi : Nat) : Bool := sh.fills.any fun f => f.kind.loads && decide (lo ≤ f.id ∧ f.id < hi) && f.lanes.any fun x => !x.done
  { sh with pairs := closed.filter fun p => open_ p.1 p.2.1 && open_ p.2.1 p.2.2 }

/-- What is left of an issue cycle: the group that holds the other slot. -/
def issueSecond (s : State) (w : Where) (slot : Nat) : Prep :=
  let s := s.modSheet w (Sheet.openSecond s.nextId)
  match (s.sheetAt w).bind fun sh => holder sh slot with
  | some l => issueAt s w l slot
  | none => .done s

/-- One cycle of a core's front-end pipeline: a thread that only passes a trailer keeps its turn (R53, R77). -/
def issueFront (s : State) (c : Nat) (held : List Nat) : Prep :=
  let turn (w : Where) (s : State) : State := s.modCore c fun k => { k with rrNext := ((wSlot w).getD 0 + 1) % 8 }
  match pickFront s c held with
  | none => .done s
  | some w =>
    match passing (.front c held) (issueAt s w 0 0) with
    | .run (.trlr e n) s => .run (.trlr e n) s
    | .run i s => .run i (turn w s)
    | .done s => .done (turn w s)

/-- The first thing that can issue when the agenda names nothing: front-end pipelines and quadrants in order. -/
def pickAny (s : State) : Option Act :=
  (List.range s.cores.length).findSome? fun c =>
    match pickFront s c [] with
    | some _ => some (.front c [])
    | none => ([0, 1, 2, 3] : List Nat).findSome? fun q => (served s c q []).map fun _ => Act.issue c q []

/-- Whether an instruction is an event, which an agenda may name; an instruction word issues only from its code. -/
def isEvent (i : Instr) : Bool := encode i == 0#96 && (match i with
  | .iadd .. => false
  | _ => true)

/-- What is left of an issue cycle takes no time of its own. -/
def Act.sameCycle : Act → Bool
  | .second _ _ | .settle _ => true
  | _ => false

/-- A step begins: it has its number, and the clock moves, but within one issue cycle. -/
def State.tick (s : State) : State :=
  let s := { s with steps := s.steps + 1, cur := none }
  if (s.agenda.head?.map Act.sameCycle).getD false then s
  else { s with clock := s.clock + Config.stepCycles s.steps, base := s.base + Config.stepFabric s.steps }

/-- What an entry of the agenda does first. -/
def begin (a : Act) (s : State) : Prep :=
  match a with
  | .issue c q held => issueQuad s c q held
  | .front c held => issueFront s c held
  | .second w slot => issueSecond s w slot
  | .settle w => .done (s.modSheet w fun sh => xSettle s w (sh.closePairs s.nextId).settle)
  | .event i => if isEvent i then .run i s else .done s

/-- What one step does first: the agenda's head (or the first thing that can issue) is taken, and a word is selected, fetched,
checked and decoded (log 1). -/
def prepare (s : State) : Prep :=
  let s := s.tick
  match s.agenda with
  | a :: rest => begin a { s with agenda := rest }
  | [] => match pickAny s with
    | some a => begin a s
    | none => .done s

end Sys2Proof.Machine
end

