-- ==== Sys2Proof/Machine/Place.lean ====
section
/-!
DEFINITION. A small machine around one instruction word: an owner with one window, one extent and a ballast, a translation
of its code page, and the agent whose code accepts the word, standing at it. It stands for what firmware, a queue and a
service processor do before a program's first instruction (log 11).
-/

namespace Sys2Proof.Machine

/-- The envelope of the placed owner: rows 512 to 1023 of stack 0 as one direct window. -/
def placeOwner : Owner :=
  { id := 1, prio := 0, mend := true, quantum := 2000000, stallLim := 10000000, nearq := 8, hbmRate := 0, hbmDepth := 65536,
    lnkRate := 0, lnkDepth := 65536, bbase := 2 ^ 32, bsize := 512, spadMax := 2 ^ 23, mouldMax := 65536, accMax := 3072,
    ovBase := 0, ovSize := 0, hcode := 0x4000, hsaven := 1, hentry := [0, 0, 0, 0, 0, 0, 0, 0],
    keys := List.replicate 32 0#8, windows := [⟨512, 512, false, 0, true, false, 0xFF#8, 0xFF#8, 0x1F#5⟩],
    extents := [⟨BitVec.ofNat 64 (2 ^ 32), 65536, true, true, true, true⟩], record := [], hbm := 65536 * 256, lnk := 65536 * 256,
    hbmDry := false, lnkDry := false,
    selA := 0#4, selB := 0#4, selC := 0#4, seqs := [], held := [], debts := [], saves := [] }

/-- A lane at an offset, `run` words into its run. -/
def placeThread (off run : Nat) : Thread := { Thread.start (BitVec.ofNat 32 off) with runPos := run }

/-- A 16-wide sheet with one live lane, or a front-end thread, standing at an offset. -/
def placeSheet (kind : CodeKind) (width off run : Nat) : Sheet :=
  { kind := kind, width := width, c := 256, code := 0x10000#64, age := 0, lanes := placeThread off run :: List.replicate (width - 1) Thread.absent,
    u := [], m := [], sq := [], fills := [], pairs := [], gen := none }

/-- A workgroup of launch 0. -/
def placeGroup (front : Option Sheet) (sheets : List (Option Sheet)) : Workgroup :=
  { launch := 0, flat := 0, x := 0#32, y := 0#32, z := 0#32, qrank := 0, quire := 0, owner := 1, width := 16, c := 256,
    code := 0x10000#64, sentry := 0#32, spadBase := 0, spadSize := 8192, slotLog := 9, tagIdx := [0, 1, 2, 3],
    accRows := 3072, mouldUse := 65536, ftime := 256, promise := true, binTime := 512, front := front, sheets := sheets,
    dq := [], popWait := [], orc := 0, agw := none, issued := 0, autoexit := [], portal := none,
    savedMq := [], finished := false }

/-- The launch of the placed workgroup. -/
def placeLaunch : Launch :=
  { owner := 1,
    pkt := { launchId := 1#32, code := 0x10000#64, sentry := 0, fentry := 0, gridX := 1, gridY := 1, gridZ := 1, width := 16,
             qn := 1, sheets := 1, regs := 32, slotLog := 9, tagSets := 4, spad := 8192, ftime := 256, bint := 512, acc := 3072,
             mould := 256, watchdog := 1000000, arg := 0#64, graph := 0, phase := 0, job := 0, noPromise := false,
             serial := false },
    queue := none, index := 0, die := 0, unplaced := [], units := 1, status := 0, sticky := false, ended := false, elapsed := 0 }

/-- The event that a placed handler serves. -/
def placeEvent : HEvent :=
  { who := .sheet 0 0 0, grp := 1#64, cause := .page, slot := 1, access := 1, fmask := 1#64, dmask := 0#64, taddr := 0#64, tpc := 0#32,
    word := 0#96, source := 0#32, launch := 1#32, args := [(0, 0#64, 0#32, 0#32, 0#32)], of := none, left := false, page := [], since := 0 }

/-- The agent whose code accepts the word, standing at it on core 0. -/
def placeCore (kind : CodeKind) (off run : Nat) (k : Core) : Core :=
  let k := { k with
    owner := some 1, quant := 2000000,
    tlb := [⟨0x10000, BitVec.ofNat 64 (2 ^ 32 + 0x2000000), 65536, true, true, true, false, 0#2, 0#2⟩] }
  match kind with
  | .sheet => { k with wgs := k.wgs.set 0 (some (placeGroup none [some (placeSheet .sheet 16 off run)])) }
  | .front => { k with wgs := k.wgs.set 0 (some (placeGroup (some (placeSheet .front 1 off run)) [])) }
  | .handler lv c =>
    { k with wgs := k.wgs.set 0 (some (placeGroup none [some (placeSheet .sheet 16 0 0)])),
             h1 := some { sheet := placeSheet (.handler lv c) 64 off run, ev := { placeEvent with cause := c }, entry := 1,
                          mended := 0#64, mendRight := true, restore := false, frozen := false, again := [] } }

/-- The bytes of a run that holds the word: the word and its trailer; a trailer stands at the end of the run its LENGTH
names. -/
def placeBytes (w : IWord) : List Byte :=
  if isTrlr w then leBytes 12 w.toNat
  else leBytes 12 w.toNat ++ leBytes 12 (encode (.trlr [] 1#8)).toNat

/-- A word where the next step fetches, decodes and runs it. -/
def placeWord (s : State) (w : IWord) : State :=
  let kind := match decodeTable w with
    | some (k, _) => k
    | none => .sheet
  let run := if isTrlr w then max 1 (min 24 (trlrLen w)) else 0
  let off := 12 * run
  let base := match kind with
    | .handler _ _ => 2 ^ 32 + 0x4000
    | _ => 2 ^ 32 + 0x2000000
  let s := { s with owners := [placeOwner], launches := [placeLaunch],
                    agenda := [match kind with | .front => .front 0 [] | _ => .issue 0 0 []],
                    mgmt := { s.mgmt with feat := [1#32, 1#32, 0#32, 0#32] } }
  let s := s.modCore 0 (placeCore kind off run)
  s.putBytes (.dev (base + off)) (placeBytes w)

end Sys2Proof.Machine
end

