-- ==== Sys2Proof/Machine/Step.lean ====
section
/-!
DEFINITION. One step: the agenda names what moves, and its instruction or event acts. The parts stand in Issue.lean and
Place.lean.
-/

namespace Sys2Proof.Machine

/-- One step of the module. -/
def step (s : State) : Host.Outcome State Fault Refusal :=
  match prepare s with
  | .done t => .next t
  | .run i t => exec i t

/-- The state with an instruction of `nbits` bits where the next step fetches (log 11). -/
def State.withFetchWord (s : State) (nbits w : Nat) : State := placeWord s (BitVec.ofNat 96 (w % 2 ^ nbits))

end Sys2Proof.Machine
end

