-- ==== Sys2Proof/Safety.lean ====
section
/-!
DEFINITION. What counts as a safe step, the invariant of the memories, and the terms in which claims speak of a word: who
stands at it, its sources, and where its lanes' results land.
-/

namespace Sys2Proof

/-- The step of a state answers a next state. -/
def SafeStep (s : Machine.State) : Prop := ∃ t, Machine.step s = .next t

/-- The byte memories of a core: its scratchpad, its mould and, during a change of owner, the images of its vat and context. -/
def coreMemories (k : Machine.Core) : List Machine.Memory := [k.spad, k.mould, k.vatImage, k.context]

/-- Every byte memory of the state. -/
def memories (s : Machine.State) : List Machine.Memory :=
  [s.dram.cells, s.hostMem, s.mgmt.bootSram] ++ s.peerMem.map (·.2) ++ s.cores.flatMap coreMemories

/-- Every byte memory is in canonical form, so that equal memories are equal data. -/
def Canonical (s : Machine.State) : Prop := ∀ m ∈ memories s, Machine.Memory.wf m = true

/-- Two names of one agent: a core's handler slots are level 2 and the other one. -/
def sameAgent : Where → Where → Bool
  | .handler c a, .handler d b => c == d && decide (a = 2 ↔ b = 2)
  | w, v => decide (w = v)

/-- The word that issues stands at lane `l` of agent `w`, whose code state is `sh`, and the lane is ready. -/
abbrev Stands (s : Machine.State) (w : Where) (l : Nat) (sh : Machine.Sheet) : Prop :=
  s.cur = some (w, l) ∧ s.sheetAt w = some sh ∧ (sh.lane l).canIssue = true

/-- Every source is full in every executing lane (R28). -/
abbrev Full (g : Machine.Grp) (xs : List Machine.Src) : Prop :=
  ∀ x ∈ xs, ∀ l ∈ g.act, Machine.opdFull g.sh x.2.1 x.2.2 l = true

/-- The state after a word that computes in each lane: each executing lane raises its flags and writes its result, and the
group goes on to the next word (R60). -/
def landed (s : Machine.State) (g : Machine.Grp) (c : Ctl) (d : Opd) (f : Nat → DWord × Machine.Flags) : Machine.State :=
  s.put g (Machine.stepLanes g.grp c.yld
    (g.act.foldl (fun sh l => Machine.wr g.act d l (f l).1 (sh.status l (f l).2)) g.sh))

end Sys2Proof
end

