-- ==== Sys2Proof/WellFormed.lean ====
section
/-!
DEFINITION. Which instructions are well formed in a kind of code: those whose every field the instruction's entry
accepts (R40 to R45, R57). The checks themselves stand in Decode, beside the decoder that makes them.
-/

namespace Sys2Proof

/-- Well formed in the code that `x` describes. -/
def Instr.WellFormed (x : DecodeCtx) (i : Instr) : Prop := i.accepts x = true

end Sys2Proof
end

