-- ==== Sys2Proof/Certificates/Slice0/Obligations.lean ====
section
/-!
DEFINITION. The statements for the provers. Each names in its docstring the rules of the spec that it states; what the model
chose is named with its log entry.
-/

namespace Sys2Proof.Spec

open Sys2Proof Sys2Proof.Machine

/-! ### Integers of a TYPE (R324 to R327, R355) -/

/-- A value sign-extended or zero-extended, or cut, to `n` bits. -/
def ext (signed : Bool) {m : Nat} (n : Nat) (x : BitVec m) : BitVec n := if signed then x.signExtend n else x.setWidth n

/-- The integer that a value stands for. -/
def intOf (signed : Bool) {n : Nat} (x : BitVec n) : Int := if signed then x.toInt else (x.toNat : Int)

/-- The 16-bit elements of a packed source, low one first; an immediate's low half goes to both (R324). -/
def packedSrc (s : State) (g : Grp) (o : Opd) (l : Nat) : BitVec 16 × BitVec 16 :=
  let x := rd s g false o l
  match o with
  | .imm _ => (x.setWidth 16, x.setWidth 16)
  | .limm _ => (x.setWidth 16, x.setWidth 16)
  | _ => (x.setWidth 16, x.extractLsb' 16 16)

/-- Two packed elements as the low 32 bits of a result. -/
def packed (x y : BitVec 16) : DWord := (y ++ x).setWidth 64

/-- The result of one operation on every element of TYPE, at each element width. -/
def perElement (ty : IntTy) (f : (n : Nat) → BitVec n → BitVec n → BitVec n) (s : State) (g : Grp) (a b : Opd) (l : Nat) : DWord :=
  if ty.wide then f 64 (rd64 s g a l) (rd64 s g b l)
  else if ty.packed then
    packed (f 16 (packedSrc s g a l).1 (packedSrc s g b l).1) (f 16 (packedSrc s g a l).2 (packedSrc s g b l).2)
  else (f 32 (rd s g ty.signed a l) (rd s g ty.signed b l)).setWidth 64

/-- The order of TYPE. -/
def less (signed : Bool) (n : Nat) (x y : BitVec n) : Bool := if signed then x.slt y else x.ult y

/-- A shift of every element of TYPE by the count in bits [7:0] of FB (R355). -/
def shifted (ty : IntTy) (f : (n : Nat) → BitVec n → Nat → BitVec n) (s : State) (g : Grp) (a b : Opd) (l : Nat) : DWord :=
  let k := ((rd s g false b l).setWidth 8).toNat
  if ty.wide then f 64 (rd64 s g a l) k
  else if ty.packed then packed (f 16 (packedSrc s g a l).1 k) (f 16 (packedSrc s g a l).2 k)
  else (f 32 (rd s g ty.signed a l) k).setWidth 64

/-- An exact integer brought into `n` bits with saturation, and ST where it lies outside (R325). -/
def saturated (signed : Bool) (n : Nat) (e : Int) : BitVec n × Flags :=
  let lo : Int := if signed then -(2 ^ (n - 1)) else 0
  let hi : Int := if signed then 2 ^ (n - 1) - 1 else 2 ^ n - 1
  if e < lo then (BitVec.ofInt n lo, fST) else if hi < e then (BitVec.ofInt n hi, fST) else (BitVec.ofInt n e, 0#7)

/-- A saturating operation on every element of TYPE; `x` is a third source, or none. -/
def saturatedEach (ty : IntTy) (f : Int → Int → Int → Int) (s : State) (g : Grp) (a b : Opd) (x : Option Opd) (l : Nat) :
    DWord × Flags :=
  let i {n : Nat} (y : BitVec n) : Int := intOf ty.signed y
  if ty.wide then saturated ty.signed 64 (f (i (rd64 s g a l)) (i (rd64 s g b l)) (x.elim 0 fun x => i (rd64 s g x l)))
  else if ty.packed then
    let u := saturated ty.signed 16 (f (i (packedSrc s g a l).1) (i (packedSrc s g b l).1) (x.elim 0 fun x => i (packedSrc s g x l).1))
    let v := saturated ty.signed 16 (f (i (packedSrc s g a l).2) (i (packedSrc s g b l).2) (x.elim 0 fun x => i (packedSrc s g x l).2))
    (packed u.1 v.1, u.2 ||| v.2)
  else
    let u := saturated ty.signed 32
      (f (i (rd s g ty.signed a l)) (i (rd s g ty.signed b l)) (x.elim 0 fun x => i (rd s g ty.signed x l)))
    (u.1.setWidth 64, u.2)

/-- The high half of the exact product plus an addend, at one width (R327). -/
def highProduct (signed : Bool) (n : Nat) (x y c : BitVec n) : BitVec n :=
  ((ext signed (2 * n) x * ext signed (2 * n) y) >>> n).setWidth n + c

/-- `.hi` of TYPE with an addend that is read as the type's sources are. -/
def highResult (ty : IntTy) (s : State) (g : Grp) (a b : Opd) (x : Option Opd) (l : Nat) : DWord :=
  if ty.wide then
    highProduct ty.signed 64 (rd64 s g a l) (rd64 s g b l) (x.elim 0#64 fun x => rd64 s g x l)
  else
    (highProduct ty.signed 32 (rd s g ty.signed a l) (rd s g ty.signed b l) (x.elim 0#32 fun x => rd s g ty.signed x l)).setWidth 64

/-- `.wide` of TYPE: the exact product of 32-bit sources plus a 64-bit addend. -/
def wideResult (ty : IntTy) (s : State) (g : Grp) (a b : Opd) (x : Option Opd) (l : Nat) : DWord :=
  ext ty.signed 64 (rd s g ty.signed a l) * ext ty.signed 64 (rd s g ty.signed b l) + x.elim 0#64 fun x => rd64 s g x l

/-- A condition of ICMP on values of TYPE (Table 3.9). -/
def compared (signed : Bool) (k : Cond) {n : Nat} (x y : BitVec n) : Bool :=
  match k with
  | .eq => x == y
  | .ne => x != y
  | .lt => less signed n x y
  | .le => !less signed n y x
  | .gt => less signed n y x
  | .ge => !less signed n x y
  | _ => false

/-- What a compare writes: to a predicate 1 or 0, to a register all ones or zero (R326). -/
def verdict (d : Opd) (b : Bool) : DWord :=
  match d with
  | .p _ => (BitVec.ofBool b).setWidth 64
  | _ => if b then 0xFFFFFFFF#64 else 0#64

/-- A source of a bitwise word: 64 bits for .u64, else a 32-bit value, a half of it zero-extended (R293). -/
def bits (s : State) (g : Grp) (ty : IntTy) (o : Opd) (l : Nat) : DWord :=
  if ty.wide then rd64 s g o l else (rd s g false o l).setWidth 64

/-- A source that is moved or selected: 64 bits for the 64-bit types, else a 32-bit value, a half of it extended by TYPE. -/
def moved (s : State) (g : Grp) (ty : IntTy) (o : Opd) (l : Nat) : DWord :=
  if ty.wide then rd64 s g o l else (rd s g ty.signed o l).setWidth 64

/-- A field position or length (R299, R300). -/
def upTo32 (s : State) (g : Grp) (o : Opd) (l : Nat) : Nat := min ((rd s g false o l).setWidth 8).toNat 32

/-- The number of leading zero bits of a value of `n` bits (R305). -/
def leading (n : Nat) (x : DWord) : Nat := if x.toNat = 0 then n else n - 1 - Nat.log2 x.toNat

end Sys2Proof.Spec

open Sys2Proof Sys2Proof.Machine Sys2Proof.Spec

/-! ### Class 0x0 and 0x3: integers -/

/-- R325, R327: without .sat, IADD, ISUB and the low half of IMUL answer the exact sum, difference and product modulo 2^w in each
element, and IMIN and IMAX the lesser and the greater by TYPE; no status is raised. -/
def Obligations.IntegerWordsWrapModuloTheirWidth : Prop :=
  ∀ (s : State) (w : Where) (l : Nat) (sh : Sheet) (c : Ctl) (ty : IntTy) (d a b : Opd),
    Stands s w l sh → Full (Grp.of w sh l c) [(1, false, a), (2, false, b)] →
    exec (.iadd c ty false d a b) s = .next (landed s (Grp.of w sh l c) c d fun k =>
      (perElement ty (fun _ x y => x + y) s (Grp.of w sh l c) a b k, 0#7)) ∧
    exec (.isub c ty false d a b) s = .next (landed s (Grp.of w sh l c) c d fun k =>
      (perElement ty (fun _ x y => x - y) s (Grp.of w sh l c) a b k, 0#7)) ∧
    exec (.imul c ty false .lo d a b) s = .next (landed s (Grp.of w sh l c) c d fun k =>
      (perElement ty (fun _ x y => x * y) s (Grp.of w sh l c) a b k, 0#7)) ∧
    exec (.imin c ty d a b) s = .next (landed s (Grp.of w sh l c) c d fun k =>
      (perElement ty (fun n x y => if less ty.signed n x y then x else y) s (Grp.of w sh l c) a b k, 0#7)) ∧
    exec (.imax c ty d a b) s = .next (landed s (Grp.of w sh l c) c d fun k =>
      (perElement ty (fun n x y => if less ty.signed n x y then y else x) s (Grp.of w sh l c) a b k, 0#7))

/-- R325, R327: under .sat the exact result is clamped to the range of TYPE, and ST is raised exactly where it lay outside. -/
def Obligations.IntegerWordsSaturateAndRaiseST : Prop :=
  ∀ (s : State) (w : Where) (l : Nat) (sh : Sheet) (c : Ctl) (ty : IntTy) (d a b x : Opd),
    Stands s w l sh → Full (Grp.of w sh l c) [(1, false, a), (2, false, b), (3, false, x)] →
    exec (.iadd c ty true d a b) s = .next (landed s (Grp.of w sh l c) c d
      (saturatedEach ty (fun p q _ => p + q) s (Grp.of w sh l c) a b none)) ∧
    exec (.isub c ty true d a b) s = .next (landed s (Grp.of w sh l c) c d
      (saturatedEach ty (fun p q _ => p - q) s (Grp.of w sh l c) a b none)) ∧
    exec (.imul c ty true .lo d a b) s = .next (landed s (Grp.of w sh l c) c d
      (saturatedEach ty (fun p q _ => p * q) s (Grp.of w sh l c) a b none)) ∧
    exec (.imad c ty true .lo d a b x) s = .next (landed s (Grp.of w sh l c) c d
      (saturatedEach ty (fun p q r => p * q + r) s (Grp.of w sh l c) a b (some x)))

/-- The exact sum of the products of two rows of INT8 elements, modulo 2^32 (R112). -/
def Sys2Proof.Spec.dotInt8 (xs ys : List Byte) : Word := BitVec.ofInt 32 ((xs.zip ys).map fun p => p.1.toInt * p.2.toInt).sum

/-- R112: an INT8 step of a loop adds the exact sum of its products to each element of C modulo 2^32, and raises nothing. -/
def Sys2Proof.Spec.Int8StepsAddExactProducts : Prop :=
  ∀ (k : Core) (pad : Memory) (base m n depth acc abase astride boff : Nat) (ainc binc : Int) (fw : Word) (mode : Rnd) (st : Nat),
    let r := mloopStep k pad base m n depth acc abase astride boff ainc binc fw mode st
    n ≤ 256 → fwA fw = 4 → fwB fw = 4 → r.2 = 0#7 ∧ ∀ i j, i < m → j < n → r.1.accAt (acc + i) j = k.accAt (acc + i) j +
      Spec.dotInt8 (pad.read ((base : Int) + aStart abase astride ainc i st).toNat (aBytes fw depth st))
        (k.mould.read (j * 65536 + (bStart boff binc st).toNat) (bBytes fw depth st))

/-- R327, Table 22.7: IMAD.lo adds to the product modulo 2^w; .hi answers the high half of the exact product plus the addend,
signed by TYPE; .wide the 64-bit product of 32-bit sources plus a 64-bit addend. IMUL is the same with addend 0. -/
def Obligations.MultiplyWordsAnswerTheirHalf : Prop :=
  Spec.Int8StepsAddExactProducts ∧ ∀ (s : State) (w : Where) (l : Nat) (sh : Sheet) (c : Ctl) (ty : IntTy) (d a b x : Opd),
    Stands s w l sh → Full (Grp.of w sh l c) [(1, false, a), (2, false, b), (3, false, x)] →
    (ty.packed = false →
      exec (.imad c ty false .lo d a b x) s = .next (landed s (Grp.of w sh l c) c d fun k =>
        (if ty.wide then rd64 s (Grp.of w sh l c) a k * rd64 s (Grp.of w sh l c) b k + rd64 s (Grp.of w sh l c) x k
         else (rd s (Grp.of w sh l c) ty.signed a k * rd s (Grp.of w sh l c) ty.signed b k +
           rd s (Grp.of w sh l c) ty.signed x k).setWidth 64, 0#7)) ∧
      exec (.imul c ty false .hi d a b) s = .next (landed s (Grp.of w sh l c) c d fun k =>
        (highResult ty s (Grp.of w sh l c) a b none k, 0#7)) ∧
      exec (.imad c ty false .hi d a b x) s = .next (landed s (Grp.of w sh l c) c d fun k =>
        (highResult ty s (Grp.of w sh l c) a b (some x) k, 0#7))) ∧
    (ty.packed = true →
      exec (.imad c ty false .lo d a b x) s = .next (landed s (Grp.of w sh l c) c d fun k =>
        (let p := packedSrc s (Grp.of w sh l c) a k
         let q := packedSrc s (Grp.of w sh l c) b k
         let r := packedSrc s (Grp.of w sh l c) x k
         packed (p.1 * q.1 + r.1) (p.2 * q.2 + r.2), 0#7))) ∧
    (ty = .i32 ∨ ty = .u32 →
      exec (.imul c ty false .wide d a b) s = .next (landed s (Grp.of w sh l c) c d fun k =>
        (wideResult ty s (Grp.of w sh l c) a b none k, 0#7)) ∧
      exec (.imad c ty false .wide d a b x) s = .next (landed s (Grp.of w sh l c) c d fun k =>
        (wideResult ty s (Grp.of w sh l c) a b (some x) k, 0#7)))

/-- R355: SHL and SHR shift by the count in bits [7:0] of FB; a count of the width or more leaves zero, or under a signed TYPE
copies of the sign in SHR. R300 and R299: BFX extracts and BFI inserts a field. R305 and R342: CLZ and POPC count. -/
def Obligations.ShiftsFieldsAndCounts : Prop :=
  ∀ (s : State) (w : Where) (l : Nat) (sh : Sheet) (c : Ctl) (ty : IntTy) (d a b x : Opd),
    Stands s w l sh → Full (Grp.of w sh l c) [(1, false, a), (2, false, b), (3, false, x)] →
    exec (.shl c ty d a b) s = .next (landed s (Grp.of w sh l c) c d fun k =>
      (shifted ty (fun _ x n => x <<< n) s (Grp.of w sh l c) a b k, 0#7)) ∧
    exec (.shr c ty d a b) s = .next (landed s (Grp.of w sh l c) c d fun k =>
      (shifted ty (fun _ x n => if ty.signed then x.sshiftRight n else x >>> n) s (Grp.of w sh l c) a b k, 0#7)) ∧
    (ty = .i32 ∨ ty = .u32 →
      exec (.bfx c ty d a b x) s = .next (landed s (Grp.of w sh l c) c d fun k =>
        ((ext ty.signed 32 (((ext ty.signed 64 (rd s (Grp.of w sh l c) ty.signed a k)) >>> upTo32 s (Grp.of w sh l c) b k).setWidth
          (upTo32 s (Grp.of w sh l c) x k))).setWidth 64, 0#7))) ∧
    (Full (Grp.of w sh l c) [(0, false, d)] → exec (.bfi c d a b x) s = .next (landed s (Grp.of w sh l c) c d fun k =>
      (let p := upTo32 s (Grp.of w sh l c) b k
       let m : Word := (((1#64 <<< upTo32 s (Grp.of w sh l c) x k) - 1#64) <<< p).setWidth 32
       ((rd s (Grp.of w sh l c) false d k &&& ~~~ m) ||| ((rd s (Grp.of w sh l c) false a k <<< p) &&& m)).setWidth 64, 0#7))) ∧
    exec (.clz c ty d a) s = .next (landed s (Grp.of w sh l c) c d fun k =>
      (BitVec.ofNat 64 (leading (if ty.wide then 64 else 32) (bits s (Grp.of w sh l c) ty a k)), 0#7)) ∧
    exec (.popc c ty d a) s = .next (landed s (Grp.of w sh l c) c d fun k =>
      (BitVec.ofNat 64 (((List.range 64).filter fun i => (bits s (Grp.of w sh l c) ty a k).getLsbD i).length), 0#7))

/-- R293, R332, R335, R341, R353, R326: AND, OR, XOR, LEA, MOV, PLOP, SEL and ICMP write their entry's result in each executing
lane and raise no status. -/
def Obligations.LogicMovesAndComparesWriteTheirResult : Prop :=
  ∀ (s : State) (w : Where) (l : Nat) (sh : Sheet) (c : Ctl) (ty : IntTy) (d a b x : Opd),
    Stands s w l sh → Full (Grp.of w sh l c) [(1, false, a), (2, false, b), (3, false, x)] →
    exec (.land c ty d a b) s = .next (landed s (Grp.of w sh l c) c d fun k =>
      (bits s (Grp.of w sh l c) ty a k &&& bits s (Grp.of w sh l c) ty b k, 0#7)) ∧
    exec (.lor c ty d a b) s = .next (landed s (Grp.of w sh l c) c d fun k =>
      (bits s (Grp.of w sh l c) ty a k ||| bits s (Grp.of w sh l c) ty b k, 0#7)) ∧
    exec (.lxor c ty d a b) s = .next (landed s (Grp.of w sh l c) c d fun k =>
      (bits s (Grp.of w sh l c) ty a k ^^^ bits s (Grp.of w sh l c) ty b k, 0#7)) ∧
    (∀ n : BitVec 3, exec (.lea c ty n d a b) s = .next (landed s (Grp.of w sh l c) c d fun k =>
      (rd64 s (Grp.of w sh l c) a k + (ext ty.signed 64 (rd s (Grp.of w sh l c) false b k)) <<< n.toNat, 0#7))) ∧
    exec (.mov c ty d b) s = .next (landed s (Grp.of w sh l c) c d fun k => (moved s (Grp.of w sh l c) ty b k, 0#7)) ∧
    (∀ tt : BitVec 4, accP a = true → accP b = true →
      exec (.plop c tt d a b) s = .next (landed s (Grp.of w sh l c) c d fun k =>
        ((BitVec.ofBool (tt.getLsbD (2 * (regWord s w sh k a).toNat + (regWord s w sh k b).toNat))).setWidth 64, 0#7))) ∧
    (accP x = true → exec (.sel c ty d a b x) s = .next (landed s (Grp.of w sh l c) c d fun k =>
      (if regWord s w sh k x = 1#32 then moved s (Grp.of w sh l c) ty a k else moved s (Grp.of w sh l c) ty b k, 0#7))) ∧
    (∀ q : Cond, icmpCond ty q = true → ty.packed = false →
      exec (.icmp c ty q d a b) s = .next (landed s (Grp.of w sh l c) c d fun k =>
        (verdict d (if ty.wide then compared ty.signed q (rd64 s (Grp.of w sh l c) a k) (rd64 s (Grp.of w sh l c) b k)
          else compared ty.signed q (rd s (Grp.of w sh l c) ty.signed a k) (rd s (Grp.of w sh l c) ty.signed b k)), 0#7)))

/-! ### Where results land, and what a word leaves alone -/

namespace Sys2Proof.Spec

open Sys2Proof Sys2Proof.Machine

/-- A V register of index `i` after a result `x` for destination `d` (R60). -/
def vAfter (d : Opd) (i : Nat) (x : DWord) (r : Reg) : Reg :=
  match d with
  | .v _ .pair j => if i = j.toNat then r.write .full (x.setWidth 32)
      else if i = j.toNat + 1 then r.write .full (x.extractLsb' 32 32) else r
  | .v _ p j => if i = j.toNat then r.write p (x.setWidth 32) else r
  | _ => r

/-- A W or S register of index `i` after a result `x` for destination `d`. -/
def uAfter (d : Opd) (i : Nat) (x : DWord) (r : Reg) : Reg :=
  match d with
  | .u _ .pair j => if i = j.toNat then r.write .full (x.setWidth 32)
      else if i = j.toNat + 1 then r.write .full (x.extractLsb' 32 32) else r
  | .u _ p j => if i = j.toNat then r.write p (x.setWidth 32) else r
  | _ => r

/-- The words that compute in each executing lane and write one destination: guard and destination. -/
def laneWord : Instr → Option (Ctl × Opd)
  | .iadd c _ _ d _ _ | .isub c _ _ d _ _ | .imul c _ _ _ d _ _ | .imad c _ _ _ d _ _ _ | .imin c _ d _ _ | .imax c _ d _ _
  | .land c _ d _ _ | .lor c _ d _ _ | .lxor c _ d _ _ | .shl c _ d _ _ | .shr c _ d _ _ | .bfx c _ d _ _ _ | .bfi c d _ _ _
  | .popc c _ d _ | .clz c _ d _ | .lea c _ _ d _ _ | .mov c _ d _ => some (c, d)
  | .fadd c _ _ _ d _ _ | .fmul c _ _ _ d _ _ | .ffma c _ _ _ d _ _ _ | .fmin c _ _ _ d _ _ | .fmax c _ _ _ d _ _
  | .frcp c _ _ _ d _ | .frsq c _ d _ | .fsqrt c _ _ _ d _ | .fex2 c _ d _ | .flg2 c _ d _ | .fsin c _ _ d _
  | .fdp4 c _ _ _ d _ _ _ => some (c, d)
  | .cvt c _ _ _ _ d _ | .deq c _ _ _ d _ _ | .pack c _ _ _ _ _ d _ _ => some (c, d)
  | .icmp c _ _ d _ _ | .fcmp c _ _ d _ _ | .plop c _ d _ _ | .sel c _ d _ _ _ => some (c, d)
  | .rand c _ d _ _ _ => some (c, d)
  | .srd c d _ => some (c, d)
  | _ => none

/-- Everything outside the cores and the host's queue is as before. -/
def OutsideKept (s t : State) : Prop :=
  t.variant = s.variant ∧ t.agenda = s.agenda ∧ t.cur = s.cur ∧ t.curWord = s.curWord ∧ t.nextWord = s.nextWord ∧ t.clock = s.clock ∧
  t.base = s.base ∧ t.steps = s.steps ∧ t.free = s.free ∧ t.nextId = s.nextId ∧ t.owners = s.owners ∧ t.dram = s.dram ∧
  t.hostMem = s.hostMem ∧ t.peerMem = s.peerMem ∧ t.flights = s.flights ∧ t.engine = s.engine ∧ t.monitors = s.monitors ∧
  t.counters = s.counters ∧ t.launches = s.launches ∧ t.queues = s.queues ∧ t.flows = s.flows ∧ t.keys = s.keys ∧
  t.inbound = s.inbound ∧ t.readBack = s.readBack ∧ t.hostDeny = s.hostDeny ∧ t.joins = s.joins ∧ t.mgmt = s.mgmt

/-- The stores, tables and engines of a core are as before: all but the code that runs on it, its events and its stall. -/
def CoreKept (j k : Core) : Prop :=
  k.owner = j.owner ∧ k.quant = j.quant ∧ k.quarantined = j.quarantined ∧ k.switch = j.switch ∧ k.saved = j.saved ∧
  k.vatImage = j.vatImage ∧ k.context = j.context ∧ k.spad = j.spad ∧ k.acc = j.acc ∧ k.mould = j.mould ∧ k.tags = j.tags ∧
  k.bins = j.bins ∧ k.l1 = j.l1 ∧ k.tlb = j.tlb ∧ k.misses = j.misses ∧ k.channels = j.channels ∧ k.mq = j.mq ∧ k.xq = j.xq ∧
  k.launchQ = j.launchQ ∧ k.refused = j.refused ∧ k.rrNext = j.rrNext ∧ k.acquired = j.acquired ∧ k.lastSheet = j.lastSheet

/-- What of a lane only system words and spawns write: its mode, its trap enables, its generator source, its join and whether it lives. -/
def laneMode (t : Thread) : Word × Word × Word × Option (Bool × DWord) × Bool := (t.rm, t.aen, t.gsrc, t.join, t.live)

end Sys2Proof.Spec


/-- R28 and the frame of the words that compute in each lane, whatever they do: compute, wait for an empty source, or trap. No byte
of memory, no accumulator, no table and no other agent's code changes; of the agent's own code, no register, predicate or temporary but the
destination in an executing lane, no mask, no queue, no mode or trap-enable register, no flag that stood, no pend but of an executing lane, where
one that stood stays, and nothing of a lane outside the group; a lane of the group stands at its word or at the next. -/
def Obligations.LaneWordsChangeOnlyTheirDestination : Prop :=
  ∀ (s t : State) (w : Where) (l : Nat) (sh : Sheet) (i : Instr) (c : Ctl) (d : Opd),
    let g := Grp.of w sh l c
    laneWord i = some (c, d) → Stands s w l sh → exec i s = .next t →
    OutsideKept s t ∧ (∀ k, CoreKept (s.core k) (t.core k)) ∧ (∀ a, s.byteAt a = t.byteAt a) ∧
    (∀ v, sameAgent w v = false → t.sheetAt v = s.sheetAt v) ∧
    ∃ sh' : Sheet, t.sheetAt w = some sh' ∧ sh'.m = sh.m ∧ sh'.sq = sh.sq ∧ sh'.fills = sh.fills ∧ sh'.pairs = sh.pairs ∧ sh'.gen = sh.gen ∧
      sh'.kind = sh.kind ∧ sh'.width = sh.width ∧ sh'.c = sh.c ∧ sh'.code = sh.code ∧ sh'.lanes.length = sh.lanes.length ∧
      (∀ i, (∀ x r, uAfter d i x r = r) → sh'.uReg i = sh.uReg i) ∧
      (∀ k i, k ∉ g.act ∨ (∀ x r, vAfter d i x r = r) → sh'.vReg k i = sh.vReg k i) ∧
      (∀ k i, k ∉ g.act ∨ (∀ j : BitVec 6, d = .p j → j.toNat ≠ i) → (sh'.lane k).pRead i = (sh.lane k).pRead i) ∧
      (∀ k i, k ∉ g.act ∨ (∀ (p : Part) (j : BitVec 3), d = .t p j → j.toNat ≠ i) →
        SMap.get 0#32 (sh'.lane k).t i = SMap.get 0#32 (sh.lane k).t i) ∧
      (∀ k, laneMode (sh'.lane k) = laneMode (sh.lane k)) ∧
      (∀ k, (sh.lane k).astat &&& ~~~ (sh'.lane k).astat = 0#32) ∧
      (∀ k, ((sh.lane k).pend = true → (sh'.lane k).pend = true) ∧ (k ∉ g.act → (sh'.lane k).pend = (sh.lane k).pend)) ∧
      (∀ k ∈ g.grp, (sh'.lane k).pc = (sh.lane k).pc ∨ (sh'.lane k).pc = (sh.lane k).pc + 12#32) ∧
      (∀ k, k ∉ g.grp → sh'.lane k = sh.lane k)

namespace Sys2Proof.Spec

open Sys2Proof Sys2Proof.Machine

/-- The executing lanes in which a source is empty. -/
def emptyIn (g : Grp) (o : Opd) : List Nat := g.act.filter fun k => !opdFull g.sh false o k

/-- How a word of some sources, each with its field's slot, meets an empty one: the first with EW = 1 that is empty traps EMPTY with its
slot and the lanes in which it is empty, and no lane performs; with none such, an empty source makes the group wait at the word. -/
def EmptySourceStops (s : State) (g : Grp) (xs : List (Nat × Opd)) (i : Instr) : Prop :=
  (∀ (us vs : List (Nat × Opd)) (n : Nat) (o : Opd), xs = us ++ (n, o) :: vs →
    (∀ u ∈ us, opdEw u.2 = true → emptyIn g u.2 = []) → opdEw o = true → emptyIn g o ≠ [] →
    (s.core (wCore g.w)).eventRoom = true →
    exec i s = .next ((s.put g (trapLanes g.grp g.sh)).queueEvent (wCore g.w)
      (trapEvent s g.w g.sh g.grp ⟨.empty, n, 0, emptyIn g o, [], fun _ => 0#64, g.pc, s.curWord⟩ none false))) ∧
  ((∀ x ∈ xs, opdEw x.2 = true → emptyIn g x.2 = []) → (∃ x ∈ xs, emptyIn g x.2 ≠ []) →
    exec i s = .next (s.put g (waitHere g (.regs (laneMask g.act) (xs.flatMap fun x => spanRegs false x.2)) g.sh)))

end Sys2Proof.Spec

/-- R28: an IADD, IMAD or SEL of which some source is empty in some executing lane performs in no lane. The first such source with EW = 1
traps EMPTY with the SLOT of its field, the lanes in which it is empty in fmask (ACCESS and taddr 0, log 32); with EW = 0 on every empty source
the group waits at the word. -/
def Obligations.EmptySourcesTrapOrWait : Prop :=
  ∀ (s : State) (w : Where) (l : Nat) (sh : Sheet) (c : Ctl) (ty : IntTy) (sat : Bool) (h : MulHalf) (d a b x : Opd),
    let g := Grp.of w sh l c
    Stands s w l sh → g.inHandler = false →
    EmptySourceStops s g [(1, a), (2, b)] (.iadd c ty sat d a b) ∧
    EmptySourceStops s g [(1, a), (2, b), (3, x)] (.imad c ty sat h d a b x) ∧
    EmptySourceStops s g [(1, a), (2, b), (3, x)] (.sel c ty d a b x)

/-- R27, R29: a register marked empty keeps its value until its producer fills it; a later write waits behind that fill and then
replaces it, so that the final value is that of the write issued last. A full register takes a write at once, and a half keeps the
other half. -/
def Sys2Proof.Spec.TheWriteIssuedLastStays : Prop :=
  (∀ (r : Reg) (p : Part) (x : Word), r.full = true →
    (r.write p x).full = true ∧ (r.write p x).val = match p with
      | .lo => r.val.extractLsb' 16 16 ++ x.extractLsb' 0 16
      | .hi => x.extractLsb' 0 16 ++ r.val.extractLsb' 0 16
      | _ => x) ∧
  (∀ (r : Reg) (id : Nat), (r.markEmpty id).full = false ∧ (r.markEmpty id).val = r.val) ∧
  (∀ (r : Reg) (id : Nat) (p q : Part) (x y : Word), r.full = true →
    ((r.markEmpty id).write q y).full = false ∧ ((r.markEmpty id).write q y).val = r.val ∧
    ((r.markEmpty id).fill id p x).full = true ∧ ((r.markEmpty id).fill id p x).val = mergePart p r.val x ∧
    (((r.markEmpty id).write q y).fill id p x).full = true ∧
    (((r.markEmpty id).write q y).fill id p x).val = mergePart q (mergePart p r.val x) y) ∧
  (∀ (r : Reg) (i j : Nat) (x y : Word), r.full = true → i ≠ j →
    ((((r.markEmpty i).markEmpty j).fill j .full y).fill i .full x).val = y ∧
    ((((r.markEmpty i).markEmpty j).fill i .full x).fill j .full y).val = y)

/-- R22, R23, R29, R60: where the results of a word that computes in each lane land. The whole of the state but the agent's code
is as before; each executing lane's result goes to its own V register, its predicate (p63 discards it) or its temporary; a W or S
register takes the result of the lowest executing lane alone; the flags of an executing lane join its astat, and a flag that its
aen enables sets pend; every lane of the group stands at the next word, and no lane outside the group changes. -/
def Obligations.ResultsLandInTheirDestination : Prop :=
  (∀ (s : State) (w : Where) (l : Nat) (sh : Sheet) (c : Ctl) (d : Opd) (f : Nat → DWord × Flags),
     Stands s w l sh →
     ∃ sh' : Sheet, landed s (Grp.of w sh l c) c d f = s.putSheet w sh' ∧
       (landed s (Grp.of w sh l c) c d f).sheetAt w = some sh' ∧
       (sh'.m = sh.m ∧ sh'.sq = sh.sq ∧ sh'.fills = sh.fills ∧ sh'.pairs = sh.pairs ∧ sh'.gen = sh.gen ∧ sh'.kind = sh.kind ∧
         sh'.width = sh.width ∧ sh'.c = sh.c ∧ sh'.code = sh.code ∧ sh'.lanes.length = sh.lanes.length) ∧
       (∀ i, sh'.uReg i = match (Grp.of w sh l c).act.head? with
         | some k => uAfter d i (f k).1 (sh.uReg i)
         | none => sh.uReg i) ∧
       (∀ k i, sh'.vReg k i = if k ∈ (Grp.of w sh l c).act then vAfter d i (f k).1 (sh.vReg k i) else sh.vReg k i) ∧
       (∀ k i, (sh'.lane k).pRead i =
         if k ∈ (Grp.of w sh l c).act ∧ i ≠ 63 ∧ (∃ j : BitVec 6, d = .p j ∧ j.toNat = i) then (f k).1.getLsbD 0
         else (sh.lane k).pRead i) ∧
       (∀ k i, SMap.get 0#32 (sh'.lane k).t i =
         match d with
         | .t p j => if k ∈ (Grp.of w sh l c).act ∧ j.toNat = i then mergePart p (SMap.get 0#32 (sh.lane k).t i) ((f k).1.setWidth 32)
             else SMap.get 0#32 (sh.lane k).t i
         | _ => SMap.get 0#32 (sh.lane k).t i) ∧
       (∀ k, laneMode (sh'.lane k) = laneMode (sh.lane k)) ∧
       (∀ k, (sh'.lane k).astat =
         if k ∈ (Grp.of w sh l c).act then (sh.lane k).astat ||| ((f k).2).setWidth 32 else (sh.lane k).astat) ∧
       (∀ k, (sh'.lane k).pend =
         if k ∈ (Grp.of w sh l c).act then (sh.lane k).pend || decide (((f k).2).setWidth 32 &&& (sh.lane k).aen ≠ 0#32)
         else (sh.lane k).pend) ∧
       (∀ k, (sh'.lane k).pc = if k ∈ (Grp.of w sh l c).grp then (sh.lane k).pc + 12#32 else (sh.lane k).pc) ∧
       (∀ k, k ∉ (Grp.of w sh l c).grp → sh'.lane k = sh.lane k)) ∧
  Spec.TheWriteIssuedLastStays

/-! ### Class 0x1 and 0x2, RAND and SRD -/

namespace Sys2Proof.Spec

open Sys2Proof Sys2Proof.Machine

/-- One or two elements' results as a lane's result: packed elements side by side, their flags together. -/
def joined (rs : List (Nat × Flags)) : DWord × Flags :=
  match rs with
  | [(x, f)] => (BitVec.ofNat 64 x, f)
  | [(x, f), (y, h)] => (packed (BitVec.ofNat 16 x) (BitVec.ofNat 16 y), f ||| h)
  | _ => (0#64, 0#7)

/-- The rounding mode of a lane under an instruction's RND code. -/
def modeOf (g : Grp) (r : Rnd) (k : Nat) : Rnd := rmode r (g.sh.lane k).rm

/-- Exactly rounded, with FTZ on the result, joining the operation's own flags. -/
def rounded (ty : FltTy) (ftz : Bool) (mode : Rnd) (x : FVal × Flags) : Nat × Flags :=
  let y := ftzOut (fltFmt ty) ftz (roundVal (fltFmt ty) mode x.1)
  (y.1, y.2 ||| x.2)

end Sys2Proof.Spec

/-- R318 to R320, R322, R323: each word of class 0x1 answers, in each executing lane and for each element, the rounding of its exact
result under the lane's mode, with FTZ where asked; FMIN and FMAX the lesser and greater operand; the functions of R323 their
rounded or faithful value. The same holds of R309, R313 and R340 for CVT, DEQ and PACK, of R345 for RAND, of R359 for SRD and of R321
for FCMP. -/
def Obligations.FloatAndConvertWordsComplete : Prop :=
  ∀ (s : State) (w : Where) (l : Nat) (sh : Sheet) (c : Ctl) (ty : FltTy) (ftz sat : Bool) (r : Rnd) (d a b x : Opd),
    Stands s w l sh → Full (Grp.of w sh l c) [(1, false, a), (2, false, b), (3, false, x)] →
    let g := Grp.of w sh l c
    let v (o : Opd) (k : Nat) := fltVals s g ty ftz o k
    exec (.fadd c ty ftz r d a b) s = .next (landed s g c d fun k =>
      joined (List.zipWith (fun p q => rounded ty ftz (modeOf g r k) (sumEx (modeOf g r k) [p, q])) (v a k) (v b k))) ∧
    exec (.fmul c ty ftz r d a b) s = .next (landed s g c d fun k =>
      joined (List.zipWith (fun p q => rounded ty ftz (modeOf g r k) (fmulEx p q)) (v a k) (v b k))) ∧
    exec (.ffma c ty ftz r d a b x) s = .next (landed s g c d fun k =>
      joined (List.zipWith (fun (p : FVal × FVal) q =>
        let m := fmulEx p.1 p.2
        let t := sumEx (modeOf g r k) [m.1, q]
        rounded ty ftz (modeOf g r k) (t.1, t.2 ||| m.2)) ((v a k).zip (v b k)) (v x k))) ∧
    exec (.fmin c ty ftz r d a b) s = .next (landed s g c d fun k =>
      joined (List.zipWith (minMaxEl (fltFmt ty) ftz false) (fltBits s g ty a k) (fltBits s g ty b k))) ∧
    exec (.fmax c ty ftz r d a b) s = .next (landed s g c d fun k =>
      joined (List.zipWith (minMaxEl (fltFmt ty) ftz true) (fltBits s g ty a k) (fltBits s g ty b k))) ∧
    exec (.frcp c ty ftz r d a) s = .next (landed s g c d fun k =>
      joined ((v a k).map fun p => ftzOut (fltFmt ty) ftz (frcpVal (fltFmt ty) (modeOf g r k) p))) ∧
    exec (.fsqrt c ty ftz r d a) s = .next (landed s g c d fun k =>
      joined ((v a k).map fun p => ftzOut (fltFmt ty) ftz (fsqrtVal (fltFmt ty) (modeOf g r k) p))) ∧
    (let arg (k : Nat) : Word := BitVec.ofNat 32 (f32Bits s g a k)
     let one (f : Word → FVal → Nat × Flags) (k : Nat) : DWord × Flags :=
       joined [ftzOut fp32 ftz (f (arg k) (fp32.input ftz (f32Bits s g a k)))]
     exec (.frsq c ftz d a) s = .next (landed s g c d (one frsqVal)) ∧
     exec (.fex2 c ftz d a) s = .next (landed s g c d (one fex2Val)) ∧
     exec (.flg2 c ftz d a) s = .next (landed s g c d (one flg2Val)) ∧
     (∀ cos, exec (.fsin c cos ftz d a) s = .next (landed s g c d (one (fsinVal cos))))) ∧
    exec (.fdp4 c ty ftz r d a b x) s = .next (landed s g c d fun k =>
      let e (o : Opd) (i : Nat) : FVal := (fltFmt ty).input ftz ((rd64 s g o k).extractLsb' (16 * i) 16).toNat
      let ps := [fmulEx (e a 0) (e b 0), fmulEx (e a 1) (e b 1), fmulEx (e a 2) (e b 2), fmulEx (e a 3) (e b 3)]
      let t := sumEx (modeOf g r k) (fp32.input ftz (f32Bits s g x k) :: ps.map (·.1))
      joined [rounded .f32 ftz (modeOf g r k) (t.1, ps.foldl (fun f p => f ||| p.2) t.2)]) ∧
    (∀ (ft : FcTy) (q : Cond), exec (.fcmp c ft q d a b) s = .next (landed s g c d fun k =>
      let p := (fcFmt ft).value (fcBits s g ft a k)
      let u := (fcFmt ft).value (fcBits s g ft b k)
      (verdict d (fltCond q p u), if p.isSig || u.isSig then fIV else 0#7))) ∧
    (∀ (dt st : Elem), exec (.cvt c sat r dt st d a) s = .next (landed s g c d fun k =>
      convElem dt st (modeOf g r k) (saton sat (sh.lane k).rm)
        (if st.bits = 64 then rd64 s g a k else (rd s g (elemSigned st) a k).setWidth 64))) ∧
    (∀ (dt st : Elem) (un : Bool), exec (.pack c un sat r dt st d a b) s = .next (landed s g c d fun k =>
      let ys := (packSrc s g un dt st a b k).map (convElem dt st (modeOf g r k) (saton sat (sh.lane k).rm))
      (packBits dt.bits (ys.map (·.1)), ys.foldl (fun f y => f ||| y.2) 0#7))) ∧
    (∀ n : BitVec 2, exec (.rand c n d a b x) s = .next (landed s g c d fun k =>
      ((randWord n.toNat (rd64 s g a k) (rd64 s g b k) (rd64 s g x k)).setWidth 64, 0#7))) ∧
    (∀ i : BitVec 8, exec (.srd c d (.sr .full i)) s = .next (landed s g c d fun k => ((special s w sh k i.toNat).setWidth 64, 0#7))) ∧
    (∀ dt : Elem, Full g (blockSrcs a) → exec (.deq c sat r dt d a b) s = .next (landed s g c d fun k =>
      let blk := qDecode (blockRegs g a k)
      let e := blk.1.getD ((rd s g false b k).toNat % 32) (.fin false 0 0, 0#7)
      let y := match elemFmt dt with
        | some f => narrowVal f (modeOf g r k) (saton sat (sh.lane k).rm) e.1
        | none => (0, 0#7)
      (BitVec.ofNat 64 y.1, y.2 ||| e.2 ||| (if blk.2 then fQX else 0#7))))

namespace Sys2Proof.Spec

open Sys2Proof Sys2Proof.Machine

/-- A magnitude m * 2^e, rounded by a mode with an unbounded exponent, exceeds the largest finite value of a format (R105): against the halves
of that value's last place, more than its own under a mode that rounds away, one more under the nearest modes (a tie goes to the even
fraction or away), and two more under one that rounds toward it. -/
def beyondLargest (f : Fmt) (mode : Rnd) (neg : Bool) (m : Nat) (e : Int) : Bool :=
  let n := if f.noInf then 2 ^ (f.m + 1) - 2 else 2 ^ (f.m + 1) - 1
  let against (k : Nat) : Ordering := fcmpVal (.fin false m e) (.fin false k ((f.value f.maxFin).exp - 1))
  match mode, neg with
  | .rna, _ => against (2 * n + 1) != .lt
  | .rne, _ => if n % 2 = 1 then against (2 * n + 1) != .lt else against (2 * n + 1) == .gt
  | .rup, false | .rdn, true => against (2 * n) == .gt
  | _, _ => against (2 * n + 2) != .lt

/-- What Table 8.4 gives for it: an infinity, or the largest finite value, which is all that E4M3 has (R106). -/
def overflowed (f : Fmt) (mode : Rnd) (neg : Bool) : FVal :=
  match f.noInf, mode, neg with
  | false, .rne, _ | false, .rna, _ | false, .rup, false | false, .rdn, true => .inf neg
  | false, _, _ => .fin neg (2 ^ (f.m + 1) - 1) ((f.bias : Int) - f.m)
  | true, _, _ => .fin neg (2 ^ (f.m + 1) - 2) ((f.bias : Int) + 1 - f.m)

/-- How far two finite values lie apart, counted in units of 2^k. -/
def apart (k : Int) (x y : FVal) : Nat := (x.at_ k - y.at_ k).natAbs

/-- The sign of an exact zero (R105, IEEE 754-2019): ROUND keeps it; a sum of opposite values is +0, or -0 under RDN, and of zeros of one
sign keeps it; a product has the sign of its factors, and a root keeps that of its operand. -/
def ZeroTakesItsSign (f : Fmt) : Prop :=
  ∀ (mode : Rnd) (s t ftz : Bool) (m n : Nat) (e k : Int), mode ≠ .dyn →
    let zero (neg : Bool) : Nat × Flags := (f.signed neg 0, 0#7)
    roundVal f mode (.fin s 0 e) = zero s ∧
    faddEl f ftz mode (.fin s m e) (.fin (!s) m e) = zero (decide (mode = .rdn)) ∧
    faddEl f ftz mode (.fin s 0 e) (.fin s 0 k) = zero s ∧
    fmulEl f ftz mode (.fin s 0 e) (.fin t m k) = zero (s != t) ∧ fmulEl f ftz mode (.fin t m k) (.fin s 0 e) = zero (s != t) ∧
    (0 < m → 0 < n →
      ffmaEl f ftz mode (.fin s m e) (.fin t n k) (.fin (s == t) (m * n) (e + k)) = zero (decide (mode = .rdn))) ∧
    fsqrtVal f mode (.fin s 0 e) = zero s ∧ frcpVal f mode (.inf s) = zero s

end Sys2Proof.Spec

/-- R105, Table 8.4: ROUND of a nonzero finite value. A value whose magnitude, rounded with an unbounded exponent, exceeds the largest finite
one gives the infinity or the largest finite value of Table 8.4 with OF and NX (E4M3, without an infinity, always its largest, with ST also: R106);
any other gives a finite value without OF. No finite value of the format lies strictly between the value and the result. Under RTZ the result is
never larger in magnitude than the value, under RUP never below it and under RDN never above it; under RNE and RNA no finite value of the format
is nearer, and of two equally near RNE takes the one with the even fraction and RNA the one farther from zero. NX is raised exactly when the
result differs from the value; UF exactly when the result is also nonzero and below the smallest normal. An exact zero takes its operation's sign. -/
def Obligations.RoundingBracketsTheExactValue : Prop :=
  ∀ f ∈ [fp32, bf16, fp16, e5m2, e4m3], Spec.ZeroTakesItsSign f ∧ ∀ (mode : Rnd) (neg : Bool) (m : Nat) (e : Int), mode ≠ .dyn → 0 < m →
    let r := roundVal f mode (.fin neg m e)
    let x := FVal.fin neg m e
    let y := f.value r.1
    let beyond := beyondLargest f mode neg m e
    r.1 < 2 ^ (1 + f.e + f.m) ∧ y.neg = neg ∧ y.isNan = false ∧
    (if beyond then r.2 = fOF ||| fNX ||| (if f.noInf then fST else 0#7) ∧ y = overflowed f mode neg
     else r.2 &&& (fOF ||| fST) = 0#7 ∧ y ≠ .inf neg) ∧
    (r.2 &&& fNX ≠ 0#7 ↔ fcmpVal y x ≠ .eq) ∧
    (r.2 &&& fUF ≠ 0#7 ↔ fcmpVal y x ≠ .eq ∧ f.subnormal r.1 = true) ∧
    (f.noInf = false ∨ beyond = false →
      (mode = .rup → fcmpVal y x ≠ .lt) ∧ (mode = .rdn → fcmpVal y x ≠ .gt) ∧
      (mode = .rtz → fcmpVal y x ≠ (if neg then .lt else .gt))) ∧
    ∀ (q : Nat) (n : Bool) (p : Nat) (k : Int), f.value q = .fin n p k →
      let z := FVal.fin n p k
      let j := min e (min y.exp k)
      ¬ (fcmpVal x z = .lt ∧ fcmpVal z y = .lt) ∧ ¬ (fcmpVal y z = .lt ∧ fcmpVal z x = .lt) ∧
      (beyond = false → mode = .rne ∨ mode = .rna →
        apart j x y ≤ apart j x z ∧
        (apart j x y = apart j x z → fcmpVal y z ≠ .eq →
          (mode = .rne → r.1 % 2 = 0) ∧ (mode = .rna → fcmpVal z y = if neg then .gt else .lt)))
/-- The integer that a finite value rounds to under a mode (R105, R108): with the value `a / d`, the floor under RDN, the ceiling under RUP, the
one of them nearer zero under RTZ, and the nearer one under RNE and RNA, a tie going to the even one or the one farther from zero. -/
def Sys2Proof.Spec.nearInteger (mode : Rnd) (neg : Bool) (m : Nat) (e : Int) : Int :=
  let a : Int := (if neg then -1 else 1) * ((m * 2 ^ e.toNat : Nat) : Int)
  let d : Int := 2 ^ (-e).toNat
  let lo := a / d
  let hi := -(-a / d)
  let low := 2 * (a - lo * d)
  match mode with
  | .rdn => lo
  | .rup => hi
  | .rtz => if neg then hi else lo
  | .rne | .dyn => if low < d then lo else if d < low then hi else if lo % 2 = 0 then lo else hi
  | .rna => if low < d then lo else if d < low then hi else if neg then lo else hi

/-- R108: between integer types a value in range converts exactly; outside it, SATON gives the nearest end with ST, and without it the
low bits of the destination's width are kept. A float NaN gives 0 with IV; a float rounded by the mode to an integer outside the range gives the
nearest end with IV; any other gives that integer, with NX exactly when it differs from the float. -/
def Sys2Proof.Spec.ConversionsWithIntegersFollowTheirRange : Prop :=
  (∀ (dt st : Elem) (mode : Rnd) (sat : Bool) (x : DWord), elemFmt dt = none → elemFmt st = none → dt ≠ .q4x → st ≠ .q4x →
    let v : Int := intOf (elemSigned st) (x.setWidth st.bits)
    let lo : Int := if elemSigned dt then -(2 ^ (dt.bits - 1)) else 0
    let hi : Int := if elemSigned dt then 2 ^ (dt.bits - 1) - 1 else 2 ^ dt.bits - 1
    convElem dt st mode sat x =
      if lo ≤ v ∧ v ≤ hi then (((BitVec.ofInt dt.bits v).setWidth 64), 0#7)
      else if sat then ((BitVec.ofInt dt.bits (if v < lo then lo else hi)).setWidth 64, fST)
      else ((ext (elemSigned st) dt.bits (x.setWidth st.bits)).setWidth 64, 0#7)) ∧
  (∀ (dt : Elem) (mode : Rnd), elemFmt dt = none →
    (∀ sig, floatToInt dt mode (.nan sig) = (0, fIV)) ∧
    (∀ neg, floatToInt dt mode (.inf neg) = (if neg then (elemRange dt).1 else (elemRange dt).2, fIV)) ∧
    (∀ v, (elemRange dt).1 ≤ (floatToInt dt mode v).1 ∧ (floatToInt dt mode v).1 ≤ (elemRange dt).2) ∧
    (∀ (neg : Bool) (m : Nat) (e : Int), mode ≠ .dyn →
      let i := Spec.nearInteger mode neg m e
      floatToInt dt mode (.fin neg m e) =
        if i < (elemRange dt).1 then ((elemRange dt).1, fIV) else if (elemRange dt).2 < i then ((elemRange dt).2, fIV)
        else (i, if 0 ≤ e ∨ (2 ^ (-e).toNat : Nat) ∣ m then 0#7 else fNX)))

/-- R101, R111, R319, R320: a sum, product or fused sum with a NaN operand, a sum of opposite infinities and a product of zero and
infinity give the canonical NaN; IV is raised for a signalling operand and for the two invalid forms. The lesser or greater of a
NaN and a number is the number, of two NaNs the canonical NaN, and -0 lies below +0. -/
def Obligations.InvalidOperandsAndConversionsFollowTheirRules : Prop :=
  (∀ f ∈ [fp32, bf16, fp16], ∀ (mode : Rnd) (ftz : Bool) (a b x : FVal),
     (a.isNan = true ∨ b.isNan = true →
       faddEl f ftz mode a b = (f.nan, if a.isSig || b.isSig then fIV else 0#7) ∧
       fmulEl f ftz mode a b = (f.nan, if a.isSig || b.isSig then fIV else 0#7) ∧
       (ffmaEl f ftz mode a b x).1 = f.nan) ∧
     (x.isNan = true → (ffmaEl f ftz mode a b x).1 = f.nan) ∧
     (∀ s : Bool, faddEl f ftz mode (.inf s) (.inf !s) = (f.nan, fIV)) ∧
     (∀ (s t : Bool) (e : Int), fmulEl f ftz mode (.fin s 0 e) (.inf t) = (f.nan, fIV) ∧
       fmulEl f ftz mode (.inf t) (.fin s 0 e) = (f.nan, fIV)) ∧
     (∀ (p q : Nat), (f.value p).isNan = true → (f.value q).isNan = false →
       (fminMax f false p q (f.value p) (f.value q)).1 = q ∧ (fminMax f true p q (f.value p) (f.value q)).1 = q ∧
       (fminMax f false q p (f.value q) (f.value p)).1 = q ∧ (fminMax f true q p (f.value q) (f.value p)).1 = q) ∧
     (∀ (p q : Nat), (f.value p).isNan = true → (f.value q).isNan = true →
       (fminMax f false p q (f.value p) (f.value q)).1 = f.nan ∧ (fminMax f true p q (f.value p) (f.value q)).1 = f.nan) ∧
     (let p := f.signed true 0
      let q := f.signed false 0
      (fminMax f false p q (f.value p) (f.value q)).1 = p ∧ (fminMax f false q p (f.value q) (f.value p)).1 = p ∧
      (fminMax f true p q (f.value p) (f.value q)).1 = q ∧ (fminMax f true q p (f.value q) (f.value p)).1 = q)) ∧
  Spec.ConversionsWithIntegersFollowTheirRange

/-- R113, R347, R352: the tree of a reduction over 2^k lanes combines every lane's value: integer add is the sum modulo 2^32, and, or and
xor the bitwise combination; and the prefix of the first n lanes is the combination of those n. Integer nodes raise no flag. -/
def Sys2Proof.Spec.ReductionsCombineEveryLane : Prop :=
  ∀ (mode : Rnd) (ws : List Word),
    let xs : List (Word × Flags) := ws.map fun x => (x, 0#7)
    (∀ k, ws.length = 2 ^ k →
      redTree .add .i32 mode k xs = (ws.foldl (· + ·) 0#32, 0#7) ∧ redTree .add .u32 mode k xs = (ws.foldl (· + ·) 0#32, 0#7) ∧
      redTree .and .b32 mode k xs = (ws.foldl (· &&& ·) 0xFFFFFFFF#32, 0#7) ∧
      redTree .or .b32 mode k xs = (ws.foldl (· ||| ·) 0#32, 0#7) ∧ redTree .xor .b32 mode k xs = (ws.foldl (· ^^^ ·) 0#32, 0#7)) ∧
    (∀ n, n ≤ ws.length → n < 128 →
      redPrefix .add .i32 mode n 7 xs none = ((ws.take n).foldl (· + ·) 0#32, 0#7) ∧
      redPrefix .or .b32 mode n 7 xs none = ((ws.take n).foldl (· ||| ·) 0#32, 0#7))

/-! ### Class 0x4 to 0x6: cross-lane words, transfers, the ends of lanes, masks -/

namespace Sys2Proof.Spec

open Sys2Proof Sys2Proof.Machine

/-- The registers of a sheet after the executing lanes `act` have received `f` in destination `d` and the predicate `q` in p`j`. -/
def Received (sh sh' : Sheet) (act : List Nat) (d : Opd) (f : Nat → DWord) (j : Nat) (q : Bool) : Prop :=
  (∀ i, sh'.uReg i = match act.head? with
    | some k => uAfter d i (f k) (sh.uReg i)
    | none => sh.uReg i) ∧
  (∀ k i, sh'.vReg k i = if k ∈ act then vAfter d i (f k) (sh.vReg k i) else sh.vReg k i) ∧
  (∀ k i, (sh'.lane k).pRead i =
    if k ∈ act ∧ i ≠ 63 then
      if i = j then q else if ∃ u : BitVec 6, d = .p u ∧ u.toNat = i then (f k).getLsbD 0 else (sh.lane k).pRead i
    else (sh.lane k).pRead i)

/-- The members that a cross-lane word's own mask names (R72). -/
def inMask (sh : Sheet) (x : XExt) (k : Nat) : Bool := decide (k < 64) && maskHas sh x k

/-- Every live member of a cross-lane word executes it with the group, and no other lane waits at it: it performs at once. -/
def AllHere (sh : Sheet) (g : Grp) (x : XExt) : Prop :=
  g.act ≠ [] ∧ xExec sh g.pc = [] ∧ ∀ k, k < sh.width → inMask sh x k = true → (sh.lane k).running = true → k ∈ g.act

/-- Whether some member of a cross-lane word is absent. -/
def someAbsent (sh : Sheet) (act : List Nat) (x : XExt) : Bool :=
  (List.range sh.width).any fun k => inMask sh x k && !act.contains k

/-- The lane that a lane of SHFL reads from (R354), as an integer; the sheet's lanes are 0 to width - 1. -/
def shflSource (m : ShflMode) (width i sel : Nat) : Int :=
  match m with
  | .idx => ((sel % width : Nat) : Int)
  | .up => (i : Int) - sel
  | .down => (i : Int) + sel
  | .xor => ((i ^^^ (sel % width) : Nat) : Int)

/-- A group that leaves its word: the executing lanes begin a run at their own target, which is yet to be found to start one (R51), the
group's others at the continuation, and the lanes of no other group change. -/
def Leaves (s : State) (g : Grp) (c : Ctl) (dest : Nat → Word) (sh sh' : Sheet) : Prop :=
  ∀ k, sh'.lane k =
    if k ∈ g.act then (sh.lane k).startRun (dest k) s.awaits c.yld s.steps true
    else if k ∈ g.grp then (sh.lane k).startRun g.cont s.awaits c.yld s.steps false else sh.lane k

/-- The parts of a sheet that transfers leave alone: its W and S registers, its masks and what it has in flight. -/
def SharedKept (sh sh' : Sheet) : Prop :=
  sh'.u = sh.u ∧ sh'.m = sh.m ∧ sh'.sq = sh.sq ∧ sh'.fills = sh.fills ∧ sh'.pairs = sh.pairs ∧ sh'.gen = sh.gen ∧
  sh'.width = sh.width ∧ sh'.kind = sh.kind

end Sys2Proof.Spec

/-- R72, R346, R354, R364, R347, R352: a cross-lane word whose live members all execute it performs once for them: every executing lane
receives its result, the result predicate is cleared where a member is absent and set otherwise, and the group goes on. SHFL reads
the source lane, or the lane's own value where the source lies outside the sheet, or 0 from an absent lane; VOTE answers any, all and
ballot of the present members; RDUX and SCAN the tree and the prefixes over the lanes, absent ones holding the identity, a
NaN in canonical form (R101). -/
def Obligations.CrossLaneWordsPerformOnceForTheirMembers : Prop :=
  (∀ (s : State) (w : Where) (l : Nat) (sh : Sheet) (c : Ctl) (d a b : Opd) (x : XExt),
    let g := Grp.of w sh l c
    Stands s w l sh → Full g [(1, false, a), (2, false, b)] → AllHere sh g x →
    let q := !someAbsent sh g.act x
    let Performs (i : Instr) (q : Bool) (f : Nat → DWord) : Prop :=
      ∃ sh' : Sheet, exec i s = .next (s.putSheet w sh') ∧ Received sh sh' g.act d f x.pdst.toNat q ∧
        sh'.m = sh.m ∧ sh'.sq = sh.sq ∧ sh'.fills = sh.fills ∧ sh'.gen = sh.gen ∧
        ∀ k, (sh'.lane k).pc = if k ∈ g.grp then (sh.lane k).pc + 12#32 else (sh.lane k).pc
    (∀ m : ShflMode, Performs (.shfl c m d a b x) q fun k =>
      let val (j : Nat) : DWord := if opdPart a = .pair then rd64 s g a j else (rd s g false a j).setWidth 64
      let from_ := shflSource m sh.width k (rd s g false b k).toNat
      if from_ < 0 ∨ (sh.width : Int) ≤ from_ then val k else if from_.toNat ∈ g.act then val from_.toNat else 0#64) ∧
    (∀ op : VoteOp, Performs (.vote c op d a x) q fun _ =>
      let holds (k : Nat) : Bool := rd s g false a k == 1#32
      match op with
      | .any => if ∃ k ∈ g.act, holds k = true then 1#64 else 0#64
      | .all => if ∀ k ∈ g.act, holds k = true then 1#64 else 0#64
      | .ballot => laneMask (g.act.filter holds)) ∧
    (∀ (op : RedOp) (ty : XTy) (r : Rnd),
      let vals : List (Word × Flags) := (List.range sh.width).map fun k =>
        (if k ∈ g.act then rd s g false a k else redIdentity op ty, 0#7)
      let mode := rmode r (sh.lane (g.act.headD 0)).rm
      Performs (.rdux c op ty r d a x) q (fun _ => (redTree op ty mode (Nat.log2 sh.width) vals).1.setWidth 64) ∧
      (∀ excl : Bool, Performs (.scan c op ty r excl d a x) q fun k =>
        (let v := (redPrefix op ty mode (if excl then k else k + 1) 7 vals none).1
         if ty = .f32 ∧ (fp32.value v.toNat).isNan = true then BitVec.ofNat 32 fp32.nan else v).setWidth 64)) ∧
    (let weights : List Nat := (List.range sh.width).map fun k => if k ∈ g.act then (rd s g false a k).toNat else 0
     let pick := csample weights ((List.range sh.width).filter fun k => inMask sh x k || g.act.contains k) (rd s g false b (g.act.headD 0))
     Performs (.csamp c d a b x) (q && pick.isSome) fun _ => match pick with
       | some k => BitVec.ofNat 64 k
       | none => 0xFFFFFFFF#64)) ∧
  Spec.ReductionsCombineEveryLane

/-- R301, R303, R304, R350, R51, R53: a transfer sends the executing lanes to their targets and the group's others to the continuation,
where each begins a run that waits for the registers its trailer names. BRA and CALL go to the continuation plus 12 times the
displacement, BRX and RET to the offset that each lane's operand holds, and where one of those is no multiple of 12 they trap ALIGN
with SLOT 1 and those lanes (ACCESS and taddr 0, log 32); CALL writes the continuation to its link register. TRLR passes its group to the word
after it, waiting for the registers that it names (as a step of its own, log 37); YIELD marks a sheet's group and goes on, and so does NOP,
which only carries its hint. -/
def Obligations.TransfersSendLanesToTheirTargets : Prop :=
  ∀ (s : State) (w : Where) (l : Nat) (sh : Sheet) (c : Ctl) (d a : Opd) (disp : BitVec 14),
    let g := Grp.of w sh l c
    Stands s w l sh → g.inHandler = false →
    let target := g.pc + 24#32 + 12#32 * disp.signExtend 32
    (∃ sh', exec (.bra c (.imm disp)) s = .next (s.putSheet w sh') ∧ SharedKept sh sh' ∧ Leaves s g c (fun _ => target) sh sh') ∧
    (∃ sh', exec (.call c d (.imm disp)) s = .next (s.putSheet w sh') ∧
      Leaves s g c (fun _ => target) (g.act.foldl (fun sh k => wr g.act d k ((g.pc + 24#32).setWidth 64) sh) sh) sh') ∧
    (Full g [(1, false, a)] →
      ((∀ k ∈ g.act, (rd s g false a k).toNat % 12 = 0) →
        (∃ sh', exec (.brx c a) s = .next (s.putSheet w sh') ∧ SharedKept sh sh' ∧ Leaves s g c (rd s g false a) sh sh') ∧
        (∃ sh', exec (.ret c a) s = .next (s.putSheet w sh') ∧ SharedKept sh sh' ∧ Leaves s g c (rd s g false a) sh sh')) ∧
      ((s.core (wCore w)).eventRoom = true → (∃ k ∈ g.act, (rd s g false a k).toNat % 12 ≠ 0) →
        exec (.brx c a) s = .next ((s.put g (trapLanes g.grp sh)).queueEvent (wCore w) (trapEvent s w sh g.grp
          ⟨.align, 1, 0, g.act.filter fun k => (rd s g false a k).toNat % 12 != 0, [], fun _ => 0#64, g.pc, s.curWord⟩ none false)) ∧
        exec (.ret c a) s = exec (.brx c a) s)) ∧
    (exec (.nop c) s = .next (s.put g (stepLanes g.grp c.yld sh)) ∧ exec (.yield c) s = .next (s.put g (stepLanes g.grp (match w with
      | .sheet _ _ _ => true
      | _ => c.yld) sh))) ∧
    (∀ (awaits : List AwaitReg) (n : BitVec 8),
      let t := Grp.of w sh l ⟨63#6, false, false, false, 0#4⟩
      ∃ sh', exec (.trlr awaits n) s = .next (s.putSheet w sh') ∧ SharedKept sh sh' ∧
        ∀ k, sh'.lane k = if k ∈ t.grp then (sh.lane k).startRun (t.pc + 12#32) awaits false s.steps false else sh.lane k)


/-- R302, R73, R75: BRD acts as BRA where no lane executes, all do, or a generator is active, and where the vat or its bins lack room,
when the refusal is counted; otherwise the smaller side, the executing lanes where both are alike, is ejected with its records into
the vat and the other side goes on. -/
def Sys2Proof.Spec.BrdEjectsTheSmallerSide : Prop :=
  ∀ (s : State) (co slot idx l : Nat) (sh : Sheet) (c : Ctl) (n : BitVec 3) (i : BitVec 8) (ew : Bool) (disp : BitVec 14) (wg : Workgroup),
    let w := Where.sheet co slot idx
    let g := Grp.of w sh l c
    let a := Opd.v ew .full i
    Stands s w l sh → s.wgOf w = some wg →
    (g.act = [] ∨ g.rest = [] ∨ sh.gen.isSome = true → exec (.brd c n a (.imm disp)) s = exec (.bra c (.imm disp)) s) ∧
    (g.act ≠ [] → g.rest ≠ [] → sh.gen = none →
      let taken := decide (g.act.length ≤ g.rest.length)
      let out := if taken then g.act else g.rest
      let entry := if taken then dispTarget g (.imm disp) else g.cont
      let recs := out.map fun k => (⟨recordWords sh k a (n.toNat + 1), (sh.lane k).join⟩ : SpawnRec)
      ((s.pendingCore co).addRecs wg entry sh.width sh.c sh.code recs = none →
        exec (.brd c n a (.imm disp)) s = exec (.bra c (.imm disp)) (s.modCore co fun k =>
          { k with refused := SMap.set 0 k.refused wg.owner (SMap.get 0 k.refused wg.owner + 1) })) ∧
      (∀ k k', (s.pendingCore co).addRecs wg entry sh.width sh.c sh.code recs = some k' →
        (s.core co).addRecs wg entry sh.width sh.c sh.code recs = some k →
        (∀ j ∈ out, (sh.lane j).pend = false) → Full { g with act := out } (recordSrcs a (n.toNat + 1)) →
        ∃ t sh', exec (.brd c n a (.imm disp)) s = .next t ∧ t.sheetAt w = some sh' ∧ (t.core co).bins = k.bins ∧
          (∀ j ∈ out, (sh'.lane j).live = false) ∧
          (∀ j, j ∈ g.grp → j ∉ out → { sh'.lane j with present := [] } = { (sh.lane j).startRun 
            (if taken then g.cont else dispTarget g (.imm disp)) s.awaits c.yld s.steps (!taken) with present := [] }) ∧
          t.dram = s.dram ∧ t.hostMem = s.hostMem ∧ t.peerMem = s.peerMem))

/-- R316, R70, R118: EXIT, outside a generator and without a pending ARITH trap, ends its executing lanes: they are no longer live and
are in no mask, and the group's others continue at the continuation; of the other lanes only those that wait on a
mask or at a cross-lane word may go on. With a pending trap in an executing lane it takes that trap and no lane exits. -/
def Obligations.ExitAndBrdEndLanes : Prop :=
  (∀ (s : State) (w : Where) (l : Nat) (sh : Sheet) (c : Ctl),
     let g := Grp.of w sh l c
     Stands s w l sh → g.inHandler = false → sh.gen = none → g.act ≠ [] →
     ((∀ k ∈ g.act, (sh.lane k).pend = false) →
       ∃ t sh', exec (.exit c) s = .next t ∧ t.sheetAt w = some sh' ∧
         (∀ k ∈ g.act, (sh'.lane k).live = false) ∧
         (∀ i, i < 12 → sh'.mReg i = sh.mReg i &&& ~~~ (laneMask g.act) &&& sh.widthMask) ∧
         (∀ k, k ∉ g.act → (sh'.lane k).live = (sh.lane k).live) ∧
         (∀ k, k ∉ g.act → (∀ wk x m, (sh.lane k).wait ≠ .blocked (.xlane wk x m)) →
           (∀ i, sh'.vReg k i = sh.vReg k i) ∧ (sh'.lane k).p = (sh.lane k).p ∧
           ((∀ m, (sh.lane k).wait ≠ .blocked (.waitm m)) → (sh'.lane k).pc = if k ∈ g.grp then g.cont else (sh.lane k).pc)) ∧
         (∀ m ∈ t.monitors, m.who = w → m.lane ∉ g.act) ∧
         t.dram = s.dram ∧ t.hostMem = s.hostMem ∧ t.peerMem = s.peerMem ∧ t.flights = s.flights ∧ t.engine = s.engine) ∧
     ((∃ k ∈ g.act, (sh.lane k).pend = true) → (s.core (wCore w)).eventRoom = true →
       ∃ t sh', exec (.exit c) s = .next t ∧ t.sheetAt w = some sh' ∧ (∀ k, (sh'.lane k).live = (sh.lane k).live) ∧
         (t.core (wCore w)).events.length = (s.core (wCore w)).events.length + 1 ∧
         ∀ k ∈ g.act, (sh'.lane k).pend = false ∧ (sh'.lane k).wait = .trapped ∧ (sh'.lane k).pc = (sh.lane k).pc)) ∧
  Spec.BrdEjectsTheSmallerSide


/-- R71, R365: when the WAITM conditions of a sheet are evaluated, a lane blocked in WAITM whose condition holds goes on to the next word
and no other lane changes. -/
def Sys2Proof.Spec.MaskWaitsLookAtTheirConditions : Prop :=
  ∀ sh : Sheet, sh.settle.m = sh.m ∧ sh.settle.u = sh.u ∧ sh.settle.sq = sh.sq ∧ sh.settle.fills = sh.fills ∧ sh.settle.gen = sh.gen ∧
    (∀ k, (∀ m, (sh.lane k).wait ≠ .blocked (.waitm m)) → sh.settle.lane k = sh.lane k) ∧
    (∀ k m, k < sh.lanes.length → (sh.lane k).live = true → (sh.lane k).wait = .blocked (.waitm m) →
      (∀ j, j < sh.lanes.length → (sh.mReg m.toNat).getLsbD j = true → (sh.lane j).running = true → j ∈ waitmLanes sh (sh.lane k).pc) →
      sh.settle.lane k = (sh.lane k).stepOn false)

/-- R71, R365, R94: the executing lanes of a WAITM without a pending ARITH trap block at its word until every running lane of the mask
stands blocked there; then all the lanes at the word go on together. Where the other slot issues in the same cycle, the condition is
evaluated after it. -/
def Sys2Proof.Spec.WaitmReleasesWhenItsMaskHasCome : Prop :=
  ∀ (s : State) (w : Where) (l : Nat) (sh : Sheet) (c : Ctl) (m : BitVec 4),
    let g := Grp.of w sh l c
    Stands s w l sh → (∀ k ∈ g.act, (sh.lane k).pend = false) →
    let come := ∀ k, k < sh.lanes.length → (sh.mReg m.toNat).getLsbD k = true → (sh.lane k).running = true →
      k ∈ g.act ∨ k ∈ waitmLanes sh g.pc
    ∃ sh', exec (.waitm c m) s = .next (s.putSheet w (s.settled sh')) ∧ sh'.m = sh.m ∧ sh'.u = sh.u ∧
      (∀ k ∈ g.act, (sh'.lane k).wait = .blocked (.waitm m) ∧ (sh'.lane k).pc = g.pc) ∧
      ((∀ k ∈ waitmLanes sh g.pc, (sh.lane k).wait = .blocked (.waitm m)) →
        (come → ∀ k, k ∈ g.act ∨ k ∈ waitmLanes sh g.pc → (sh'.settle.lane k).wait = .ready ∧ (sh'.settle.lane k).pc = g.pc + 12#32) ∧
        (¬ come → ∀ k ∈ g.act, (sh'.settle.lane k).wait = .blocked (.waitm m) ∧ (sh'.settle.lane k).pc = g.pc))

/-- R328, R334, R70, R63: JOIN adds the executing lanes to its mask and LEAVE removes them; MMOV writes a mask from a value, PART 00
keeping lanes 32 to 63, without lanes that are not live, or a mask into a W register. No other mask changes, no bit at or above the
width is ever set, and the group goes on; then the waits on masks look at their conditions, or after the other slot of the cycle. -/
def Obligations.MasksChangeAndReleaseTheirLanes : Prop :=
  (∀ (s : State) (w : Where) (l : Nat) (sh : Sheet) (c : Ctl) (m : BitVec 4) (a : Opd) (pair : Bool),
     let g := Grp.of w sh l c
     Stands s w l sh → Full g [(1, false, a)] →
     let Sets (i : Instr) (v : Lanes) : Prop :=
       ∃ sh', exec i s = .next (s.putSheet w (s.settled sh')) ∧ sh'.mReg m.toNat = v ∧ (∀ j, j ≠ m.toNat → sh'.mReg j = sh.mReg j) ∧
         sh'.u = sh.u ∧ sh'.sq = sh.sq ∧ sh'.fills = sh.fills ∧
         ∀ k, sh'.lane k = if k ∈ g.grp then (sh.lane k).stepOn c.yld else sh.lane k
     Sets (.join c m) ((sh.mReg m.toNat ||| laneMask g.act) &&& sh.widthMask) ∧
     Sets (.leave c m) ((sh.mReg m.toNat &&& ~~~ (laneMask g.act)) &&& sh.widthMask) ∧
     (g.act ≠ [] → Sets (.mmov c (.m (if pair then .pair else .full) m) a)
       ((if pair then rd64 s g a l else hiWord (sh.mReg m.toNat) ++ loWord (rd64 s g a l)) &&& laneMask sh.liveLanes &&& sh.widthMask)) ∧
     (∀ (p : Part) (i : BitVec 8), g.act ≠ [] → ∃ sh', exec (.mmov c (.u false p i) (.m p m)) s = .next (s.putSheet w sh') ∧
       (∀ j, sh'.uReg j = uAfter (.u false p i) j (rd64 s g (.m p m) l) (sh.uReg j)) ∧ sh'.m = sh.m)) ∧
  Spec.MaskWaitsLookAtTheirConditions ∧ Spec.WaitmReleasesWhenItsMaskHasCome

/-! ### Class 0x7, CVTQ and the other producers of a workgroup -/

namespace Sys2Proof.Spec

open Sys2Proof Sys2Proof.Machine

/-- The state with one number of a producer or queue entry given out. -/
def numbered (s : State) : State := { s with nextId := s.nextId + 1 }

/-- A lane without its promise: a run that awaits a register which has become empty is not ready, and its wait count starts again (R68). -/
def uncounted (t : Thread) : Thread := { t with waited := 0, forced := false }

/-- A group goes on to its next word and no lane's predicates, temporaries, modes, status or pending trap change; no lane outside the
group changes but in its wait count, and no mask, generator or store-queue entry that stood is touched. -/
def GoesOn (g : Grp) (sh sh' : Sheet) : Prop :=
  (∀ k, (sh'.lane k).pc = if k ∈ g.grp then (sh.lane k).pc + 12#32 else (sh.lane k).pc) ∧
  (∀ k, (sh'.lane k).p = (sh.lane k).p ∧ (sh'.lane k).t = (sh.lane k).t ∧ laneMode (sh'.lane k) = laneMode (sh.lane k) ∧
    (sh'.lane k).astat = (sh.lane k).astat ∧ (sh'.lane k).pend = (sh.lane k).pend) ∧
  (∀ k, k ∉ g.grp → uncounted (sh'.lane k) = uncounted (sh.lane k)) ∧
  sh'.m = sh.m ∧ sh'.gen = sh.gen ∧ sh'.pairs = sh.pairs ∧ sh'.width = sh.width ∧ sh'.kind = sh.kind ∧ (∀ e ∈ sh.sq, e ∈ sh'.sq) ∧ ∀ f ∈ sh.fills, f ∈ sh'.fills

/-- The registers of a destination are empty for producer `id` in the lanes `ls`, behind the writes that they wait for already; a W
register's bit is one for all lanes (R27). No other register changes. -/
def Emptied (sh sh' : Sheet) (ls : List Nat) (quad : Bool) (d : Opd) (id : Nat) : Prop :=
  (∀ k i, sh'.vReg k i = if k ∈ ls ∧ (false, i) ∈ spanRegs quad d then (sh.vReg k i).markEmpty id else sh.vReg k i) ∧
  (∀ i, sh'.uReg i = if ls ≠ [] ∧ (true, i) ∈ spanRegs quad d then (sh.uReg i).markEmpty id else sh.uReg i)

/-- Every V, W and S register is as before. -/
def RegsKept (sh sh' : Sheet) : Prop := (∀ k i, sh'.vReg k i = sh.vReg k i) ∧ ∀ i, sh'.uReg i = sh.uReg i

/-- A word issues a producer of these lanes: nothing of the state changes but its agent's code, where the destination is empty, the
producer is in flight and the group goes on. -/
def Issues (s : State) (w : Where) (sh : Sheet) (g : Grp) (i : Instr) (kind : FillKind) (quad : Bool) (d : Opd) (lanes : List LaneReq) : Prop :=
  ∃ sh' : Sheet, exec i s = .next ((numbered s).putSheet w sh') ∧ GoesOn g sh sh' ∧
    Emptied sh sh' (lanes.map (·.lane)) quad d s.nextId ∧ sh'.sq = sh.sq ∧
    sh'.fills = sh.fills ++ [⟨s.nextId, kind, d, lanes, g.pc, s.curWord⟩]

/-- A word queues an entry of these lanes, with the rest of the state as in `t`: of its agent's code the entry stands last in the store
queue and the group goes on. -/
def QueuesIn (s t : State) (w : Where) (sh : Sheet) (g : Grp) (i : Instr) (kind : SqKind) (counted : Bool) (lanes : List SqLane) : Prop :=
  ∃ sh' : Sheet, exec i s = .next (t.putSheet w sh') ∧ GoesOn g sh sh' ∧ RegsKept sh sh' ∧ sh'.fills = sh.fills ∧
    sh'.sq = sh.sq ++ [⟨s.nextId, kind, lanes, counted, g.pc, s.curWord⟩]

/-- A word queues an entry of these lanes: nothing of the state changes but its agent's code. -/
abbrev Queues (s : State) (w : Where) (sh : Sheet) (g : Grp) (i : Instr) (kind : SqKind) (counted : Bool) (lanes : List SqLane) : Prop :=
  QueuesIn s (numbered s) w sh g i kind counted lanes

/-- The state after a level-2 handler's word that it may not perform: its lanes stand at it, the word is noted and the owner stalls (R230). -/
def stalledAt (s : State) (g : Grp) (co : Nat) : State :=
  ownerStall ((s.put g (trapLanes g.grp g.sh)).modCore co fun k => k.modHandler 2 (Handler.stallAt g.pc true)) co 2

/-- The state after a group's word has trapped with these lanes, outside a handler and with room in the event queue (R36, R220). -/
def trapped (s : State) (g : Grp) (c : Cause) (slot access : Nat) (lanes : List Nat) (addr : Nat → DWord) : State :=
  (s.put g (trapLanes g.grp g.sh)).queueEvent (wCore g.w)
    (trapEvent s g.w g.sh g.grp ⟨c, slot, access, lanes, [], addr, g.pc, s.curWord⟩ none false)

/-- A trap can be taken: the code is no handler and the event queue of its core has room. -/
def CanTrap (s : State) (g : Grp) : Prop := g.inHandler = false ∧ (s.core (wCore g.w)).eventRoom = true

/-- The group gives up its turn and stands at its word until what it waits for has come (R54). -/
def Waits (s : State) (g : Grp) (i : Instr) (on : Stall) : Prop := exec i s = .next (s.put g (waitHere g on g.sh))

/-- A lane of a producer that its own core serves. -/
def near (k : Nat) (va : DWord) (t : Target) : LaneReq := ⟨k, va, .ok t true, false, none⟩

/-- A lane of a queue entry of the scratchpad. -/
def nearSq (k : Nat) (va : DWord) (t : Target) (bytes : List Byte) : SqLane := ⟨k, va, .ok t true, false, false, bytes, []⟩

/-- Lanes whose access of `n` bytes leaves the allocation, and those whose address is no multiple of `n` (R139). -/
def pastEnd (al : Alloc) (n : Nat) (va : Nat → DWord) (ls : List Nat) : List Nat := ls.filter fun k => al.outside (va k) n

/-- Lanes whose address is no multiple of the size of the access. -/
def misaligned (n : Nat) (va : Nat → DWord) (ls : List Nat) : List Nat := ls.filter fun k => (va k).toNat % n != 0

end Sys2Proof.Spec

/-- R139, R140, R142, R143: LDL issues a load of the allocation that Q and rank name, for its performing lanes (the lowest for a W
destination); STL queues its bytes. With 255 local operations outstanding either waits; STL also waits for room in the queue. A rank
without a member is BOUNDS with SLOT 3 (with the access and the lanes' offsets, log 53); an access past the allocation is BOUNDS, and else a misaligned one ALIGN, with SLOT 1 and the
lanes that fail. A quad store of an immediate queues two free values of each lane (log 55). R230: at level 2 either is an owner stall, for a level-2
handler may touch the ballast only (log 44). -/
def Obligations.LocalLoadsAndStoresIssueInOrder : Prop :=
  ∀ (s : State) (w : Where) (l : Nat) (sh : Sheet) (c : Ctl) (q : Bool) (sz : Size) (d a b x : Opd),
    let g := Grp.of w sh l c
    let n := sizeBytes sz
    let va := ea s g a b
    let ls := performers g.act d
    let rank := (rd s g false x (g.act.headD 0)).toNat
    Stands s w l sh → Full g (localSrcs q a b x) → g.act ≠ [] →
    (∀ co, w = .handler co 2 →
      exec (.ldl c q sz d a b x) s = .next (stalledAt s g co) ∧
      (Full g [(0, sz.quad, d)] → exec (.stl c q sz d a b x) s = .next (stalledAt s g co))) ∧
    ((∀ co, w ≠ .handler co 2) → ∀ al, s.reach w q rank = some al →
      (pastEnd al n va ls = [] → misaligned n va ls = [] →
        (sh.lcc < 255 → Issues s w sh g (.ldl c q sz d a b x) (.ldl sz) sz.quad d
          (ls.map fun k => near k (va k) (.spad al.core (al.base + (va k).toNat)))) ∧
        (255 ≤ sh.lcc → Waits s g (.ldl c q sz d a b x) (.room true false))) ∧
      (Full g [(0, sz.quad, d)] → pastEnd al n va g.act = [] → misaligned n va g.act = [] →
        (sh.lcc < 255 → sh.sqRoom = true → QueuesIn s ((numbered s).stored sz d) w sh g (.stl c q sz d a b x) .stl true
          (g.act.map fun k => nearSq k (va k) (.spad al.core (al.base + (va k).toNat)) (storeBytes s g sz d k))) ∧
        (255 ≤ sh.lcc ∨ sh.sqRoom = false → Waits s g (.stl c q sz d a b x) (.room true true))) ∧
      (CanTrap s g →
        (Full g [(0, sz.quad, d)] → pastEnd al n va g.act ≠ [] → exec (.stl c q sz d a b x) s = .next (trapped s g .bounds 1 2 (pastEnd al n va g.act) va)) ∧
        (Full g [(0, sz.quad, d)] → pastEnd al n va g.act = [] → misaligned n va g.act ≠ [] →
          exec (.stl c q sz d a b x) s = .next (trapped s g .align 1 2 (misaligned n va g.act) va)) ∧
        (pastEnd al n va ls ≠ [] → exec (.ldl c q sz d a b x) s = .next (trapped s g .bounds 1 1 (pastEnd al n va ls) va)) ∧
        (pastEnd al n va ls = [] → misaligned n va ls ≠ [] →
          exec (.ldl c q sz d a b x) s = .next (trapped s g .align 1 1 (misaligned n va ls) va)))) ∧
    (CanTrap s g → s.reach w q rank = none →
      (Full g [(0, sz.quad, d)] → exec (.stl c q sz d a b x) s = .next (trapped s g .bounds 3 2 g.act va)) ∧
      exec (.ldl c q sz d a b x) s = .next (trapped s g .bounds 3 1 ls va))


/-- R146: a lookup answers the slot of the lowest way of the address's set that holds its tag, and 0x80000000 plus the set where none
does; TAGS makes its way answer, TAGI makes the address miss, TAGI.all every address, and none of them touches another workgroup's
sets. -/
def Sys2Proof.Spec.TagTableAnswersWhatWasInstalled : Prop :=
  ∀ (k : Core) (g : Workgroup) (va : DWord) (slot : Word), 0 < g.tagSets →
    let set := g.tagIdx.getD (va.toNat / 2 ^ g.slotLog % g.tagSets) 0
    let tag := va.toNat % 2 ^ 48 / 2 ^ g.slotLog
    let miss := BitVec.ofNat 32 (2 ^ 31 + va.toNat / 2 ^ g.slotLog % g.tagSets)
    (∀ u, u < 8 → (k.tag set u).tag = tag → (∀ v, v < u → (k.tag set v).tag ≠ tag) → k.tagLookup g va = (k.tag set u).slot) ∧
    ((∀ u, u < 8 → (k.tag set u).tag ≠ tag) → k.tagLookup g va = miss) ∧
    (∀ way, way < 8 → (∀ v, v < way → (k.tag set v).tag ≠ tag) → (k.tagInstall g way va slot).tagLookup g va = slot) ∧
    (k.tagDrop g va).tagLookup g va = miss ∧ (k.tagClear g).tagLookup g va = miss ∧
    (∀ other u way, u < 8 → way < 8 → other ∉ g.tagIdx →
      (k.tagInstall g way va slot).tag other u = k.tag other u ∧ (k.tagDrop g va).tag other u = k.tag other u ∧
      (k.tagClear g).tag other u = k.tag other u)

/-- R145, R146: the tag words of a workgroup with tag sets: TAGL issues a lookup, TAGS and TAGI queue their lanes' addresses for their
turn; without tag sets each is ILLEGAL, and a slot index outside the allocation is BOUNDS with SLOT 3 (ACCESS and taddr 0, log 32). -/
def Obligations.TagWordsReadAndWriteTheTable : Prop :=
  (∀ (s : State) (w : Where) (l : Nat) (sh : Sheet) (c : Ctl) (way : BitVec 3) (all : Bool) (d a b x : Opd) (wg : Workgroup),
     let g := Grp.of w sh l c
     let va := ea s g a b
     let bad := g.act.filter fun k => decide (wg.spadSize / 2 ^ wg.slotLog ≤ (rd s g false x k).toNat)
     Stands s w l sh → Full g [(1, false, a), (2, false, b), (3, false, x)] → g.act ≠ [] → s.wgOf w = some wg →
     (wg.tagSets ≠ 0 →
       Issues s w sh g (.tagl c d a b) .tagl false d ((performers g.act d).map fun k => near k (va k) (.spad (wCore w) 0)) ∧
       (sh.lcc < 255 → sh.sqRoom = true →
         (bad = [] → Queues s w sh g (.tags c way a b x) (.tags way.toNat) true
           (g.act.map fun k => nearSq k (va k) (.spad (wCore w) 0) (leBytes 4 (rd s g false x k).toNat))) ∧
         Queues s w sh g (.tagi c all a b) (.tagi all) true (g.act.map fun k => nearSq k (va k) (.spad (wCore w) 0) [])) ∧
       (CanTrap s g → bad ≠ [] → exec (.tags c way a b x) s = .next (trapped s g .bounds 3 0 bad fun _ => 0#64))) ∧
     (wg.tagSets = 0 → CanTrap s g →
       exec (.tagl c d a b) s = .next (trapped s g .illegal 15 0 g.act fun _ => 0#64) ∧
       exec (.tags c way a b x) s = .next (trapped s g .illegal 15 0 g.act fun _ => 0#64) ∧
       exec (.tagi c all a b) s = .next (trapped s g .illegal 15 0 g.act fun _ => 0#64))) ∧
  Spec.TagTableAnswersWhatWasInstalled

/-- R90, R97, R218, R149, R348, R142: GTAKE issues a load of the felt entry of each executing lane of the consumer body, and is ILLEGAL
outside it; TLBQ issues a probe; RDWP answers the local pointer once the lanes' earlier loads and acquires have performed (R168), or
issues a read of a quire member's; LWAIT goes on once no local
operation and no yielded entry is outstanding, and else its group blocks. RDWP's trap for a bad rank is a read's, with taddr 0 (log 53). -/
def Obligations.ProducersOfAWorkgroupIssue : Prop :=
  ∀ (s : State) (w : Where) (l : Nat) (sh : Sheet) (c : Ctl) (d a : Opd) (ch : BitVec 4) (q : Bool) (rank : BitVec 2),
    let g := Grp.of w sh l c
    let ls := performers g.act d
    let own := ((s.wgOf w).map fun wg => wg.qrank == rank.toNat).getD false
    Stands s w l sh → g.act ≠ [] →
    (∀ gen, consuming sh = some gen → Issues s w sh g (.gtake c d)
      (.gtake (g.act.map fun k => (k, SMap.get 0 gen.srcl ((gen.h + k) % gen.capn)))) false d
      (g.act.map fun k =>
        let va : DWord := BitVec.ofNat 64 (gen.base + 8 * ((gen.h + k) % gen.capn))
        near k va (.spad (s.alloc w).core ((s.alloc w).base + va.toNat)))) ∧
    (consuming sh = none → CanTrap s g → exec (.gtake c d) s = .next (trapped s g .illegal 15 0 g.act fun _ => 0#64)) ∧
    (Full g [(1, false, a)] → Issues s w sh g (.tlbq c d a) .tlbq false d (ls.map fun k => near k (rd64 s g a k) (.spad (wCore w) 0))) ∧
    ((q = false ∨ own = true) → (∀ k ∈ g.act, s.loadMay w sh s.nextId k = true) →
      exec (.rdwp c ch q rank d) s = .next (landed s g c d fun _ => (((s.core (wCore w)).channel ch.toNat).p, 0#7))) ∧
    ((q = false ∨ own = true) → (∃ k ∈ g.act, s.loadMay w sh s.nextId k = false) → Waits s g (.rdwp c ch q rank d) (.loads (laneMask g.act))) ∧
    (q = true → own = false →
      (∀ m wg, s.member w rank.toNat = some (m, wg) →
        Issues s w sh g (.rdwp c ch q rank d) (.rdwp ch.toNat m) false d (ls.map fun k => near k 0#64 (.spad m 0))) ∧
      (s.member w rank.toNat = none → CanTrap s g →
        exec (.rdwp c ch q rank d) s = .next (trapped s g .bounds 3 1 g.act fun _ => 0#64))) ∧
    (sh.localDone = true → exec (.lwait c) s = .next (s.put g (stepLanes g.grp c.yld sh))) ∧
    (sh.localDone = false → ∃ sh' : Sheet, exec (.lwait c) s = .next (s.putSheet w sh') ∧ RegsKept sh sh' ∧
      (∀ k, k ∈ g.grp → (sh'.lane k).wait = .blocked .lwait ∧ (sh'.lane k).pc = (sh.lane k).pc) ∧
      ∀ k, k ∉ g.grp → sh'.lane k = sh.lane k)

/-- R79: an entry that is pushed goes to the oldest reader that still waits, as the data of its lanes, and else stands last in the
queue. -/
def Sys2Proof.Spec.PushedEntriesGoToTheOldestReader : Prop :=
  ∀ (u : Workgroup) (x : DWord),
    (u.popWait.filter u.waits = [] → u.push x = { u with dq := u.dq ++ [x], popWait := [] }) ∧
    (∀ i n rest, u.popWait.filter u.waits = (i, n) :: rest →
      (u.push x).dq = u.dq ∧ (u.push x).popWait = rest ∧ (∀ j, j ≠ i → (u.push x).sheets[j]? = u.sheets[j]?) ∧
      ∀ reader, u.sheets[i]? = some (some reader) → ∃ reader', (u.push x).sheets[i]? = some (some reader') ∧
        reader'.lanes = reader.lanes ∧ reader'.u = reader.u ∧ reader'.sq = reader.sq ∧
        reader'.fills = reader.fills.map fun f =>
          if f.id = n then { f with lanes := f.lanes.map fun y => { y with data := some (leBytes 8 x.toNat) } } else f)

/-- R314, R315, R79, R18: DQPOP completes whatever the queue holds: it takes the oldest entry of its workgroup's queue as the data of its
producer, which holds every executing lane, or waits as the youngest of the queue's readers. DQPUSH, a release at .wg, completes once
its release may perform and the queue has room: it gives its entry to the oldest waiting reader, or puts it last in the queue; while the
queue holds 64 entries its group waits. With no lane executing either only goes on. -/
def Obligations.DecisionQueueIsFirstInFirstOut : Prop :=
  (∀ (s : State) (w : Where) (l : Nat) (sh : Sheet) (c : Ctl) (d a : Opd),
    let g := Grp.of w sh l c
    let on := s.put g (stepLanes g.grp c.yld sh)
    Stands s w l sh →
    (∃ t, exec (.dqpop c d) s = .next t ∧ (g.act = [] → t = on) ∧
      (g.act ≠ [] → ∀ wg, s.wgOf w = some wg → (∀ core slot, w ≠ .front core slot) → ∃ sh' wg', t.sheetAt w = some sh' ∧
        t.wgOf w = some wg' ∧ GoesOn g sh sh' ∧ Emptied sh sh' g.act false d s.nextId ∧ sh'.sq = sh.sq ∧
        sh'.fills = sh.fills ++ [⟨s.nextId, .dqpop, d, g.act.map (fun k => ⟨k, 0#64, .ok (.spad (wCore w) 0) true, false,
          wg.dq.head?.map fun x => leBytes 8 x.toNat⟩), g.pc, s.curWord⟩] ∧
        wg'.dq = wg.dq.drop 1 ∧
        (wg.dq = [] → ∀ core slot idx, w = .sheet core slot idx → wg'.popWait = wg.popWait ++ [(idx, s.nextId)]) ∧
        (wg.dq ≠ [] → wg'.popWait = wg.popWait) ∧
        t.dram = s.dram ∧ t.hostMem = s.hostMem ∧ t.peerMem = s.peerMem)) ∧
    (Full g [(1, false, a)] → s.released w sh g.act .wg = true → (∀ wg, s.wgOf w = some wg → wg.dq.length < 64) →
      exec (.dqpush c a) s = .next (if g.act = [] then on else on.modWgOf w fun u => u.push (rd64 s g a (g.act.headD 0)))) ∧
    (Full g [(1, false, a)] → g.act ≠ [] → s.released w sh g.act .wg = true → (∃ wg, s.wgOf w = some wg ∧ 64 ≤ wg.dq.length) →
      Waits s g (.dqpush c a) .decisions) ∧
    (Full g [(1, false, a)] → g.act ≠ [] → s.released w sh g.act .wg = false → Waits s g (.dqpush c a) (.release (laneMask g.act) .wg))) ∧
  Spec.PushedEntriesGoToTheOldestReader


/-- R104: a block whose scale is zero, infinite or NaN is all zeros with that scale and raises IV in every element; otherwise a block
without outliers holds each element's quotient rounded and kept within ±7, the scale after the nibbles, no outlier and no side entry. At
most four outliers are placed, at rising positions, no two in one pair. -/
def Sys2Proof.Spec.CvtqEncodesItsElements : Prop :=
  ∀ (xs : List QIn) (scale : Nat) (θ : FVal), xs.length = 32 →
    ((bf16.value scale).isNan = true ∨ (∃ neg, bf16.value scale = .inf neg) ∨ (∃ neg e, bf16.value scale = .fin neg 0 e) →
      (qEncode xs scale θ).bytes = List.replicate 16 0#8 ++ leBytes 2 scale ++ [0#8, 0#8] ∧ (qEncode xs scale θ).side = [] ∧
      (qEncode xs scale θ).flags = List.replicate 32 fIV) ∧
    (∀ neg m e, bf16.value scale = .fin neg (m + 1) e → (∀ x ∈ xs, isOutlier (quotient x.x (bf16.value scale)) θ = false) →
      let n (j : Nat) : Nat := ((xs[j]?).map fun x => (BitVec.ofInt 4 (nibbleOf x.mode (quotient x.x (bf16.value scale))).1).toNat).getD 0
      (qEncode xs scale θ).bytes = ((List.range 16).map fun k => BitVec.ofNat 8 (n (2 * k) + 16 * n (2 * k + 1))) ++ leBytes 2 scale ++
        [0#8, 0#8] ∧
      (qEncode xs scale θ).side = [] ∧ (∀ o ∈ (qEncode xs scale θ).outliers, o = false) ∧
      ∀ x ∈ xs, -7 ≤ (nibbleOf x.mode (quotient x.x (bf16.value scale))).1 ∧ (nibbleOf x.mode (quotient x.x (bf16.value scale))).1 ≤ 7) ∧
    (∀ qs : List FVal, let p := (placeOutliers qs xs θ).1.map (·.1)
      p.length ≤ 4 ∧ List.Pairwise (fun a b => a < b ∧ a / 2 ≠ b / 2) p ∧
      ∀ j ∈ p, isOutlier (qs.getD j (.fin false 0 0)) θ = true)

/-- R104, R310, R311: CVTQ encodes the blocks of its executing lanes, queues their bytes for FB's first word and the side list for its
fourth, writes the outlier mask and the side list's length to three W registers, and raises its lanes' flags. A scale of more than 16
bits is ILLEGAL with SLOT 2. -/
def Obligations.CvtqQueuesItsEncodedBlocks : Prop :=
  (∀ (s : State) (w : Where) (l : Nat) (sh : Sheet) (c : Ctl) (sat : Bool) (r : Rnd) (st : Elem) (i : BitVec 8) (ew : Bool) (a b : Opd),
     let g := Grp.of w sh l c
     let ws := rdQuad g b (g.act.headD 0)
     let at0 := (ws.getD 0 0#32).toNat
     let side := (ws.getD 3 0#32).toNat
     let scale := (ws.getD 1 0#32).toNat
     let outs := cvtqBlocks s g sat r st a scale (fp32.value (ws.getD 2 0#32).toNat)
     let bytes := outs.flatMap (·.bytes)
     let entries := (outs.zipIdx).flatMap fun o => o.1.side.map fun e => (32 * o.2 + e.1, e.2)
     let sideBytes := entries.flatMap fun e => leBytes 2 e.1 ++ leBytes 2 e.2
     let al := s.alloc w
     let out := outs.flatMap (·.outliers)
     Stands s w l sh → Full g ((1, false, a) :: runSrcs 2 4 b) → g.act ≠ [] →
     (2 ^ 16 ≤ scale → CanTrap s g → exec (.cvtq c sat r st (.u ew .full i) a b) s = .next (trapped s g .illegal 2 0 g.act fun _ => 0#64)) ∧
     (scale < 2 ^ 16 → al.outside (BitVec.ofNat 64 at0) bytes.length = false →
       (sideBytes = [] ∨ al.outside (BitVec.ofNat 64 side) sideBytes.length = false ∧
         (at0 + bytes.length ≤ side ∨ side + sideBytes.length ≤ at0)) → at0 % 4 = 0 → side % 4 = 0 → sh.lcc < 255 → sh.sqRoom = true →
       ∃ sh' : Sheet, exec (.cvtq c sat r st (.u ew .full i) a b) s =
           .next ({ s with nextId := s.nextId + 1, free := s.free + 2 ^ 23 }.putSheet w sh') ∧
         (∃ e, sh'.sq = sh.sq ++ [e] ∧ e.kind = .cvtq ∧ e.counted = true ∧
           e.lanes.map (fun x => (x.va, x.bytes)) = (BitVec.ofNat 64 at0, bytes) ::
             (if sideBytes = [] then [] else [(BitVec.ofNat 64 side, sideBytes)])) ∧
         (∀ j, sh'.uReg j =
           if j = i.toNat then (sh.uReg j).write .full ((laneMask ((List.range out.length).filter fun k => out.getD k false)).setWidth 32)
           else if j = i.toNat + 1 then
             (sh.uReg j).write .full ((laneMask ((List.range out.length).filter fun k => out.getD k false)).extractLsb' 32 32)
           else if j = i.toNat + 2 then (sh.uReg j).write .full (BitVec.ofNat 32 entries.length) else sh.uReg j) ∧
         (∀ k, (sh'.lane k).astat = if k ∈ g.act then (sh.lane k).astat ||| ((outs.flatMap (·.flags)).getD k 0#7).setWidth 32
           else (sh.lane k).astat) ∧
         (∀ k, (sh'.lane k).pc = if k ∈ g.grp then (sh.lane k).pc + 12#32 else (sh.lane k).pc) ∧
         (∀ k j, sh'.vReg k j = sh.vReg k j) ∧ sh'.fills = sh.fills ∧ sh'.m = sh.m)) ∧
  Spec.CvtqEncodesItsElements

/-! ### Class 0x8: device memory -/

namespace Sys2Proof.Spec

open Sys2Proof Sys2Proof.Machine

/-- Every lane's access is aligned, translates and is permitted, and no translated access is made at level 2, where it would stall the
owner (R230, R330). -/
def Reaches (s : State) (w : Where) (bw : Bool) (acc : Acc) (n : Nat) (aligned : Bool) (va : Nat → DWord) (ls : List Nat) : Prop :=
  (∀ k ∈ ls, aligned = true → (va k).toNat % n = 0) ∧ (∀ k ∈ ls, ∃ t no, s.resolve w bw acc n (va k) = .ok t no) ∧
  (bw = true ∨ ∀ co, w ≠ .handler co 2)

/-- Every lane's access translates to this module's device memory. -/
def ReachesDevice (s : State) (w : Where) (bw : Bool) (acc : Acc) (va : Nat → DWord) (ls : List Nat) : Prop :=
  (∀ k ∈ ls, ∃ pa no, s.resolve w bw acc 1 (va k) = .ok (.dev pa) no) ∧ (bw = true ∨ ∀ co, w ≠ .handler co 2)

/-- A lane of a load that goes through a translation. -/
def farLane (s : State) (w : Where) (bw : Bool) (acc : Acc) (n : Nat) (around : Bool) (k : Nat) (va : DWord) : LaneReq :=
  ⟨k, requestVa bw va, trOf (s.resolve w bw acc n va) around, false, none⟩

/-- A lane of a queue entry that goes through a translation. -/
def farSq (s : State) (w : Where) (bw : Bool) (acc : Acc) (n : Nat) (k : Nat) (va : DWord) (bytes new : List Byte) : SqLane :=
  ⟨k, requestVa bw va, trOf (s.resolve w bw acc n va) bw, false, false, bytes, new⟩

/-- An atomic or fence may go on (R166, R169, R297): it is not ordered, or its thread's queue is empty and its lanes' accesses have
performed, and as a release its earlier stores have been accepted at its scope. -/
def MayOrder (s : State) (w : Where) (sh : Sheet) (g : Grp) (ord : Ord) (sc : Scope) : Prop :=
  ord = .rlx ∨ (sh.sq = [] ∧ sh.quiet g.act = true ∧ (ord = .rel ∨ ord = .ar → s.released w sh g.act sc = true))

/-- The whole group blocks at its word (R54); its registers are as before but for a destination that is marked. -/
def Blocks (g : Grp) (b : Block) (sh sh' : Sheet) : Prop :=
  (∀ k, k ∈ g.grp → (sh'.lane k).wait = .blocked b ∧ (sh'.lane k).pc = (sh.lane k).pc ∧ (sh'.lane k).p = (sh.lane k).p ∧
    laneMode (sh'.lane k) = laneMode (sh.lane k)) ∧
  (∀ k, k ∉ g.grp → uncounted (sh'.lane k) = uncounted (sh.lane k)) ∧ sh'.m = sh.m ∧ sh'.sq = sh.sq ∧ sh'.pairs = sh.pairs ∧ sh'.gen = sh.gen

/-- A lane's address of an atomic: base and the immediate in FD (R294). -/
def atomVa (s : State) (g : Grp) (d a : Opd) (k : Nat) : DWord :=
  rd64 s g a k + (match d with
    | .imm x => x.signExtend 64
    | .limm x => x.signExtend 64
    | _ => 0#64)

end Sys2Proof.Spec


/-- R224, R225, R361: a lane of LD or ST whose address misses joins the miss-table entry of its 64 KiB page, with its address and the
instruction it belongs to; its group goes on, and the requests that waited before stand where they stood. -/
def Sys2Proof.Spec.MissingLanesJoinTheirPage : Prop :=
  ∀ (s : State) (co slot idx l : Nat) (sh : Sheet) (c : Ctl) (acc : Access) (sz : Size) (d a b : Opd),
    let w := Where.sheet co slot idx
    let g := Grp.of w sh l c
    let n := sizeBytes sz
    let va := ea s g a b
    let ls := performers g.act d
    let Joins (i : Instr) (rw : Acc) (of : ReqOf) (xs : List Nat) : Prop :=
      ∃ t sh', exec i s = .next t ∧ t.sheetAt w = some sh' ∧ GoesOn g sh sh' ∧
        (∀ k ∈ xs, s.resolve w false rw n (va k) = .miss → ∃ m ∈ (t.core co).misses, m.page = (va k).toNat / 65536 ∧
          ⟨w, k, va k, accCode rw, 1, of, g.pc, s.curWord⟩ ∈ m.reqs) ∧
        (∀ (i : Nat) (m : MissEntry), (s.core co).misses[i]? = some m →
          ∃ more, (t.core co).misses[i]? = some { m with reqs := m.reqs ++ more }) ∧
        t.dram = s.dram ∧ t.hostMem = s.hostMem ∧ t.peerMem = s.peerMem ∧ t.flights = s.flights ∧ t.engine = s.engine ∧
        (of = .fill s.nextId → ∃ f ∈ sh'.fills, f.id = s.nextId ∧
          ∀ x ∈ f.lanes, (s.resolve w false rw n (va x.lane) = .miss ↔ x.tr = .miss)) ∧
        (of = .store s.nextId → ∃ e ∈ sh'.sq, e.id = s.nextId ∧
          ∀ x ∈ e.lanes, (s.resolve w false rw n (va x.lane) = .miss ↔ x.tr = .miss))
    Stands s w l sh → Full g [(1, false, a), (2, false, b)] → g.act ≠ [] → accBw acc = false → co < s.cores.length →
    (s.core co).misses.length + g.act.length ≤ 256 → (∀ k ∈ g.act, (va k).toNat % n = 0 ∧ (va k).toNat < 2 ^ 48) →
    ((∀ k ∈ ls, s.resolve w false .read n (va k) ≠ .perm) → s.mayAdd co ls.length = true →
      Joins (.ld c acc sz d a b) .read (.fill s.nextId) ls) ∧
    (Full g [(0, sz.quad, d)] → (∀ k ∈ g.act, s.resolve w false .write n (va k) ≠ .perm) → sh.sqRoom = true →
      (∀ sc, accScope acc = some sc → s.released w sh g.act sc = true) → Joins (.st c acc sz d a b) .write (.store s.nextId) g.act)

/-- R329, R330, R331, R360, R361, R312: where every lane's address is aligned, translates and is permitted, LD issues its request and ST and
CWB queue their entry, ST.rel once its release may perform. With the queue full ST waits, and LD where its requests would be more than 1024 of the
core unanswered, but not where none of those can end without another being made (log 55).
Misaligned lanes are ALIGN with SLOT 1; else lanes outside the address space or without permission are PERM with SLOT 1; nothing is
accessed then. -/
def Sys2Proof.Spec.DeviceAccessesIssue : Prop :=
  (∀ (s : State) (w : Where) (l : Nat) (sh : Sheet) (c : Ctl) (acc : Access) (sz : Size) (bw : Bool) (d a b : Opd),
     let g := Grp.of w sh l c
     let n := sizeBytes sz
     let va := ea s g a b
     let ls := performers g.act d
     Stands s w l sh → Full g [(1, false, a), (2, false, b)] → g.act ≠ [] →
     (Reaches s w (accBw acc) .read n true va ls →
       (s.outstanding (wCore w) + ls.length ≤ 1024 ∨ s.someEnd (wCore w) = false → Issues s w sh g (.ld c acc sz d a b) (.ld sz acc) sz.quad d
         (ls.map fun k => farLane s w (accBw acc) .read n (accAround acc) k (va k))) ∧
       (1024 < s.outstanding (wCore w) + ls.length → s.someEnd (wCore w) = true → Waits s g (.ld c acc sz d a b) (.requests ls.length))) ∧
     (Full g [(0, sz.quad, d)] → Reaches s w (accBw acc) .write n true va g.act →
       (∀ sc, accScope acc = some sc → s.released w sh g.act sc = true) →
       (sh.sqRoom = true → Queues s w sh g (.st c acc sz d a b) (.st (accScope acc) (accBw acc)) false
         (g.act.map fun k => farSq s w (accBw acc) .write n k (va k) (storeBytes s g sz d k) [])) ∧
       (sh.sqRoom = false → Waits s g (.st c acc sz d a b) (.room false true))) ∧
     (Reaches s w bw .read 1 false va g.act → sh.sqRoom = true → Queues s w sh g (.cwb c bw a b) .cwb false
       (g.act.map fun k => farSq s w bw .read 1 k (va k) [] [])) ∧
     (CanTrap s g →
       let odd (xs : List Nat) := misaligned n va xs
       let bad (xs : List Nat) := xs.filter fun k => decide (2 ^ 48 ≤ (va k).toNat)
       let np (rw : Acc) (xs : List Nat) := xs.filter fun k => decide (s.resolve w false rw n (va k) = .perm)
       accBw acc = false →
       (odd ls ≠ [] → exec (.ld c acc sz d a b) s = .next (trapped s g .align 1 1 (odd ls) fun k => taddrOf false (va k))) ∧
       (odd ls = [] → bad ls ≠ [] →
         exec (.ld c acc sz d a b) s = .next (trapped s g .perm 1 1 (bad ls) fun k => taddrOf false (va k))) ∧
       (odd ls = [] → bad ls = [] → np .read ls ≠ [] →
         exec (.ld c acc sz d a b) s = .next (trapped s g .perm 1 1 (np .read ls) fun k => taddrOf false (va k))) ∧
       (Full g [(0, sz.quad, d)] → odd g.act ≠ [] →
         exec (.st c acc sz d a b) s = .next (trapped s g .align 1 2 (odd g.act) fun k => taddrOf false (va k))) ∧
       (Full g [(0, sz.quad, d)] → odd g.act = [] → bad g.act ≠ [] →
         exec (.st c acc sz d a b) s = .next (trapped s g .perm 1 2 (bad g.act) fun k => taddrOf false (va k))) ∧
       (Full g [(0, sz.quad, d)] → odd g.act = [] → bad g.act = [] → np .write g.act ≠ [] →
         exec (.st c acc sz d a b) s = .next (trapped s g .perm 1 2 (np .write g.act) fun k => taddrOf false (va k))))) ∧
  Spec.MissingLanesJoinTheirPage

/-- R343: PREF changes no byte of memory and no register, and never stops its group; the line of a lane whose address translates to a live,
unpoisoned device row stands in the core's L1 afterwards, unless the word or the page says that it goes only to the die cache, the controllers'
delays or the owner's tokens hold its request back (R202, R232, log 13), or the L1 is full (log 50). -/
def Obligations.DeviceAccessesIssueJoinOrTrap : Prop :=
  (∀ (s : State) (w : Where) (l : Nat) (sh : Sheet) (c : Ctl) (dc : Bool) (a b : Opd),
    let g := Grp.of w sh l c
    let va := ea s g a b
    Stands s w l sh → Full g [(1, false, a), (2, false, b)] → (∀ co, w ≠ .handler co 2) →
    ∃ t sh', exec (.pref c dc a b) s = .next t ∧ t.sheetAt w = some sh' ∧ GoesOn g sh sh' ∧ RegsKept sh sh' ∧ sh'.sq = sh.sq ∧
      sh'.fills = sh.fills ∧ (∀ p, t.byteAt p = s.byteAt p) ∧ t.flights = s.flights ∧
      (wCore w < s.cores.length → dc = false → s.outstanding (wCore w) + g.act.length ≤ 1024 → s.dram.delays = [] →
        (s.core (wCore w)).l1.length + g.act.length ≤ l1Lines →
        (∀ o, s.owner (s.ownerId w) = some o → o.hbmDry = false ∧ 256 * 128 * (g.act.length : Int) ≤ o.hbm) →
        ∀ k ∈ g.act, ∀ pa place, s.translate (wCore w) .read (va k) = .ok (.dev pa) false → s.prefable (.dev pa) = some (pa, place) →
          (t.core (wCore w)).l1Has pa = true)) ∧
  Spec.DeviceAccessesIssue

/-- R193, R194, R199: PROMOTE, DEMOTE and MADR, with every lane translated to this module's device memory, ask the home controllers and
block their group for the answers; PROMOTE counts one PROMOTE more of its owner at each stack it touches. Where the core may not hold so many
requests more (R331), each waits at its word. DEAD queues the chunks that its lanes name, and traps ALIGN with SLOT 1 where an address is no chunk's start. A lane in host or peer memory, or without permission,
is PERM with SLOT 1 before any lane performs. -/
def Obligations.RowWordsAskTheControllers : Prop :=
  ∀ (s : State) (w : Where) (l : Nat) (sh : Sheet) (c : Ctl) (pin bw : Bool) (d a b : Opd),
    let g := Grp.of w sh l c
    let va := ea s g a b
    let lanes := g.act.map fun k => near k (requestVa bw (va k)) (targetOf s w bw .read (va k))
    let homes := stacksOf s (g.act.map fun k => targetOf s w bw .read (va k))
    Stands s w l sh → Full g [(1, false, a), (2, false, b)] → g.act ≠ [] →
    (ReachesDevice s w bw .read va g.act → s.mayAdd (wCore w) g.act.length = false →
      Waits s g (.promote c pin bw d a b) (.requests g.act.length) ∧ Waits s g (.demote c bw d a b) (.requests g.act.length) ∧
      Waits s g (.madr c bw d a b) (.requests g.act.length)) ∧
    (ReachesDevice s w bw .read va g.act → s.mayAdd (wCore w) g.act.length = true →
      (∃ sh', exec (.demote c bw d a b) s = .next ((numbered s).putSheet w sh') ∧ Blocks g (.answers s.nextId) sh sh' ∧ RegsKept sh sh' ∧
        sh'.fills = sh.fills ++ [⟨s.nextId, .demote, d, lanes, g.pc, s.curWord⟩]) ∧
      (∃ sh', exec (.madr c bw d a b) s = .next ((numbered s).putSheet w sh') ∧ Blocks g (.answers s.nextId) sh sh' ∧ RegsKept sh sh' ∧
        sh'.fills = sh.fills ++ [⟨s.nextId, .madr, d, lanes, g.pc, s.curWord⟩]) ∧
      (∀ o, s.owner (s.ownerId w) = some o → ∃ t sh' o' seqs, exec (.promote c pin bw d a b) s = .next t ∧ t.sheetAt w = some sh' ∧
        Blocks g (.answers s.nextId) sh sh' ∧ RegsKept sh sh' ∧
        sh'.fills = sh.fills ++ [⟨s.nextId, .promote pin seqs, d, lanes, g.pc, s.curWord⟩] ∧ t.owner (s.ownerId w) = some o' ∧
        (∀ st, SMap.get 0 o'.seqs st = SMap.get 0 o.seqs st + (if st ∈ homes then 1 else 0)) ∧
        seqs = homes.map (fun st => (st, SMap.get 0 o.seqs st + 1)) ∧ t.dram = s.dram)) ∧
    (ReachesDevice s w bw .write va g.act → sh.sqRoom = true →
      let odd := g.act.filter fun k => !chunkStart s.variant (targetOf s w bw .write (va k))
      (odd = [] → Queues s w sh g (.dead c bw a b) .dead false (g.act.map fun k => farSq s w bw .write 1 k (va k) [] [])) ∧
      (CanTrap s g → odd ≠ [] → exec (.dead c bw a b) s = .next (trapped s g .align 1 2 odd fun k => taddrOf bw (va k)))) ∧
    (∀ rw : Acc, CanTrap s g →
      let bad := g.act.filter fun k => match s.resolve w bw rw 1 (va k) with
        | .ok (.dev _) _ => false
        | .miss => false
        | _ => true
      bad ≠ [] →
      (rw = .read → exec (.promote c pin bw d a b) s = .next (trapped s g .perm 1 1 bad fun k => taddrOf bw (va k)) ∧
        exec (.demote c bw d a b) s = .next (trapped s g .perm 1 1 bad fun k => taddrOf bw (va k)) ∧
        exec (.madr c bw d a b) s = .next (trapped s g .perm 1 1 bad fun k => taddrOf bw (va k))) ∧
      (rw = .write → exec (.dead c bw a b) s = .next (trapped s g .perm 1 2 bad fun k => taddrOf bw (va k))))

/-! ### Class 0x9: atomics, fences, barriers, the wait on a word -/


/-- R295: what an atomic leaves of the old value and its operand, at 32 or 64 bits: the sum modulo 2^w, the lesser or greater by the sign of
its type, the bitwise results, the operand itself for exch, and for cas the new value exactly where the old one equals the operand. -/
def Sys2Proof.Spec.AtomicsComputeTheirOperation : Prop :=
  ∀ (wide : Bool) (old v new : DWord),
    let w := if wide then 64 else 32
    old.toNat < 2 ^ w → v.toNat < 2 ^ w → new.toNat < 2 ^ w →
    (∀ e : Elem, elemFmt e = none → e.bits = w →
      (atomNew ⟨.add, some e, wide⟩ old v new).toNat = (old.toNat + v.toNat) % 2 ^ w ∧
      (let le : Bool := if elemSigned e then decide ((old.setWidth w).toInt ≤ (v.setWidth w).toInt) else decide (old.toNat ≤ v.toNat)
       atomNew ⟨.min, some e, wide⟩ old v new = (if le then old else v) ∧ atomNew ⟨.max, some e, wide⟩ old v new = (if le then v else old)) ∧
      atomNew ⟨.and, some e, wide⟩ old v new = old &&& v ∧ atomNew ⟨.or, some e, wide⟩ old v new = old ||| v ∧
      atomNew ⟨.xor, some e, wide⟩ old v new = old ^^^ v ∧ atomNew ⟨.exch, some e, wide⟩ old v new = v) ∧
    (atomNew ⟨.cas, none, wide⟩ old v new).toNat = (if old = v then new.toNat else old.toNat) ∧
    (leVal 64 (atomBytes ⟨.cas, none, wide⟩ (leBytes (w / 8) old.toNat) (leBytes (w / 8) v.toNat) (leBytes (w / 8) new.toNat))).toNat =
      (if old = v then new.toNat else old.toNat)

/-- R294 to R297, R349: an atomic whose lanes are aligned, translate and are permitted queues its operation once its order allows; ATOM with a
return destination also issues the producer of the old values. ATOML queues on the workgroup's allocation and counts as a local
operation. FENCE goes on once its order allows, and as an acquire of .quire or wider drops the core's L1. Where the order does not allow
it, each waits at its word. -/
def Obligations.AtomicsFollowTheirOrderAndOperation : Prop :=
  (∀ (s : State) (w : Where) (l : Nat) (sh : Sheet) (c : Ctl) (op : Aop) (ord : Ord) (sc : Scope) (ty : Elem) (d a b : Opd) (x : AtomX),
     let g := Grp.of w sh l c
     let va := atomVa s g d a
     let wide := atomWide64 b x
     let n := if wide then 8 else 4
     let lane (k : Nat) : SqLane := farSq s w false .atomic n k (va k) (atomVal s g wide b k) (atomVal s g wide (atomNewOpd x) k)
     let wideT := atomWide64 b (.ty ty)
     Stands s w l sh → Full g [(1, false, a), (2, false, b), (3, false, atomNewOpd x)] → g.act ≠ [] →
     (MayOrder s w sh g ord sc →
       (Reaches s w false .atomic n true va g.act → sh.sqRoom = true →
         (returns d = false → Queues s w sh g (.atom c op ord sc d a b x) (.atom (atomOpOf op x wide) 0 ord sc) false (g.act.map lane)) ∧
         (returns d = true → ∃ sh', exec (.atom c op ord sc d a b x) s = .next ((numbered (numbered s)).putSheet w sh') ∧ GoesOn g sh sh' ∧
           Emptied sh sh' g.act false d s.nextId ∧
           sh'.fills = sh.fills ++ [⟨s.nextId, .atom, d, g.act.map fun k => near k (va k) (.dev 0), g.pc, s.curWord⟩] ∧
           sh'.sq = sh.sq ++ [⟨s.nextId + 1, .atom (atomOpOf op x wide) s.nextId ord sc, g.act.map lane, false, g.pc, s.curWord⟩])) ∧
       (Reaches s w false .atomic (if wideT then 8 else 4) true va g.act → sh.sqRoom = true →
         Queues s w sh g (.red c op ord sc ty d a b) (.red (atomOpOf op (.ty ty) wideT) ord sc) false
           (g.act.map fun k => farSq s w false .atomic (if wideT then 8 else 4) k (va k) (atomVal s g wideT b k) [])) ∧
       ((∀ co, w ≠ .handler co 2) → pastEnd (s.alloc w) n va g.act = [] → misaligned n va g.act = [] → sh.lcc < 255 → sh.sqRoom = true →
         Queues s w sh g (.atoml c op ord sc d a b x) (.atoml (atomOpOf op x wide) ord sc) true
           (g.act.map fun k => ⟨k, va k, .ok (.spad (s.alloc w).core ((s.alloc w).base + (va k).toNat)) true, false, false,
             atomVal s g wide b k, atomVal s g wide (atomNewOpd x) k⟩)) ∧
       exec (.fence c ord sc) s = .next ((if (ord = .acq ∨ ord = .ar) ∧ scopeFar sc = true then
         s.modCore (wCore w) fun k => { k with l1 := [], acquired := s.nextId } else s).putSheet w (stepLanes g.grp c.yld sh))) ∧
     (¬ MayOrder s w sh g ord sc →
       ∃ on, (on = .clear (laneMask g.act) ∨ on = .release (laneMask g.act) sc) ∧
         (Reaches s w false .atomic n true va g.act → Waits s g (.atom c op ord sc d a b x) on) ∧
         (Reaches s w false .atomic (if wideT then 8 else 4) true va g.act → Waits s g (.red c op ord sc ty d a b) on) ∧
         ((∀ co, w ≠ .handler co 2) → pastEnd (s.alloc w) n va g.act = [] → misaligned n va g.act = [] →
           Waits s g (.atoml c op ord sc d a b x) on) ∧
         Waits s g (.fence c ord sc) on)) ∧
  Spec.AtomicsComputeTheirOperation

/-- R152: ARRIVE_CHECK takes EXPECT from ARRIVE as often as it goes; PHASE flips once for each completed phase, so an odd number leaves it
flipped; EXPECT = 0 flips it once. R151: the 16 bytes of an object read back as its fields, where no AOUT has still to write the scratchpad. -/
def Sys2Proof.Spec.ArrivalsCompletePhases : Prop :=
  ∀ (b : BarObj),
    let r := b.check
    r.1.expect = b.expect ∧ r.1.auto = b.auto ∧ r.1.data = b.data ∧
    (b.expect ≠ 0#32 → r.1.arrive.toNat < b.expect.toNat ∧
      ∃ n, b.arrive.toNat = r.1.arrive.toNat + n * b.expect.toNat ∧ (r.1.phase = xor b.phase (decide (n % 2 = 1))) ∧ (r.2 = true ↔ n ≠ 0)) ∧
    (b.expect = 0#32 → r.1.arrive = 0#32 ∧ r.1.phase = !b.phase ∧ r.2 = true) ∧
    BarObj.of b.bytes = b ∧
    ∀ (s : State) (c a : Nat), (s.core c).outPending = false → (∀ i, i < 16 → (s.core c).imageByte (a + i) = (b.bytes[i]?).getD 0#8) →
      s.barrier c a = (s, b)

/-- R151 to R153, R298, R118: BARI and BARA queue one entry for the object at the lowest executing lane's address; BARI's has the object's new
bytes, and BARA adds its lanes' operands. BARW lets the lanes go on whose bit differs from PHASE and blocks the others. MWAIT empties its destination, blocks its group
and asks for a monitor for each executing lane (R336, R337), or waits where the core may not hold so many requests more (R331). A count of 0 or of 2^31 and more is ILLEGAL with SLOT 0. -/
def Obligations.BarriersAndWaitsStandAtTheirObject : Prop :=
  (∀ (s : State) (w : Where) (l : Nat) (sh : Sheet) (c : Ctl) (sc : Scope) (auto acq : Bool) (d a b : Opd),
     let g := Grp.of w sh l c
     let k0 := g.act.headD 0
     let va := ea s g a b k0
     let al := s.alloc w
     let obj (bytes : List Byte) := nearSq k0 va (.spad al.core (al.base + va.toNat)) bytes
     let known := ((s.wgOf w).map fun wg =>
       ((wg.autoexit.map (fun (o : AutoObj) => o.off) ++ wg.autoSoon).filter fun o => o != va.toNat).eraseDups).getD []
     let count := rd s g false d k0
     Stands s w l sh → Full g [(1, false, a), (2, false, b)] → g.act ≠ [] → (∀ co, w ≠ .handler co 2) →
     (Full g [(0, false, d)] → al.outside va 16 = false → va.toNat % 16 = 0 →
       (sh.lcc < 255 → sh.sqRoom = true →
         (count ≠ 0#32 → count.toNat < 2 ^ 31 → auto = false ∨ known.length < 4 →
           Queues s w sh g (.bari c sc auto d a b) (.bari count auto) true [obj (BarObj.init count auto).bytes]) ∧
         Queues s w sh g (.bara c sc d a b) (.bara (g.act.foldl (fun n k => n + rd s g false d k) 0#32) (laneMask g.act)) true [obj []]) ∧
       (CanTrap s g → count = 0#32 ∨ 2 ^ 31 ≤ count.toNat →
         exec (.bari c sc auto d a b) s = .next (trapped s g .illegal 0 0 [k0] fun _ => 0#64)) ∧
       ((∀ k ∈ g.act, (sh.lane k).pend = false) → sh.sq = [] → (∀ k ∈ g.act, s.loadMay w sh s.nextId k = true) →
         let read := s.barrier al.core (al.base + va.toNat)
         let phase := read.2.phase
         let stays (k : Nat) : Bool := (rd s g false d k).getLsbD 0 == phase
         ∃ sh', exec (.barw c sc d a b) s = .next (read.1.putSheet w sh') ∧ RegsKept sh sh' ∧ sh'.m = sh.m ∧
           (∀ k, k ∈ g.act → stays k = true →
             (sh'.lane k).wait = .blocked (.barw al.core (al.base + va.toNat) phase) ∧ (sh'.lane k).pc = (sh.lane k).pc) ∧
           (∀ k, k ∈ g.grp → k ∉ g.act ∨ stays k = false → sh'.lane k = (sh.lane k).stepOn c.yld) ∧
           ∀ k, k ∉ g.grp → sh'.lane k = sh.lane k)) ∧
     (let wide := decide (opdPart d = .pair)
      let n := if wide then 8 else 4
      Reaches s w false .read n true (fun k => rd64 s g a k) g.act →
      (∀ k ∈ g.act, ∃ pa no, s.translate (wCore w) .read (rd64 s g a k) = .ok (.dev pa) no) →
      let cmp := g.act.map fun k => (k, leVal 64 (atomVal s g wide b k))
      (s.mayAdd (wCore w) g.act.length = false → Waits s g (.mwait c acq sc d a b) (.requests g.act.length)) ∧
      (s.mayAdd (wCore w) g.act.length = true → ∃ sh', exec (.mwait c acq sc d a b) s = .next ({ s with
          nextId := s.nextId + 1,
          monitors := s.monitors ++ cmp.map fun (y : Nat × DWord) => (⟨wCore w, w, y.1, s.nextId, 0, wide, y.2, false, none, acq, sc⟩ : Monitor) }.putSheet w sh') ∧
        Blocks g (.mwait s.nextId) sh sh' ∧ Emptied sh sh' g.act false d s.nextId ∧
        sh'.fills = sh.fills ++ [⟨s.nextId, .mwait wide cmp acq sc, d,
          g.act.map fun k => ⟨k, rd64 s g a k, trOf (s.translate (wCore w) .read (rd64 s g a k)) true, false, none⟩, g.pc, s.curWord⟩]))) ∧
  Spec.ArrivalsCompletePhases

/-! ### Class 0xA and 0xB: the matrix queue, copies and transforms -/

namespace Sys2Proof.Spec

open Sys2Proof Sys2Proof.Machine

/-- A group goes on: its lanes stand at the next word, and no lane's predicates, temporaries, modes, status or pending trap change, nor the
sheet's masks, generator, store queue and producers. -/
def Advanced (g : Grp) (sh sh' : Sheet) : Prop :=
  (∀ k, (sh'.lane k).pc = if k ∈ g.grp then (sh.lane k).pc + 12#32 else (sh.lane k).pc) ∧
  (∀ k, (sh'.lane k).p = (sh.lane k).p ∧ (sh'.lane k).t = (sh.lane k).t ∧ laneMode (sh'.lane k) = laneMode (sh.lane k) ∧
    (sh'.lane k).astat = (sh.lane k).astat ∧ (sh'.lane k).pend = (sh.lane k).pend) ∧
  sh'.m = sh.m ∧ sh'.gen = sh.gen ∧ sh'.sq = sh.sq ∧ sh'.fills = sh.fills ∧ sh'.pairs = sh.pairs

/-- Device, host and peer memory, and what is on its way to them, are as before. -/
def MemoryKept (s t : State) : Prop :=
  t.dram = s.dram ∧ t.hostMem = s.hostMem ∧ t.peerMem = s.peerMem ∧ t.flights = s.flights ∧ t.engine = s.engine ∧
  (∀ k, (t.core k).spad = (s.core k).spad ∧ (t.core k).acc = (s.core k).acc ∧ (t.core k).mould = (s.core k).mould)

/-- A matrix word joins its core's queue with the workgroup's next ticket, which it writes to FD; `take` arrivals of MRDY are consumed (R125,
R126). -/
def QueuesMatrix (s : State) (co slot : Nat) (sh : Sheet) (g : Grp) (wg : Workgroup) (i : Instr) (d : Opd) (op : MatrixOp) (mode : Rnd)
    (sat : Bool) (take : Nat) : Prop :=
  let ticket := if wg.issued = 2 ^ 32 - 1 then 1 else wg.issued + 1
  ∃ t sh' wg', exec i s = .next t ∧ t.sheetAt g.w = some sh' ∧ t.wgOf g.w = some wg' ∧ Advanced g sh sh' ∧ MemoryKept s t ∧
    (∀ j, sh'.uReg j = uAfter d j (BitVec.ofNat 64 ticket) (sh.uReg j)) ∧ (∀ k j, sh'.vReg k j = sh.vReg k j) ∧
    (t.core co).mq = (s.core co).mq ++ [⟨slot, ticket, op, mode, sat, 0, false, false, 0#32⟩] ∧
    wg'.issued = ticket ∧ wg'.orc = wg.orc - take ∧ wg'.agw = (if wg.orc - take = 0 ∧ 0 < take then none else wg.agw)

end Sys2Proof.Spec

/-- R125 to R127, R129, R133, R134: with a descriptor inside its limits and within its allocation and the owner's limits, MLOOP, ACLR and AOUT
each join the matrix queue with the next ticket, MLOOP consuming its arrivals of MRDY; a full queue or missing arrivals make them wait. -/
def Obligations.MatrixWordsJoinTheQueue : Prop :=
  ∀ (s : State) (co slot l : Nat) (sh : Sheet) (c : Ctl) (steps : BitVec 8) (i32 rl : Bool) (dt : OutTy) (r : Rnd) (i : BitVec 8) (ew : Bool)
    (d a b x : Opd) (wg : Workgroup),
    let w := Where.front co slot
    let g := Grp.of w sh l c
    let at_ := Opd.u ew .full i
    let v (k : Nat) : Word := (sh.uReg (i.toNat + k)).val
    let n := steps.toNat + 1
    let rm := (sh.lane (g.act.headD 0)).rm
    let fw := rd s g false b (g.act.headD 0)
    let want := (rd s g false x (g.act.headD 0)).toNat
    let boff := (v 7).toNat % 65536
    let binc := ((v 7).extractLsb' 16 16).toInt
    let full := 16 ≤ (s.core co).mq.length
    Stands s w l sh → s.wgOf w = some wg → g.act ≠ [] → (∃ j e p, d = .u e p j) →
    (Full g (descSrcs at_ ++ [(2, false, b), (3, false, x)]) → want ≤ 16 →
      mloopDescOk (v 0) (v 1) (v 2) (v 3) (v 4) (v 5) (v 6) (v 7) = true → fwOk fw = true →
      bOutside 65536 n (v 2).toNat boff binc fw = false → bOutside (s.mouldMax w) n (v 2).toNat boff binc fw = false →
      aOutside wg.spadSize n (v 0).toNat (v 2).toNat (v 4).toNat (v 5).toNat (v 6).toInt fw = none →
      (v 3).toNat + (v 0).toNat ≤ s.accMax w →
      (full ∨ wg.orc < want → Waits s g (.mloop c steps d at_ b x) (.matrix want)) ∧
      (¬ full → want ≤ wg.orc → want = 0 ∨ wg.agw = some fw →
        QueuesMatrix s co slot sh g wg (.mloop c steps d at_ b x) d (.mloop n (v 0).toNat (v 1).toNat (v 2).toNat (v 3).toNat (v 4).toNat
          (v 5).toNat boff (v 6).toInt binc fw) (rmode .dyn rm) false want)) ∧
    (Full g [(1, false, a), (2, false, b)] →
      let row := (rd s g false a (g.act.headD 0)).toNat
      let rows := fw.toNat
      1 ≤ rows → row + rows ≤ 3072 → row + rows ≤ s.accMax w →
      (full → Waits s g (.aclr c d a b) (.matrix 0)) ∧ (¬ full → QueuesMatrix s co slot sh g wg (.aclr c d a b) d (.aclr row rows) .rne false 0)) ∧
    (Full g (descSrcs at_) → aoutDescOk (v 0) (v 1) (v 2) (v 3) (v 4) (v 6) (v 7) (outBytes dt) = true →
      (v 3).toNat + ((v 1).toNat - 1) * (v 4).toNat + (v 2).toNat * outBytes dt ≤ wg.spadSize →
      v 6 = 0xFFFFFFFF#32 ∨ (v 6).toNat + 4 * (v 2).toNat ≤ wg.spadSize → (v 0).toNat + (v 1).toNat ≤ s.accMax w →
      (full → Waits s g (.aout c i32 dt rl r d at_) (.matrix 0)) ∧
      (¬ full → QueuesMatrix s co slot sh g wg (.aout c i32 dt rl r d at_) d (.aout (v 0).toNat (v 1).toNat (v 2).toNat (v 3).toNat (v 4).toNat
        (v 5) (v 6) i32 dt rl) (rmode r rm) (saton false rm) 0))


/-- R111, R130: one K-step of a loop on floats puts into each element of its M rows and N columns the element rounded with the step's exact
sum (INT8 steps: R112, with the multiply words). No other element, and no byte of the scratchpad or mould,
changes. A's bytes are those of the scratchpad as the array finds it (R128). -/
def Sys2Proof.Spec.MatrixStepAccumulatesProducts : Prop :=
  ∀ (k : Core) (pad : Memory) (base m n depth acc abase astride boff : Nat) (ainc binc : Int) (fw : Word) (mode : Rnd) (st : Nat),
    let r := mloopStep k pad base m n depth acc abase astride boff ainc binc fw mode st
    let aRow (i : Nat) : List Byte := pad.read ((base : Int) + aStart abase astride ainc i st).toNat (aBytes fw depth st)
    let bCol (j : Nat) : List Byte := k.mould.read (j * 65536 + (bStart boff binc st).toNat) (bBytes fw depth st)
    n ≤ 256 → stepLen fw depth st ≠ 0 →
    (∀ i j, j < 256 → ¬ (acc ≤ i ∧ i < acc + m ∧ j < n) → r.1.accAt i j = k.accAt i j) ∧
    (r.1.spad = k.spad ∧ r.1.mould = k.mould ∧ r.1.wgs = k.wgs ∧ r.1.mq = k.mq) ∧
    (fwA fw ≠ 4 → fwB fw ≠ 5 → ∀ i j, i < m → j < n →
      r.1.accAt (acc + i) j = (accFloat mode (!fw16 (fwA fw)) (k.accAt (acc + i) j) (fwElems (fwA fw) (aRow i)) (fwElems (fwB fw) (bCol j))).1 ∧
      r.2 &&& (accFloat mode (!fw16 (fwA fw)) (k.accAt (acc + i) j) (fwElems (fwA fw) (aRow i)) (fwElems (fwB fw) (bCol j))).2 =
        (accFloat mode (!fw16 (fwA fw)) (k.accAt (acc + i) j) (fwElems (fwA fw) (aRow i)) (fwElems (fwB fw) (bCol j))).2)

/-- R124, R127: MRDY takes its vote at once: a word that differs from the one agreed on is FMTDIV with SLOT 1 and the lanes that differ.
Once every earlier store of its sheet has been accepted and the lanes' loads have performed it counts one arrival of its workgroup with
the word of the vote; until then its group blocks (the whole group: log 24). MSYNC goes on where every operation with its ticket or an earlier one has completed,
and else blocks its executing lanes alone. -/
def Obligations.ArrivalsTicketsAndStepsOfTheMatrix : Prop :=
  (∀ (s : State) (w : Where) (l : Nat) (sh : Sheet) (c : Ctl) (a : Opd) (wg : Workgroup),
     let g := Grp.of w sh l c
     let x := rd s g false a
     let t := x (g.act.headD 0)
     let ref := wg.agw.getD t
     Stands s w l sh → s.wgOf w = some wg → g.inHandler = false → Full g [(1, false, a)] → g.act ≠ [] →
     ((∀ k ∈ g.act, x k = ref) → sh.sq = [] → (∀ f ∈ s.flights, f.who ≠ w) → (∀ k ∈ g.act, sh.loadsDone s.nextId k = true) → wg.orc < 255 →
       ∃ t sh' wg', exec (.mrdy c a) s = .next t ∧ t.sheetAt w = some sh' ∧ t.wgOf w = some wg' ∧ Advanced g sh sh' ∧ RegsKept sh sh' ∧
         wg'.orc = wg.orc + 1 ∧ wg'.agw = some ref ∧ MemoryKept s t) ∧
     ((∀ k ∈ g.act, x k = ref) → s.mrdyMay w sh s.nextId g.act = false →
       ∃ sh', exec (.mrdy c a) s = .next (s.putSheet w sh') ∧ Blocks g (.mrdy ref s.nextId g.act) sh sh' ∧ RegsKept sh sh' ∧
         sh'.fills = sh.fills) ∧
     (CanTrap s g → (∃ k ∈ g.act, x k ≠ ref) →
       exec (.mrdy c a) s = .next (trapped s g .fmtdiv 1 0 (g.act.filter fun k => x k != ref) fun _ => 0#64)) ∧
     (∀ slot, s.wgSlot w = some slot →
       (msyncMet (s.core (wCore w)) slot wg t = true → exec (.msync c a) s = .next (s.put g (stepLanes g.grp c.yld sh))) ∧
       (msyncMet (s.core (wCore w)) slot wg t = false →
         ∃ sh', exec (.msync c a) s = .next (s.putSheet w sh') ∧ RegsKept sh sh' ∧ sh'.fills = sh.fills ∧ sh'.sq = sh.sq ∧ sh'.m = sh.m ∧
           (∀ k ∈ g.act, (sh'.lane k).wait = .blocked (.msync t) ∧ (sh'.lane k).pc = (sh.lane k).pc) ∧
           (∀ k ∈ g.grp, k ∉ g.act → sh'.lane k = (sh.lane k).stepOn c.yld) ∧ ∀ k, k ∉ g.grp → sh'.lane k = sh.lane k))) ∧
  Spec.MatrixStepAccumulatesProducts


/-- R306: the checks of a COPY in their order, each with its cause, SLOT and access: a channel bound to a ring, a length of 0, a panel length
that is no whole number of rows, misaligned sides under CVT, a host side without bit 63, a rank without a member, a scratchpad side
outside its allocation, with the SLOT 1 of R139. The access and address of its ILLEGAL and ALIGN traps (none: ACCESS and taddr 0) are log 27's, of a
bad rank's log 53's. -/
def Sys2Proof.Spec.CopyChecksComeInTheirOrder : Prop :=
  ∀ (kind : CopyKind) (conv : Option (Elem × Elem)) (f : Panel) (bound : Bool) (dst src len : DWord) (al : Alloc) (peer : Option Alloc)
    (mouldMax : Nat),
    let st := (conv.map fun e => e.2.bits / 8).getD 1
    let dt := (conv.map fun e => e.1.bits / 8).getD 1
    let r := copyCheck kind conv f bound dst src len al peer mouldMax
    let sized := len ≠ 0#64 ∧ (kind = .sm → len.toNat % panelRow f dst.toNat = 0)
    let even_ := dst.toNat % dt = 0 ∧ src.toNat % st = 0 ∧ len.toNat % st = 0
    (bound = true → r = some ⟨.illegal, 15, none, 0#64⟩) ∧
    (bound = false → ¬ sized → r = some ⟨.illegal, 2, none, 0#64⟩) ∧
    (bound = false → sized → ¬ even_ → ∃ slot, r = some ⟨.align, slot, none, 0#64⟩ ∧
      slot = if dst.toNat % dt ≠ 0 then 0 else if src.toNat % st ≠ 0 then 1 else 2) ∧
    (bound = false → sized → even_ →
      (kind = .hd → src.getLsbD 63 = false → r = some ⟨.perm, 1, some .read, src⟩) ∧
      (kind = .dh → dst.getLsbD 63 = false → r = some ⟨.perm, 0, some .write, dst⟩) ∧
      (kind = .qs ∨ kind = .sq → peer = none → r = some ⟨.bounds, 3, some .read, 0#64⟩) ∧
      (kind = .sd → al.outside src len.toNat = true → r = some ⟨.bounds, 1, some .read, src⟩) ∧
      (kind = .ds → al.outside dst (len.toNat / st * dt) = true → r = some ⟨.bounds, 1, some .write, dst⟩) ∧
      (kind = .hd ∧ src.getLsbD 63 = true ∨ kind = .dh ∧ dst.getLsbD 63 = true ∨ kind = .sd ∧ al.outside src len.toNat = false ∨
        kind = .ds ∧ al.outside dst (len.toNat / st * dt) = false → r = none))

/-- R306, R147, R154: COPY and XFORM, once their checks pass and their queue has room, stand last in the queue with the operands and modes
sampled at issue; a full queue (8 entries) makes them wait. -/
def Obligations.CopiesAndTransformsQueueAfterTheirChecks : Prop :=
  (∀ (s : State) (w : Where) (l : Nat) (sh : Sheet) (c : Ctl) (ch : BitVec 4) (kind : CopyKind) (conv : Option (Elem × Elem)) (rank : BitVec 2)
     (f : Panel) (op : Xop) (r : Rnd) (d a b x : Opd) (slot : Nat),
     let g := Grp.of w sh l c
     let k := g.act.headD 0
     let co := wCore w
     let rm := (sh.lane k).rm
     let al := s.alloc w
     let peer := s.reach w true rank.toNat
     let dst := rd64 s g d k
     let src := rd64 s g a k
     let len := rd s g false b k
     let y (o : Opd) : Nat := (rd s g false o k).toNat
     Stands s w l sh → g.act ≠ [] → co < s.cores.length →
     (Full g [(0, false, d), (1, false, a), (2, false, b)] →
       copyCheck kind conv f (s.flowOn co ch.toNat) dst src (len.setWidth 64) al peer (s.mouldMax w) = none →
       (8 ≤ ((s.core co).channel ch.toNat).q.length → Waits s g (.copy c ch kind conv rank f d a b) (.channel ch.toNat)) ∧
       (((s.core co).channel ch.toNat).q.length < 8 → ch.toNat < (s.core co).channels.length →
         ∃ t sh' j, exec (.copy c ch kind conv rank f d a b) s = .next t ∧ t.sheetAt w = some sh' ∧ Advanced g sh sh' ∧ RegsKept sh sh' ∧
           MemoryKept s t ∧ ((t.core co).channel ch.toNat).q = ((s.core co).channel ch.toNat).q ++ [j] ∧
           ((t.core co).channel ch.toNat).p = ((s.core co).channel ch.toNat).p ∧
           (∀ other, other ≠ ch.toNat → (t.core co).channel other = (s.core co).channel other) ∧
           j.who = w ∧ j.lane = k ∧ j.kind = kind ∧ j.conv = conv ∧ j.f = f ∧ j.dst = dst ∧ j.src = src ∧ j.len = len.toNat ∧ j.got = 0 ∧
           j.rnd = rmode .dyn rm ∧ j.sat = saton false rm ∧ j.base = al.base ∧ j.started = false ∧ j.held = none ∧
           j.issuer = true)) ∧
     (Full g [(0, false, d), (1, false, a), (2, false, b), (3, false, x)] → s.wgSlot w = some slot → y d % 64 = 0 → y a % 64 = 0 → y b % 16 = 0 →
       al.outside (BitVec.ofNat 64 (y d)) 64 = false → al.outside (BitVec.ofNat 64 (y a)) 64 = false →
       al.outside (BitVec.ofNat 64 (y b)) 16 = false →
       (8 ≤ (s.core co).xq.length → Waits s g (.xform c op r d a b x) .transforms) ∧
       ((s.core co).xq.length < 8 → ∃ t sh', exec (.xform c op r d a b x) s = .next t ∧ t.sheetAt w = some sh' ∧ Advanced g sh sh' ∧
         RegsKept sh sh' ∧ MemoryKept s t ∧
         (t.core co).xq = (s.core co).xq ++ [⟨slot, op, rmode r rm, saton false rm, y d, y a, y b, y x, false⟩]))) ∧
  Spec.CopyChecksComeInTheirOrder

/-! ### Class 0xC and 0xD: generators, spawning, launches -/

namespace Sys2Proof.Spec

open Sys2Proof Sys2Proof.Machine

/-- Every lane of the sheet starts or ends as a generator's completion says: the lanes live at GENB go on at the join point as one group. -/
def Completed (gen : Gen) (sh sh' : Sheet) : Prop :=
  sh'.gen = none ∧ ∀ k, k < sh.lanes.length →
    (sh'.lane k).live = gen.opened.getLsbD k ∧ (sh'.lane k).pc = gen.join ∧ (sh'.lane k).wait = .ready

/-- A consumer round of `n` entries begins: lanes 0 to n - 1 stand at CENT as one group and no other lane runs. -/
def RoundStarts (gen : Gen) (n : Nat) (sh sh' : Sheet) : Prop :=
  (∃ gen', sh'.gen = some gen' ∧ gen'.body = .consumer ∧ gen'.cr = n) ∧
  ∀ k, k < sh.lanes.length → if k < n then (sh'.lane k).live = true ∧ (sh'.lane k).pc = gen.cent ∧ (sh'.lane k).wait = .ready
    else (sh'.lane k).wait = .parked

/-- Registers, masks, queue and producers of a sheet are as before. -/
def StoresKept (sh sh' : Sheet) : Prop :=
  RegsKept sh sh' ∧ sh'.m = sh.m ∧ sh'.sq = sh.sq ∧ sh'.fills = sh.fills ∧ sh'.pairs = sh.pairs ∧ sh'.width = sh.width

end Sys2Proof.Spec

/-- R87: GENB, once every live lane of a sheet without a generator stands at it, opens one: the join point after its trailer, the two
entries at their displacements from it, an empty felt of (CAP + 1) × width entries at BASE; all live lanes go on at the producer entry. It
blocks its lanes until the others have come; with a generator active, or with k above C − 2, it is ILLEGAL, with SLOT 15 (log 26). -/
def Sys2Proof.Spec.GenbOpensAGenerator : Prop :=
  ∀ (s : State) (w : Where) (l : Nat) (sh : Sheet) (c : Ctl) (cap : BitVec 3) (k : BitVec 8) (a : Opd) (prod cons : BitVec 14),
    let g := Grp.of w sh l c
    let i := Instr.genb c cap k a (.imm prod) (.imm cons)
    let base := rd s g false a (sh.liveLanes.headD 0)
    let come := ∀ j ∈ sh.liveLanes, j ∈ g.grp ∨ ((sh.lane j).pc = g.pc ∧ (sh.lane j).wait = .blocked .genb)
    let capn := (cap.toNat + 1) * sh.width
    Stands s w l sh → (CanTrap s g → sh.gen.isSome = true ∨ sh.c < k.toNat + 2 →
      exec i s = .next (trapped s g .illegal 15 0 g.grp fun _ => 0#64)) ∧
    (sh.gen = none → k.toNat + 2 ≤ sh.c → Full g [(1, false, a)] →
      (¬ come → ∃ sh', exec i s = .next (s.putSheet w sh') ∧ StoresKept sh sh' ∧ sh'.gen = none ∧
        ∀ j ∈ g.act, (sh'.lane j).wait = .blocked .genb ∧ (sh'.lane j).pc = g.pc) ∧
      (come → base.toNat % 8 = 0 → base.toNat + 8 * capn ≤ (s.alloc w).size →
        ∃ sh' gen, exec i s = .next (s.putSheet w sh') ∧ StoresKept sh sh' ∧ sh'.gen = some gen ∧
          gen.join = g.pc + 24#32 ∧ gen.pent = gen.join + 12#32 * prod.signExtend 32 ∧ gen.cent = gen.join + 12#32 * cons.signExtend 32 ∧
          gen.base = base.toNat ∧ gen.k = k.toNat ∧ gen.capn = capn ∧ gen.y = 0 ∧ gen.h = 0 ∧ gen.f = 0 ∧ gen.cr = 0 ∧ gen.ended = 0#64 ∧
          gen.a = sh.liveLanes.length ∧ gen.body = .producer ∧ gen.opened = laneMask sh.liveLanes ∧
          (∀ j ∈ sh.liveLanes, (sh'.lane j).pc = gen.pent ∧ (sh'.lane j).wait = .ready ∧ (sh'.lane j).p = (sh.lane j).p) ∧
          ∀ j, j ∉ sh.liveLanes → sh'.lane j = sh.lane j))


/-- R91, R92: GEND.p parks its executing lanes and takes them from A; with entries left and no producer a switch is pending, and with neither
the generator completes. The waits on the masks and members of its sheet look again then (R72, R94). GEND.c ends the round once all its lanes stand at one GEND.c and no GTAKE of it is in flight: its entries are released,
and another round, the producer body or the join point follows. -/
def Sys2Proof.Spec.GendDecidesWhatFollows : Prop :=
  ∀ (s : State) (w : Where) (l : Nat) (sh : Sheet) (c : Ctl) (gen : Gen),
    let g := Grp.of w sh l c
    Stands s w l sh → 0 < sh.width →
    (producing sh = some gen → g.act ≠ [] →
      let left := gen.a - g.act.length
      ∃ sh', exec (.gend c false) s = .next (s.putSheet w (xSettle s w (s.settled sh'))) ∧ StoresKept sh sh' ∧
        (left = 0 ∧ gen.f = 0 → Completed gen sh sh') ∧
        (¬ (left = 0 ∧ gen.f = 0) → (∃ gen', sh'.gen = some gen' ∧ gen'.a = left ∧ gen'.ended = gen.ended ||| laneMask g.act ∧ gen'.f = gen.f ∧
            gen'.body = if sh.width ≤ gen.f ∨ left = 0 then .switching else gen.body) ∧
          (∀ j ∈ g.act, (sh'.lane j).wait = .parked ∧ (sh'.lane j).pc = (sh.lane j).pc) ∧
          (∀ j ∈ g.grp, j ∉ g.act → sh'.lane j = (sh.lane j).stepOn c.yld) ∧ ∀ j, j ∉ g.grp → sh'.lane j = sh.lane j)) ∧
    (consuming sh = some gen →
      let come := (∀ j, j < gen.cr → (j ∈ g.grp ∨ (sh.lane j).wait = .blocked .gendc) ∧ (sh.lane j).pc = (sh.lane 0).pc) ∧ ∀ f ∈ sh.fills, ∀ srcs, f.kind ≠ .gtake srcs
      let left := gen.f - gen.cr
      ∃ sh', exec (.gend c true) s = .next (s.putSheet w sh') ∧ StoresKept sh sh' ∧
        (¬ come → sh'.gen = sh.gen ∧ ∀ j ∈ g.grp, (sh'.lane j).wait = .blocked .gendc ∧ (sh'.lane j).pc = (sh.lane j).pc) ∧
        (come → sh.width ≤ left ∨ gen.a = 0 ∧ 0 < left → RoundStarts gen (min left sh.width) sh sh' ∧
          ∃ gen', sh'.gen = some gen' ∧ gen'.f = left ∧ gen'.h = (gen.h + gen.cr) % gen.capn) ∧
        (come → left < sh.width → 0 < gen.a → (∃ gen', sh'.gen = some gen' ∧ gen'.body = .producer ∧ gen'.resume = true ∧ gen'.f = left ∧
          gen'.h = (gen.h + gen.cr) % gen.capn) ∧ ∀ j, j < sh.lanes.length → (sh'.lane j).wait = .parked) ∧
        (come → left = 0 → gen.a = 0 → Completed gen sh sh'))

/-- R85, R89, R92: GYLD in the producer body appends one entry for each executing lane, in ascending order, at the felt's next slots, with its
value and tag, and notes the lane as the slot's source; a switch is pending once a sheet's width of entries is there or no producer
is left. An append that would overflow makes the group wait with the switch pending. Outside the producer body GYLD is ILLEGAL in its
executing lanes, and with none it only goes on (log 26). -/
def Obligations.GeneratorsOpenMoveAndEnd : Prop :=
  ((∀ (s : State) (w : Where) (l : Nat) (sh : Sheet) (c : Ctl) (a b : Opd),
     let g := Grp.of w sh l c
     let n := g.act.length
     Stands s w l sh →
     (producing sh = none → (CanTrap s g → g.act ≠ [] → exec (.gyld c a b) s = .next (trapped s g .illegal 15 0 g.act fun _ => 0#64)) ∧
       (g.act = [] → exec (.gyld c a b) s = .next (s.put g (stepLanes g.grp c.yld sh)))) ∧
     (∀ gen, producing sh = some gen → Full g [(1, false, a), (2, false, b)] →
       let slot (i : Nat) : Nat := (gen.y + i) % gen.capn
       (gen.capn < gen.f + n →
         exec (.gyld c a b) s = .next (s.put g (waitHere g (.felt n) { sh with gen := some { gen with body := .switching } }))) ∧
       (gen.f + n ≤ gen.capn → 0 < n → sh.sqRoom = true →
         ∃ sh' gen' e, exec (.gyld c a b) s = .next ((numbered s).putSheet w sh') ∧ sh'.gen = some gen' ∧ sh'.sq = sh.sq ++ [e] ∧
           RegsKept sh sh' ∧ sh'.fills = sh.fills ∧ e.id = s.nextId ∧ e.kind = .gyld ∧
           e.lanes.map (fun x => (x.lane, x.va, x.bytes)) = g.act.zipIdx.map (fun p =>
             (p.1, BitVec.ofNat 64 (gen.base + 8 * slot p.2), leBytes 4 (rd s g false a p.1).toNat ++ leBytes 4 (rd s g false b p.1).toNat)) ∧
           gen'.f = gen.f + n ∧ gen'.y = gen.y + n ∧ gen'.a = gen.a ∧ gen'.h = gen.h ∧
           (∀ i, i < n → SMap.get 0 gen'.srcl (slot i) = g.act.getD i 0) ∧
           gen'.body = (if sh.width ≤ gen.f + n ∨ gen.a = 0 then .switching else gen.body) ∧
           ∀ j, sh'.lane j = if j ∈ g.grp then (sh.lane j).stepOn c.yld else sh.lane j))) ∧
  Spec.GendDecidesWhatFollows) ∧
  Spec.GenbOpensAGenerator

/-- R356, R357, R75: SPAWN accepts its executing lanes in ascending order while the vat has room and the key finds a bin; its predicate is set
in accepted lanes and cleared in refused ones, and the accepted lanes' records form one queue entry. -/
def Obligations.SpawnAcceptsInLaneOrder : Prop :=
  ∀ (s : State) (co slot idx l : Nat) (sh : Sheet) (c : Ctl) (n : BitVec 3) (j : BitVec 6) (a : Opd) (disp : BitVec 14) (wg : Workgroup),
    let w := Where.sheet co slot idx
    let g := Grp.of w sh l c
    let entry := g.pc + 12#32 + 12#32 * disp.signExtend 32
    let key := (sh.width, sh.c, sh.code)
    let room := (s.pendingCore co).spawnRoom wg entry key g.act.length
    let ok := g.act.take room
    let i := Instr.spawn c n (.p j) a (.imm disp)
    Stands s w l sh → s.wgOf w = some wg → Full g (recordSrcs a (n.toNat + 1)) → g.act ≠ [] →
    (sh.sqRoom = false → Waits s g i (.room false true)) ∧
    (sh.sqRoom = true → ∃ sh' more, exec i s = .next ((if ok = [] then s else numbered s).putSheet w sh') ∧ RegsKept sh sh' ∧
      sh'.m = sh.m ∧ sh'.fills = sh.fills ∧ sh'.sq = sh.sq ++ more ∧
      (ok = [] → more = []) ∧
      (ok ≠ [] → ∃ e, more = [e] ∧ e.id = s.nextId ∧ e.kind = .spawn entry sh.width sh.c sh.code ∧ e.counted = false ∧
        e.lanes.map (fun x => (x.lane, x.bytes)) = ok.map fun k => (k, (recordWords sh k a (n.toNat + 1)).flatMap fun x => leBytes 4 x.toNat)) ∧
      (∀ k q, (sh'.lane k).pRead q = if k ∈ g.act ∧ q = j.toNat ∧ q ≠ 63 then decide (k ∈ ok) else (sh.lane k).pRead q) ∧
      ∀ k, (sh'.lane k).pc = if k ∈ g.grp then (sh.lane k).pc + 12#32 else (sh.lane k).pc)

/-- R252, R244, R251, R253: LAUNCH reads its packet from the allocation, as a release at .dev; a packet that the checks refuse writes its status to
sd and creates nothing; otherwise the launch is recorded with its quires to be placed, stands last in the core's launch queue, and sd is
0. A full queue first hands off the launches that its core cannot place in its own quire; one that is still full makes LAUNCH wait. -/
def Sys2Proof.Spec.LaunchCreatesOrRefuses : Prop :=
  ∀ (s : State) (co slot l : Nat) (sh : Sheet) (c : Ctl) (i : BitVec 8) (ew : Bool) (a b : Opd) (o : Owner),
    let w := Where.front co slot
    let g := Grp.of w sh l c
    let k := g.act.headD 0
    let va := ea s g a b k
    let al := s.alloc w
    let at_ := Target.spad al.core (al.base + va.toNat)
    let pkt := s.coreBytes co at_ 64
    let st := launchStatus o pkt
    let p := launchFields pkt
    let d := Opd.u ew .full i
    Stands s w l sh → s.ownerOf w = some o → Full g [(1, false, a), (2, false, b)] → g.act ≠ [] → al.outside va 64 = false → va.toNat % 64 = 0 →
    s.released w sh g.act .dev = true → (s.core al.core).outBusy (al.base + va.toNat) 64 = false →
    (st ≠ 0 → exec (.launch c d a b) s = .next (s.putSheet w (stepLanes g.grp c.yld (wr g.act d k (BitVec.ofNat 64 st) sh)))) ∧
    let handed := ((s.handOff co).core co).launchQ
    let queue := if 16 ≤ (s.core co).launchQ.length then handed else (s.core co).launchQ
    (st = 0 → 16 ≤ handed.length → Waits s g (.launch c d a b) .launches) ∧
    (st = 0 → handed.length < 16 → ∃ t la, exec (.launch c d a b) s = .next t ∧
      t.sheetAt w = some (stepLanes g.grp c.yld (wr g.act d k 0#64 sh)) ∧
      t.launches = s.launches ++ [la] ∧ la.owner = o.id ∧ la.pkt = p ∧ la.unplaced = List.range (p.units / p.qn) ∧ la.units = p.units ∧
      la.status = 0 ∧ la.ended = false ∧ la.queue = none ∧ (t.core co).launchQ = queue ++ [s.launches.length] ∧
      MemoryKept s t)

/-- R254 to R256: CANCEL ends every launch that its level names and that has not ended: the launch's status is CANCELLED where it was OK, and none
of its workgroups is resident any more; other launches are as before. CANCEL.unit with id 0 ends the thread's own workgroup: no code, bin or queued
matrix or XFORM entry of it is left, and its unit is recorded CANCELLED; with any other id it names nothing and goes on. CNTW writes a complete record's status in every executing lane, as
an acquire at .dev, and else blocks its group; an id under which nothing was counted answers 0xFF. -/
def Obligations.LaunchesBeginEndAndAreCounted : Prop :=
  (∀ (s : State) (w : Where) (l : Nat) (sh : Sheet) (c : Ctl) (lv : Level) (d a : Opd),
    let g := Grp.of w sh l c
    let id := rd s g false a (g.act.headD 0)
    Stands s w l sh → Full g [(1, false, a)] → g.act ≠ [] →
    (lv ≠ .unit → ∃ t, exec (.cancel c lv a) s = .next t ∧ t.launches.length = s.launches.length ∧
      (∀ li ∈ s.named (s.ownLaunch w) (s.ownerId w) lv id.toNat, ∀ la, s.launches[li]? = some la → la.ended = false →
        (∃ la', t.launches[li]? = some la' ∧ la'.ended = true ∧ la'.unplaced = [] ∧ la'.status = (if la.status = 0 then 1 else la.status)) ∧
        (∀ co sl wg, (t.core co).wg sl = some wg → wg.launch ≠ li)) ∧
      (∀ li, li ∉ s.named (s.ownLaunch w) (s.ownerId w) lv id.toNat → t.launches[li]? = s.launches[li]?)) ∧
    (id ≠ 0#32 → exec (.cancel c .unit a) s =
      .next ((s.modCore (wCore w) fun k => { k with l1 := [], acquired := s.nextId }).put g (stepLanes g.grp c.yld sh))) ∧
    (id = 0#32 → ∀ co slot wg, w = .front co slot → s.wgOf w = some wg → ∃ t, exec (.cancel c .unit a) s = .next t ∧
      (t.core co).wg slot = none ∧ (∀ b ∈ (t.core co).bins, ¬ (b.launch = wg.launch ∧ b.flat = wg.flat)) ∧
      (∀ e ∈ (t.core co).mq, e.slot ≠ slot) ∧ (∀ e ∈ (t.core co).xq, e.slot ≠ slot) ∧
      (∀ li, li ≠ wg.launch → t.launches[li]? = s.launches[li]?) ∧
      ∀ la, s.launches[wg.launch]? = some la → la.ended = false →
        ⟨la.owner, .unit, wg.launch, wg.flat, la.die, 0, 1⟩ ∈ t.counters ∧
        ∃ la', t.launches[wg.launch]? = some la' ∧ la'.units = la.units - 1 ∧ la'.ended = decide (la.units ≤ 1) ∧
          la'.status = (if la.status = 0 then 1 else la.status)) ∧
    (∀ st, cntwStatus s w lv id.toNat = some st → exec (.cntw c lv d a) s =
      .next (landed (s.modCore (wCore w) fun k => { k with l1 := [], acquired := s.nextId }) g c d fun _ => (BitVec.ofNat 64 st, 0#7))) ∧
    (cntwStatus s w lv id.toNat = none → ∃ sh', exec (.cntw c lv d a) s = .next (s.putSheet w sh') ∧
      Blocks g (.cntw lv id d g.act) sh sh' ∧ RegsKept sh sh' ∧ sh'.fills = sh.fills) ∧
    (lv = .graph ∨ lv = .phase ∨ lv = .job →
      (s.counters.find? (fun r => r.named (s.ownerId w) lv (levelId (s.ownLaunch w) lv id.toNat)) = none →
        cntwStatus s w lv id.toNat = some 0xFF))) ∧
  Spec.LaunchCreatesOrRefuses

/-! ### Class 0xE: translations, handlers' words, special registers -/


/-- R217: TLBI removes, on every core of its scope that the owner holds, every entry that covers an executing lane's address, or with .all every
entry; no other core's entries change. It goes on where no access of those cores that was translated at an address of a removed entry, and no store
or atomic that they have sent, is in flight (State.tlbiDone); else its group blocks until that is so. Where nothing is removed it goes on. R363: TRAP
takes a SOFT trap in its executing lanes. -/
def Sys2Proof.Spec.TlbiRemovesAndTrapTraps : Prop :=
  ∀ (s : State) (w : Where) (l : Nat) (sh : Sheet) (c : Ctl) (all : Bool) (sc : Scope) (a : Opd),
    let g := Grp.of w sh l c
    let vas := g.act.map fun k => (rd64 s g a k).toNat
    let cut := (s.invalidate w all sc (if all then [] else vas)).1
    let ranges := (s.invalidate w all sc (if all then [] else vas)).2
    Stands s w l sh → Full g [(1, false, a)] → g.act ≠ [] →
    (cut.tlbiDone w sc ranges = true → exec (.tlbi c all sc a) s = .next (cut.putSheet w (stepLanes g.grp c.yld sh))) ∧
    (cut.tlbiDone w sc ranges = false → ∃ sh', exec (.tlbi c all sc a) s = .next (cut.putSheet w sh') ∧
      Blocks g (.tlbi sc ranges) sh sh' ∧ StoresKept sh sh') ∧
    (∀ k, k < s.cores.length → (cut.core k).tlb =
      if k ∈ s.ownCores w sc then (if all then [] else (s.core k).tlb.filter fun e => !vas.any e.covers) else (s.core k).tlb) ∧
    (∀ r, r ∈ ranges ↔ ∃ k ∈ s.ownCores w sc, ∃ e ∈ (s.core k).tlb, (all = true ∨ ∃ va ∈ vas, e.covers va = true) ∧ r = (e.va, e.size)) ∧
    ((∀ k ∈ s.ownCores w sc, ∀ e ∈ (s.core k).tlb, all = false ∧ ∀ va ∈ vas, e.covers va = false) → cut.tlbiDone w sc ranges = true) ∧
    (ranges ≠ [] → (cut.tlbiDone w sc ranges = true ↔ ∀ k ∈ s.ownCores w sc,
      (∀ x ∈ (s.core k).codes, x.openAccess ranges = false) ∧ (∀ f ∈ s.flights, f.core ≠ k) ∧ ∀ e ∈ s.engine, e.core ≠ k)) ∧
    MemoryKept s cut ∧
    (CanTrap s g → exec (.trap c a) s = .next (trapped s g .soft 15 0 g.act fun _ => 0#64))

/-- R215, Table 16.5: TLBW, once every lane's attributes, addresses and extent pass, installs an entry for each executing lane: with room in the
TLB the lane's address finds it, unless a later lane's entry overlaps it, and every old entry that overlaps none of them stays. Each
lane makes the checks in their order, and the first lane that fails decides, with every lane that fails as it does first: bad
attributes are ILLEGAL with SLOT 3, a misplaced address ALIGN with SLOT 1, a misplaced frame ALIGN with SLOT 2, and an entry that no
extent grants is a BOUNDS event of that lane's address and frame (the order among lanes, and which of them fmask names: log 44). -/
def Obligations.TlbWordsAndTrapAct : Prop :=
  (∀ (s : State) (w : Where) (l : Nat) (sh : Sheet) (c : Ctl) (a b x : Opd) (o : Owner),
     let g := Grp.of w sh l c
     let co := wCore w
     let ent (k : Nat) : TlbEntry := tlbEntry (rd64 s g a k) (rd64 s g b k) (rd s g false x k)
     let badAt (k : Nat) : Bool := !atOk (rd s g false x k)
     let badVa (k : Nat) : Bool := decide (2 ^ 48 ≤ (ent k).va) || (ent k).va % (ent k).size != 0
     let badPa (k : Nat) : Bool := (ent k).pa.toNat % (ent k).size != 0
     let free (k : Nat) : Bool := o.extents.all fun y => !y.grants (ent k)
     let bad (k : Nat) : Bool := badAt k || badVa k || badPa k || free k
     Stands s w l sh → s.ownerOf w = some o → Full g [(1, false, a), (2, false, b), (3, false, x)] →
     ((∀ k ∈ g.act, bad k = false) →
       (s.core co).tlb.length + g.act.length ≤ 8192 →
       ∃ t, exec (.tlbw c a b x) s = .next t ∧ t.sheetAt w = some (stepLanes g.grp c.yld sh) ∧ MemoryKept s t ∧
         (∀ k ∈ g.act, (∀ j ∈ g.act, k < j → (ent k).overlaps (ent j) = false) → (t.core co).tlbFind (ent k).va = some (ent k)) ∧
         (∀ e ∈ (s.core co).tlb, (∀ k ∈ g.act, e.overlaps (ent k) = false) → e ∈ (t.core co).tlb) ∧
         ∀ e ∈ (t.core co).tlb, e ∈ (s.core co).tlb ∨ ∃ k ∈ g.act, e = ent k) ∧
     (∀ k, g.act.find? bad = some k →
       (CanTrap s g →
         (badAt k = true → exec (.tlbw c a b x) s = .next (trapped s g .illegal 3 0 (g.act.filter badAt) fun _ => 0#64)) ∧
         (badAt k = false → badVa k = true → exec (.tlbw c a b x) s =
           .next (trapped s g .align 1 0 (g.act.filter fun j => !badAt j && badVa j) fun _ => 0#64)) ∧
         (badAt k = false → badVa k = false → badPa k = true → exec (.tlbw c a b x) s =
           .next (trapped s g .align 2 0 (g.act.filter fun j => !badAt j && !badVa j && badPa j) fun _ => 0#64))) ∧
       (badAt k = false → badVa k = false → badPa k = false →
         exec (.tlbw c a b x) s = .next (s.boundsEvent co (rd64 s g a k) (rd64 s g b k))))) ∧
  Spec.TlbiRemovesAndTrapTraps

/-- The code that may write a special register (Table 2.3): any the rounding mode, status and trap enables; a front-end thread ftime; front-end
code and a handler the hash registers; no other register is written. -/
def Sys2Proof.Spec.mayWrite (r : Nat) : Where → Bool
  | .front _ _ => decide (0x8C ≤ r ∧ r ≤ 0x8F ∨ 0x9C ≤ r ∧ r ≤ 0x9E)
  | .sheet _ _ _ => decide (0x8C ≤ r ∧ r ≤ 0x8E)
  | .handler _ _ => decide (0x8C ≤ r ∧ r ≤ 0x8E ∨ 0x9C ≤ r ∧ r ≤ 0x9E)

/-- A value with a reserved bit or a reserved code (Tables 2.4 to 2.6): of rm bits [31:4] and the modes from 5, of astat and aen bits [31:7], of
hasha and hashb bits [30:28] and [23:8], of hashc those and [7:5]. -/
def Sys2Proof.Spec.reserved (r : Nat) (x : Word) : Bool :=
  if r = 0x8C then x &&& 0xFFFFFFF0#32 != 0#32 || decide (5 ≤ (x &&& 7#32).toNat)
  else if r = 0x8D ∨ r = 0x8E then x &&& 0xFFFFFF80#32 != 0#32
  else if r = 0x9C ∨ r = 0x9D then x &&& 0x70FFFF00#32 != 0#32
  else if r = 0x9E then x &&& 0x70FFFFE0#32 != 0#32
  else false

/-- R31, R34, R359, R362, R33, R35, R188: SWR writes rm, astat and aen in each executing lane, ftime kept within 16 to 65,535 in its workgroup, and
a window's selection; a new mask kills every row of its window and blocks the group. A register that Table 2.3 does not let the code write is PERM
with SLOT 0; a value with a bit or code that Tables 2.4 to 2.6 reserve is ILLEGAL with SLOT 1, also of a hash register; the mask of a shared window
is PERM with SLOT 0. -/
def Obligations.SwrWritesSpecialRegisters : Prop :=
  ∀ (s : State) (w : Where) (l : Nat) (sh : Sheet) (c : Ctl) (i : BitVec 8) (a : Opd),
    let g := Grp.of w sh l c
    let r := i.toNat
    let x (k : Nat) : Word := rd s g false a k
    let x0 := x (g.act.headD 0)
    let word := Instr.swr c (.sr .full i) a
    Stands s w l sh → Full g [(1, false, a)] → g.act ≠ [] →
    (Spec.mayWrite r w = false → CanTrap s g → exec word s = .next (trapped s g .perm 0 0 g.act fun _ => 0#64)) ∧
    (Spec.mayWrite r w = true →
      (r = 0x8C ∨ r = 0x8D ∨ r = 0x8E →
        ((∀ k ∈ g.act, Spec.reserved r (x k) = false) → ∃ sh', exec word s = .next (s.putSheet w sh') ∧ StoresKept sh sh' ∧
          ∀ k, (sh'.lane k).rm = (if k ∈ g.act ∧ r = 0x8C then x k else (sh.lane k).rm) ∧
            (sh'.lane k).astat = (if k ∈ g.act ∧ r = 0x8D then x k else (sh.lane k).astat) ∧
            (sh'.lane k).aen = (if k ∈ g.act ∧ r = 0x8E then x k else (sh.lane k).aen) ∧ (sh'.lane k).pend = (sh.lane k).pend) ∧
        (CanTrap s g → (∃ k ∈ g.act, Spec.reserved r (x k) = true) →
          exec word s = .next (trapped s g .illegal 1 0 (g.act.filter fun k => Spec.reserved r (x k)) fun _ => 0#64))) ∧
      (r = 0x9C ∨ r = 0x9D ∨ r = 0x9E → Spec.reserved r x0 = true → CanTrap s g →
        exec word s = .next (trapped s g .illegal 1 0 [g.act.headD 0] fun _ => 0#64)) ∧
      (r = 0x8F → ∀ wg, s.wgOf w = some wg → ∃ t wg', exec word s = .next t ∧ t.wgOf w = some wg' ∧
        wg'.ftime = max 16 (min 65535 x0.toNat) ∧ t.sheetAt w = some (stepLanes g.grp c.yld sh)) ∧
      (r = 0x9C ∨ r = 0x9D ∨ r = 0x9E → Spec.reserved r x0 = false → ∀ o, s.ownerOf w = some o →
        let win := x0.extractLsb' 24 4
        (o.window win = none → CanTrap s g → exec word s = .next (trapped s g .illegal 1 0 [g.act.headD 0] fun _ => 0#64)) ∧
        (∀ wd, o.window win = some wd →
          (x0.getLsbD 31 = true → ∃ t o', exec word s = .next t ∧ t.ownerOf w = some o' ∧ o'.windows = o.windows ∧
            o'.selA = (if r = 0x9C then win else o.selA) ∧ o'.selB = (if r = 0x9D then win else o.selB) ∧
            o'.selC = (if r = 0x9E then win else o.selC) ∧ t.dram = s.dram) ∧
          (x0.getLsbD 31 = false → wd.shared = true → CanTrap s g →
            exec word s = .next (trapped s g .perm 0 0 [g.act.headD 0] fun _ => 0#64)) ∧
          (x0.getLsbD 31 = false → wd.shared = false → s.released w sh g.act .dev = true →
            ∃ t sh' o', exec word s = .next t ∧ t.sheetAt w = some sh' ∧ Blocks g .kill sh sh' ∧ t.ownerOf w = some o' ∧
              (∃ wd', o'.window win = some wd' ∧ wd'.hashA = (if r = 0x9C then x0.extractLsb' 0 8 else wd.hashA) ∧
                wd'.hashB = (if r = 0x9D then x0.extractLsb' 0 8 else wd.hashB) ∧
                wd'.hashC = (if r = 0x9E then x0.extractLsb' 0 5 else wd.hashC)) ∧
              ∀ st row bank pc, (if wd.interleaved then st < s.variant.stackCount else st = wd.stack) → wd.row ≤ row → row < wd.row + wd.rows →
                bank < 32 → pc < 256 → t.dram.isLive (rowKey st row bank pc) = false))))

/-- R228, Table 16.7: RFH ends its handler's event once every live lane of the handler stands at it: the slot is free; after an ARITH trap the
trapped lanes issue their word again; after EXTEMU and SOFT they go on after it. RFH waits for the handler's other lanes, and for the stores that the handler has queued
(log 44). -/
def Sys2Proof.Spec.RfhReturnsFromTheHandler : Prop :=
  ∀ (s : State) (co lv l : Nat) (sh : Sheet) (c : Ctl) (mode : RfhMode) (h : Handler) (z : Sheet),
    let w := Where.handler co lv
    let g := Grp.of w sh l c
    let stands := trappedLanes h.ev z
    Stands s w l sh → (s.core co).handler lv = some h → modeOk h.ev mode = true →
    (rfhReady g = false → ∃ sh', exec (.rfh c mode) s = .next (s.putSheet w sh') ∧ StoresKept sh sh' ∧
      ∀ k ∈ g.act, (sh'.lane k).wait = .blocked (.rfh mode) ∧ (sh'.lane k).pc = (sh.lane k).pc) ∧
    (rfhReady g = true → sh.sq ≠ [] → Waits s g (.rfh c mode) .drained) ∧
    (rfhReady g = true → sh.sq = [] → h.ev.cause ≠ .save → ∃ t, exec (.rfh c mode) s = .next t ∧ (t.core co).handler lv = none ∧
      (mode ≠ .fail → (∃ a b d, h.ev.who = .sheet a b d) ∨ (∃ a b, h.ev.who = .front a b) → s.sheetAt h.ev.who = some z → z.gen = none →
        (h.ev.cause = .arith → ∃ z', t.sheetAt h.ev.who = some z' ∧ StoresKept z z' ∧
          ∀ k, z'.lane k = if k ∈ stands then { z.lane k with wait := .ready } else z.lane k) ∧
        (h.ev.cause = .extemu ∨ h.ev.cause = .soft →
          let awaits := trlrEntries h.ev.word (bitsOf h.ev.word 71 3).toNat
          ∃ z', t.sheetAt h.ev.who = some z' ∧ StoresKept z z' ∧
          ∀ k, z'.lane k = if k ∈ stands then
            (if (z.lane k).pc + 12#32 = h.ev.tpc then (z.lane k).startRun ((z.lane k).pc + 24#32) awaits false s.steps false
             else if isTrlr h.ev.word then (z.lane k).startRun ((z.lane k).pc + 12#32) awaits false s.steps false
             else (z.lane k).stepOn false) else z.lane k)))

/-- R224, R226, R228, R240, Table 16.7: how RFH ends an event whose faulted lanes cannot simply go on. RFH.fail makes an ENVELOPE error of each
faulted lane's launch sticky, of a walk's the launches of every lane that it was to serve, and cancels it with status 3, ENVELOPE, where it was OK. RFH
after a WALK takes the walked entries out of the miss table and translates their lanes again; one that still misses is a PAGE event. RFH after a PAGE
or a POISON translates the faulted lanes again, and one that misses joins the miss table; a lane that MEND has given its value is done. -/
def Sys2Proof.Spec.FaultedLanesReplayOrFail : Prop :=
  ∀ (s : State) (co lv l : Nat) (sh : Sheet) (c : Ctl) (mode : RfhMode) (h : Handler),
    let w := Where.handler co lv
    let e := h.ev
    Stands s w l sh → (s.core co).handler lv = some h → modeOk e mode = true → rfhReady (Grp.of w sh l c) = true → sh.sq = [] → e.cause ≠ .save →
    ∃ t, exec (.rfh c mode) s = .next t ∧
      (mode = .fail → ∀ li la, s.launches[li]? = some la → la.ended = false →
        (e.cause ≠ .walk ∧ (∃ wg, s.wgOf e.who = some wg ∧ wg.launch = li) ∧ ofHandler e.who = false ∨
          e.cause = .walk ∧ ∃ m ∈ (s.core co).misses, m.page ∈ e.page ∧ ∃ r ∈ m.reqs, ofHandler r.who = false ∧
            ∃ wg, s.wgOf r.who = some wg ∧ wg.launch = li) →
        (∃ la', t.launches[li]? = some la' ∧ la'.ended = true ∧ la'.sticky = true ∧ la'.status = (if la.status = 0 then 3 else la.status)) ∧
        ∀ k sl wg, (t.core k).wg sl = some wg → wg.launch ≠ li) ∧
      (mode = .plain → e.cause = .walk →
        let rs := ((s.core co).misses.filter fun m => e.page.contains m.page).flatMap (·.reqs)
        (∀ r ∈ rs, r.lane < 64 ∧ (∃ x y n, r.who = .sheet x y n ∧ x < s.cores.length) ∧ ∃ id, r.of = .fill id) →
        (∀ m ∈ (t.core co).misses, m.page ∉ e.page) ∧
        ((∀ r ∈ rs, ∃ tg no, s.ask r = .ok tg no) → (t.core co).events = (s.core co).events ∧
          ∀ r ∈ rs, ∀ z, s.sheetAt r.who = some z → ∃ z', t.sheetAt r.who = some z' ∧
            ∀ f ∈ z'.fills, r.of = .fill f.id → ∀ x ∈ f.lanes, x.lane = r.lane → x.tr.isOk = true) ∧
        (∀ r, rs = [r] → s.ask r = .miss → (s.core (wCore r.who)).eventRoom = true →
          ∃ v, (t.core (wCore r.who)).events = (s.core (wCore r.who)).events ++ [v] ∧ v.who = r.who ∧ v.cause = .page ∧
            v.fmask = laneMask [r.lane] ∧ v.tpc = r.pc ∧ v.taddr = taddrForm r.va)) ∧
      (mode = .plain → e.cause = .page ∨ e.cause = .poison → ∀ id z x y n, e.of = some (.fill id) → e.who = .sheet x y n → x < s.cores.length →
        s.sheetAt e.who = some z →
        let request (a : Nat × DWord) : MissReq := ⟨e.who, a.1, a.2, e.access, e.slot, .fill id, e.tpc, e.word⟩
        let mended (k : Nat) : Prop := e.cause = .poison ∧ h.mended.getLsbD k = true
        (∃ z', t.sheetAt e.who = some z' ∧ ∀ f ∈ z'.fills, f.id = id → ∀ x ∈ f.lanes, ∀ a ∈ e.lanesAt, x.lane = a.1 →
          (mended a.1 → x.done = true) ∧
          (¬ mended a.1 → (∀ b ∈ e.lanesAt, ∃ tg no, s.ask (request b) = .ok tg no) → x.tr.isOk = true)) ∧
        ∀ a, e.lanesAt = [a] → ¬ mended a.1 → s.ask (request a) = .miss → (s.core x).canMiss a.2.toNat = true →
          ∃ m ∈ (t.core x).misses, m.page = a.2.toNat / 65536 ∧ request a ∈ m.reqs)

/-- R229, R333: MEND in an emulation handler, or in a poison handler that has the right, gives each executing lane's value to the destination of
the trapped word in the lane of the same number and marks the lane mended; no byte of memory changes. -/
def Obligations.HandlersReturnAndMend : Prop :=
  (∀ (s : State) (co lv l : Nat) (sh z : Sheet) (c : Ctl) (h : Handler) (i : BitVec 8) (ew : Bool) (a : Opd),
    let w := Where.handler co lv
    let g := Grp.of w sh l c
    let e := h.ev
    Stands s w l sh → (s.core co).handler lv = some h → (∃ x y n, e.who = .sheet x y n) → s.sheetAt e.who = some z →
    h.ev.cause = .extemu ∨ (h.ev.cause = .poison ∧ h.mendRight = true) → mendField (fFd e.word) = some (.v ew .full i) → e.of = none →
    opdPart a ≠ .pair → Full g [(1, false, a)] → (∀ k ∈ g.act, k < z.lanes.length) →
    ∃ t z' h', exec (.mend c a) s = .next t ∧ t.sheetAt e.who = some z' ∧ (t.core co).handler lv = some h' ∧
      h'.mended = h.mended ||| laneMask g.act ∧ h'.ev = h.ev ∧
      (∀ k j, z'.vReg k j = if k ∈ g.act ∧ j = i.toNat then (z.vReg k j).write .full (rd s g false a k) else z.vReg k j) ∧
      (∀ j, z'.uReg j = z.uReg j) ∧ z'.m = z.m ∧ z'.sq = z.sq ∧ z'.fills = z.fills ∧ MemoryKept s t) ∧
  Spec.RfhReturnsFromTheHandler ∧ Spec.FaultedLanesReplayOrFail

/-! ### Memory and the words -/

namespace Sys2Proof.Spec

open Sys2Proof Sys2Proof.Machine

/-- The words whose own effect reaches memory: of a cancelled workgroup the matrix entry that had begun finishes its row, a return may do the
same or save and load a core, a new mask kills its window, a prefetch reads DRAM, and a BOUNDS event of TLBW ends its owner's launches. -/
def reachesMemory : Instr → Bool
  | .cancel _ _ _ => true
  | .rfh _ _ => true
  | .swr _ _ _ => true
  | .pref _ _ _ _ => true
  | .tlbw _ _ _ _ => true
  | _ => false

/-- A lane of a producer has its data: each register of its destination in the lane is filled with its word, behind the writes that stand
before it there (R29, R60); no other register changes, and the lane is no longer open. -/
def Filled (sh sh' : Sheet) (f : Fill) (l : Nat) (ws : List Word) : Prop :=
  let p := if opdPart f.dest = .pair then Part.full else opdPart f.dest
  let here := writesHere f.act f.dest l
  (∀ (n i : Nat) (x : Word), here = true → (spanRegs f.quad f.dest)[n]? = some (false, i) → ws[n]? = some x →
    sh'.vReg l i = (sh.vReg l i).fill f.id p x) ∧
  (∀ (n i : Nat) (x : Word), here = true → (spanRegs f.quad f.dest)[n]? = some (true, i) → ws[n]? = some x →
    sh'.uReg i = (sh.uReg i).fill f.id p x) ∧
  (∀ k i, k ≠ l ∨ (false, i) ∉ spanRegs f.quad f.dest → sh'.vReg k i = sh.vReg k i) ∧
  (∀ i, (true, i) ∉ spanRegs f.quad f.dest → sh'.uReg i = sh.uReg i) ∧
  sh'.openFill f.id l = none ∧ sh'.m = sh.m ∧ sh'.sq = sh.sq ∧ sh'.gen = sh.gen ∧ (∀ k, (sh'.lane k).pc = (sh.lane k).pc) ∧
  ∀ k, (sh'.lane k).p = (sh.lane k).p

/-- Some lanes of a producer of V registers have their data, each its own, in its own registers; nothing else of the code's state changes
(R140). -/
def FilledEach (sh sh' : Sheet) (f : Fill) (got : List Nat) (ws : Nat → List Word) : Prop :=
  let p := if opdPart f.dest = .pair then Part.full else opdPart f.dest
  (∀ l ∈ got, ∀ (n i : Nat) (x : Word), (spanRegs f.quad f.dest)[n]? = some (false, i) → (ws l)[n]? = some x →
    sh'.vReg l i = (sh.vReg l i).fill f.id p x) ∧
  (∀ k i, k ∉ got ∨ (false, i) ∉ spanRegs f.quad f.dest → sh'.vReg k i = sh.vReg k i) ∧ (∀ i, sh'.uReg i = sh.uReg i) ∧
  (∀ l ∈ got, sh'.openFill f.id l = none) ∧ sh'.m = sh.m ∧ sh'.sq = sh.sq ∧ sh'.gen = sh.gen ∧
  (∀ k, (sh'.lane k).pc = (sh.lane k).pc) ∧ ∀ k, (sh'.lane k).p = (sh.lane k).p

/-- A lane of a producer ends without data: a register of its destination that waits for it alone is full with what it held, no other
register changes, and the lane is no longer open (R316, R370). -/
def Dropped (sh sh' : Sheet) (f : Fill) (l : Nat) : Prop :=
  let alone (r : Reg) : Prop := ∀ e ∈ r.pend, e.id = f.id ∧ e.got = none
  (∀ k i, k ≠ l ∨ (false, i) ∉ spanRegs f.quad f.dest → sh'.vReg k i = sh.vReg k i) ∧
  (∀ i, (false, i) ∈ spanRegs f.quad f.dest → alone (sh.vReg l i) → sh'.vReg l i = ⟨(sh.vReg l i).val, []⟩) ∧
  (∀ i, (true, i) ∉ spanRegs f.quad f.dest → sh'.uReg i = sh.uReg i) ∧ (∀ i, alone (sh.uReg i) → (sh'.uReg i).val = (sh.uReg i).val) ∧
  sh'.openFill f.id l = none ∧ sh'.m = sh.m ∧ sh'.sq = sh.sq ∧ sh'.gen = sh.gen ∧ ∀ k, (sh'.lane k).pc = (sh.lane k).pc

/-- A lane of the head of the queue is accepted: it is no longer open, no register and no lane's place changes, and the entry goes with its
last lane. -/
def Accepted (sh sh' : Sheet) (l : Nat) : Prop :=
  sh'.openHead l ≠ sh.openHead l ∧ RegsKept sh sh' ∧ sh'.m = sh.m ∧ sh'.fills = sh.fills ∧
  (∀ k, (sh'.lane k).pc = (sh.lane k).pc) ∧ ∀ e ∈ sh'.sq, ∃ e' ∈ sh.sq, e'.id = e.id ∧ e'.kind = e.kind

end Sys2Proof.Spec

/-- R142, R163, R173: no instruction word but the few whose effect says so changes a byte of memory: what a store, an atomic, a copy or a matrix
word does to memory happens when its queue, engine or channel performs it. -/
def Obligations.WordsLeaveMemoryToTheirQueues : Prop :=
  ∀ (s t : State) (i : Instr), isEvent i = false → reachesMemory i = false → exec i s = .next t → ∀ a, t.byteAt a = s.byteAt a

/-! ### Events of the memory system -/

/-- R29, R140, R164, R330, R331: BANK_ANSWER of an LDL lane, and LOAD_FILL of a lane of LD, fill the lane's destination with the bytes of its target
as its core's store order has them, extended by SIZE, once the lane's earlier loads have performed; bytes that the lane's own queued
stores write come from them. The lanes of an LDL that touch one 16-byte granule share the request, and each gets its own bytes. LOAD_FILL from the
L1 gives the bytes of a line that the L1 holds, without charge, and changes nothing where it holds none or the access goes around it (R167). A load of
a lane that has ended is dropped, and its destination keeps what it held (R316). Memory does not change. -/
def Obligations.AnswersFillTheirDestination : Prop :=
  ∀ (s : State) (w : Where) (id l : Nat) (sh : Sheet) (f : Fill) (x : LaneReq) (sz : Size) (acc : Access) (t : Target) (around fromL1 : Bool),
    s.sheetAt w = some sh → sh.openFill id l = some (f, x) → f.id = id → x.lane = l →
    (sh.alive l = false →
      (f.kind = .ldl sz → ∃ sh', exec (.bankAnswer w id l) s = .next (s.putSheet w sh') ∧ Dropped sh sh' f l) ∧
      (f.kind = .ld sz acc → ∃ sh', exec (.loadFill w id l fromL1) s = .next (s.putSheet w sh') ∧ Dropped sh sh' f l)) ∧
    (x.tr = .ok t around → sh.alive l = true → s.loadMay w sh id l = true →
    let n := sizeBytes sz
    let from_ := sh.forward s.variant id l t x.va n
    let fellows := f.sharing s w sh x n
    let its (k : Nat) : List Word := match f.lanes.find? fun y => y.lane == k with
      | some ⟨_, _, .ok u _, _, _⟩ => loadWords sz (s.coreBytes (wCore w) u n)
      | _ => []
    (f.kind = .ldl sz →
      (∀ bs, from_ = .bytes bs → ∃ sh', exec (.bankAnswer w id l) s = .next (s.putSheet w sh') ∧ Filled sh sh' f l (loadWords sz bs)) ∧
      (from_ = .pass → (∀ y ∈ x :: fellows, ∀ co a r, y.tr = .ok (.spad co a) r → (s.core co).outBusy a n = false) →
        (fellows = [] → (∃ co a, t = .spad co a) →
          ∃ sh', exec (.bankAnswer w id l) s = .next (s.putSheet w sh') ∧ Filled sh sh' f l (loadWords sz (s.coreBytes (wCore w) t n))) ∧
        ((f.lanes.map (·.lane)).Nodup → (∃ ew p i, f.dest = .v ew p i) → (∃ co a, t = .spad co a) →
          ∃ sh', exec (.bankAnswer w id l) s = .next (s.putSheet w sh') ∧ FilledEach sh sh' f (l :: fellows.map (·.lane)) its))) ∧
    (f.kind = .ld sz acc → fromL1 = false → from_ = .pass → s.engineHolds t n = false → s.poisonedAt t n = false →
      t.charged = true → s.mayRequest w t = true →
      around = true ∨ (s.core (wCore w)).hintF x.va = true ∨ s.firstMisses (wCore w) = false →
      ∃ u sh', exec (.loadFill w id l fromL1) s = .next u ∧ u.sheetAt w = some sh' ∧ Filled sh sh' f l (loadWords sz (s.coreBytes (wCore w) t n)) ∧
        (∀ a, u.byteAt a = s.byteAt a) ∧ (∀ pa, t = .dev pa → around = false → accScope acc = none → (u.core (wCore w)).l1Has pa = true)) ∧
    (f.kind = .ld sz acc → ∀ bs, from_ = .bytes bs → ∃ u sh', exec (.loadFill w id l fromL1) s = .next u ∧ u.sheetAt w = some sh' ∧
      Filled sh sh' f l (loadWords sz bs) ∧ (∀ a, u.byteAt a = s.byteAt a) ∧ u.owners = s.owners) ∧
    (f.kind = .ld sz acc → fromL1 = true → from_ = .pass → ∀ pa, t = .dev pa →
      (around = true ∨ (s.core (wCore w)).l1Has pa = false → exec (.loadFill w id l fromL1) s = .next s) ∧
      (around = false → (s.core (wCore w)).l1Has pa = true → s.engineBusy (wCore w) t n = false →
        ∃ u sh', exec (.loadFill w id l fromL1) s = .next u ∧ u.sheetAt w = some sh' ∧
          Filled sh sh' f l (loadWords sz ((s.core (wCore w)).l1Bytes pa n)) ∧ (∀ a, u.byteAt a = s.byteAt a) ∧ u.owners = s.owners ∧
          u.dram = s.dram)))

/-- R10, R163, R169, R361, R170: STORE_ACCEPT of an STL lane writes exactly its bytes at its target, little end first as they were queued, and no
other byte of memory; of an ST lane to device memory without poison, with tokens and with its release done it sends the bytes on their way as the core's
youngest store, once the lane's earlier loads and acquires have performed (R162, R168) and the core may hold a request more (R331). STORE_ACCEPT_HOME writes a device store's bytes at its home and no others. -/
def Obligations.StoresWriteTheirBytesAndNoOthers : Prop :=
  ∀ (s : State) (w : Where) (l : Nat) (sh : Sheet) (e : SqEntry) (x : SqLane),
    (s.sheetAt w = some sh → sh.openHead l = some (e, x) → sh.mayAccept e l = true → x.lane = l →
      (∀ a around, e.kind = .stl → x.tr = .ok (.spad (wCore w) a) around → a + x.bytes.length ≤ 0x800000 → s.generators (wCore w) = [] →
        (∀ k co b ph, (sh.lane k).wait ≠ .blocked (.barw co b ph)) →
        ∃ u sh', exec (.storeAccept w [l]) s = .next u ∧ u.sheetAt w = some sh' ∧ Accepted sh sh' l ∧
          (∀ i, i < x.bytes.length → u.byteAt (.spad (wCore w) (a + i)) = x.bytes.getD i 0#8) ∧
          (∀ t, (∀ i, i < x.bytes.length → t ≠ .spad (wCore w) (a + i)) → u.byteAt t = s.byteAt t)) ∧
      (∀ rel bw pa around, e.kind = .st rel bw → x.tr = .ok (.dev pa) around → s.poisonedAt (.dev pa) x.bytes.length = false →
        s.mayRequest w (.dev pa) = true → s.mayAdd (wCore w) 1 = true → releaseOpen s w e rel = false →
        ∃ u sh', exec (.storeAccept w [l]) s = .next u ∧ u.sheetAt w = some sh' ∧ Accepted sh sh' l ∧ (∀ t, u.byteAt t = s.byteAt t) ∧
          u.flights = s.flights ++
            [⟨s.nextId, e.id, wCore w, w, l, x.va, .dev pa, x.bytes, e.fellows, s.ownerId w, false, e.pc, e.word⟩])) ∧
    (∀ (k : Nat) (f : Flight) (pa : Nat) (p : Place), s.flights[k]? = some f → f.dead = false → f.target = .dev pa →
      s.earlier f.core f.seq f.target f.bytes.length = false → s.overtakes f.who f.entry f.lane f.target f.va f.bytes.length = false →
      s.poisonedAt f.target f.bytes.length = false →
      s.bankDelayed f.owner f.target = false → f.bytes.length ≤ 16 →
      (∀ i, i < f.bytes.length → ∃ q, s.place (pa + i) = some q ∧ q.cell = p.cell + i ∧ q.rowKey = p.rowKey) →
      ∃ u, exec (.storeAcceptHome k) s = .next u ∧ u.flights = s.flights.eraseIdx k ∧
        (∀ i, i < f.bytes.length → u.byteAt (.dev (pa + i)) = f.bytes.getD i 0#8) ∧
        (∀ t, (∀ b q, t = .dev b → s.place b = some q → q.cell < p.cell ∨ p.cell + f.bytes.length ≤ q.cell) → u.byteAt t = s.byteAt t))

/-- R172, R295, R349, R205: ATOMIC_PERFORM completes for every operation at an engine, the host or a peer that no earlier store or atomic for
its bytes, none of its own lane that has come back to its queue, and no delayed bank holds back and that meets no poison: the operation is done once, on the bytes just before it, which its
target then holds; a lane that returns receives the old value, and the operation's lane is done. -/
def Sys2Proof.Spec.EnginesPerformTheirOperations : Prop :=
  ∀ (s : State) (k : Nat) (e : EngineOp), s.engine[k]? = some e → s.earlier e.core e.seq e.target e.a.bytes = false →
    s.overtakes e.who e.entry e.lane e.target e.va e.a.bytes = false → s.bankDelayed e.owner e.target = false → s.poisonedAt e.target e.a.bytes = false →
    let new := atomBytes e.a (s.bytesAt e.target e.a.bytes) e.val e.new
    ∃ u, exec (.atomicPerform k) s = .next u ∧ u.engine = s.engine.eraseIdx k ∧ u.flights = s.flights ∧
      (∀ a, e.target = .host a → u.bytesAt e.target e.a.bytes = new ∧
        ∀ t, (∀ i, i < e.a.bytes → t ≠ .host (a + i)) → u.byteAt t = s.byteAt t) ∧
      (∀ m a, e.target = .peer m a → u.bytesAt e.target e.a.bytes = new ∧
        ∀ t, (∀ i, i < e.a.bytes → t ≠ .peer m (a + i)) → u.byteAt t = s.byteAt t) ∧
      (∀ (pa : Nat) (p : Place), e.target = .dev pa → (∀ i, i < e.a.bytes → ∃ q, s.place (pa + i) = some q ∧ q.cell = p.cell + i ∧ q.rowKey = p.rowKey) →
        u.bytesAt e.target e.a.bytes = new ∧
        ∀ t, (∀ b q, t = .dev b → s.place b = some q → q.cell < p.cell ∨ p.cell + e.a.bytes ≤ q.cell) → u.byteAt t = s.byteAt t) ∧
      (∀ sh, s.sheetAt e.who = some sh → (∀ co a, e.target ≠ .spad co a) → ∃ sh', u.sheetAt e.who = some sh' ∧
        (∀ y ∈ sh'.sq, y.id = e.entry → ∀ z ∈ y.lanes, z.lane = e.lane → z.done = true) ∧
        (∀ (id : Nat) (f : Fill) (x : LaneReq), e.fill = some id → sh.openFill id e.lane = some (f, x) → sh.alive e.lane = true →
          sh'.openFill id e.lane = none ∧ (∀ j, j ≠ e.lane → ∀ i, sh'.vReg j i = sh.vReg j i) ∧
          ∀ ew p i, f.dest = .v ew p i → p ≠ .pair → f.quad = false → f.id = id → sh'.vReg e.lane i.toNat =
            (sh.vReg e.lane i.toNat).fill id p (loWord (leVal 64 (s.bytesAt e.target e.a.bytes)))))

/-- R173, R337: ATOMIC_PERFORM of a lane that waits at an engine compares its word with the lane's value: equal, it arms the lane's monitor;
different, the monitor has that value to fill with. -/
def Sys2Proof.Spec.EnginesArmTheirMonitors : Prop :=
  ∀ (s : State) (i : Nat) (m : Monitor) (sh : Sheet) (f : Fill) (x : LaneReq) (pa : Nat) (around : Bool),
    let n := if m.wide then 8 else 4
    let die := ((s.place pa).map fun p => homeDie p.stack).getD 0
    let v : DWord := leVal 64 (s.bytesAt (.dev pa) n)
    s.monitors[i]? = some m → m.armed = false → m.hit = none → s.sheetAt m.who = some sh → sh.openFill m.fill m.lane = some (f, x) →
    x.tr = .ok (.dev pa) around → (∀ e ∈ sh.sq, ∀ y ∈ e.lanes, y.lane = m.lane → y.done = true) → s.loadMay m.who sh f.id m.lane = true →
    s.inFlight m.core (.dev pa) n = false → s.poisonedAt (.dev pa) n = false → s.armedAt die < 8192 → s.mayRequest m.who (.dev pa) = true →
    ∃ u, exec (.atomicPerform (s.engine.length + i)) s = .next u ∧ (∀ a, u.byteAt a = s.byteAt a) ∧ u.engine = s.engine ∧
      (∀ j, j ≠ i → u.monitors[j]? = s.monitors[j]?) ∧
      u.monitors[i]? = some (if v = m.cmp then { m with pa := pa, armed := true } else { m with pa := pa, hit := some v })

/-- R172, R295, R173, R168: ATOMIC_PERFORM and MONITOR_FIRE. MONITOR_FIRE completes for every monitor that has seen a value that differs: the
monitor is gone, its lane is filled with the first such value, and the lanes go on once all of them are filled; an acquire of .quire or
wider drops the core's L1. -/
def Obligations.AtomicsReturnTheOldValue : Prop :=
  (∀ (s : State) (k : Nat) (m : Monitor) (v : DWord), s.monitors[k]? = some m → m.hit = some v →
    ∃ u, exec (.monitorFire k) s = .next u ∧ u.monitors = s.monitors.eraseIdx k ∧ (∀ a, u.byteAt a = s.byteAt a) ∧
      (m.acq = true → scopeFar m.sc = true → (u.core m.core).l1 = []) ∧
      ∀ (sh : Sheet) (f : Fill) (x : LaneReq), s.sheetAt m.who = some sh → sh.openFill m.fill m.lane = some (f, x) →
        ∃ sh', u.sheetAt m.who = some sh' ∧ sh'.openFill m.fill m.lane = none ∧
        ((∃ y ∈ f.lanes, y.lane ≠ m.lane ∧ y.done = false) → Filled sh sh' f m.lane (if m.wide then wordsOf v else [loWord v])) ∧
        ((∀ y ∈ f.lanes, y.lane = m.lane ∨ y.done = true) → (∀ h ∈ sh.fills, h.id = m.fill → h = f) → (∀ e ∈ sh'.fills, e.id ≠ m.fill) ∧
          (sh.gen = none → ∀ j, (sh.lane j).live = true → (sh.lane j).wait = .blocked (.mwait m.fill) →
            (sh'.lane j).wait = .ready ∧ (sh'.lane j).pc = (sh.lane j).pc + 12#32))) ∧
  Spec.EnginesPerformTheirOperations ∧ Spec.EnginesArmTheirMonitors

/-- R193, R194, R195, R191: a promotion never gives an owner more ring slots in a bank than its quota or what it held, never takes another owner's
slot and never evicts a pinned one; a demotion frees at most the one slot of its own owner. CONTROLLER_ANSWER of the last open lane writes
FD and lets the group go on; WINDOW_KILL_DONE lets the lanes go on that wait for the kill. -/
def Obligations.PromotionsKeepQuotasAndPins : Prop :=
  (∀ (s : State) (o : Nat) (p : Place) (pin : Bool) (seq : Nat),
    let t := (promoteRow s o p pin seq).1
    let quota := ((s.owner o).map (·.nearq)).getD 0
    (t.dram.held p o).length ≤ max (s.dram.held p o).length quota ∧
    (∀ r ∈ s.dram.slots, r.owner ≠ o ∨ r.pin = true → r ∈ t.dram.slots) ∧
    (∀ r ∈ t.dram.slots, r.owner ≠ o → r ∈ s.dram.slots) ∧ t.dram.cells = s.dram.cells ∧ t.dram.live = s.dram.live ∧
    (let d := (demoteRow s o p).1
     (∀ r ∈ d.dram.slots, r ∈ s.dram.slots) ∧ (∀ r ∈ s.dram.slots, r.owner ≠ o ∨ ¬ (r.inBank p = true ∧ r.row = p.row) → r ∈ d.dram.slots))) ∧
  (∀ (s : State) (w : Where) (sh : Sheet), s.sheetAt w = some sh → sh.gen = none →
    (∃ sh', exec (.windowKillDone w) s = .next (s.putSheet w sh') ∧
      ∀ k, sh'.lane k = if (sh.lane k).live = true ∧ (sh.lane k).wait = .blocked .kill then (sh.lane k).stepOn false else sh.lane k) ∧
    (∀ (l : Nat) (f : Fill) (x : LaneReq) (p : Place), sh.fills = [f] → f.kind = .madr → f.lanes = [x] → x.lane = l → x.done = false →
      x.place s (s.ownerId w) = some p → (∃ i ew, f.dest = .v ew .pair i) →
      ∃ sh', exec (.controllerAnswer w l) s = .next (s.putSheet w sh') ∧ sh'.fills = [] ∧
        (∀ i, sh'.vReg l i = if l < sh.lanes.length then vAfter f.dest i (madrWord s.dram p) (sh.vReg l i) else sh.vReg l i) ∧
        ∀ k, (sh.lane k).live = true → (sh.lane k).wait = .blocked (.answers f.id) → (sh'.lane k).wait = .ready ∧
          (sh'.lane k).pc = (sh.lane k).pc + 12#32))

/-! ### Taking an exception, and the events of the owners' fault paths -/

namespace Sys2Proof.Spec

open Sys2Proof Sys2Proof.Machine

/-- `n` bytes of device memory from an address on stand one after another in one row, the first at place `p`. -/
def InRow (s : State) (pa n : Nat) (p : Place) : Prop :=
  ∀ i, i < n → ∃ q, s.place (pa + i) = some q ∧ q.cell = p.cell + i ∧ q.rowKey = p.rowKey

/-- No byte has changed but the `n` bytes of device memory from place `p` on. -/
def OnlyRow (s t : State) (p : Place) (n : Nat) : Prop :=
  ∀ a, (∀ b q, a = .dev b → s.place b = some q → q.cell < p.cell ∨ p.cell + n ≤ q.cell) → t.byteAt a = s.byteAt a

/-- The trap frame of Table 16.8 at an address: a reserved field is zero. -/
def Frame (t : State) (base : Nat) (e : HEvent) (quant : Int) (waited flags : Nat) : Prop :=
  let f (off n : Nat) : Nat := leNat (t.bytesAt (.dev (base + off)) n)
  f 0 4 = e.tcause.toNat ∧ f 4 4 = e.tpc.toNat ∧ f 8 8 = e.fmask.toNat ∧ f 0x10 8 = e.dmask.toNat ∧ f 0x18 8 = e.taddr.toNat ∧
  f 0x20 12 = e.word.toNat ∧ f 0x2C 4 = e.source.toNat ∧ f 0x30 4 = e.launch.toNat ∧ f 0x34 4 = (BitVec.ofInt 32 quant).toNat ∧
  f 0x38 4 = waited % 2 ^ 32 ∧ f 0x3C 4 = flags ∧ f 0x40 64 = 0

/-- A lane of a handler sheet at entry holds these words in v0 to v7 and zero in every other register, all full (R221, Table 16.6). -/
def EntryRegs (sh : Sheet) (l : Nat) (ws : List Word) : Prop :=
  (∀ i x, ws[i]? = some x → sh.vReg l i = ⟨x, []⟩) ∧ (∀ i, ws.length ≤ i → sh.vReg l i = ⟨0#32, []⟩) ∧ (sh.lane l).p = 0#64

/-- A handler starts in a slot for an event: its faulted lanes stand live at an entry point with the registers of Table 16.6, `more`
giving v5 to v7; its other lanes are not live (R219, R221). -/
def HandlerStarts (t : State) (c level : Nat) (e : HEvent) (entry pc : Nat) (restore : Bool) (more : Nat → List Word) : Prop :=
  ∃ h, (t.core c).handler level = some h ∧ h.ev = e ∧ h.entry = entry ∧ h.restore = restore ∧ h.frozen = false ∧ h.mended = 0#64 ∧ h.again = [] ∧
    h.sheet.kind = .handler level e.cause ∧ h.sheet.width = 64 ∧ h.sheet.lanes.length = 64 ∧ h.sheet.sq = [] ∧ h.sheet.fills = [] ∧ h.sheet.pairs = [] ∧
    (∀ i, h.sheet.uReg i = ⟨0#32, []⟩) ∧ (∀ i, h.sheet.mReg i = 0#64) ∧
    (∀ l, l < 64 → (e.args.find? fun a => a.1 == l) = none → (h.sheet.lane l).live = false) ∧
    (∀ l a addr fa fb xc, l < 64 → (e.args.find? fun a => a.1 == l) = some (a, addr, fa, fb, xc) →
      (h.sheet.lane l).live = true ∧ (h.sheet.lane l).pc = BitVec.ofNat 32 pc ∧ (h.sheet.lane l).wait = .ready ∧
      EntryRegs h.sheet l ([loWord addr, hiWord addr, fa, fb, xc] ++ more l))

/-- Where the frame of a core and level stands in its owner's ballast (Table 16.2). -/
def frameAt (o : Owner) (c level : Nat) : Nat := o.bbase + 0x1000 + (2 * c + (level - 1)) * 128

end Sys2Proof.Spec

/-- R36, R57, R220, R230: a precise trap performs nothing: the group stands at its word, and an event with the cause, the operand's slot, the
access, the lanes, the first lane's address with bits [62:48] zero, the word and its place goes last into the core's event queue; a full
queue makes the group wait at the word; in a handler the owner stalls and the host is told. -/
def Sys2Proof.Spec.TrapsQueueTheirEvent : Prop :=
  ∀ (s : State) (w : Where) (l : Nat) (sh : Sheet) (c : Ctl) (x : TrapInfo),
    let g := Grp.of w sh l c
    let co := wCore w
    let t := takeTrap s g x
    s.sheetAt w = some sh →
    (g.inHandler = false → (s.core co).eventRoom = true → ∃ e sh', (t.core co).events = (s.core co).events ++ [e] ∧ t.sheetAt w = some sh' ∧
      e.who = w ∧ e.tcause.toNat = (causeCode x.cause + 256 * x.slot + 4096 * x.access) % 2 ^ 32 ∧ e.fmask = laneMask x.fmask ∧
      e.dmask = laneMask x.dmask ∧ e.tpc = x.tpc ∧ e.word = x.word ∧ e.since = s.clock ∧ (x.fmask = [] → e.taddr = 0#64) ∧
      (∀ k rest, x.fmask = k :: rest → e.taddr = x.addr k &&& 0x8000FFFFFFFFFFFF#64) ∧ e.args.map (·.1) = x.fmask ∧
      (∀ k, k ∈ g.grp → (sh'.lane k).wait = .trapped ∧ (sh'.lane k).pc = (sh.lane k).pc) ∧ (∀ k, k ∉ g.grp → sh'.lane k = sh.lane k) ∧
      RegsKept sh sh' ∧ sh'.m = sh.m ∧ sh'.sq = sh.sq ∧ sh'.fills = sh.fills ∧ ∀ a, t.byteAt a = s.byteAt a) ∧
    (g.inHandler = false → (s.core co).eventRoom = false → t = s.put g (waitHere g .events sh)) ∧
    (∀ lv, w = .handler co lv → (t.core co).stall = some lv ∧ t.hostEvents = s.hostEvents ++ [.stall (s.ownerId w) co] ∧
      (t.core co).events = (s.core co).events ∧ ∃ h, (t.core co).handler lv = some h ∧ h.frozen = true ∧ RegsKept sh h.sheet)

/-- R219 to R224, R230, R237: HANDLER_DELIVERY takes the oldest event of the queue into the free level-1 slot, unless a page waits for its walk;
WALK_EVENT takes the pages of the 64 oldest miss-table entries there, or a frozen level-1 handler's into the level-2 slot. Either writes the
frame of Table 16.8 into the owner's ballast, charges its 128 bytes, and starts the handler at its entry point with the registers of Table 16.6;
a walk's v7, the position in the miss table, counts from the oldest entry (log 25). -/
def Obligations.TrapsAndHandlersFollowTheirEvents : Prop :=
  (∀ (s : State) (c id : Nat) (o : Owner) (p : Place),
    let k := s.core c
    let mend := if o.mend then 1 else 0
    let Enters (i : Instr) (level : Nat) (e : HEvent) (entry : Nat) (more : Nat → List Word) : Prop :=
      InRow s (frameAt o c level) 128 p → ∃ t, exec i s = .next t ∧ HandlerStarts t c level e entry (o.hentry.getD entry 0) false more ∧
        Frame t (frameAt o c level) e k.quant (s.clock - e.since) mend ∧ OnlyRow s t p 128 ∧
        (t.owner id).map (·.hbm) = some (o.hbm - 256 * 128) ∧ (t.core c).misses = k.misses ∧
        (t.core c).events = (if level = 1 ∧ e.cause ≠ .walk then k.events.drop 1 else k.events)
    c < s.cores.length → k.stall = none → k.owner = some id → s.owner id = some o →
    (∀ e rest, k.h1 = none → k.events = e :: rest → e.cause ≠ .walk → e.cause ≠ .save →
      (k.misses = [] → Enters (.handlerDelivery c) 1 e (handlerEntry e.cause) fun l =>
        [((s.sheetAt e.who).map fun sh => (sh.lane l).astat).getD 0#32, BitVec.ofNat 32 e.access, 0#32]) ∧
      (k.misses ≠ [] → exec (.handlerDelivery c) s = .next s)) ∧
    ((k.misses.map (·.page)).Nodup → k.misses ≠ [] →
      (k.h1 = none → (∀ m ∈ k.misses, ∀ r ∈ m.reqs, r.ofHandler = false) →
        ∃ e : HEvent, e.cause = .walk ∧ e.page = (k.misses.take 64).map (·.page) ∧
          e.args = (k.misses.take 64).mapIdx (fun i m => (i, m.lowest, 0#32, 0#32, 0#32)) ∧
          Enters (.walkEvent c) 1 e 0 fun l =>
            [0#32, BitVec.ofNat 32 (((k.misses[l]?).bind fun m => m.reqs.head?.map (·.access)).getD 0), BitVec.ofNat 32 l]) ∧
      (∀ h, k.h1 = some h → h.frozen = true → k.h2 = none → (∀ m ∈ k.misses, m.reqs.any MissReq.ofHandler = true) →
        ∃ e : HEvent, e.cause = .walk ∧ e.page = (k.misses.take 64).map (·.page) ∧
          Enters (.walkEvent c) 2 e 0 fun l =>
            [0#32, BitVec.ofNat 32 (((k.misses[l]?).bind fun m => m.reqs.head?.map (·.access)).getD 0), BitVec.ofNat 32 l]))) ∧
  Spec.TrapsQueueTheirEvent

/-- R230, Table 16.10: STALL_RESUME lets the stalled handler issue its word again, with nothing else changed; STALL_CANCEL and STALL_LIMIT_EXPIRE
alike end every launch of the core's workgroups with status DOUBLEFAULT, and no handler and no stall is left. -/
def Obligations.StallsResumeOrEnd : Prop :=
  ∀ (s : State) (c lv : Nat), (s.core c).stall = some lv → (s.core c).switch = none →
    (∀ h, (s.core c).handler lv = some h → h.sheet.fills = [] → h.sheet.sq = [] →
      ∃ t h', exec (.stallResume c) s = .next t ∧ (t.core c).stall = none ∧ (t.core c).handler lv = some h' ∧ h'.frozen = false ∧ h'.ev = h.ev ∧
        RegsKept h.sheet h'.sheet ∧ (∀ k, (h'.sheet.lane k).pc = (h.sheet.lane k).pc ∧ (h'.sheet.lane k).live = (h.sheet.lane k).live) ∧
        (∀ k, (h.sheet.lane k).wait = .trapped → (h'.sheet.lane k).wait = .ready) ∧ (∀ a, t.byteAt a = s.byteAt a) ∧
        t.launches = s.launches ∧ t.hostEvents = s.hostEvents) ∧
    (∀ o, (s.core c).owner = some o →
      exec (.stallLimitExpire c) s = exec (.stallCancel c) s ∧
      ∃ t, exec (.stallCancel c) s = .next t ∧ (t.core c).stall = none ∧ (t.core c).h1 = none ∧ (t.core c).h2 = none ∧
        (∀ li x, li ∈ s.launchesOn c → s.launches[li]? = some x → x.ended = false →
          ∃ y, t.launches[li]? = some y ∧ y.ended = true ∧ y.status = (if x.status = 0 then 5 else x.status)) ∧
        (∀ li x, li ∉ s.launchesOn c → s.launches[li]? = some x → x.owner ≠ o → t.launches[li]? = some x))

/-! ### Events of the engines -/

/-- R147, R148, R178, R237: COPY_START starts the COPY at the head of a channel once its thread's earlier accesses are done; COPY_DELIVERY of one
byte of an unconverted COPY writes its source byte, as the core's stores have it, at its destination and nowhere else: in host memory, a scratchpad,
device memory, whose line the core's L1 drops (R150), or the mould, in the slice and at the offset of its panel (R121, R138); the write pointer
gains 1, and a COPY whose last byte is delivered leaves the queue. -/
def Sys2Proof.Spec.CopiesDeliverTheirBytes : Prop :=
  ∀ (s : State) (core ch : Nat) (j : CopyJob) (rest : List CopyJob),
    let h := (s.core core).channel ch
    h.q = j :: rest →
    (copyFree s j = true → ∃ t, exec (.copyStart core ch) s = .next t ∧ ((t.core core).channel ch).q = { j with started := true } :: rest ∧
      ((t.core core).channel ch).p = h.p ∧ MemoryKept s t ∧ ∀ i, i ≠ ch → (t.core core).channel i = (s.core core).channel i) ∧
    (copyFree s j = false → exec (.copyStart core ch) s = .next s) ∧
    (∀ (st dt : Target) (x y : Bool), j.started = true → j.held = none → j.conv = none → j.srcAt s core j.got = .ok st x →
      j.dstAt s core j.got = .ok dt y → s.poisonedAt st 1 = false → s.poisonedAt dt 1 = false → s.engineHolds st 1 = false →
      s.inFlight core dt 1 = false → copyDry s j st = false → copyDry s j dt = false → (∀ d a, st = .spad d a → (s.core d).outBusy a 1 = false) →
      let Delivers (at_ : Target) (same : Target → Prop) (t : State) : Prop :=
        exec (.copyDelivery core ch 1) s = .next t ∧ t.byteAt at_ = s.coreByte core st ∧ (∀ a, ¬ same a → t.byteAt a = s.byteAt a) ∧
        ((t.core core).channel ch).p = h.p + 1#64 ∧
        ((t.core core).channel ch).q = if j.len ≤ j.got + 1 then rest else { j with got := j.got + 1 } :: rest
      (j.kind ≠ .sm → (∃ a, dt = .host a) ∨ (∃ d a, dt = .spad d a ∧ d < s.cores.length ∧ a < 0x800000 ∧ s.generators d = []) →
        ∃ t, Delivers dt (fun a => a = dt) t) ∧
      (∀ pa p, j.kind ≠ .sm → dt = .dev pa → s.place pa = some p →
        ∃ t, Delivers dt (fun a => ∃ b q, a = .dev b ∧ s.place b = some q ∧ q.cell = p.cell) t ∧ (t.core core).l1Has pa = false) ∧
      (j.kind = .sm →
        let row := panelRow j.f j.dst.toNat
        let e := (panelShape j.f j.dst.toNat).2
        let slice := j.dst.toNat / 256 % 256 + j.got % row / e
        let off := j.dst.toNat / 65536 + j.got / row * e + j.got % e
        let at_ := Target.spad core (0xC00000 + slice * 65536 + off)
        slice < 256 → off < 65536 → ∃ t, Delivers at_ (fun a => a = at_) t))

/-- R126, R130 to R134, R117: the entry at the head of the matrix queue begins and completes: ACLR leaves its rows zero, MLOOP's last K-step is
that of its formats, AOUT's last row stands in the scratchpad; the flags merge into the front-end thread's astat and the entry is gone. -/
def Obligations.MatrixEntriesPerformInTurn : Prop :=
  ∀ (s : State) (core : Nat) (e : MatrixEntry) (rest : List MatrixEntry) (g : Workgroup) (f : Sheet),
    let k := s.core core
    k.mq = e :: rest → k.wg e.slot = some g → g.front = some f → 0 < f.lanes.length →
    (∃ t, exec (.matrixEntryBegin core) s = .next t ∧ (t.core core).mq = { e with begun := true } :: rest ∧ MemoryKept s t) ∧
    (e.begun = false → exec (.matrixEntryComplete core) s = .next s) ∧
    (e.begun = true →
      let Ends (t : State) (fl : Word) : Prop := exec (.matrixEntryComplete core) s = .next t ∧ (t.core core).mq.length = rest.length ∧
        t.dram = s.dram ∧ (t.core core).mould = k.mould ∧ ∃ f', t.sheetAt (.front core e.slot) = some f' ∧
          (f'.lane 0).astat = (f.lane 0).astat ||| (fl &&& 0x7F#32) ∧ (f'.lane 0).pc = (f.lane 0).pc
      (∀ row n, e.op = .aclr row n → e.next ≤ n → ∃ t, Ends t e.flags ∧ (t.core core).mq = rest ∧ (t.core core).spad = k.spad ∧
        ∀ r col, col < 256 → (t.core core).accAt r col = if row + e.next ≤ r ∧ r < row + n then 0#32 else k.accAt r col) ∧
      (∀ steps m n depth acc abase astride boff ainc binc fw, e.op = .mloop steps m n depth acc abase astride boff ainc binc fw →
        steps = e.next + 1 → e.spoiled = false →
        let r := mloopStep k (k.seen s.free) g.spadBase m n depth acc abase astride boff ainc binc fw e.rnd e.next
        ∃ t, Ends t (e.flags ||| r.2.setWidth 32) ∧ (t.core core).mq = rest ∧ (t.core core).spad = k.spad ∧ (t.core core).acc = r.1.acc) ∧
      (∀ row rows cols dbase dstride scale bias src32 dt rl, e.op = .aout row rows cols dbase dstride scale bias src32 dt rl →
        rows = e.next + 1 → s.generators core = [] →
        let r := aoutRow k (k.seen s.free) g.spadBase (row + e.next) cols scale bias src32 dt rl e.rnd e.sat
        let a := g.spadBase + dbase + e.next * dstride
        a + r.1.length ≤ 0x800000 → (∀ co b ph, (f.lane 0).wait ≠ .blocked (.barw co b ph)) →
        ∃ t, Ends t (e.flags ||| r.2.setWidth 32) ∧ (t.core core).acc = k.acc ∧
          (∀ i, i < r.1.length → t.byteAt (.spad core (a + i)) = r.1.getD i 0#8) ∧
          ∀ x, (∀ i, i < r.1.length → x ≠ .spad core (a + i)) → t.byteAt x = s.byteAt x))

/-- R154 to R156, R180: XFORM_START starts the transform at the head of the queue, and XFORM_END ends it: its elements stand at their places in the
allocation, STATUS holds the code and the number of elements produced, the barrier has one arrival with that number as data, and no other byte
changes (where no AOUT has still to write the scratchpad: R128); a record whose layout is unsound gives code 1 and no element. Before the end any one of its writes may become visible, without
the arrival (that a write becomes visible in whole: log 49). -/
def Obligations.CopiesAndTransformsDeliver : Prop :=
  (∀ (s : State) (core : Nat) (j : XfJob) (rest : List XfJob) (g : Workgroup),
    let k := s.core core
    let base := g.spadBase
    let m := k.seen s.free
    let o := xRun j m base g.spadSize
    let rec_ := readRec m (base + j.dl)
    let ws := xWrites m base (s.free + 2 ^ 23) j o
    k.xq = j :: rest →
    (∃ t, exec (.xformStart core) s = .next t ∧ (t.core core).xq = { j with started := true } :: rest ∧ MemoryKept s t) ∧
    (k.wg j.slot = some g → j.started = false → exec (.xformEnd ⟨core, []⟩) s = .next s) ∧
    (k.wg j.slot = some g → j.started = true → s.generators core = [] → base + g.spadSize ≤ 0x800000 → j.dl + 64 ≤ g.spadSize →
      j.bar + 16 ≤ g.spadSize → k.outPending = false → j.bar + 16 ≤ j.dl ∨ j.dl + 64 ≤ j.bar → xBlur m base j o = false →
      rec_.isQ = false → (∀ w ∈ o.writes, rangesMeet w.1 w.2.length j.bar 16 = false) →
      (rec_.ok = false → o.code = 1 ∧ o.count = 0 ∧ o.writes = []) ∧
      (∀ (i : Nat) (y : Nat × List Byte), ws[i]? = some y → ∃ t, exec (.xformEnd ⟨core, [i]⟩) s = .next t ∧ (t.core core).xq = k.xq ∧
        (∀ b, b < y.2.length → t.byteAt (.spad core (base + y.1 + b)) = y.2.getD b 0#8) ∧
        ∀ x, (∀ b, b < y.2.length → x ≠ .spad core (base + y.1 + b)) → t.byteAt x = s.byteAt x) ∧
      ∃ t, exec (.xformEnd ⟨core, []⟩) s = .next t ∧ (t.core core).xq = rest ∧ t.dram = s.dram ∧
        leNat (t.bytesAt (.spad core (base + j.dl + 48)) 4) = o.code * 2 ^ 28 + o.count ∧
        (let b := (s.barrier core (base + j.bar)).2
         (t.barrier core (base + j.bar)).2 = (BarObj.check { b with arrive := b.arrive + 1#32, data := b.data + BitVec.ofNat 32 o.count }).1) ∧
        (o.writes.Pairwise (fun x y => rangesMeet x.1 x.2.length y.1 y.2.length = false) →
          ∀ w ∈ o.writes, ∀ i, i < w.2.length → t.byteAt (.spad core (base + w.1 + i)) = w.2.getD i 0#8) ∧
        ∀ x, (∀ a, x = .spad core (base + a) → (∀ w ∈ o.writes, a < w.1 ∨ w.1 + w.2.length ≤ a) ∧ (a < j.dl + 48 ∨ j.dl + 52 ≤ a) ∧
          (a < j.bar ∨ j.bar + 16 ≤ a)) → t.byteAt x = s.byteAt x)) ∧
  Spec.CopiesDeliverTheirBytes

/-! ### Events of threads and sheets -/

/-- R19, R26, R74, R76, R357: SPAWN_RECORD_ACCEPT moves the records at the head of a store queue, in lane order, behind those of their bin, or into
a new one; BIN_TIMER_EXPIRE marks a bin that holds records; DECKLE_LAUNCH of a full or expired bin with room makes a sheet in the lowest free
index whose lane k is the bin's record k, at the entry with its words in v0 upward and every other register zero, and takes those records away. -/
def Obligations.SpawnedRecordsBecomeSheets : Prop :=
  (∀ (s : State) (w : Where) (sh : Sheet) (e : SqEntry) (rest : List SqEntry) (slot : Nat) (entry : Word) (width cc : Nat) (code : DWord) (g : Workgroup),
    let k := s.core (wCore w)
    let recs := e.lanes.map fun x => recordOf x.bytes
    let takes (b : Bin) : Bool := b.accepts g g.launch g.flat entry width cc code
    s.sheetAt w = some sh → sh.sq = e :: rest → e.kind = .spawn entry width cc code → e.lanes ≠ [] → s.wgSlot w = some slot →
    k.wg slot = some g →
    (∀ x ∈ e.lanes, sh.mayAccept e x.lane = true) → (∀ y ∈ rest, y.id ≠ e.id) → k.vatUsed + recs.length ≤ 16384 →
    (∀ (i : Nat) (b : Bin), k.bins[i]? = some b → takes b = true →
      ∃ t sh', exec (.spawnRecordAccept w) s = .next t ∧ t.sheetAt w = some sh' ∧ sh'.sq = rest ∧ RegsKept sh sh' ∧ MemoryKept s t ∧
        (t.core (wCore w)).bins[i]? = some { b with recs := b.recs ++ recs } ∧
        ∀ (j : Nat) (b' : Bin), k.bins[j]? = some b' → takes b' = false → (t.core (wCore w)).bins[j]? = some b') ∧
    ((∀ b ∈ k.bins, takes b = false) → k.bins.length < 64 →
      ∃ t sh', exec (.spawnRecordAccept w) s = .next t ∧ t.sheetAt w = some sh' ∧ sh'.sq = rest ∧ RegsKept sh sh' ∧ MemoryKept s t ∧
        (t.core (wCore w)).bins = k.bins ++ [⟨g.launch, g.flat, entry, width, cc, code, recs, false⟩])) ∧
  (∀ (s : State) (core bin : Nat) (b : Bin), (s.core core).bins[bin]? = some b →
    (b.recs ≠ [] → (s.core core).binSlot b ≠ none → ∃ t, exec (.binTimerExpire core bin) s = .next t ∧ MemoryKept s t ∧
      (t.core core).bins = (s.core core).bins.set bin { b with expired := true }) ∧
    (b.recs = [] → exec (.binTimerExpire core bin) s = .next s) ∧
    (∀ slot g i, (s.core core).binSlot b = some slot → (s.core core).wg slot = some g → g.freeSheet = some i → b.recs ≠ [] →
      b.width ≤ b.recs.length ∨ b.expired = true → (s.core core).switch = none → (s.core core).quadFits (i % 4) [(b.width, b.c)] = true →
      ∃ t sh, exec (.deckleLaunch core bin) s = .next t ∧ t.sheetAt (.sheet core slot i) = some sh ∧ sh.kind = .sheet ∧ sh.width = b.width ∧
        sh.c = b.c ∧ sh.code = b.code ∧ sh.lanes.length = b.width ∧
        (∀ (l : Nat) (r : SpawnRec), l < b.width → b.recs[l]? = some r → (sh.lane l).live = true ∧ (sh.lane l).pc = b.entry ∧ (sh.lane l).wait = .ready ∧
          (sh.lane l).join = r.join ∧ EntryRegs sh l r.words) ∧
        (∀ l, b.recs.length ≤ l → (sh.lane l).live = false) ∧
        (t.core core).bins = (if b.recs.length ≤ b.width then (s.core core).bins.eraseIdx bin
          else (s.core core).bins.set bin { b with recs := b.recs.drop b.width, expired := false }) ∧
        (∀ a j, (a, j) ≠ (slot, i) → t.sheetAt (.sheet core a j) = s.sheetAt (.sheet core a j)) ∧ MemoryKept s t) ∧
    (b.recs.length < b.width → b.expired = false → exec (.deckleLaunch core bin) s = .next s))

/-- R65, R124, R127, R142, R152, R217, R254: BLOCK_RELEASE of a blocked lane: LWAIT, MSYNC and TLBI let the lanes that wait there go on once what they
wait for is done; MRDY then counts its arrival with the reference that its vote took; BARW's lanes go on whose object's PHASE differs from
their bit; CNTW's lanes receive the status of the complete record, as an acquire at .dev. Before that nothing changes. -/
def Sys2Proof.Spec.BlocksEnd (s : State) (w : Where) (sh : Sheet) (g : Workgroup) (l : Nat) (b : Block) : Prop :=
  let i := Instr.blockRelease w l
  let waits (k : Nat) : Prop := (sh.lane k).live = true ∧ (sh.lane k).pc = (sh.lane l).pc ∧ (sh.lane k).wait = .blocked b
  let on (sh' : Sheet) : Prop := StoresKept sh sh' ∧
    ∀ k, (waits k → sh'.lane k = (sh.lane k).stepOn false) ∧ (¬ waits k → sh'.lane k = sh.lane k)
  let ends (done : Bool) : Prop :=
    (done = false → exec i s = .next s) ∧ (done = true → ∃ sh', exec i s = .next (s.putSheet w sh') ∧ on sh')
  (b = .lwait → ends sh.localDone) ∧ (∀ t, b = .msync t → ends (s.msyncDone w t)) ∧
  (∀ sc ranges, b = .tlbi sc ranges → ends (s.tlbiDone w sc ranges)) ∧
  (∀ ref before act, b = .mrdy ref before act →
    (s.mrdyMay w sh before act = false → exec i s = .next s) ∧
    (s.mrdyMay w sh before act = true → ∃ t sh' g', exec i s = .next t ∧ t.sheetAt w = some sh' ∧ on sh' ∧ t.wgOf w = some g' ∧
      g'.orc = g.orc + 1 ∧ g'.agw = some ref)) ∧
  (∀ co a ph, b = .barw co a ph → sh.gen = none → (s.core co).outPending = false → ∃ sh', exec i s = .next (s.putSheet w sh') ∧ StoresKept sh sh' ∧
    ∀ k, sh'.lane k = match (sh.lane k).wait with
      | .blocked (.barw _ a' ph') => if (sh.lane k).live = true ∧ ((s.core co).imageByte (a' + 8)).getLsbD 0 ≠ ph' then (sh.lane k).stepOn false
          else sh.lane k
      | _ => sh.lane k) ∧
  ∀ lv id d act, b = .cntw lv id d act →
    (cntwStatus s w lv id.toNat = none → exec i s = .next s) ∧
    ∀ st ew p r, cntwStatus s w lv id.toNat = some st → d = .v ew p r → ∃ t sh', exec i s = .next t ∧ t.sheetAt w = some sh' ∧
      (t.core (wCore w)).l1 = [] ∧ (∀ k, (waits k → (sh'.lane k).pc = (sh.lane k).pc + 12#32 ∧ (sh'.lane k).wait = .ready) ∧
        (¬ waits k → (sh'.lane k).pc = (sh.lane k).pc ∧ (sh'.lane k).wait = (sh.lane k).wait)) ∧
      ∀ k j, (waits k ∧ k ∈ act → sh'.vReg k j = vAfter d j (BitVec.ofNat 64 st) (sh.vReg k j)) ∧
        (¬ (waits k ∧ k ∈ act) → sh'.vReg k j = sh.vReg k j)

/-- R54, R62, R65, R68, R253, R317: SHEET_END of a thread or sheet without live lane and queued store takes it out of its workgroup; the last one
of a workgroup that has nothing else left ends its unit with status OK. GROUP_FORCED adds to a waiting group's count, the largest of its lanes', and past
ftime it forces the group, unless its launch has no progress promise. BLOCK_RELEASE lets lanes go on whose condition holds, and those
that wait at their word, for a register, a queue or an earlier access, issue it again once that has come (R28, R54). -/
def Obligations.SheetsEndAndWaitingGroupsGoOn : Prop :=
  ∀ (s : State) (w : Where) (c slot : Nat) (sh : Sheet) (g : Workgroup),
    wCore w = c → wSlot w = some slot → s.sheetAt w = some sh → (s.core c).wg slot = some g →
    (sh.isOver = false → exec (.sheetEnd w) s = .next s) ∧
    (∀ v sv, sh.isOver = true → v ≠ w → wCore v = c → wSlot v = some slot → s.sheetAt v = some sv →
      ∃ t, exec (.sheetEnd w) s = .next t ∧ t.sheetAt w = none ∧ t.sheetAt v = some sv ∧ t.launches = s.launches ∧
        t.counters = s.counters ∧ MemoryKept s t) ∧
    (∀ x : Launch, sh.isOver = true → s.unitOver c slot (g.drop w) = true → s.launches[g.launch]? = some x → x.ended = false →
      ∃ t y, exec (.sheetEnd w) s = .next t ∧ t.launches[g.launch]? = some y ∧ y.units = x.units - 1 ∧ y.status = x.status ∧
        (y.ended = true ↔ x.units ≤ 1) ∧ (⟨x.owner, .unit, g.launch, g.flat, x.die, 0, 0⟩ : Counter) ∈ t.counters) ∧
    (∀ l n, (sh.lane l).canIssue = true → (sh.lane l).slot = none → eligible sh l = true →
      ∃ sh', exec (.groupForced w l n) s = .next (s.putSheet w sh') ∧ StoresKept sh sh' ∧
        ∀ k, sh'.lane k = if k ∈ groupOf sh l then
          { sh.lane k with waited := groupWaited sh l + n, forced := g.promise && decide (g.ftime < groupWaited sh l + n) } else sh.lane k) ∧
    (∀ l on, (sh.lane l).live = true → (sh.lane l).wait = .stalled on →
      (s.stallOver w sh on = false → exec (.blockRelease w l) s = .next s) ∧
      (s.stallOver w sh on = true → ∃ sh', exec (.blockRelease w l) s = .next (s.putSheet w sh') ∧ StoresKept sh sh' ∧
        ∀ k, sh'.lane k = if (sh.lane k).live = true ∧ (sh.lane k).pc = (sh.lane l).pc ∧ (sh.lane k).wait = .stalled on then
          { sh.lane k with wait := .ready } else sh.lane k)) ∧
    (∀ l b, (sh.lane l).live = true → (sh.lane l).wait = .blocked b → Spec.BlocksEnd s w sh g l b)

/-- R88, R92: GENERATOR_ROUND, once a switch is pending, no producer group holds a slot and every yielded entry is in the felt, freezes the
producer lanes where they stand, their wait counts at 0 (R68), and starts the first min(F, W) lanes at CENT; GENERATOR_RESUME lets every frozen lane go on at its word, with
the registers and predicates that its lane holds now; one that waited at its word issues it again if that wait is over, and the waits on masks
and members look again (R71, R72). -/
def Obligations.GeneratorsSwitchBodies : Prop :=
  ∀ (s : State) (w : Where) (sh : Sheet) (g : Gen), s.sheetAt w = some sh → sh.gen = some g →
    (g.body = .switching → roundReady sh = true → ∃ sh', exec (.generatorRound w) s = .next (s.putSheet w sh') ∧ StoresKept sh sh' ∧
      RoundStarts g (min g.f sh.width) sh sh' ∧ ∀ g', sh'.gen = some g' → g'.f = g.f ∧ g'.a = g.a ∧ g'.h = g.h ∧
        (g.frozen = [] → g'.frozen = sh.lanes.mapIdx fun l t => (l, { t with waited := 0, forced := false }))) ∧
    (g.body ≠ .switching ∨ roundReady sh = false → exec (.generatorRound w) s = .next (s.putSheet w sh)) ∧
    (g.resume = true → ∃ sh' g', exec (.generatorResume w) s = .next (s.putSheet w (xSettle s w sh'.settle)) ∧ StoresKept sh sh' ∧ sh'.gen = some g' ∧
      g'.resume = false ∧ g'.frozen = [] ∧ g'.body = g.body ∧ ∀ l i old, l < sh.lanes.length → (g.frozen.find? fun x => x.1 == l) = some (i, old) →
        (sh'.lane l).pc = old.pc ∧ (sh'.lane l).live = old.live ∧ (sh'.lane l).wait = (match old.wait with
          | .stalled on => if on.near sh' then .ready else .stalled on
          | x => x) ∧
        (sh'.lane l).p = (sh.lane l).p ∧ (sh'.lane l).runPos = old.runPos) ∧
    (g.resume = false → exec (.generatorResume w) s = .next (s.putSheet w sh))

/-! ### Events of time, of owners on cores and of placement -/

namespace Sys2Proof.Spec

open Sys2Proof Sys2Proof.Machine

/-- A core's holder has been stopped and saved for the next owner: nothing of it runs but its save handler, in lane 0 (R233, log 12). -/
def Saving (s t : State) (c next : Nat) (o : Owner) : Prop :=
  (t.core c).switch = some (.saving next) ∧ (∀ slot, (t.core c).wg slot = none) ∧ (t.core c).events = [] ∧ (t.core c).misses = [] ∧
  (∃ v, (t.core c).saved = some v ∧ (∀ slot, (v.wgs[slot]?).join.isSome = ((s.core c).wg slot).isSome) ∧ v.bins = (s.core c).bins ∧
    v.launchQ = (s.core c).launchQ ∧ v.tags = (s.core c).tags) ∧
  ∃ e, e.cause = .save ∧ e.args = [(0, 0#64, 0#32, 0#32, 0#32)] ∧
    HandlerStarts t c 1 e 5 (o.hentry.getD 5 0) false fun _ => [0#32, 0#32, 0#32]

/-- A core has been wiped and waits for the next owner (R233 step 5). -/
def Wiped (t : State) (c next : Nat) : Prop :=
  let k := t.core c
  k.owner = none ∧ k.switch = some (.saved next) ∧ (∀ slot, k.wg slot = none) ∧ k.h1 = none ∧ k.h2 = none ∧ k.spad = [] ∧ k.acc = [] ∧
  k.mould = [] ∧ k.tags = [] ∧ k.tlb = [] ∧ k.misses = [] ∧ k.events = [] ∧ k.bins = [] ∧ ∀ ch, (k.channel ch).p = 0#64

end Sys2Proof.Spec

/-- R232, R236, R258: QUANT_TICK takes 5 ns from the holder's quantum and renews it as it runs out while no other owner's work waits; between the
wipe and the load the time is the next owner's debt. TOKEN_TICK fills the owner's two buckets by their rates, kept to 1/256 byte, and never
above their depths; a bucket stays dry for others while a handler waits for it. -/
def Sys2Proof.Spec.QuantaAndTokensTick : Prop :=
  (∀ (s : State) (c id : Nat) (o : Owner), c < s.cores.length → (s.core c).owner = some id → s.owner id = some o →
    let q := (s.core c).quant - 5
    ∃ t, exec (.quantTick c) s = .next t ∧ MemoryKept s t ∧ t.owners = s.owners ∧ t.launches = s.launches ∧
      (s.othersWant c = true ∨ 0 < q → (t.core c).quant = q) ∧
      (s.othersWant c = false → q ≤ 0 → (t.core c).quant = q + o.quantum) ∧ ∀ d, d ≠ c → t.core d = s.core d) ∧
  (∀ (s : State) (c : Nat), (s.core c).owner = none →
    ((∀ next, (s.core c).switch ≠ some (.saved next)) → exec (.quantTick c) s = .next s) ∧
    ∀ next b, (s.core c).switch = some (.saved next) → s.owner next = some b → ∃ t x, exec (.quantTick c) s = .next t ∧ t.cores = s.cores ∧
      MemoryKept s t ∧ t.owner next = some x ∧ SMap.get 0 x.debts c = SMap.get 0 b.debts c - 5) ∧
  (∀ (s : State) (id : Nat) (o : Owner), s.owner id = some o → (∀ x ∈ s.joins, x.1 ≠ id) →
    ∃ t x, exec (.tokenTick id) s = .next t ∧ t.owner id = some x ∧ MemoryKept s t ∧ t.cores = s.cores ∧
      x.hbmDry = (decide (x.hbm ≤ 0) || (o.hbmDry && s.handlerWaits id false)) ∧
      x.lnkDry = (decide (x.lnk ≤ 0) || (o.lnkDry && s.handlerWaits id true)) ∧
      x.hbm = min (o.hbm + (o.hbmRate * 5 * 256 / 1000 : Nat)) (256 * o.hbmDepth : Nat) ∧
      x.lnk = min (o.lnk + (o.lnkRate * 5 * 256 / 1000 : Nat)) (256 * o.lnkDepth : Nat) ∧ x.saves = o.saves ∧ x.windows = o.windows ∧
      ∀ i, i ≠ id → t.owner i = s.owner i)

/-- R228, R231 to R235, R258, Tables 4.1 and 16.11: the cores of one quire go together or not at all; OWNER_SWITCH stops and saves a holder that must hand its core over and starts its save handler, and gives a
core that waits for an owner to it with its quantum less its debt, starting its restore handler; a core that nobody else wants goes along with the one its quire's holder loses; a handler that has run up a debt of 20,000 ns is
stopped and saved; a save that has used up its grace ends as a hard save into a free area, or with status SAVEFAIL where there is none. That the
save and restore handlers run in lane 0 is log 12's. -/
def Obligations.CoresPassFromOwnerToOwner : Prop :=
  (∀ (s : State) (c id next : Nat) (a b : Owner), c < s.cores.length → s.owner next = some b →
    let k := s.core c
    (k.switch = some (.saved next) ∨ (k.switch = none ∧ k.owner = none ∧ s.wants b c = true ∧ s.together b c = [c]) → next = b.id →
      ((b.saves.find? fun e => e.1 == c).bind fun e => e.2.hard) = none →
      ∃ t x e, exec (.ownerSwitch c next) s = .next t ∧ (t.core c).owner = some next ∧ (t.core c).switch = some .restoring ∧
        (t.core c).quant = (b.quantum : Int) + SMap.get 0 b.debts c ∧ t.owner next = some x ∧ SMap.get 0 x.debts c = 0 ∧
        e.cause = .save ∧ e.args = [(0, 0#64, 0#32, 0#32, 0#32)] ∧
        HandlerStarts t c 1 e 6 (b.hentry.getD 6 0) true fun _ => [0#32, 0#32, 0#32]) ∧
    (k.owner = some id → s.owner id = some a → id ≠ next →
      (k.switch = none → s.wants b c = true → s.handsOver c b = true → k.stall = none →
        (s.coreQuiet c = true → s.together b c = [c] → ∃ t, exec (.ownerSwitch c next) s = .next t ∧ Saving s t c next a) ∧
        (s.coreQuiet c = true → (∀ d ∈ s.together b c, d ≠ c → (s.core d).switch = none ∧ (s.core d).owner = some id ∧ s.othersWant d = false ∧
            (s.core d).handling = false ∧ s.coreQuiet d = true) → ∃ t, exec (.ownerSwitch c next) s = .next t ∧ ∀ d ∈ s.together b c,
              (t.core d).switch = some (.saving next) ∨ (t.core d).switch = some (.saved next)) ∧
        (s.coreQuiet c = false ∨ (∃ d ∈ s.together b c, s.maySwitch b c d = false) → exec (.ownerSwitch c next) s = .next s)) ∧
      (k.switch = none → s.wants b c = false ∨ s.handsOver c b = false → exec (.ownerSwitch c next) s = .next s) ∧
      (k.switch = none → k.handling = true → k.stall = none →
        (k.quant ≤ -20000 → s.coreQuiet c = true → s.nextOwner c = some b → next = b.id → s.together b c = [c] →
          ∃ t, exec (.handlerDebtLimit c) s = .next t ∧ Saving s t c next a) ∧
        (-20000 < k.quant → exec (.handlerDebtLimit c) s = .next s)) ∧
      (∀ v, k.switch = some (.saving next) → k.saved = some v →
        (k.h1 = none → exec (.saveGraceExpire c) s = .next s) ∧
        (k.h1 ≠ none → ∃ t, exec (.saveGraceExpire c) s = .next t ∧ Wiped t c next ∧
          (a.freeArea = none → ∀ li x, li ∈ v.launches → s.launches[li]? = some x → x.ended = false →
            ∃ y, t.launches[li]? = some y ∧ y.ended = true ∧ y.status = if x.status = 0 then 6 else x.status) ∧
          (∀ area, a.freeArea = some area → t.launches = s.launches ∧ ∃ x v', t.owner id = some x ∧ x.held = a.held ++ [area] ∧
            SMap.get 0 x.debts c = min k.quant 0 ∧ (x.saves.find? fun e => e.1 == c) = some (c, v') ∧ v'.hard = some area ∧ v'.wgs = v.wgs))))) ∧
  Spec.QuantaAndTokensTick

/-- R246, R250, R259, R260: PLACE_QUIRE of a waiting quire that no other goes ahead of starts one workgroup on each of its cores, with its rank, its
place in the grid, its allocation, its sheets' lanes live at their entry with ARG in w0:w1, after an acquire at .sys. PREEMPT moves a quiet
workgroup out of its slot for a waiting quire of its owner that ranks above it, as restored work, fits nowhere, does fit once the quires below it that
are needed are saved, and is then still ahead of them (the ranks beyond R250's keys, and which quires are needed: log 14; the lowest slot and hole: log 30). WATCHDOG_EXPIRE counts while the launch is resident and ends it at its limit. -/
def Obligations.QuiresArePlacedAndPreempted : Prop :=
  (∀ (s : State) (launch quire : Nat) (cores : List Nat) (l : Launch) (o : Owner),
    let w : Waiting := ⟨launch, quire, []⟩
    let p := l.pkt
    let ahead := ∃ v ∈ s.waiting, v ≠ w ∧ s.dieOf v = s.dieOf w ∧ (s.fit v).isSome = true ∧ ranksBelow (s.rankOf v) (s.rankOf w) = true
    (s.waiting.find? fun v => v.launch == launch && v.quire == quire) = some w → s.launches[launch]? = some l → s.owner l.owner = some o →
    (ahead ∨ s.fit w ≠ some cores → exec (.placeQuire launch quire cores) s = .next s) ∧
    (¬ ahead → s.fit w = some cores → cores.Nodup →
      ∃ t, exec (.placeQuire launch quire cores) s = .next t ∧ MemoryKept s t ∧
        (∃ y, t.launches[launch]? = some y ∧ y.unplaced = l.unplaced.filter (fun q => q != quire) ∧ y.ended = l.ended ∧ y.status = l.status) ∧
        ∀ (i c slot base : Nat) (tags : List Nat), cores[i]? = some c → (s.core c).room o p = some (slot, base, tags) → 8 ≤ (s.core c).wgs.length →
          let flat := quire * p.qn + i
          (t.core c).l1 = [] ∧ ∃ g, (t.core c).wg slot = some g ∧ g.launch = launch ∧ g.quire = quire ∧ g.qrank = i ∧ g.flat = flat ∧
            g.owner = l.owner ∧ g.spadBase = base ∧ g.spadSize = p.spad ∧ g.tagIdx = tags ∧
            g.x = BitVec.ofNat 32 (flat % p.gridX) ∧ g.y = BitVec.ofNat 32 (flat / p.gridX % p.gridY) ∧
            g.z = BitVec.ofNat 32 (flat / (p.gridX * p.gridY)) ∧ (g.front = none ↔ p.fentry = 0xFFFF) ∧
            ∀ n, n < 16 → (p.sheets ≤ n → t.sheetAt (.sheet c slot n) = none) ∧ (n < p.sheets → ∃ sh, t.sheetAt (.sheet c slot n) = some sh ∧
              sh.width = p.width ∧ sh.c = p.regs ∧ sh.code = p.code ∧ sh.uReg 0 = ⟨loWord p.arg, []⟩ ∧ sh.uReg 1 = ⟨hiWord p.arg, []⟩ ∧
              sh.lanes.length = p.width ∧ ∀ k, k < p.width → (sh.lane k).live = true ∧ (sh.lane k).wait = .ready ∧
                (sh.lane k).pc = BitVec.ofNat 32 (12 * p.sentry) ∧ ∀ j, sh.vReg k j = ⟨0#32, []⟩))) ∧
  (∀ (s : State) (core slot : Nat) (g : Workgroup), (s.core core).wg slot = some g →
    let ms := s.quireMembers core g
    ((∀ v ∈ s.waiting, s.makesRoom v ms = false) → exec (.preempt core slot) s = .next s) ∧
    (∀ v, s.makesRoom v ms = true → s.fit v = none ∧ ((s.withSaved (s.lowerQuires v)).fit v).isSome = true ∧ ms ∈ s.lowerQuires v) ∧
    (∀ v q, q ∈ s.lowerQuires v → ∃ c i h, (s.core c).wg i = some h ∧ i < 8 ∧ q = s.quireMembers c h ∧ h.portal = none ∧
      (∃ l, s.launches[v.launch]? = some l ∧ l.owner = h.owner) ∧ (v.launch ≠ h.launch ∨ v.quire ≠ h.quire) ∧
      ranksBelow ((s.rankOf v).drop 2) ((s.rankOf ⟨h.launch, h.quire, [(0, 0)]⟩).drop 2) = true) ∧
    (∀ v, s.lowerQuires v = [ms] → s.fit v = none → ((s.withSaved [ms]).fit v).isSome = true →
      s.makesRoom v ms = (s.withSaved [ms]).waiting.all fun x =>
        s.waiting.contains x || !ranksBelow ((s.withSaved [ms]).rankOf x) ((s.withSaved [ms]).rankOf v)) ∧
    ((∃ v ∈ s.waiting, s.makesRoom v ms = true) → g.portal = none → ms = [(core, slot)] → s.memberQuiet (core, slot) = true →
      ∃ t i g', exec (.preempt core slot) s = .next t ∧ (t.core core).wg slot = none ∧ 8 ≤ i ∧ (t.core core).wg i = some g' ∧
        g'.launch = g.launch ∧ g'.flat = g.flat ∧ g'.spadBase = g.spadBase ∧ g'.sheets.length = g.sheets.length ∧
        ∀ j, j ≠ slot → j ≠ i → ((t.core core).wg j).isSome = ((s.core core).wg j).isSome)) ∧
  (∀ (s : State) (launch us : Nat) (l : Launch), s.launches[launch]? = some l → l.ended = false →
    (s.resident launch = false → exec (.watchdogExpire launch us) s = .next s) ∧
    (s.resident launch = true → ∃ t y, exec (.watchdogExpire launch us) s = .next t ∧ t.launches[launch]? = some y ∧
      y.elapsed = l.elapsed + us ∧ (l.elapsed + us < l.pkt.watchdog → y.ended = false ∧ y.status = l.status ∧ t.cores = s.cores) ∧
      (l.pkt.watchdog ≤ l.elapsed + us → y.ended = true ∧ y.unplaced = [] ∧ (y.status = if l.status = 0 then 2 else l.status) ∧
        ∀ c slot g, (t.core c).wg slot = some g → g.launch ≠ launch)))

/-! ### Events of the queues -/

namespace Sys2Proof.Spec

open Sys2Proof Sys2Proof.Machine

/-- One queue becomes another, and nothing else of the queues, the cores or memory changes. -/
def QueueOnly (s t : State) (q : Nat) (u' : Queue) : Prop :=
  t.queues[q]? = some u' ∧ (∀ j, j ≠ q → t.queues[j]? = s.queues[j]?) ∧ t.cores = s.cores ∧ t.dram = s.dram ∧ t.hostMem = s.hostMem ∧
  t.owners = s.owners

/-- A packet is complete with a status: the queue goes on behind it, a failure stands in QERR with the packet's index, and the first status other
than OK is kept (R242, R244, R248). -/
def done (u : Queue) (st : Nat) : Queue :=
  { u with qread := u.qread + 1#32, wait := .none, qerr := if st = 0 then u.qerr else BitVec.ofNat 32 (st * 2 ^ 24 + u.qread.toNat % 2 ^ 24),
           firstStatus := if u.firstStatus = 0 then st else u.firstStatus, enable := u.enable && !u.closing, closing := false }

end Sys2Proof.Spec

/-- R242, R243, R262: QWRITE takes the host's index, and one more than the ring ahead of QREAD stops the queue with BADPACKET in QERR; QCTL_ENABLE
turns a queue with a sound geometry on for its owner and off again, at once unless a packet is being parsed; QCTL_RESET discards the packets not
yet parsed; QBASE and QSIZE take a write only while the queue is off, DEVNUM and PLIMIT within their ranges, the boot window while the ROM waits. That a queue
which none of its owner bound is bound as it is enabled is log 15's, that a PLIMIT out of range is dropped log 16's, that a stop clears ENABLE log 21's. -/
def Obligations.QueueRegistersFollowTheHost : Prop :=
  ∀ (s : State) (q : Nat) (u : Queue), s.queues[q]? = some u → q < 256 →
    (∀ val : Word, ∃ t u', exec (.qwrite q val) s = .next t ∧ QueueOnly s t q u' ∧ u'.qwrite = val ∧ u'.qread = u.qread ∧
      (u.enable = true → 2 ^ (u.qsize.toNat % 32) < (val - u.qread).toNat → u'.enable = false ∧
        u'.qerr = BitVec.ofNat 32 (0x0A * 2 ^ 24 + u.qread.toNat % 2 ^ 24)) ∧
      (u.enable = false ∨ (val - u.qread).toNat ≤ 2 ^ (u.qsize.toNat % 32) → u' = { u with qwrite := val })) ∧
    (∀ id o, s.owner ((u.owner).getD id) = some o → u.enable = false →
      (o.geometryOk u.qbase u.qsize.toNat = true → (u.qwrite - u.qread).toNat ≤ 2 ^ (u.qsize.toNat % 32) →
        ∃ t, exec (.qctlEnable q true id) s = .next t ∧ QueueOnly s t q { u with owner := some o.id, enable := true, closing := false }) ∧
      (o.geometryOk u.qbase u.qsize.toNat = false →
        ∃ t, exec (.qctlEnable q true id) s = .next t ∧ QueueOnly s t q { u with
          owner := some o.id, qerr := BitVec.ofNat 32 (0x0A * 2 ^ 24 + u.qread.toNat % 2 ^ 24) })) ∧
    (∀ id, ∃ t u', exec (.qctlEnable q false id) s = .next t ∧ QueueOnly s t q u' ∧ u'.qread = u.qread ∧
      (u.wait = .none ∨ (∃ es, u.wait = .fence es) → u'.enable = false ∧ u'.wait = .none) ∧
      ((∃ li, u.wait = .serial li) ∨ (∃ n, u.wait = .signal n) ∨ u.wait = .flow → u' = { u with closing := u.enable })) ∧
    (∃ t u', exec (.qctlReset q) s = .next t ∧ QueueOnly s t q u' ∧ u'.qread = u.qwrite ∧ u'.wait = .none ∧ u'.qbase = u.qbase) ∧
    (∀ bs : List Byte,
      (bs.length = 8 → ∃ t, exec (.registerWrite (64 * q) bs) s = .next t ∧
        QueueOnly s t q (if u.enable then u else { u with qbase := BitVec.ofNat 64 (leNat bs) })) ∧
      (bs.length = 4 → ∃ t, exec (.registerWrite (64 * q + 0x10) bs) s = .next t ∧
        QueueOnly s t q (if u.enable then u else { u with qsize := BitVec.ofNat 32 (leNat bs % 32) })) ∧
      (bs.length = 4 → exec (.registerWrite 0x100018 bs) s = .next { s with mgmt := { s.mgmt with devnum := leNat bs % 64 } }) ∧
      (bs.length = 4 → exec (.registerWrite 0x100020 bs) s = .next (if s.variant.capRange.1 ≤ leNat bs ∧ leNat bs ≤ s.variant.capRange.2 then
        { s with mgmt := { s.mgmt with plimit := leNat bs } } else s)) ∧
      (∀ off, off + bs.length ≤ 0x1000000 → s.mgmt.bootstat = .waiting →
        ∃ t, exec (.registerWrite (0x2000000 + off) bs) s = .next t ∧ (∀ i, i < bs.length → t.mgmt.bootSram.get (off + i) = bs.getD i 0#8) ∧
          ∀ a, (a < off ∨ off + bs.length ≤ a) → t.mgmt.bootSram.get a = s.mgmt.bootSram.get a) ∧
      (∀ off, off + bs.length ≤ 0x1000000 → s.mgmt.bootstat ≠ .waiting → exec (.registerWrite (0x2000000 + off) bs) s = .next s))

/-- R242, R244 to R249, R251: a well-formed packet at a queue's read index acts and completes: a LAUNCH records a launch, or its failure; a SERIAL one
holds the queue until that launch has ended; a FENCE completes once each of its words has been found to pass its test; a SIGNAL stores or adds
its value, after every launch of its queue if it says so, and after the accesses of its owner that were on their way beyond the module as it was read; a CHAIN moves the queue to its new ring. A packet that is not well-formed completes as
BADPACKET and does nothing else. A ring that QWRITE has then overrun stops its queue (log 21). -/
def Obligations.PacketsActInQueueOrder : Prop :=
  ∀ (s : State) (q : Nat) (u : Queue) (o : Owner) (bs : List Byte), s.queues[q]? = some u → s.packet q = some (o, bs) → s.hostDeny = [] →
    let r := s.parsing q
    (u.wait = .none → packetOk s o bs = false → ∃ t, exec (.badPacket q) s = .next t ∧ QueueOnly r t q (done u 0x0A) ∧ t.launches = s.launches) ∧
    (packetOk s o bs = true → exec (.badPacket q) s = .next s) ∧
    (u.wait = .none → pktField bs 0 4 = 4 → (pktField bs 0x10 4 < 2 ∨ 16 < pktField bs 0x10 4 ∨ pktField bs 8 8 % 64 ≠ 0 ∨
        o.formOk (pktAddr bs 8) (64 * 2 ^ pktField bs 0x10 4) 64 = false) →
      ∃ t u', exec (.badPacket q) s = .next t ∧ QueueOnly r t q u' ∧ u' = done u 0x0A ∧ u'.qbase = u.qbase ∧ u'.qsize = u.qsize ∧
        exec (.chainPacket q) s = .next s) ∧
    (u.wait = .none → packetOk s o bs = true → pktField bs 0 4 = 1 →
      let li := s.launches.length
      let p := launchFields bs
      ∃ t l, exec (.launchPacket q) s = .next t ∧ t.launches[li]? = some l ∧ l.owner = o.id ∧ l.pkt = p ∧ l.queue = some q ∧
        l.index = u.qread.toNat ∧ t.cores = s.cores ∧ t.dram = r.dram ∧ t.hostMem = s.hostMem ∧
        (launchStatus o bs = 0 → l.ended = false ∧ l.status = 0 ∧ l.units = p.gridX * p.gridY * p.gridZ ∧
          l.unplaced = List.range (p.gridX * p.gridY * p.gridZ / p.qn) ∧
          t.queues[q]? = some (if p.serial then { u with launches := u.launches ++ [li], wait := .serial li }
            else done { u with launches := u.launches ++ [li] } 0)) ∧
        (launchStatus o bs ≠ 0 → l.ended = true ∧ l.status = launchStatus o bs ∧
          t.queues[q]? = some (done { u with launches := u.launches ++ [li] } (launchStatus o bs)))) ∧
    (∀ li l, u.wait = .serial li → s.launches[li]? = some l →
      (l.ended = true → ∃ t, exec (.launchPacket q) s = .next t ∧ QueueOnly s t q (done u 0)) ∧
      (l.ended = false → exec (.launchPacket q) s = .next s)) ∧
    (u.wait = .none → packetOk s o bs = true → pktField bs 0 4 = 2 →
      let x := (fenceEntries bs).foldl (fun x e => x.glance e.target 4) r
      let es := (fenceEntries bs).map fun e => { e with found := e.holds x }
      ∃ t, exec (.fencePacket q) s = .next t ∧
        QueueOnly x t q (if (fenceEntries bs).all (fun e => e.holds x) then done u 0 else { u with wait := .fence es })) ∧
    (∀ es, u.wait = .fence es →
      (∃ t, exec (.fencePacket q) s = .next t ∧ QueueOnly s t q (if es.all (·.found) then done u 0 else u)) ∧
      (let es' := es.map fun e => if e.host then { e with found := e.found || e.holds s } else e
       ∃ t, exec (.fenceHostReread q) s = .next t ∧ QueueOnly s t q (if es'.all (·.found) then done u 0 else { u with wait := .fence es' }))) ∧
    (u.wait = .none → packetOk s o bs = true → pktField bs 0 4 = 3 →
      let all := pktField bs 4 4 % 2 = 1
      let n := if pktField bs 4 4 / 4 % 2 = 1 then 8 else 4
      let ended := ∀ li ∈ u.launches, ∀ l, s.launches[li]? = some l → l.ended = true
      let away := s.awayBefore o.id s.nextId = true
      ((all ∧ ¬ ended) ∨ away → ∃ t, exec (.signalPacket q) s = .next t ∧ QueueOnly r t q { u with wait := .signal s.nextId }) ∧
      (¬ all ∨ ended → ¬ away → pktField bs 8 8 ≥ 2 ^ 63 → pktField bs 0x18 8 = 0 →
        let a := pktField bs 8 8 - 2 ^ 63
        ∃ t u', exec (.signalPacket q) s = .next t ∧ t.queues[q]? = some u' ∧ u'.qread = u.qread + 1#32 ∧ u'.firstStatus = 0 ∧ u'.qerr = u.qerr ∧
          leNat (t.bytesAt (.host a) n) =
            ((if pktField bs 4 4 / 2 % 2 = 1 then leNat (s.bytesAt (.host a) n) else 0) + pktField bs 0x10 8) % 2 ^ (8 * n) ∧
          ∀ x, (∀ i, i < n → x ≠ .host (a + i)) → t.byteAt x = r.byteAt x)) ∧
    (∀ n, u.wait = .signal n → packetOk s o bs = true → pktField bs 0 4 = 3 → pktField bs 4 4 % 2 = 0 → pktField bs 8 8 ≥ 2 ^ 63 →
      (s.awayBefore o.id n = true → ∃ t, exec (.signalPacket q) s = .next t ∧ QueueOnly r t q u) ∧
      (s.awayBefore o.id n = false → ∃ t u', exec (.signalPacket q) s = .next t ∧ t.queues[q]? = some u' ∧ u'.qread = u.qread + 1#32)) ∧
    (u.wait = .none → packetOk s o bs = true → pktField bs 0 4 = 4 → ∃ t u', exec (.chainPacket q) s = .next t ∧ QueueOnly r t q u' ∧
      u'.qbase = pktAddr bs 8 ∧ u'.qsize = BitVec.ofNat 32 (pktField bs 0x10 4) ∧ u'.qread = u.qread + 1#32 ∧ u'.qwrite = u.qwrite ∧
      ((u.qwrite - (u.qread + 1#32)).toNat ≤ 2 ^ pktField bs 0x10 4 →
        u' = { done u 0 with qbase := pktAddr bs 8, qsize := BitVec.ofNat 32 (pktField bs 0x10 4) }) ∧
      (2 ^ pktField bs 0x10 4 < (u.qwrite - (u.qread + 1#32)).toNat → u.closing = false →
        u'.enable = false ∧ u'.qerr = BitVec.ofNat 32 (0x0A * 2 ^ 24 + (u.qread + 1#32).toNat % 2 ^ 24)))

/-- R269, R270, R272: on an X48 a well-formed FLOWSET whose channel is empty binds its flow, with the channel's pointer and zeros in the ring's control
block, and waits while the channel has COPYs; FLOWKILL ends its owner's flow; KEYLOAD puts the key that its blob unwraps to into its slot, or
completes as BADPACKET with the slot unchanged; KEYCLEAR empties the slot. On an N24 each completes as ABSENT. That FLOWKILL of another owner's flow,
or of none, completes with status OK is log 19's. -/
def Obligations.IngestControlBindsFlowsAndKeys : Prop :=
  ∀ (s : State) (q : Nat) (u : Queue) (o : Owner) (bs : List Byte), s.queues[q]? = some u → s.packet q = some (o, bs) → packetOk s o bs = true → s.hostDeny = [] →
    let f := pktField bs
    let r := s.parsing q
    (s.variant = .n24 →
      (f 0 4 = 0x10 → ∃ t, exec (.flowset q) s = .next t ∧ QueueOnly r t q (done u 9) ∧ t.flows = s.flows) ∧
      (f 0 4 = 0x11 → ∃ t, exec (.flowkill q) s = .next t ∧ QueueOnly r t q (done u 9)) ∧
      (f 0 4 = 0x12 → ∃ t, exec (.keyload q) s = .next t ∧ QueueOnly r t q (done u 9) ∧ t.keys = s.keys) ∧
      (f 0 4 = 0x13 → ∃ t, exec (.keyclear q) s = .next t ∧ QueueOnly r t q (done u 9) ∧ t.keys = s.keys)) ∧
    (s.variant = .x48 →
      (∀ c g, f 0 4 = 0x10 → s.flowHome o bs = some (c, g) →
        (((s.core c).channel (f 0x0E 1)).q ≠ [] → ∃ t, exec (.flowset q) s = .next t ∧ QueueOnly r t q { u with wait := .flow } ∧ t.flows = s.flows) ∧
        (((s.core c).channel (f 0x0E 1)).q = [] → s.generators c = [] → g.spadBase + g.spadSize ≤ 0x800000 →
          ∃ t x, exec (.flowset q) s = .next t ∧ t.queues[q]? = some (done u 0) ∧ t.flows = s.flows ++ [x] ∧
            x.idx = f 4 2 ∧ x.port = f 6 1 ∧ x.job = f 8 4 ∧ x.ch = f 0x0E 1 ∧ x.core = c ∧ x.rbase = f 0x18 4 ∧ x.sizeLog = f 0x0D 1 ∧
            x.key = f 0x0C 1 ∧ x.owner = o.id ∧ x.launch = g.launch ∧ x.flat = g.flat ∧ x.p0 = ((s.core c).channel (f 0x0E 1)).p ∧
            (let block := g.spadBase + f 0x18 4 - 64
             leNat (t.bytesAt (.spad c block) 8) = x.p0.toNat ∧ leNat (t.bytesAt (.spad c (block + 8)) 56) = 0 ∧
             ∀ y, (∀ i, i < 64 → y ≠ .spad c (block + i)) → t.byteAt y = r.byteAt y))) ∧
      (f 0 4 = 0x11 → ∃ t, exec (.flowkill q) s = .next t ∧ QueueOnly r t q (done u 0) ∧
        t.flows = s.flows.filter fun x => !(x.idx == f 4 2 && x.owner == o.id)) ∧
      (f 0 4 = 0x12 → let blob := formTarget (pktAddr bs 8)
        let x := r.glance blob 1608
        ∃ t, exec (.keyload q) s = .next t ∧
        (∀ key, Config.unwrapKey s.mgmt.boots (x.bytesAt blob 1608) = some key →
          QueueOnly x t q (done u 0) ∧ SMap.get [] t.keys (f 4 1) = key ∧ ∀ i, i ≠ f 4 1 → SMap.get [] t.keys i = SMap.get [] s.keys i) ∧
        (Config.unwrapKey s.mgmt.boots (x.bytesAt blob 1608) = none → QueueOnly x t q (done u 0x0A) ∧ t.keys = s.keys)) ∧
      (f 0 4 = 0x13 → ∃ t, exec (.keyclear q) s = .next t ∧ QueueOnly r t q (done u 0) ∧ SMap.get [] t.keys (f 4 1) = [] ∧
        ∀ i, i ≠ f 4 1 → SMap.get [] t.keys i = SMap.get [] s.keys i))

/-! ### Events of the outside -/

namespace Sys2Proof.Spec

open Sys2Proof Sys2Proof.Machine

/-- The bytes of an address range of a core's scratchpad, below its accumulators. -/
def inPad (c base n : Nat) (a : Target) : Prop := ∃ i, i < n ∧ a = .spad c (base + i)

/-- A packet lands whole where it fits between the consumer's count and the ring's end, wrapping, and LANDED and the channel's P count it; where it
does not fit it is dropped whole, and DROPS, DROPBYTES and LASTSEQ say so (R157, R181, R271). -/
def PacketLands (s t : State) (f : Flow) (base : Nat) (seq : Word) (pay : List Byte) : Prop :=
  let p := ((s.core f.core).channel f.ch).p
  let size := 2 ^ f.sizeLog
  let bs := leBytes 2 pay.length ++ leBytes 2 f.idx ++ leBytes 4 seq.toNat ++ leBytes 8 s.clock ++ pay ++ List.replicate ((16 - pay.length % 16) % 16) 0#8
  let block := base + f.rbase - 64
  let n (r : State) (off k : Nat) : Nat := leNat (r.bytesAt (.spad f.core (block + off)) k)
  t.flows = s.flows.map (fun x => if x.idx = f.idx then { x with lastSeq := some seq.toNat } else x) ∧
  (p.toNat + bs.length ≤ n s 0 8 + size →
    (∀ i, i < bs.length → t.byteAt (.spad f.core (base + f.rbase + ((p - f.p0).toNat % size + i) % size)) = bs.getD i 0#8) ∧
    n t 0x30 8 = (n s 0x30 8 + 1) % 2 ^ 64 ∧ ((t.core f.core).channel f.ch).p = p + BitVec.ofNat 64 bs.length ∧
    ∀ a, ¬ inPad f.core (base + f.rbase) size a → ¬ inPad f.core (block + 0x30) 8 a → t.byteAt a = s.byteAt a) ∧
  (n s 0 8 + size < p.toNat + bs.length →
    n t 8 8 = (n s 8 8 + 1) % 2 ^ 64 ∧ n t 0x10 8 = (n s 0x10 8 + pay.length) % 2 ^ 64 ∧ n t 0x1C 4 = seq.toNat ∧
    n t 0x18 4 = (if n s 8 8 = 0 then seq.toNat else n s 0x18 4) ∧ ((t.core f.core).channel f.ch).p = p ∧
    ∀ a, ¬ inPad f.core (block + 8) 0x18 a → t.byteAt a = s.byteAt a)

end Sys2Proof.Spec

/-- R175, R261: an access beyond the host's range does nothing (log 23); an inbound write is held as pieces of 256-byte granules. A piece is forwarded behind its
requester's earlier pieces of its route, and, unless relaxed, once none of its earlier unrelaxed pieces of another route is held. A
read stays behind its requester's held writes and the engine's atomics (R172); one of BAR0 finds a queue's registers and
BOOTSTAT, zeros at reserved offsets, and zeros at a portal page, which counts it (R262, R264). -/
def Sys2Proof.Spec.InboundWritesKeepTheirOrder : Prop :=
  (∀ (s : State) (r : Nat) (relaxed : Bool) (pa : Nat) (bs : List Byte), (if s.variant = .x48 then 2 ^ 39 else 2 ^ 38) < pa + bs.length →
    exec (.inboundWrite r relaxed pa bs) s = .next s) ∧
  (∀ (s : State) (r : Nat) (relaxed : Bool) (pa : Nat) (bs : List Byte), pa + bs.length ≤ (if s.variant = .x48 then 2 ^ 39 else 2 ^ 38) →
    ∃ t ps, exec (.inboundWrite r relaxed pa bs) s = .next t ∧ t = { s with inbound := s.inbound ++ ps } ∧ ps.flatMap (·.bytes) = bs ∧
    ∀ x ∈ ps, x.requester = r ∧ x.relaxed = relaxed ∧ x.forwarded = false ∧ pa ≤ x.pa ∧ x.bytes ≠ [] ∧
      x.bytes = (bs.drop (x.pa - pa)).take x.bytes.length ∧ x.pa / 256 = (x.pa + x.bytes.length - 1) / 256) ∧
  (∀ (s : State) (k : Nat) (i : Inbound), s.inbound[k]? = some i →
    let before := (s.inbound.take k).filter fun x => x.requester == i.requester
    let free := (∀ x ∈ before, s.route x.pa = s.route i.pa → x.forwarded = true) ∧
      (i.relaxed = true ∨ ∀ x ∈ before, s.route x.pa ≠ s.route i.pa → x.relaxed = true)
    (free → exec (.inboundWriteForward k) s = .next { s with inbound := s.inbound.set k { i with forwarded := true } }) ∧
    (¬ free → exec (.inboundWriteForward k) s = .next s)) ∧
  ∀ (s : State) (r pa n : Nat),
    ((∀ x ∈ s.inbound, x.requester ≠ r) →
      (s.arrivalWaits pa n = true ∨ (if s.variant = .x48 then 2 ^ 39 else 2 ^ 38) < pa + n → exec (.inboundRead r (.dev pa) n) s = .next s) ∧
      (s.arrivalWaits pa n = false → pa + n ≤ (if s.variant = .x48 then 2 ^ 39 else 2 ^ 38) → ∃ t bs, exec (.inboundRead r (.dev pa) n) s = .next t ∧ t.readBack = s.readBack ++ [bs] ∧
        bs = t.bytesAt (.dev pa) n ∧ t.cores = s.cores ∧ t.inbound = s.inbound ∧ t.flights = s.flights ∧ t.engine = s.engine ∧
        (s.poisonedAt (.dev pa) n = false → bs = s.bytesAt (.dev pa) n ∧ ∀ x, t.byteAt x = s.byteAt x))) ∧
    (∀ x, (∃ x ∈ s.inbound, x.requester = r) → exec (.inboundRead r x n) s = .next s) ∧
    ((∀ x ∈ s.inbound, x.requester ≠ r) →
      (∀ (q : Nat) (u : Queue), s.queues[q]? = some u → q < 256 → exec (.inboundRead r (.bar0 (64 * q)) 48) s = .next { s with readBack := s.readBack ++
        [leBytes 8 u.qbase.toNat ++ leBytes 8 0 ++ leBytes 4 u.qsize.toNat ++ leBytes 4 u.qprio.toNat ++ leBytes 8 0 ++ leBytes 4 u.qwrite.toNat ++
          leBytes 4 u.qread.toNat ++ leBytes 4 (if u.enable then 1 else 0) ++ leBytes 4 u.qerr.toNat] }) ∧
      exec (.inboundRead r (.bar0 0x100008) 8) s = .next { s with readBack := s.readBack ++ [leBytes 8 s.mgmt.bootstat.code] } ∧
      (0x4000 ≤ pa → pa + n ≤ 0x100000 → exec (.inboundRead r (.bar0 pa) n) s = .next { s with readBack := s.readBack ++ [List.replicate n 0#8] }) ∧
      (0x1000000 ≤ pa → pa + n ≤ 0x2000000 → 0 < n → exec (.inboundRead r (.bar0 pa) n) s = .next
        { s with readBack := s.readBack ++ [List.replicate n 0#8], mgmt := { s.mgmt with portalDrop := s.mgmt.portalDrop + 1 } }))

/-- R263, R267: a store that the host refuses is dropped and counted in HOSTREFUSE; a load that it refuses is a POISON consumption, an event of its
lane with SLOT 1 and ACCESS 1; one of the module's own next request stands until that comes. Over a trained link a peer's store arrives whole, its
atomic performs on the value that it finds, and its load brings the bytes back (R177, R296; not a poisoned line: log 38); a flit that fails its CRC
brings nothing. -/
def Sys2Proof.Spec.HostAndPeersAnswer : Prop :=
  (∀ (s : State) (w : Where) (sh : Sheet) (id l k : Nat) (fl : Flight) (a : Nat), s.sheetAt w = some sh →
    (sh.openFill id l = none → (s.flights.findIdx? fun f => decide (f.who = w) && f.seq == id && f.target.isHost) = some k →
      s.flights[k]? = some fl → fl.target = .host a →
      ∃ t, exec (.hostRefuse (.agent w) id l) s = .next t ∧ t.flights = s.flights.eraseIdx k ∧ t.mgmt.hostRefuse = s.mgmt.hostRefuse + 1 ∧
        ∀ x, t.byteAt x = s.byteAt x) ∧
    (∀ f x n sz acc, sh.openFill id l = some (f, x) → x.lane = l → f.kind = .ld sz acc → x.tr = .ok (.host a) n → sh.alive l = true →
      s.loadMay w sh f.id l = true → sh.forward s.variant f.id l (.host a) x.va (sizeBytes sz) = .pass → s.mayRequest w (.host a) = true →
      (∀ co lv, w ≠ .handler co lv) → (s.core (wCore w)).eventRoom = true →
      ∃ t e, exec (.hostRefuse (.agent w) id l) s = .next t ∧ (t.core (wCore w)).events = (s.core (wCore w)).events ++ [e] ∧ e.who = w ∧
        e.tcause.toNat = causeCode .poison + 256 + 4096 ∧ e.fmask = laneMask [l] ∧ e.tpc = f.pc ∧ e.word = f.word ∧
        e.taddr = x.va &&& 0x8000FFFFFFFFFFFF#64 ∧ ∀ y, t.byteAt y = s.byteAt y)) ∧
  (∀ (s : State) (a l : Nat), exec (.hostRefuse .module a l) s = .next { s with hostDeny := s.hostDeny ++ [a] }) ∧
  ∀ (s : State) (link pa : Nat) (ok : Bool) (x : FlitBody) (p : Place), InRow s pa (flitSize x) p → flitSize x ≤ 240 →
    let up := ∃ m, (link, m) ∈ s.mgmt.links
    let n := flitSize x
    let old := s.bytesAt (.dev pa) n
    (ok = true → up → s.arrivalWaits pa n = false → s.poisonedAt (.dev pa) n = false →
      ∃ t, exec (.flitReceive link ok pa x) s = .next t ∧ OnlyRow s t p n ∧
        (∀ bs, x = .store bs → t.bytesAt (.dev pa) n = bs ∧ t.readBack = s.readBack) ∧
        (∀ op ty wide val new returns, x = .atomic op ty wide val new returns → t.bytesAt (.dev pa) n = atomBytes ⟨op, ty, wide⟩ old val new ∧
          t.readBack = s.readBack ++ (if returns then [old] else [])) ∧
        (∀ k, x = .load k → t.bytesAt (.dev pa) n = old ∧ t.readBack = s.readBack ++ [old])) ∧
    (ok = false ∨ ¬ up ∨ s.arrivalWaits pa n = true → exec (.flitReceive link ok pa x) s = .next s)

/-- R264 to R266: an accepted record becomes one thread of the owner's portal workgroup, which the core creates with 8 KiB and the default bin timer:
it enters a bin of its CODE, ENTRY, width and REGS with its arguments and join counter. One that the page does not accept (log 17) is dropped and
counted in PORTALDROP; one that its core does not take adds 2^32 to JOIN: to a host word, which the host may refuse, or to device memory once a core
of the owner maps it (log 18). A record stays behind the host's earlier ordered writes. -/
def Sys2Proof.Spec.PortalRecordsBecomeThreads : Prop :=
  ∀ (s : State) (id off co : Nat) (bs : List Byte),
    let r := portalFields bs
    let drop := { s with mgmt := { s.mgmt with portalDrop := s.mgmt.portalDrop + 1 } }
    (0x1000000 ≤ off → off < 0x2000000 → portalOk off bs = false → exec (.registerWrite off bs) s = .next drop) ∧
    ((∃ i ∈ s.inbound, i.relaxed = false) → exec (.portalRecord id off bs co) s = .next s) ∧
    ((∀ i ∈ s.inbound, i.relaxed = true) → s.owner id = none ∨ portalOk off bs = false → exec (.portalRecord id off bs co) s = .next drop) ∧
    (∀ o slot a, (∀ i ∈ s.inbound, i.relaxed = true) → s.owner id = some o → portalOk off bs = true → r.target < s.cores.length → r.target ≠ 0xFFFF →
      let k := s.core r.target
      let bin (recs : List SpawnRec) : Bin := ⟨2 ^ 32, 0, r.entry, r.width, r.c, r.code, recs, false⟩
      let rec0 : SpawnRec := ⟨(List.range 8).map fun i => BitVec.ofNat 32 (pktField bs (4 * i) 4), some (r.host, r.join)⟩
      (k.owner = some o.id → k.switch = none → k.quarantined.contains o.id = false → k.portalGroup = none → k.wgs.length = 8 → k.freeSlot = some slot →
        lowestHole (k.groups.map fun g => (g.spadBase, g.spadSize)) 8192 o.spadMax = some a → k.vatUsed < 16384 → k.bins.length < 64 →
        (∀ b ∈ k.bins, b.launch ≠ 2 ^ 32) → s.takes r.target o r = true →
        ∃ t g, exec (.portalRecord id off bs co) s = .next t ∧ (t.core r.target).wg slot = some g ∧ g.portal = some o.id ∧ g.owner = o.id ∧
          g.spadBase = a ∧ g.spadSize = 8192 ∧ g.tagIdx = [] ∧ g.front = none ∧ g.binTime = 512 ∧ g.finished = false ∧ g.width = r.width ∧ g.c = r.c ∧
          (t.core r.target).bins = k.bins ++ [bin [rec0]] ∧ MemoryKept s t ∧
          ∀ j, j ≠ slot → (t.core r.target).wg j = k.wg j) ∧
      (∀ (g : Workgroup) (i : Nat) (recs : List SpawnRec), k.owner = some o.id → k.switch = none → k.quarantined.contains o.id = false → k.portalGroup = some (slot, g) → k.vatUsed < 16384 →
        g.launch = 2 ^ 32 → g.flat = 0 → k.bins[i]? = some (bin recs) → s.takes r.target o r = true →
        ∃ t, exec (.portalRecord id off bs co) s = .next t ∧ MemoryKept s t ∧ (t.core r.target).bins[i]? = some (bin (recs ++ [rec0]))) ∧
      (k.owner ≠ some o.id ∨ k.switch ≠ none ∨ k.quarantined.contains o.id = true → s.takes r.target o r = false) ∧
      (s.takes r.target o r = false → r.host = true → r.join.toNat ∈ s.hostDeny →
        exec (.portalRecord id off bs co) s = .next { s with hostDeny := s.hostDeny.erase r.join.toNat }) ∧
      (s.takes r.target o r = false → r.host = false → (∀ x ∈ s.joins, x.1 = o.id → s.mapped o.id x.2 = none) →
        (s.mapped o.id r.join = none → exec (.portalRecord id off bs co) s = .next { s with joins := s.joins ++ [(o.id, r.join)] }) ∧
        ∀ pa p, s.mapped o.id r.join = some (.dev pa) → InRow s pa 8 p → s.poisonedAt (.dev pa) 8 = false → ∃ t, exec (.portalRecord id off bs co) s = .next t ∧ t.joins = s.joins ∧
          t.bytesAt (.dev pa) 8 = leBytes 8 (leNat (s.bytesAt (.dev pa) 8) + 2 ^ 32) ∧ OnlyRow s t p 8) ∧
      (s.takes r.target o r = false → r.host = true → r.join.toNat ∉ s.hostDeny → ∃ t, exec (.portalRecord id off bs co) s = .next t ∧ t.cores = s.cores ∧
        leNat (t.bytesAt (.host r.join.toNat) 8) = (leNat (s.bytesAt (.host r.join.toNat) 8) + 2 ^ 32) % 2 ^ 64 ∧
        ∀ x, (∀ i, i < 8 → x ≠ .host (r.join.toNat + i)) → t.byteAt x = s.byteAt x))

/-- R242, R263: a ring read that the host refuses gives no packet and is made again; a refused store of a SIGNAL is dropped and counted in
HOSTREFUSE, a refused word of a FENCE passes no test, and a refused KEYLOAD leaves its slot unchanged (refused reads: log 47). -/
def Sys2Proof.Spec.RefusalsOfPackets : Prop :=
  ∀ (s : State) (q : Nat) (u : Queue) (o : Owner) (bs : List Byte), s.queues[q]? = some u → s.packet q = some (o, bs) →
    let r := s.parsing q
    (∀ a, u.slot = .host a → a ∈ s.hostDeny → u.wait = .none →
      let again := exec (.badPacket q) s
      again = .next { s with hostDeny := s.hostDeny.erase a } ∧ exec (.launchPacket q) s = again ∧ exec (.fencePacket q) s = again ∧
        exec (.signalPacket q) s = again ∧ exec (.chainPacket q) s = again ∧ exec (.flowset q) s = again ∧ exec (.flowkill q) s = again ∧
        exec (.keyload q) s = again ∧ exec (.keyclear q) s = again) ∧
    (s.refused u.slot = false → u.wait = .none → packetOk s o bs = true → ∀ a,
      (pktField bs 0 4 = 3 → pktField bs 4 4 % 2 = 0 → pktAddr bs 8 = BitVec.ofNat 64 (2 ^ 63 + a) → a < 2 ^ 63 → pktField bs 0x18 8 = 0 →
        a ∈ s.hostDeny → s.awayBefore o.id s.nextId = false → ∃ t u', exec (.signalPacket q) s = .next t ∧ t.queues[q]? = some u' ∧ u'.qread = u.qread + 1#32 ∧
          t.mgmt.hostRefuse = s.mgmt.hostRefuse + 1 ∧ t.hostDeny = s.hostDeny.erase a ∧ ∀ x, t.byteAt x = r.byteAt x) ∧
      (∀ e, pktField bs 0 4 = 2 → fenceEntries bs = [e] → e.host = true → e.addr = a → a ∈ s.hostDeny →
        ∃ t, exec (.fencePacket q) s = .next t ∧ Spec.QueueOnly r t q { u with wait := .fence [e] } ∧ t.hostDeny = s.hostDeny.erase a) ∧
      (pktField bs 0 4 = 0x12 → s.variant = .x48 → pktAddr bs 8 = BitVec.ofNat 64 (2 ^ 63 + a) → a < 2 ^ 63 → a ∈ s.hostDeny →
        ∃ t, exec (.keyload q) s = .next t ∧ Spec.QueueOnly r t q (Spec.done u 0x0A) ∧ t.keys = s.keys))

/-- The outside reaches the module in order (R157, R175, R181, R263 to R268, R271): an ingest packet lands in its flow's ring or is dropped whole,
one without a flow counts in its port's NOFLOW, and an N24 has no ingest. -/
def Obligations.OutsideTrafficArrives : Prop :=
  (∀ (s : State) (x : IngestPkt),
    let found := s.flows.find? fun f => f.port == x.port && f.job == x.job
    (s.variant = .n24 → exec (.ingestPacket x) s = .next s) ∧
    (s.variant = .x48 → x.port < 4 → found = none → exec (.ingestPacket x) s = .next
      { s with mgmt := { s.mgmt with noflow := s.mgmt.noflow.modify x.port (· + 1) } }) ∧
    (∀ f base, s.variant = .x48 → x.port < 4 → found = some f → s.flowBase f = some base → f.ordered = false → f.decrypt = false →
      s.generators f.core = [] → (s.core f.core).outPending = false → f.ch < (s.core f.core).channels.length → 64 ≤ f.rbase → base + f.rbase + 2 ^ f.sizeLog ≤ 0x800000 →
      x.bytes.length + 31 ≤ 2 ^ f.sizeLog →
      ∃ t, exec (.ingestPacket x) s = .next t ∧ PacketLands s t f base x.seq x.bytes)) ∧
  Spec.InboundWritesKeepTheirOrder ∧ Spec.HostAndPeersAnswer ∧ Spec.PortalRecordsBecomeThreads ∧ Spec.RefusalsOfPackets

/-! ### Reset, start-up, the life cycle and the clock; device memory; owners made and removed -/

namespace Sys2Proof.Spec

open Sys2Proof Sys2Proof.Machine

/-- The module has been wiped (R200, R273): every row is dead and every memory of the module reads as zero, no slot is held, no owner, launch,
queue or flow is left, every core is free, and the boot ROM waits in a lifecycle state; the fused values, and what the host and the peers hold,
stay. -/
def WipedModule (s t : State) (life : LifeState) : Prop :=
  t.variant = s.variant ∧ t.cores.length = s.variant.cores ∧ t.owners = [] ∧ t.launches = [] ∧ t.flows = [] ∧ t.keys = [] ∧ t.flights = [] ∧
  t.engine = [] ∧ t.monitors = [] ∧ t.inbound = [] ∧ t.joins = [] ∧ t.queues.length = s.variant.queues ∧
  (∀ u ∈ t.queues, u.enable = false ∧ u.qread = 0#32 ∧ u.qwrite = 0#32 ∧ u.qerr = 0#32 ∧ u.qsize = 0#32 ∧ u.qprio = 0#32 ∧ u.qbase = 0#64) ∧
  (∀ k ∈ t.cores, k.owner = none ∧ (∀ slot, k.wg slot = none) ∧ k.h1 = none ∧ k.h2 = none ∧ k.events = [] ∧ k.tlb = [] ∧ k.tags = [] ∧ k.bins = [] ∧
    (∀ a, k.imageByte a = 0#8) ∧ ∀ ch, (k.channel ch).p = 0#64) ∧
  (∀ row, t.dram.isLive row = false) ∧ t.dram.slots = [] ∧ t.dram.trackers = [] ∧ (∀ pa, t.byteAt (.dev pa) = 0#8) ∧
  t.mgmt.bootstat = .waiting ∧ t.mgmt.life = life ∧ t.mgmt.leaf = s.mgmt.leaf ∧ t.mgmt.boots = s.mgmt.boots ∧ t.mgmt.devnum = 0 ∧ t.mgmt.bootSram = [] ∧
  t.mgmt.plimit = s.variant.power ∧ t.mgmt.noflow = [0, 0, 0, 0] ∧ t.mgmt.portalDrop = 0 ∧ t.mgmt.hostRefuse = 0 ∧
  (∀ a, t.byteAt (.host a) = s.byteAt (.host a)) ∧ ∀ m a, t.byteAt (.peer m a) = s.byteAt (.peer m a)

/-- The rows of a window are dead: they read as zero, hold no slot and have no disturbance tracker (R200). -/
def WindowDead (t : State) (w : Window) : Prop :=
  ∀ st row bank pc, (if w.interleaved then st < t.variant.stackCount else st = w.stack) → w.row ≤ row → row < w.row + w.rows → bank < 32 → pc < 256 →
    t.dram.isLive (rowKey st row bank pc) = false ∧ (∀ r ∈ t.dram.slots, rowKey r.stack r.row r.bank r.pc ≠ rowKey st row bank pc) ∧
    ∀ x ∈ t.dram.trackers, rowKey x.stack x.row x.bank x.pc ≠ rowKey st row bank pc

end Sys2Proof.Spec

/-- R273 to R278: a reset, and a write of a permitted successor to LIFECYCLE, wipe the module; any other write to LIFECYCLE is ignored. After BOOTCTL.GO the
boot ROM shows VERIFYING; then a verified image starts firmware, which takes an identity leaf, sets the rings and trains the links, and a bad one
is wiped and shows BADSIG until the ROM waits again (log 20). A scrapped module shows BADSIG. ATTGO writes a report to the host. The core clock moves by steps of 100 MHz
between 3.6 and 1.2 GHz. That what the host and the peers hold stays over a reset, and which leaf a report counts, is log 21's. -/
def Obligations.ResetStartsAndLifecycleWipes : Prop :=
  ∀ (s : State),
    (∃ t, exec .reset s = .next t ∧ Spec.WipedModule s t s.mgmt.life) ∧
    (∀ life val, life.code = BitVec.toNat val → s.mgmt.life.next life = true → ∃ t, exec (.lifecycle val) s = .next t ∧ Spec.WipedModule s t life) ∧
    (∀ val : Word, (∀ life : LifeState, life.code = val.toNat → s.mgmt.life.next life = false) → exec (.lifecycle val) s = .next s) ∧
    (∀ links, s.mgmt.life = .scrapped → exec (.bootctlGo links) s = .next { s with mgmt := { s.mgmt with bootstat := .badsig } }) ∧
    (∀ links, s.mgmt.life ≠ .scrapped → s.mgmt.bootstat = .ready ∨ s.mgmt.bootstat = .readyNoAttest → exec (.bootctlGo links) s = .next s) ∧
    (∀ links, s.mgmt.life ≠ .scrapped → s.mgmt.bootstat = .waiting →
      exec (.bootctlGo links) s = .next { s with mgmt := { s.mgmt with bootstat := .verifying } }) ∧
    (∀ links, s.mgmt.life ≠ .scrapped → s.mgmt.bootstat = .badsig →
      exec (.bootctlGo links) s = .next { s with mgmt := { s.mgmt with bootstat := .waiting } }) ∧
    (∀ links, s.mgmt.life ≠ .scrapped → s.mgmt.bootstat = .verifying →
      (Config.signatureOk s.mgmt.bootSram = false → exec (.bootctlGo links) s = .next { s with mgmt := { s.mgmt with bootstat := .badsig, bootSram := [] } }) ∧
      (Config.signatureOk s.mgmt.bootSram = true → ∃ t, exec (.bootctlGo links) s = .next t ∧ t.cores = s.cores ∧ t.owners = s.owners ∧
        t.dram.cells = s.dram.cells ∧ t.dram.rings.length = s.variant.stackCount ∧ (∀ n ∈ t.dram.rings, n = 0 ∨ n = 64 ∨ n = 128 ∨ n = 256) ∧
        t.mgmt.bootstat = (if s.mgmt.leaf < 65536 then .ready else .readyNoAttest) ∧ t.mgmt.leaf = min 65536 (s.mgmt.leaf + 1) ∧
        t.mgmt.boots = s.mgmt.boots + 1 ∧ t.mgmt.reports = 0 ∧ t.mgmt.measure.length = 64 ∧ t.mgmt.life = s.mgmt.life ∧ t.mgmt.feat.length = 4 ∧
        ∀ l m, (l, m) ∈ t.mgmt.links ↔ (l, m) ∈ links ∧ l < s.variant.links ∧ m < 64)) ∧
    (s.mgmt.bootstat ≠ .ready ∨ 1024 ≤ s.mgmt.reports → exec .bootctlAttgo s = .next s) ∧
    (s.mgmt.bootstat = .ready → s.mgmt.reports < 1024 → s.mgmt.feat.length = 4 → s.mgmt.measure.length = 64 → s.mgmt.attNonce.length = 32 →
      let a := s.mgmt.attAddr.toNat % 2 ^ 63
      (a ∈ s.hostDeny → ∃ t, exec .bootctlAttgo s = .next t ∧ (∀ x, t.byteAt x = s.byteAt x) ∧
        t.mgmt = { s.mgmt with reports := s.mgmt.reports + 1, hostRefuse := s.mgmt.hostRefuse + 1 }) ∧
      (a ∉ s.hostDeny → ∃ t, exec .bootctlAttgo s = .next t ∧ t.mgmt = { s.mgmt with reports := s.mgmt.reports + 1 } ∧ t.cores = s.cores ∧ t.dram = s.dram ∧
        leNat (t.bytesAt (.host a) 4) = 1 ∧ leNat (t.bytesAt (.host (a + 4)) 4) = (if s.variant = .x48 then 1 else 2) ∧
        leNat (t.bytesAt (.host (a + 8)) 4) = s.mgmt.life.code ∧ leNat (t.bytesAt (.host (a + 12)) 4) = (s.mgmt.leaf - 1) % 2 ^ 32 ∧
        t.bytesAt (.host (a + 0x50)) 64 = s.mgmt.measure ∧ t.bytesAt (.host (a + 0xA0)) 32 = s.mgmt.attNonce ∧
        ∀ x, x < a → t.byteAt (.host x) = s.byteAt (.host x))) ∧
    (∀ lower, exec (.clockThrottle lower) s =
      .next { s with mgmt := { s.mgmt with clockStep := if lower then min 24 (s.mgmt.clockStep + 1) else s.mgmt.clockStep - 1 } })

/-- R200 to R203: a refresh of a live row, or of one that a slot holds, starts its trackers again; the scrubber corrects a line with at most one bad
symbol in each unit, and logs a line with more and poisons it, with zeros, unless the die cache holds its value; a tracker at 512 has its neighbours refreshed, its owner charged 64 KiB and delayed
at the bank, and the hypervisor told, until the delay has passed; a soft error strikes only a live row. No other byte changes. The symbols, and
which errors of a line are uncorrectable, are log 29's. -/
def Obligations.ControllersRefreshScrubAndDelay : Prop :=
  ∀ (s : State) (stack pc bank row : Nat),
    let key := rowKey stack row bank pc
    let held := ∃ r ∈ s.dram.slots, r.stack = stack ∧ r.pc = pc ∧ r.bank = bank ∧ r.row = row
    let here (t : Tracker) : Bool := t.stack == stack && t.pc == pc && t.bank == bank && t.row == row
    (s.dram.isLive key = true ∨ held → exec (.refresh stack pc bank row) s =
      .next { s with dram := { s.dram with trackers := s.dram.trackers.filter fun t => !here t } }) ∧
    (s.dram.isLive key = false → ¬ held → exec (.refresh stack pc bank row) s = .next s) ∧
    (s.dram.isLive key = false → exec (.patrolScrub stack pc bank row) s = .next s) ∧
    (s.dram.isLive key = true → ∃ t, exec (.patrolScrub stack pc bank row) s = .next t ∧ t.cores = s.cores ∧ t.owners = s.owners ∧
      (∀ a, a < key * 1024 ∨ key * 1024 + 1024 ≤ a → t.dram.cells.get a = s.dram.cells.get a) ∧
      ∀ i, i < 8 →
        let line := key * 8 + i
        let bad := ∃ u, u < 4 ∧ 2 ≤ s.dram.badSymbols line u
        (SMap.get none s.dram.cached line = none ∨ ¬ bad → ∀ j, j < 64 → SMap.get false t.dram.errors (line * 64 + j) = false) ∧
        (bad → ∃ os, HostEvent.poisonLog line os ∈ t.hostEvents) ∧
        (SMap.get none s.dram.cached line = none → bad →
          SMap.get false t.dram.poison line = true ∧ ∀ j, j < 128 → t.dram.cells.get (line * 128 + j) = 0#8) ∧
        (SMap.get none s.dram.cached line ≠ none ∨ ¬ bad →
          SMap.get false t.dram.poison line = SMap.get false s.dram.poison line ∧
          ∀ j, j < 128 → t.dram.cells.get (line * 128 + j) = s.dram.cells.get (line * 128 + j))) ∧
    (∀ id o, s.owner id = some o →
      let due := ∃ x ∈ s.dram.trackers, here x = true ∧ x.owner = id ∧ 512 ≤ x.count
      (¬ due → exec (.disturbanceMitigation stack pc bank row id) s = .next s) ∧
      (due → ∃ t o', exec (.disturbanceMitigation stack pc bank row id) s = .next t ∧ t.dram.cells = s.dram.cells ∧ t.dram.live = s.dram.live ∧
        t.hostEvents = s.hostEvents ++ [.disturbance id stack pc bank row] ∧ (stack, pc, bank, id) ∈ t.dram.delays ∧
        t.owner id = some o' ∧ o'.hbm = o.hbm - 65536 * 256 ∧
        (∀ x ∈ t.dram.trackers, here x = true → x.owner = id → x.count = 0) ∧
        (∀ x ∈ t.dram.trackers, x.stack = stack → x.pc = pc → x.bank = bank → x.row ≠ row → ¬ (row ≤ x.row + 2 ∧ x.row ≤ row + 2)) ∧
        ∀ x ∈ s.dram.trackers, here x = true → x.owner ≠ id → x ∈ t.dram.trackers)) ∧
    (∀ id, exec (.disturbanceDelayExpire stack pc bank id) s =
      .next { s with dram := { s.dram with delays := s.dram.delays.filter fun d => decide (d ≠ (stack, pc, bank, id)) } }) ∧
    (∀ cell, ∃ t, exec (.softError cell) s = .next t ∧ (∀ a, t.byteAt a = s.byteAt a) ∧
      ∀ j, SMap.get false t.dram.errors j = (SMap.get false s.dram.errors j || (decide (j = cell / 2) && s.dram.isLive (cell / 1024))))

/-- R185, R189, R191, R210, R211, R216, R232, R255: firmware takes an envelope that obeys the rules, with full buckets and its record at the start of
the ballast, and no other. Removing an owner ends its launches and flows, frees its cores and queues and kills the rows of its windows, shared ones
too (R200). A granted window stands in its place if it obeys R185, and kills the one that it replaces; one that stands in the place of the same
shared window keeps one set of masks for all its sharers. The host lifts a quarantine and cancels a launch. The status of
a removed owner's launches and the ranges of an envelope's numbers are log 21's. -/
def Obligations.OwnersAreMadeAndRemoved : Prop :=
  (∀ (s : State) (bs : List Byte),
    let f := pktField bs
    (s.booted = false ∨ s.envelopeOk (ownerOf bs) bs = false → exec (.envelopeCreate bs) s = .next s) ∧
    (s.booted = true → s.envelopeOk (ownerOf bs) bs = true → ∃ (t : State) (o : Owner), exec (.envelopeCreate bs) s = .next t ∧ t.owners = s.owners ++ [o] ∧
      t.cores = s.cores ∧ o.id = f 0 4 % 4096 ∧ o.bbase = f 0x20 8 ∧ o.hbm = Int.ofNat (f 0x14 4 * 256) ∧ o.lnk = Int.ofNat (f 0x1C 4 * 256) ∧ o.record = bs ∧
      o.quantum = (if f 4 4 = 0 then 2000000 else f 4 4) ∧ o.windows.length = 16 ∧ o.extents.length = 64 ∧
      ∀ i p, i < 1536 → t.place (o.bbase + i) = some p →
        (∀ j q, j < 1536 → j ≠ i → t.place (o.bbase + j) = some q → q.cell ≠ p.cell) → t.byteAt (.dev (o.bbase + i)) = bs.getD i 0#8)) ∧
  (∀ (s : State) (id : Nat), (s.owner id = none → exec (.ownerRemove id) s = .next s) ∧
    ∀ o, s.owner id = some o → ∃ t, exec (.ownerRemove id) s = .next t ∧ t.owner id = none ∧
      (∀ x ∈ s.owners, x.id ≠ id → ∃ y ∈ t.owners, y.id = x.id ∧ y.windows = x.windows ∧ y.extents = x.extents) ∧
      (∀ x ∈ t.flows, x.owner ≠ id) ∧ (∀ u ∈ t.queues, u.owner ≠ some id) ∧
      (∀ (li : Nat) (l : Launch), s.launches[li]? = some l → l.owner = id → l.ended = false →
        ∃ l' : Launch, t.launches[li]? = some l' ∧ l'.ended = true ∧ l'.unplaced = [] ∧ l'.status = (if l.status = 0 then 1 else l.status)) ∧
      (∀ c, (s.core c).owner = some id →
        let k := t.core c
        k.owner = none ∧ (∀ slot, k.wg slot = none) ∧ k.h1 = none ∧ k.h2 = none ∧ k.spad = [] ∧ k.acc = [] ∧ k.mould = [] ∧ k.tlb = [] ∧ k.events = []) ∧
      ∀ w ∈ o.windows, w.valid = true → Spec.WindowDead t w) ∧
  (∀ (s : State) (id idx : Nat) (o : Owner) (x : Window) (entry : List Byte), s.owner id = some o → o.windows[idx]? = some x → idx < 16 →
    let w := windowOf entry
    let w' := s.shareMasks id w
    let new : Owner := { o with windows := o.windows.set idx w' }
    let ok := s.windowOk id w = true ∧ s.quotasOk new = true ∧ new.extents.all (new.extentOk s.variant) = true
    let again := (x.valid && x.sharedWith w) = true
    let okAgain := s.windowOk id w = true ∧ s.quotasOk { o with windows := o.windows.set idx w } = true ∧
      new.extents.all (({ o with windows := o.windows.set idx w }).extentOk s.variant) = true
    (¬ again → ¬ ok → exec (.windowGrant id idx entry) s = .next s) ∧
    (again → ¬ okAgain → exec (.windowGrant id idx entry) s = .next s) ∧
    (again → okAgain → ∃ t, exec (.windowGrant id idx entry) s = .next t ∧ t.cores = s.cores ∧ Spec.WindowDead t x ∧
      ∀ z ∈ t.owners, ∀ y ∈ z.windows, y.sharedWith w = true → y = w) ∧
    (¬ again → ok → ∃ t o', exec (.windowGrant id idx entry) s = .next t ∧ t.owner id = some o' ∧ o'.windows = o.windows.set idx w' ∧ o'.extents = o.extents ∧
      t.cores = s.cores ∧ (x.valid = true → Spec.WindowDead t x))) ∧
  ∀ (s : State),
    (∀ c id, ∃ t, exec (.quarantineLift c id) s = .next t ∧ id ∉ (t.core c).quarantined ∧
      (∀ j, j ≠ id → (j ∈ (t.core c).quarantined ↔ j ∈ (s.core c).quarantined)) ∧ (∀ d, d ≠ c → t.core d = s.core d) ∧ MemoryKept s t) ∧
    (∀ (li : Nat) (l : Launch), s.launches[li]? = some l → l.ended = true → exec (.hostCancel li) s = .next s) ∧
    ∀ (li : Nat) (l : Launch), s.launches[li]? = some l → l.ended = false → ∃ (t : State) (l' : Launch), exec (.hostCancel li) s = .next t ∧ t.launches[li]? = some l' ∧ l'.ended = true ∧
      l'.unplaced = [] ∧ l'.status = (if l.status = 0 then 1 else l.status) ∧ (∀ j, j ≠ li → t.launches[j]? = s.launches[j]?) ∧
      (∀ c slot g, (t.core c).wg slot = some g → g.launch ≠ li) ∧ ∀ c, ∀ b ∈ (t.core c).bins, b.launch ≠ li

/-! ### Words, steps and the machine as a whole -/

namespace Sys2Proof.Spec

open Sys2Proof Sys2Proof.Machine

/-- The state as a step begins: the clock has moved, and the agenda is one entry shorter (log 1). -/
def begun (s : State) (rest : List Act) : State :=
  { s with clock := s.clock + Config.stepCycles s.steps, base := s.base + Config.stepFabric s.steps, steps := s.steps + 1, cur := none, agenda := rest }

/-- A core remembers which ordinary sheet of a quadrant issued last, from which slots and in which steps, and which slots that its last runs have
freed it leaves idle (Table 4.2 steps 2 and 5). -/
def lastServed (q : Nat) (w : Where) (sh : Sheet) (slots : List Nat) (s : State) : State :=
  match w with
  | .sheet c a b => s.modCore c fun k =>
      let freed := ((k.lastOf q a b).map fun i => i.freed sh).getD []
      { k with lastSheet := k.lastSheet.set q (some ⟨a, b, slots.mapIdx (fun i x => (x, s.steps + i)), freed.filter fun x => !slots.contains x⟩) }
  | _ => s

/-- The groups, as slot and leader, that an issue cycle of a quadrant serves in its sheet: slots that are held issue nothing this cycle, and those
that `served` denies take no new run, since another sheet has a forced group (Table 4.2 step 5). -/
def CycleServes (s : State) (c q : Nat) (held : List Nat) (rest : List Act) (w : Where) (sh : Sheet) (xs : List (Nat × Nat)) : Prop :=
  s.agenda = .issue c q held :: rest ∧ ∃ denied, served (begun s rest) c q held = some (w, denied) ∧ (begun s rest).sheetAt w = some sh ∧
    (slotGroups sh denied).filter (fun x => !held.contains x.1) = xs

/-- Lane `l` of agent `w` issues next, from slot `slot`, in the state `s1` (Table 4.2, R53, R69, R77): as the only group that its sheet's cycle
serves, as one at a trailer, which goes first, as the one of two with the lower PC, as the one of two that is left, or as a front-end thread. Where
both slots issue the sheet keeps the producers' numbers from which the first slot's and the second slot's loads count (R69).
A trailer puts `back` on the agenda, the cycle that selects again; any other word does `turn`. -/
def Serves (s s1 : State) (w : Where) (l slot : Nat) (back : List Act) (turn : State → State) : Prop :=
  (∃ c q held rest sh xs, CycleServes s c q held rest w sh xs ∧
    ((s1 = lastServed q w sh [slot] (begun s rest) ∧ back = [.issue c q held] ∧ turn = id ∧
      (xs = [(slot, l)] ∨
        (∃ y, xs = [(slot, l), y] ∧ atTrlr (begun s rest) w sh l = true) ∨
        ∃ y, xs = [y, (slot, l)] ∧ atTrlr (begun s rest) w sh y.2 = false ∧ atTrlr (begun s rest) w sh l = true)) ∨
      (back = [] ∧ turn = id ∧ ∃ b m, atTrlr (begun s rest) w sh l = false ∧ atTrlr (begun s rest) w sh m = false ∧
        ((xs = [(slot, l), (b, m)] ∧ (sh.lane l).pc.toNat ≤ (sh.lane m).pc.toNat) ∨
          (xs = [(b, m), (slot, l)] ∧ (sh.lane l).pc.toNat < (sh.lane m).pc.toNat)) ∧
        s1 = { (lastServed q w sh [slot, b] (begun s rest)).putSheet w { takeSlot ⟨w, sh, m, groupOf sh m, groupOf sh m⟩ b with
            pairs := sh.pairs ++ [(s.nextId, 0, 0)] } with
          agenda := .second w b :: .settle w :: rest }))) ∨
  (∃ rest sh, s.agenda = .second w slot :: rest ∧
    s1 = { s with steps := s.steps + 1, cur := none, agenda := rest }.modSheet w (Sheet.openSecond s.nextId) ∧ s1.sheetAt w = some sh ∧
    holder sh slot = some l ∧ back = [] ∧ turn = id) ∨
  ∃ c held rest, s.agenda = .front c held :: rest ∧ s1 = begun s rest ∧ pickFront s1 c held = some w ∧ l = 0 ∧ slot = 0 ∧ back = [.front c held] ∧
    turn = fun t => t.modCore c fun k => { k with rrNext := ((wSlot w).getD 0 + 1) % 8 }

end Sys2Proof.Spec

/-- R40 to R45, R51, R56: words written out bit by bit from the encoding tables decode to the instructions that they stand for: an integer add of a 30-bit
immediate, a float add with a stall hint, a comparison, a join, a guarded branch, an ordered load, a return from a handler, a COPY and a TLBW. -/
def Obligations.DecodesWordsFromTheirTables : Prop :=
  let c : Ctl := ⟨63#6, false, false, false, 0#4⟩
  let code (k : CodeKind) : DecodeCtx := ⟨k, 256, 0, true⟩
  decode (code .sheet) 0x003F4000008000E350000006#96 = .ok (.iadd c .i32 false (.v false .full 1#8) (.v false .full 1#8) (.limm 100000#30)) ∧
  decode (code .sheet) 0x103F03800180008001030000#96 =
    .ok (.fadd { c with stall := 3#4 } .f32 false .dyn (.v false .full 3#8) (.v false .full 1#8) (.v false .full 2#8)) ∧
  decode (code .sheet) 0x303F01400080026000010000#96 =
    .ok (.icmp { c with stall := 1#4 } .i32 .lt (.p 1#6) (.v false .full 4#8) (.imm 0#14)) ∧
  decode (code .sheet) 0x603F00402800000000000000#96 = .ok (.join c 0#4) ∧
  decode (code .sheet) 0x500100000000006001800000#96 = .ok (.bra { c with gp := 1#6 } (.imm 3#14)) ∧
  decode (code .sheet) 0x803F2580008C046000000000#96 = .ok (.ld c (.ordered .dev) .b32 (.v false .full 1#8) (.v false .pair 8#8) (.imm 0#14)) ∧
  decode (code (.handler 1 .page)) 0xE13F00000000000000000000#96 = .ok (.rfh c .plain) ∧
  decode (code .sheet) 0xE13F00000000000000000000#96 = .error (.illegal 15) ∧
  decode (code .front) 0xB03F1820012C036800000000#96 =
    .ok (.copy c 3#4 .ds none 0#2 .b8 (.u false .full 2#8) (.u false .pair 6#8) (.imm 4096#14)) ∧
  decode (code .sheet) 0xE03F0000000C000C01000004#96 = .ok (.tlbw c (.v false .pair 0#8) (.v false .pair 2#8) (.v false .full 4#8))

/-- R51 to R54, R57, R69, Table 4.2: the step of an issue cycle runs the served group's word: the group takes its slot, its word and the next are
fetched, each line that they stand in as any other read brings it into the die cache (R203, R369), and where the run's checks pass and the word decodes to an instruction, the step is exec of that instruction; where the decoder refuses
it as ILLEGAL, the group traps at it with the whole group in fmask. A trailer of its run runs as TRLR (a step of its own: log 37). After both slots of
a sheet have issued the waits on its masks and members look again (R25, R71, R72). An event that the agenda names runs as it stands, and with nothing named the first agent that can
issue does (log 1). -/
def Obligations.StepRunsTheDecodedWord : Prop :=
  (∀ (s s1 : State) (w : Where) (l slot : Nat) (back : List Act) (turn : State → State) (sh0 : Sheet) (x y : IWord),
    Spec.Serves s s1 w l slot back turn → s1.sheetAt w = some sh0 →
    let grp := groupOf sh0 l
    let taken := takeSlot ⟨w, sh0, l, grp, grp⟩ slot
    let jumped := grp.any fun k => (taken.lane k).jumped
    let sh := if jumped then taken.modLanes grp fun t => { t with jumped := false } else taken
    let g : Grp := ⟨w, sh, l, grp, grp⟩
    let s2 := (s1.put ⟨w, taken, l, grp, grp⟩ taken).fetchIn w g.pc.toNat
    let s3 := if jumped then s2.put g sh else s2
    let t := sh.lane l
    let ctx := s3.decodeCtx w sh
    let s4 := s3.fetchIn w (g.pc.toNat + 12)
    let at_ : State := { s4 with cur := some (w, l), curWord := x, nextWord := y }
    s2.fetch w g.pc.toNat = .word x → (jumped = true → s2.runStart w g.pc.toNat = .yes) →
    (isTrlr x = true → trailerFault ctx t.runPos x = none →
      step s = exec (.trlr (trlrEntries x (bitsOf x 71 3).toNat) (bitsOf x 0 8)) { s3 with cur := some (w, l), curWord := x, nextWord := 0#96, agenda := back ++ s3.agenda }) ∧
    (isTrlr x = false → t.runPos < 24 → s4.fetch w (g.pc.toNat + 12) = .word y → (isTrlr y = true → trailerFault ctx (t.runPos + 1) y = none) →
      ((isTransfer x || isGenb x) = true → isTrlr y = true) →
      (∀ i, decode ctx x = .ok i → step s = exec i (turn at_)) ∧
      (∀ n, decode ctx x = .error (.illegal n) → step s = .next (turn (takeTrap at_ g ⟨.illegal, n, 0, grp, [], fun _ => 0#64, g.pc, x⟩))))) ∧
  (∀ (s : State) (w : Where) (rest : List Act), s.agenda = .settle w :: rest →
    (let s0 : State := { s with steps := s.steps + 1, cur := none, agenda := rest }
     step s = .next (s0.modSheet w fun sh => xSettle s0 w (sh.closePairs s0.nextId).settle))) ∧
  (∀ (s : State) (i : Instr) (rest : List Act), s.agenda = .event i :: rest →
    step s = if isEvent i then exec i (Spec.begun s rest) else .next (Spec.begun s rest)) ∧
  ∀ (s : State), s.agenda = [] → (pickAny (Spec.begun s []) = none → step s = .next (Spec.begun s [])) ∧
    ∀ a, pickAny (Spec.begun s []) = some a → step s = step { s with agenda := [a] }

/-- R19, R190, R200, R242, R273: the machine after reset has the values that the rules give: every row dead, every memory and register of the module zero,
no owner and no work, each queue off with its registers zero, every ring at 128 rows, and the boot ROM waiting. The memories have their canonical
form. The variant X48, MANUFACTURE and the host's memory reading zero are the model's choices (log 3, log 4). -/
def Obligations.ResetLeavesItsValues : Prop :=
  Spec.WipedModule State.reset State.reset .manufacture ∧ Canonical State.reset ∧ State.reset.variant = .x48 ∧
  (∀ n ∈ State.reset.dram.rings, n = 128) ∧ State.reset.cores.length = 48 ∧ State.reset.queues.length = 256 ∧ State.reset.mgmt.plimit = 2400 ∧
  State.reset.hostDeny = [] ∧ (∀ m a, State.reset.byteAt (.peer m a) = 0#8) ∧ (∀ a, State.reset.byteAt (.host a) = 0#8)

/-- R40 to R45, R56: every well-formed instruction word, with every operand at every value that its encoding admits, is the decoding of its own
encoding, in every kind of code. -/
def Obligations.EncodingsDecodeToTheirInstructions : Prop :=
  ∀ (x : DecodeCtx) (i : Instr), i.WellFormed x → isEvent i = false → decode x (encode i) = .ok i

/-- Every step keeps the canonical form of every byte memory: scratchpads, moulds, images, DRAM, the boot SRAM, host and peer memory. The form is the
model's own (log 3). -/
def Obligations.StepsKeepMemoriesCanonical : Prop :=
  ∀ s t : State, Canonical s → step s = .next t → Canonical t

/-- R195, R196: DEMOTE frees the slot that its owner holds for the row, pinned or not, answers DEMOTED with it and charges 2 KiB where it was dirty;
else it answers NOTHELD and changes nothing. Where a promoting owner has as many slots in the bank as its quota, the victim is its unpinned slot
there with the oldest sequence number, the lower index on a tie; with every one pinned nothing is evicted. -/
def Obligations.DemoteFreesAndPromotionsEvictTheOldest : Prop :=
  ∀ (s : State) (w : Where) (sh : Sheet) (l : Nat) (f : Fill) (x : LaneReq) (p : Place) (ow : Owner) (i : BitVec 8) (ew : Bool),
    s.sheetAt w = some sh → sh.gen = none → sh.fills = [f] → f.dest = .v ew .full i → f.lanes = [x] → x.lane = l → x.done = false → l < sh.lanes.length →
    s.owner (s.ownerId w) = some ow → x.place s ow.id = some p → 0 < ow.hbm → ow.hbmDry = false → s.dram.delays = [] →
    let Answers (slots : List RingSlot) (charge n : Nat) : Prop :=
      ∃ t sh' ow', exec (.controllerAnswer w l) s = .next t ∧ { t.dram with trackers := s.dram.trackers } = { s.dram with slots := slots } ∧ t.owner ow.id = some ow' ∧
        ow'.hbm = ow.hbm - 256 * charge ∧ t.sheetAt w = some sh' ∧ sh'.fills = [] ∧
        ∀ j, sh'.vReg l j = if j = i.toNat then (sh.vReg l j).write .full (BitVec.ofNat 32 n) else sh.vReg l j
    (f.kind = .demote →
      (∀ r, s.dram.slotOf p = some r → r.owner = ow.id →
        Answers (s.dram.slots.filter fun y => decide (y ≠ r)) (if r.dirty then 2048 else 0) (r.idx + 256 * 6)) ∧
      ((∀ r, s.dram.slotOf p = some r → r.owner ≠ ow.id) → Answers s.dram.slots 0 (256 * 7))) ∧
    (∀ pin seqs, f.kind = .promote pin seqs → s.dram.isLive p.rowKey = true → s.dram.nearRow p = false → s.dram.slotOf p = none → 0 < ow.nearq →
      0 < s.dram.ring p.stack → ow.nearq ≤ (s.dram.held p ow.id).length →
      let mine := (s.dram.held p ow.id).filter fun y => !y.pin
      (mine = [] → Answers s.dram.slots 0 (256 * 3)) ∧
      ∀ v ∈ mine, (∀ y ∈ mine, y ≠ v → v.seq < y.seq ∨ (v.seq = y.seq ∧ v.idx < y.idx)) →
        Answers ((s.dram.slots.filter fun y => decide (y ≠ v)) ++ [⟨p.stack, p.pc, p.bank, v.idx, ow.id, p.row,
          ((seqs.find? fun e => e.1 == p.stack).map (·.2)).getD 0, pin, false⟩]) 4096 (v.idx + 4096))
end

