-- ==== Sys2Proof/Laws/State.lean ====
section
/-!
SUPPORT. One lemma for each field of the state and each way that State, a core, a sheet or a lane is updated: what the
update writes, and that it keeps the rest. Later proofs cite these and unfold no record update.
-/

namespace Sys2Proof.Machine

/-! ### State -/

@[simp] theorem State.modCore_variant (s : State) (c : Nat) (f : Core → Core) : (s.modCore c f).variant = s.variant := rfl
@[simp] theorem State.modCore_agenda (s : State) (c : Nat) (f : Core → Core) : (s.modCore c f).agenda = s.agenda := rfl
@[simp] theorem State.modCore_cur (s : State) (c : Nat) (f : Core → Core) : (s.modCore c f).cur = s.cur := rfl
@[simp] theorem State.modCore_curWord (s : State) (c : Nat) (f : Core → Core) : (s.modCore c f).curWord = s.curWord := rfl
@[simp] theorem State.modCore_nextWord (s : State) (c : Nat) (f : Core → Core) : (s.modCore c f).nextWord = s.nextWord := rfl
@[simp] theorem State.modCore_clock (s : State) (c : Nat) (f : Core → Core) : (s.modCore c f).clock = s.clock := rfl
@[simp] theorem State.modCore_base (s : State) (c : Nat) (f : Core → Core) : (s.modCore c f).base = s.base := rfl
@[simp] theorem State.modCore_steps (s : State) (c : Nat) (f : Core → Core) : (s.modCore c f).steps = s.steps := rfl
@[simp] theorem State.modCore_free (s : State) (c : Nat) (f : Core → Core) : (s.modCore c f).free = s.free := rfl
@[simp] theorem State.modCore_nextId (s : State) (c : Nat) (f : Core → Core) : (s.modCore c f).nextId = s.nextId := rfl
@[simp] theorem State.modCore_owners (s : State) (c : Nat) (f : Core → Core) : (s.modCore c f).owners = s.owners := rfl
@[simp] theorem State.modCore_dram (s : State) (c : Nat) (f : Core → Core) : (s.modCore c f).dram = s.dram := rfl
@[simp] theorem State.modCore_hostMem (s : State) (c : Nat) (f : Core → Core) : (s.modCore c f).hostMem = s.hostMem := rfl
@[simp] theorem State.modCore_peerMem (s : State) (c : Nat) (f : Core → Core) : (s.modCore c f).peerMem = s.peerMem := rfl
@[simp] theorem State.modCore_flights (s : State) (c : Nat) (f : Core → Core) : (s.modCore c f).flights = s.flights := rfl
@[simp] theorem State.modCore_engine (s : State) (c : Nat) (f : Core → Core) : (s.modCore c f).engine = s.engine := rfl
@[simp] theorem State.modCore_monitors (s : State) (c : Nat) (f : Core → Core) : (s.modCore c f).monitors = s.monitors := rfl
@[simp] theorem State.modCore_counters (s : State) (c : Nat) (f : Core → Core) : (s.modCore c f).counters = s.counters := rfl
@[simp] theorem State.modCore_launches (s : State) (c : Nat) (f : Core → Core) : (s.modCore c f).launches = s.launches := rfl
@[simp] theorem State.modCore_queues (s : State) (c : Nat) (f : Core → Core) : (s.modCore c f).queues = s.queues := rfl
@[simp] theorem State.modCore_flows (s : State) (c : Nat) (f : Core → Core) : (s.modCore c f).flows = s.flows := rfl
@[simp] theorem State.modCore_keys (s : State) (c : Nat) (f : Core → Core) : (s.modCore c f).keys = s.keys := rfl
@[simp] theorem State.modCore_inbound (s : State) (c : Nat) (f : Core → Core) : (s.modCore c f).inbound = s.inbound := rfl
@[simp] theorem State.modCore_hostEvents (s : State) (c : Nat) (f : Core → Core) : (s.modCore c f).hostEvents = s.hostEvents := rfl
@[simp] theorem State.modCore_readBack (s : State) (c : Nat) (f : Core → Core) : (s.modCore c f).readBack = s.readBack := rfl
@[simp] theorem State.modCore_hostDeny (s : State) (c : Nat) (f : Core → Core) : (s.modCore c f).hostDeny = s.hostDeny := rfl
@[simp] theorem State.modCore_joins (s : State) (c : Nat) (f : Core → Core) : (s.modCore c f).joins = s.joins := rfl
@[simp] theorem State.modCore_mgmt (s : State) (c : Nat) (f : Core → Core) : (s.modCore c f).mgmt = s.mgmt := rfl

@[simp] theorem State.modCore_cores (s : State) (c : Nat) (f : Core → Core) : (s.modCore c f).cores = s.cores.modify c f := rfl

@[simp] theorem State.putSheet_variant (s : State) (w : Where) (sh : Sheet) : (s.putSheet w sh).variant = s.variant := by cases w <;> rfl
@[simp] theorem State.putSheet_agenda (s : State) (w : Where) (sh : Sheet) : (s.putSheet w sh).agenda = s.agenda := by cases w <;> rfl
@[simp] theorem State.putSheet_cur (s : State) (w : Where) (sh : Sheet) : (s.putSheet w sh).cur = s.cur := by cases w <;> rfl
@[simp] theorem State.putSheet_curWord (s : State) (w : Where) (sh : Sheet) : (s.putSheet w sh).curWord = s.curWord := by cases w <;> rfl
@[simp] theorem State.putSheet_nextWord (s : State) (w : Where) (sh : Sheet) : (s.putSheet w sh).nextWord = s.nextWord := by cases w <;> rfl
@[simp] theorem State.putSheet_clock (s : State) (w : Where) (sh : Sheet) : (s.putSheet w sh).clock = s.clock := by cases w <;> rfl
@[simp] theorem State.putSheet_base (s : State) (w : Where) (sh : Sheet) : (s.putSheet w sh).base = s.base := by cases w <;> rfl
@[simp] theorem State.putSheet_steps (s : State) (w : Where) (sh : Sheet) : (s.putSheet w sh).steps = s.steps := by cases w <;> rfl
@[simp] theorem State.putSheet_free (s : State) (w : Where) (sh : Sheet) : (s.putSheet w sh).free = s.free := by cases w <;> rfl
@[simp] theorem State.putSheet_nextId (s : State) (w : Where) (sh : Sheet) : (s.putSheet w sh).nextId = s.nextId := by cases w <;> rfl
@[simp] theorem State.putSheet_owners (s : State) (w : Where) (sh : Sheet) : (s.putSheet w sh).owners = s.owners := by cases w <;> rfl
@[simp] theorem State.putSheet_dram (s : State) (w : Where) (sh : Sheet) : (s.putSheet w sh).dram = s.dram := by cases w <;> rfl
@[simp] theorem State.putSheet_hostMem (s : State) (w : Where) (sh : Sheet) : (s.putSheet w sh).hostMem = s.hostMem := by cases w <;> rfl
@[simp] theorem State.putSheet_peerMem (s : State) (w : Where) (sh : Sheet) : (s.putSheet w sh).peerMem = s.peerMem := by cases w <;> rfl
@[simp] theorem State.putSheet_flights (s : State) (w : Where) (sh : Sheet) : (s.putSheet w sh).flights = s.flights := by cases w <;> rfl
@[simp] theorem State.putSheet_engine (s : State) (w : Where) (sh : Sheet) : (s.putSheet w sh).engine = s.engine := by cases w <;> rfl
@[simp] theorem State.putSheet_monitors (s : State) (w : Where) (sh : Sheet) : (s.putSheet w sh).monitors = s.monitors := by cases w <;> rfl
@[simp] theorem State.putSheet_counters (s : State) (w : Where) (sh : Sheet) : (s.putSheet w sh).counters = s.counters := by cases w <;> rfl
@[simp] theorem State.putSheet_launches (s : State) (w : Where) (sh : Sheet) : (s.putSheet w sh).launches = s.launches := by cases w <;> rfl
@[simp] theorem State.putSheet_queues (s : State) (w : Where) (sh : Sheet) : (s.putSheet w sh).queues = s.queues := by cases w <;> rfl
@[simp] theorem State.putSheet_flows (s : State) (w : Where) (sh : Sheet) : (s.putSheet w sh).flows = s.flows := by cases w <;> rfl
@[simp] theorem State.putSheet_keys (s : State) (w : Where) (sh : Sheet) : (s.putSheet w sh).keys = s.keys := by cases w <;> rfl
@[simp] theorem State.putSheet_inbound (s : State) (w : Where) (sh : Sheet) : (s.putSheet w sh).inbound = s.inbound := by cases w <;> rfl
@[simp] theorem State.putSheet_hostEvents (s : State) (w : Where) (sh : Sheet) : (s.putSheet w sh).hostEvents = s.hostEvents := by cases w <;> rfl
@[simp] theorem State.putSheet_readBack (s : State) (w : Where) (sh : Sheet) : (s.putSheet w sh).readBack = s.readBack := by cases w <;> rfl
@[simp] theorem State.putSheet_hostDeny (s : State) (w : Where) (sh : Sheet) : (s.putSheet w sh).hostDeny = s.hostDeny := by cases w <;> rfl
@[simp] theorem State.putSheet_joins (s : State) (w : Where) (sh : Sheet) : (s.putSheet w sh).joins = s.joins := by cases w <;> rfl
@[simp] theorem State.putSheet_mgmt (s : State) (w : Where) (sh : Sheet) : (s.putSheet w sh).mgmt = s.mgmt := by cases w <;> rfl

@[simp] theorem State.put_variant (s : State) (g : Grp) (sh : Sheet) : (s.put g sh).variant = s.variant := by simp [State.put]
@[simp] theorem State.put_agenda (s : State) (g : Grp) (sh : Sheet) : (s.put g sh).agenda = s.agenda := by simp [State.put]
@[simp] theorem State.put_cur (s : State) (g : Grp) (sh : Sheet) : (s.put g sh).cur = s.cur := by simp [State.put]
@[simp] theorem State.put_curWord (s : State) (g : Grp) (sh : Sheet) : (s.put g sh).curWord = s.curWord := by simp [State.put]
@[simp] theorem State.put_nextWord (s : State) (g : Grp) (sh : Sheet) : (s.put g sh).nextWord = s.nextWord := by simp [State.put]
@[simp] theorem State.put_clock (s : State) (g : Grp) (sh : Sheet) : (s.put g sh).clock = s.clock := by simp [State.put]
@[simp] theorem State.put_base (s : State) (g : Grp) (sh : Sheet) : (s.put g sh).base = s.base := by simp [State.put]
@[simp] theorem State.put_steps (s : State) (g : Grp) (sh : Sheet) : (s.put g sh).steps = s.steps := by simp [State.put]
@[simp] theorem State.put_free (s : State) (g : Grp) (sh : Sheet) : (s.put g sh).free = s.free := by simp [State.put]
@[simp] theorem State.put_nextId (s : State) (g : Grp) (sh : Sheet) : (s.put g sh).nextId = s.nextId := by simp [State.put]
@[simp] theorem State.put_owners (s : State) (g : Grp) (sh : Sheet) : (s.put g sh).owners = s.owners := by simp [State.put]
@[simp] theorem State.put_dram (s : State) (g : Grp) (sh : Sheet) : (s.put g sh).dram = s.dram := by simp [State.put]
@[simp] theorem State.put_hostMem (s : State) (g : Grp) (sh : Sheet) : (s.put g sh).hostMem = s.hostMem := by simp [State.put]
@[simp] theorem State.put_peerMem (s : State) (g : Grp) (sh : Sheet) : (s.put g sh).peerMem = s.peerMem := by simp [State.put]
@[simp] theorem State.put_flights (s : State) (g : Grp) (sh : Sheet) : (s.put g sh).flights = s.flights := by simp [State.put]
@[simp] theorem State.put_engine (s : State) (g : Grp) (sh : Sheet) : (s.put g sh).engine = s.engine := by simp [State.put]
@[simp] theorem State.put_monitors (s : State) (g : Grp) (sh : Sheet) : (s.put g sh).monitors = s.monitors := by simp [State.put]
@[simp] theorem State.put_counters (s : State) (g : Grp) (sh : Sheet) : (s.put g sh).counters = s.counters := by simp [State.put]
@[simp] theorem State.put_launches (s : State) (g : Grp) (sh : Sheet) : (s.put g sh).launches = s.launches := by simp [State.put]
@[simp] theorem State.put_queues (s : State) (g : Grp) (sh : Sheet) : (s.put g sh).queues = s.queues := by simp [State.put]
@[simp] theorem State.put_flows (s : State) (g : Grp) (sh : Sheet) : (s.put g sh).flows = s.flows := by simp [State.put]
@[simp] theorem State.put_keys (s : State) (g : Grp) (sh : Sheet) : (s.put g sh).keys = s.keys := by simp [State.put]
@[simp] theorem State.put_inbound (s : State) (g : Grp) (sh : Sheet) : (s.put g sh).inbound = s.inbound := by simp [State.put]
@[simp] theorem State.put_hostEvents (s : State) (g : Grp) (sh : Sheet) : (s.put g sh).hostEvents = s.hostEvents := by simp [State.put]
@[simp] theorem State.put_readBack (s : State) (g : Grp) (sh : Sheet) : (s.put g sh).readBack = s.readBack := by simp [State.put]
@[simp] theorem State.put_hostDeny (s : State) (g : Grp) (sh : Sheet) : (s.put g sh).hostDeny = s.hostDeny := by simp [State.put]
@[simp] theorem State.put_joins (s : State) (g : Grp) (sh : Sheet) : (s.put g sh).joins = s.joins := by simp [State.put]
@[simp] theorem State.put_mgmt (s : State) (g : Grp) (sh : Sheet) : (s.put g sh).mgmt = s.mgmt := by simp [State.put]

@[simp] theorem finish_variant (s : State) (g : Grp) (c : Ctl) (sh : Sheet) : (finish s g c sh).variant = s.variant := by simp [finish]
@[simp] theorem finish_agenda (s : State) (g : Grp) (c : Ctl) (sh : Sheet) : (finish s g c sh).agenda = s.agenda := by simp [finish]
@[simp] theorem finish_cur (s : State) (g : Grp) (c : Ctl) (sh : Sheet) : (finish s g c sh).cur = s.cur := by simp [finish]
@[simp] theorem finish_curWord (s : State) (g : Grp) (c : Ctl) (sh : Sheet) : (finish s g c sh).curWord = s.curWord := by simp [finish]
@[simp] theorem finish_nextWord (s : State) (g : Grp) (c : Ctl) (sh : Sheet) : (finish s g c sh).nextWord = s.nextWord := by simp [finish]
@[simp] theorem finish_clock (s : State) (g : Grp) (c : Ctl) (sh : Sheet) : (finish s g c sh).clock = s.clock := by simp [finish]
@[simp] theorem finish_base (s : State) (g : Grp) (c : Ctl) (sh : Sheet) : (finish s g c sh).base = s.base := by simp [finish]
@[simp] theorem finish_steps (s : State) (g : Grp) (c : Ctl) (sh : Sheet) : (finish s g c sh).steps = s.steps := by simp [finish]
@[simp] theorem finish_free (s : State) (g : Grp) (c : Ctl) (sh : Sheet) : (finish s g c sh).free = s.free := by simp [finish]
@[simp] theorem finish_nextId (s : State) (g : Grp) (c : Ctl) (sh : Sheet) : (finish s g c sh).nextId = s.nextId := by simp [finish]
@[simp] theorem finish_owners (s : State) (g : Grp) (c : Ctl) (sh : Sheet) : (finish s g c sh).owners = s.owners := by simp [finish]
@[simp] theorem finish_dram (s : State) (g : Grp) (c : Ctl) (sh : Sheet) : (finish s g c sh).dram = s.dram := by simp [finish]
@[simp] theorem finish_hostMem (s : State) (g : Grp) (c : Ctl) (sh : Sheet) : (finish s g c sh).hostMem = s.hostMem := by simp [finish]
@[simp] theorem finish_peerMem (s : State) (g : Grp) (c : Ctl) (sh : Sheet) : (finish s g c sh).peerMem = s.peerMem := by simp [finish]
@[simp] theorem finish_flights (s : State) (g : Grp) (c : Ctl) (sh : Sheet) : (finish s g c sh).flights = s.flights := by simp [finish]
@[simp] theorem finish_engine (s : State) (g : Grp) (c : Ctl) (sh : Sheet) : (finish s g c sh).engine = s.engine := by simp [finish]
@[simp] theorem finish_monitors (s : State) (g : Grp) (c : Ctl) (sh : Sheet) : (finish s g c sh).monitors = s.monitors := by simp [finish]
@[simp] theorem finish_counters (s : State) (g : Grp) (c : Ctl) (sh : Sheet) : (finish s g c sh).counters = s.counters := by simp [finish]
@[simp] theorem finish_launches (s : State) (g : Grp) (c : Ctl) (sh : Sheet) : (finish s g c sh).launches = s.launches := by simp [finish]
@[simp] theorem finish_queues (s : State) (g : Grp) (c : Ctl) (sh : Sheet) : (finish s g c sh).queues = s.queues := by simp [finish]
@[simp] theorem finish_flows (s : State) (g : Grp) (c : Ctl) (sh : Sheet) : (finish s g c sh).flows = s.flows := by simp [finish]
@[simp] theorem finish_keys (s : State) (g : Grp) (c : Ctl) (sh : Sheet) : (finish s g c sh).keys = s.keys := by simp [finish]
@[simp] theorem finish_inbound (s : State) (g : Grp) (c : Ctl) (sh : Sheet) : (finish s g c sh).inbound = s.inbound := by simp [finish]
@[simp] theorem finish_hostEvents (s : State) (g : Grp) (c : Ctl) (sh : Sheet) : (finish s g c sh).hostEvents = s.hostEvents := by simp [finish]
@[simp] theorem finish_readBack (s : State) (g : Grp) (c : Ctl) (sh : Sheet) : (finish s g c sh).readBack = s.readBack := by simp [finish]
@[simp] theorem finish_hostDeny (s : State) (g : Grp) (c : Ctl) (sh : Sheet) : (finish s g c sh).hostDeny = s.hostDeny := by simp [finish]
@[simp] theorem finish_joins (s : State) (g : Grp) (c : Ctl) (sh : Sheet) : (finish s g c sh).joins = s.joins := by simp [finish]
@[simp] theorem finish_mgmt (s : State) (g : Grp) (c : Ctl) (sh : Sheet) : (finish s g c sh).mgmt = s.mgmt := by simp [finish]

@[simp] theorem State.modSheet_variant (s : State) (w : Where) (f : Sheet → Sheet) : (s.modSheet w f).variant = s.variant := by unfold State.modSheet; split <;> simp
@[simp] theorem State.modSheet_agenda (s : State) (w : Where) (f : Sheet → Sheet) : (s.modSheet w f).agenda = s.agenda := by unfold State.modSheet; split <;> simp
@[simp] theorem State.modSheet_cur (s : State) (w : Where) (f : Sheet → Sheet) : (s.modSheet w f).cur = s.cur := by unfold State.modSheet; split <;> simp
@[simp] theorem State.modSheet_curWord (s : State) (w : Where) (f : Sheet → Sheet) : (s.modSheet w f).curWord = s.curWord := by unfold State.modSheet; split <;> simp
@[simp] theorem State.modSheet_nextWord (s : State) (w : Where) (f : Sheet → Sheet) : (s.modSheet w f).nextWord = s.nextWord := by unfold State.modSheet; split <;> simp
@[simp] theorem State.modSheet_clock (s : State) (w : Where) (f : Sheet → Sheet) : (s.modSheet w f).clock = s.clock := by unfold State.modSheet; split <;> simp
@[simp] theorem State.modSheet_base (s : State) (w : Where) (f : Sheet → Sheet) : (s.modSheet w f).base = s.base := by unfold State.modSheet; split <;> simp
@[simp] theorem State.modSheet_steps (s : State) (w : Where) (f : Sheet → Sheet) : (s.modSheet w f).steps = s.steps := by unfold State.modSheet; split <;> simp
@[simp] theorem State.modSheet_free (s : State) (w : Where) (f : Sheet → Sheet) : (s.modSheet w f).free = s.free := by unfold State.modSheet; split <;> simp
@[simp] theorem State.modSheet_nextId (s : State) (w : Where) (f : Sheet → Sheet) : (s.modSheet w f).nextId = s.nextId := by unfold State.modSheet; split <;> simp
@[simp] theorem State.modSheet_owners (s : State) (w : Where) (f : Sheet → Sheet) : (s.modSheet w f).owners = s.owners := by unfold State.modSheet; split <;> simp
@[simp] theorem State.modSheet_dram (s : State) (w : Where) (f : Sheet → Sheet) : (s.modSheet w f).dram = s.dram := by unfold State.modSheet; split <;> simp
@[simp] theorem State.modSheet_hostMem (s : State) (w : Where) (f : Sheet → Sheet) : (s.modSheet w f).hostMem = s.hostMem := by unfold State.modSheet; split <;> simp
@[simp] theorem State.modSheet_peerMem (s : State) (w : Where) (f : Sheet → Sheet) : (s.modSheet w f).peerMem = s.peerMem := by unfold State.modSheet; split <;> simp
@[simp] theorem State.modSheet_flights (s : State) (w : Where) (f : Sheet → Sheet) : (s.modSheet w f).flights = s.flights := by unfold State.modSheet; split <;> simp
@[simp] theorem State.modSheet_engine (s : State) (w : Where) (f : Sheet → Sheet) : (s.modSheet w f).engine = s.engine := by unfold State.modSheet; split <;> simp
@[simp] theorem State.modSheet_monitors (s : State) (w : Where) (f : Sheet → Sheet) : (s.modSheet w f).monitors = s.monitors := by unfold State.modSheet; split <;> simp
@[simp] theorem State.modSheet_counters (s : State) (w : Where) (f : Sheet → Sheet) : (s.modSheet w f).counters = s.counters := by unfold State.modSheet; split <;> simp
@[simp] theorem State.modSheet_launches (s : State) (w : Where) (f : Sheet → Sheet) : (s.modSheet w f).launches = s.launches := by unfold State.modSheet; split <;> simp
@[simp] theorem State.modSheet_queues (s : State) (w : Where) (f : Sheet → Sheet) : (s.modSheet w f).queues = s.queues := by unfold State.modSheet; split <;> simp
@[simp] theorem State.modSheet_flows (s : State) (w : Where) (f : Sheet → Sheet) : (s.modSheet w f).flows = s.flows := by unfold State.modSheet; split <;> simp
@[simp] theorem State.modSheet_keys (s : State) (w : Where) (f : Sheet → Sheet) : (s.modSheet w f).keys = s.keys := by unfold State.modSheet; split <;> simp
@[simp] theorem State.modSheet_inbound (s : State) (w : Where) (f : Sheet → Sheet) : (s.modSheet w f).inbound = s.inbound := by unfold State.modSheet; split <;> simp
@[simp] theorem State.modSheet_hostEvents (s : State) (w : Where) (f : Sheet → Sheet) : (s.modSheet w f).hostEvents = s.hostEvents := by unfold State.modSheet; split <;> simp
@[simp] theorem State.modSheet_readBack (s : State) (w : Where) (f : Sheet → Sheet) : (s.modSheet w f).readBack = s.readBack := by unfold State.modSheet; split <;> simp
@[simp] theorem State.modSheet_hostDeny (s : State) (w : Where) (f : Sheet → Sheet) : (s.modSheet w f).hostDeny = s.hostDeny := by unfold State.modSheet; split <;> simp
@[simp] theorem State.modSheet_joins (s : State) (w : Where) (f : Sheet → Sheet) : (s.modSheet w f).joins = s.joins := by unfold State.modSheet; split <;> simp
@[simp] theorem State.modSheet_mgmt (s : State) (w : Where) (f : Sheet → Sheet) : (s.modSheet w f).mgmt = s.mgmt := by unfold State.modSheet; split <;> simp

@[simp] theorem State.modWgOf_variant (s : State) (w : Where) (f : Workgroup → Workgroup) : (s.modWgOf w f).variant = s.variant := by unfold State.modWgOf; split <;> simp
@[simp] theorem State.modWgOf_agenda (s : State) (w : Where) (f : Workgroup → Workgroup) : (s.modWgOf w f).agenda = s.agenda := by unfold State.modWgOf; split <;> simp
@[simp] theorem State.modWgOf_cur (s : State) (w : Where) (f : Workgroup → Workgroup) : (s.modWgOf w f).cur = s.cur := by unfold State.modWgOf; split <;> simp
@[simp] theorem State.modWgOf_curWord (s : State) (w : Where) (f : Workgroup → Workgroup) : (s.modWgOf w f).curWord = s.curWord := by unfold State.modWgOf; split <;> simp
@[simp] theorem State.modWgOf_nextWord (s : State) (w : Where) (f : Workgroup → Workgroup) : (s.modWgOf w f).nextWord = s.nextWord := by unfold State.modWgOf; split <;> simp
@[simp] theorem State.modWgOf_clock (s : State) (w : Where) (f : Workgroup → Workgroup) : (s.modWgOf w f).clock = s.clock := by unfold State.modWgOf; split <;> simp
@[simp] theorem State.modWgOf_base (s : State) (w : Where) (f : Workgroup → Workgroup) : (s.modWgOf w f).base = s.base := by unfold State.modWgOf; split <;> simp
@[simp] theorem State.modWgOf_steps (s : State) (w : Where) (f : Workgroup → Workgroup) : (s.modWgOf w f).steps = s.steps := by unfold State.modWgOf; split <;> simp
@[simp] theorem State.modWgOf_free (s : State) (w : Where) (f : Workgroup → Workgroup) : (s.modWgOf w f).free = s.free := by unfold State.modWgOf; split <;> simp
@[simp] theorem State.modWgOf_nextId (s : State) (w : Where) (f : Workgroup → Workgroup) : (s.modWgOf w f).nextId = s.nextId := by unfold State.modWgOf; split <;> simp
@[simp] theorem State.modWgOf_owners (s : State) (w : Where) (f : Workgroup → Workgroup) : (s.modWgOf w f).owners = s.owners := by unfold State.modWgOf; split <;> simp
@[simp] theorem State.modWgOf_dram (s : State) (w : Where) (f : Workgroup → Workgroup) : (s.modWgOf w f).dram = s.dram := by unfold State.modWgOf; split <;> simp
@[simp] theorem State.modWgOf_hostMem (s : State) (w : Where) (f : Workgroup → Workgroup) : (s.modWgOf w f).hostMem = s.hostMem := by unfold State.modWgOf; split <;> simp
@[simp] theorem State.modWgOf_peerMem (s : State) (w : Where) (f : Workgroup → Workgroup) : (s.modWgOf w f).peerMem = s.peerMem := by unfold State.modWgOf; split <;> simp
@[simp] theorem State.modWgOf_flights (s : State) (w : Where) (f : Workgroup → Workgroup) : (s.modWgOf w f).flights = s.flights := by unfold State.modWgOf; split <;> simp
@[simp] theorem State.modWgOf_engine (s : State) (w : Where) (f : Workgroup → Workgroup) : (s.modWgOf w f).engine = s.engine := by unfold State.modWgOf; split <;> simp
@[simp] theorem State.modWgOf_monitors (s : State) (w : Where) (f : Workgroup → Workgroup) : (s.modWgOf w f).monitors = s.monitors := by unfold State.modWgOf; split <;> simp
@[simp] theorem State.modWgOf_counters (s : State) (w : Where) (f : Workgroup → Workgroup) : (s.modWgOf w f).counters = s.counters := by unfold State.modWgOf; split <;> simp
@[simp] theorem State.modWgOf_launches (s : State) (w : Where) (f : Workgroup → Workgroup) : (s.modWgOf w f).launches = s.launches := by unfold State.modWgOf; split <;> simp
@[simp] theorem State.modWgOf_queues (s : State) (w : Where) (f : Workgroup → Workgroup) : (s.modWgOf w f).queues = s.queues := by unfold State.modWgOf; split <;> simp
@[simp] theorem State.modWgOf_flows (s : State) (w : Where) (f : Workgroup → Workgroup) : (s.modWgOf w f).flows = s.flows := by unfold State.modWgOf; split <;> simp
@[simp] theorem State.modWgOf_keys (s : State) (w : Where) (f : Workgroup → Workgroup) : (s.modWgOf w f).keys = s.keys := by unfold State.modWgOf; split <;> simp
@[simp] theorem State.modWgOf_inbound (s : State) (w : Where) (f : Workgroup → Workgroup) : (s.modWgOf w f).inbound = s.inbound := by unfold State.modWgOf; split <;> simp
@[simp] theorem State.modWgOf_hostEvents (s : State) (w : Where) (f : Workgroup → Workgroup) : (s.modWgOf w f).hostEvents = s.hostEvents := by unfold State.modWgOf; split <;> simp
@[simp] theorem State.modWgOf_readBack (s : State) (w : Where) (f : Workgroup → Workgroup) : (s.modWgOf w f).readBack = s.readBack := by unfold State.modWgOf; split <;> simp
@[simp] theorem State.modWgOf_hostDeny (s : State) (w : Where) (f : Workgroup → Workgroup) : (s.modWgOf w f).hostDeny = s.hostDeny := by unfold State.modWgOf; split <;> simp
@[simp] theorem State.modWgOf_joins (s : State) (w : Where) (f : Workgroup → Workgroup) : (s.modWgOf w f).joins = s.joins := by unfold State.modWgOf; split <;> simp
@[simp] theorem State.modWgOf_mgmt (s : State) (w : Where) (f : Workgroup → Workgroup) : (s.modWgOf w f).mgmt = s.mgmt := by unfold State.modWgOf; split <;> simp

@[simp] theorem State.post_variant (s : State) (e : HostEvent) : (s.post e).variant = s.variant := rfl
@[simp] theorem State.post_agenda (s : State) (e : HostEvent) : (s.post e).agenda = s.agenda := rfl
@[simp] theorem State.post_cur (s : State) (e : HostEvent) : (s.post e).cur = s.cur := rfl
@[simp] theorem State.post_curWord (s : State) (e : HostEvent) : (s.post e).curWord = s.curWord := rfl
@[simp] theorem State.post_nextWord (s : State) (e : HostEvent) : (s.post e).nextWord = s.nextWord := rfl
@[simp] theorem State.post_clock (s : State) (e : HostEvent) : (s.post e).clock = s.clock := rfl
@[simp] theorem State.post_base (s : State) (e : HostEvent) : (s.post e).base = s.base := rfl
@[simp] theorem State.post_steps (s : State) (e : HostEvent) : (s.post e).steps = s.steps := rfl
@[simp] theorem State.post_free (s : State) (e : HostEvent) : (s.post e).free = s.free := rfl
@[simp] theorem State.post_nextId (s : State) (e : HostEvent) : (s.post e).nextId = s.nextId := rfl
@[simp] theorem State.post_cores (s : State) (e : HostEvent) : (s.post e).cores = s.cores := rfl
@[simp] theorem State.post_owners (s : State) (e : HostEvent) : (s.post e).owners = s.owners := rfl
@[simp] theorem State.post_dram (s : State) (e : HostEvent) : (s.post e).dram = s.dram := rfl
@[simp] theorem State.post_hostMem (s : State) (e : HostEvent) : (s.post e).hostMem = s.hostMem := rfl
@[simp] theorem State.post_peerMem (s : State) (e : HostEvent) : (s.post e).peerMem = s.peerMem := rfl
@[simp] theorem State.post_flights (s : State) (e : HostEvent) : (s.post e).flights = s.flights := rfl
@[simp] theorem State.post_engine (s : State) (e : HostEvent) : (s.post e).engine = s.engine := rfl
@[simp] theorem State.post_monitors (s : State) (e : HostEvent) : (s.post e).monitors = s.monitors := rfl
@[simp] theorem State.post_counters (s : State) (e : HostEvent) : (s.post e).counters = s.counters := rfl
@[simp] theorem State.post_launches (s : State) (e : HostEvent) : (s.post e).launches = s.launches := rfl
@[simp] theorem State.post_queues (s : State) (e : HostEvent) : (s.post e).queues = s.queues := rfl
@[simp] theorem State.post_flows (s : State) (e : HostEvent) : (s.post e).flows = s.flows := rfl
@[simp] theorem State.post_keys (s : State) (e : HostEvent) : (s.post e).keys = s.keys := rfl
@[simp] theorem State.post_inbound (s : State) (e : HostEvent) : (s.post e).inbound = s.inbound := rfl
@[simp] theorem State.post_readBack (s : State) (e : HostEvent) : (s.post e).readBack = s.readBack := rfl
@[simp] theorem State.post_hostDeny (s : State) (e : HostEvent) : (s.post e).hostDeny = s.hostDeny := rfl
@[simp] theorem State.post_joins (s : State) (e : HostEvent) : (s.post e).joins = s.joins := rfl
@[simp] theorem State.post_mgmt (s : State) (e : HostEvent) : (s.post e).mgmt = s.mgmt := rfl

@[simp] theorem State.post_hostEvents (s : State) (e : HostEvent) : (s.post e).hostEvents = s.hostEvents ++ [e] := rfl

@[simp] theorem State.queueEvent_variant (s : State) (c : Nat) (e : HEvent) : (s.queueEvent c e).variant = s.variant := rfl
@[simp] theorem State.queueEvent_agenda (s : State) (c : Nat) (e : HEvent) : (s.queueEvent c e).agenda = s.agenda := rfl
@[simp] theorem State.queueEvent_cur (s : State) (c : Nat) (e : HEvent) : (s.queueEvent c e).cur = s.cur := rfl
@[simp] theorem State.queueEvent_curWord (s : State) (c : Nat) (e : HEvent) : (s.queueEvent c e).curWord = s.curWord := rfl
@[simp] theorem State.queueEvent_nextWord (s : State) (c : Nat) (e : HEvent) : (s.queueEvent c e).nextWord = s.nextWord := rfl
@[simp] theorem State.queueEvent_clock (s : State) (c : Nat) (e : HEvent) : (s.queueEvent c e).clock = s.clock := rfl
@[simp] theorem State.queueEvent_base (s : State) (c : Nat) (e : HEvent) : (s.queueEvent c e).base = s.base := rfl
@[simp] theorem State.queueEvent_steps (s : State) (c : Nat) (e : HEvent) : (s.queueEvent c e).steps = s.steps := rfl
@[simp] theorem State.queueEvent_free (s : State) (c : Nat) (e : HEvent) : (s.queueEvent c e).free = s.free := rfl
@[simp] theorem State.queueEvent_nextId (s : State) (c : Nat) (e : HEvent) : (s.queueEvent c e).nextId = s.nextId := rfl
@[simp] theorem State.queueEvent_owners (s : State) (c : Nat) (e : HEvent) : (s.queueEvent c e).owners = s.owners := rfl
@[simp] theorem State.queueEvent_dram (s : State) (c : Nat) (e : HEvent) : (s.queueEvent c e).dram = s.dram := rfl
@[simp] theorem State.queueEvent_hostMem (s : State) (c : Nat) (e : HEvent) : (s.queueEvent c e).hostMem = s.hostMem := rfl
@[simp] theorem State.queueEvent_peerMem (s : State) (c : Nat) (e : HEvent) : (s.queueEvent c e).peerMem = s.peerMem := rfl
@[simp] theorem State.queueEvent_flights (s : State) (c : Nat) (e : HEvent) : (s.queueEvent c e).flights = s.flights := rfl
@[simp] theorem State.queueEvent_engine (s : State) (c : Nat) (e : HEvent) : (s.queueEvent c e).engine = s.engine := rfl
@[simp] theorem State.queueEvent_monitors (s : State) (c : Nat) (e : HEvent) : (s.queueEvent c e).monitors = s.monitors := rfl
@[simp] theorem State.queueEvent_counters (s : State) (c : Nat) (e : HEvent) : (s.queueEvent c e).counters = s.counters := rfl
@[simp] theorem State.queueEvent_launches (s : State) (c : Nat) (e : HEvent) : (s.queueEvent c e).launches = s.launches := rfl
@[simp] theorem State.queueEvent_queues (s : State) (c : Nat) (e : HEvent) : (s.queueEvent c e).queues = s.queues := rfl
@[simp] theorem State.queueEvent_flows (s : State) (c : Nat) (e : HEvent) : (s.queueEvent c e).flows = s.flows := rfl
@[simp] theorem State.queueEvent_keys (s : State) (c : Nat) (e : HEvent) : (s.queueEvent c e).keys = s.keys := rfl
@[simp] theorem State.queueEvent_inbound (s : State) (c : Nat) (e : HEvent) : (s.queueEvent c e).inbound = s.inbound := rfl
@[simp] theorem State.queueEvent_hostEvents (s : State) (c : Nat) (e : HEvent) : (s.queueEvent c e).hostEvents = s.hostEvents := rfl
@[simp] theorem State.queueEvent_readBack (s : State) (c : Nat) (e : HEvent) : (s.queueEvent c e).readBack = s.readBack := rfl
@[simp] theorem State.queueEvent_hostDeny (s : State) (c : Nat) (e : HEvent) : (s.queueEvent c e).hostDeny = s.hostDeny := rfl
@[simp] theorem State.queueEvent_joins (s : State) (c : Nat) (e : HEvent) : (s.queueEvent c e).joins = s.joins := rfl
@[simp] theorem State.queueEvent_mgmt (s : State) (c : Nat) (e : HEvent) : (s.queueEvent c e).mgmt = s.mgmt := rfl

@[simp] theorem State.modOwner_variant (s : State) (o : Nat) (f : Owner → Owner) : (s.modOwner o f).variant = s.variant := rfl
@[simp] theorem State.modOwner_agenda (s : State) (o : Nat) (f : Owner → Owner) : (s.modOwner o f).agenda = s.agenda := rfl
@[simp] theorem State.modOwner_cur (s : State) (o : Nat) (f : Owner → Owner) : (s.modOwner o f).cur = s.cur := rfl
@[simp] theorem State.modOwner_curWord (s : State) (o : Nat) (f : Owner → Owner) : (s.modOwner o f).curWord = s.curWord := rfl
@[simp] theorem State.modOwner_nextWord (s : State) (o : Nat) (f : Owner → Owner) : (s.modOwner o f).nextWord = s.nextWord := rfl
@[simp] theorem State.modOwner_clock (s : State) (o : Nat) (f : Owner → Owner) : (s.modOwner o f).clock = s.clock := rfl
@[simp] theorem State.modOwner_base (s : State) (o : Nat) (f : Owner → Owner) : (s.modOwner o f).base = s.base := rfl
@[simp] theorem State.modOwner_steps (s : State) (o : Nat) (f : Owner → Owner) : (s.modOwner o f).steps = s.steps := rfl
@[simp] theorem State.modOwner_free (s : State) (o : Nat) (f : Owner → Owner) : (s.modOwner o f).free = s.free := rfl
@[simp] theorem State.modOwner_nextId (s : State) (o : Nat) (f : Owner → Owner) : (s.modOwner o f).nextId = s.nextId := rfl
@[simp] theorem State.modOwner_cores (s : State) (o : Nat) (f : Owner → Owner) : (s.modOwner o f).cores = s.cores := rfl
@[simp] theorem State.modOwner_dram (s : State) (o : Nat) (f : Owner → Owner) : (s.modOwner o f).dram = s.dram := rfl
@[simp] theorem State.modOwner_hostMem (s : State) (o : Nat) (f : Owner → Owner) : (s.modOwner o f).hostMem = s.hostMem := rfl
@[simp] theorem State.modOwner_peerMem (s : State) (o : Nat) (f : Owner → Owner) : (s.modOwner o f).peerMem = s.peerMem := rfl
@[simp] theorem State.modOwner_flights (s : State) (o : Nat) (f : Owner → Owner) : (s.modOwner o f).flights = s.flights := rfl
@[simp] theorem State.modOwner_engine (s : State) (o : Nat) (f : Owner → Owner) : (s.modOwner o f).engine = s.engine := rfl
@[simp] theorem State.modOwner_monitors (s : State) (o : Nat) (f : Owner → Owner) : (s.modOwner o f).monitors = s.monitors := rfl
@[simp] theorem State.modOwner_counters (s : State) (o : Nat) (f : Owner → Owner) : (s.modOwner o f).counters = s.counters := rfl
@[simp] theorem State.modOwner_launches (s : State) (o : Nat) (f : Owner → Owner) : (s.modOwner o f).launches = s.launches := rfl
@[simp] theorem State.modOwner_queues (s : State) (o : Nat) (f : Owner → Owner) : (s.modOwner o f).queues = s.queues := rfl
@[simp] theorem State.modOwner_flows (s : State) (o : Nat) (f : Owner → Owner) : (s.modOwner o f).flows = s.flows := rfl
@[simp] theorem State.modOwner_keys (s : State) (o : Nat) (f : Owner → Owner) : (s.modOwner o f).keys = s.keys := rfl
@[simp] theorem State.modOwner_inbound (s : State) (o : Nat) (f : Owner → Owner) : (s.modOwner o f).inbound = s.inbound := rfl
@[simp] theorem State.modOwner_hostEvents (s : State) (o : Nat) (f : Owner → Owner) : (s.modOwner o f).hostEvents = s.hostEvents := rfl
@[simp] theorem State.modOwner_readBack (s : State) (o : Nat) (f : Owner → Owner) : (s.modOwner o f).readBack = s.readBack := rfl
@[simp] theorem State.modOwner_hostDeny (s : State) (o : Nat) (f : Owner → Owner) : (s.modOwner o f).hostDeny = s.hostDeny := rfl
@[simp] theorem State.modOwner_joins (s : State) (o : Nat) (f : Owner → Owner) : (s.modOwner o f).joins = s.joins := rfl
@[simp] theorem State.modOwner_mgmt (s : State) (o : Nat) (f : Owner → Owner) : (s.modOwner o f).mgmt = s.mgmt := rfl

@[simp] theorem State.modLaunch_variant (s : State) (l : Nat) (f : Launch → Launch) : (s.modLaunch l f).variant = s.variant := rfl
@[simp] theorem State.modLaunch_agenda (s : State) (l : Nat) (f : Launch → Launch) : (s.modLaunch l f).agenda = s.agenda := rfl
@[simp] theorem State.modLaunch_cur (s : State) (l : Nat) (f : Launch → Launch) : (s.modLaunch l f).cur = s.cur := rfl
@[simp] theorem State.modLaunch_curWord (s : State) (l : Nat) (f : Launch → Launch) : (s.modLaunch l f).curWord = s.curWord := rfl
@[simp] theorem State.modLaunch_nextWord (s : State) (l : Nat) (f : Launch → Launch) : (s.modLaunch l f).nextWord = s.nextWord := rfl
@[simp] theorem State.modLaunch_clock (s : State) (l : Nat) (f : Launch → Launch) : (s.modLaunch l f).clock = s.clock := rfl
@[simp] theorem State.modLaunch_base (s : State) (l : Nat) (f : Launch → Launch) : (s.modLaunch l f).base = s.base := rfl
@[simp] theorem State.modLaunch_steps (s : State) (l : Nat) (f : Launch → Launch) : (s.modLaunch l f).steps = s.steps := rfl
@[simp] theorem State.modLaunch_free (s : State) (l : Nat) (f : Launch → Launch) : (s.modLaunch l f).free = s.free := rfl
@[simp] theorem State.modLaunch_nextId (s : State) (l : Nat) (f : Launch → Launch) : (s.modLaunch l f).nextId = s.nextId := rfl
@[simp] theorem State.modLaunch_cores (s : State) (l : Nat) (f : Launch → Launch) : (s.modLaunch l f).cores = s.cores := rfl
@[simp] theorem State.modLaunch_owners (s : State) (l : Nat) (f : Launch → Launch) : (s.modLaunch l f).owners = s.owners := rfl
@[simp] theorem State.modLaunch_dram (s : State) (l : Nat) (f : Launch → Launch) : (s.modLaunch l f).dram = s.dram := rfl
@[simp] theorem State.modLaunch_hostMem (s : State) (l : Nat) (f : Launch → Launch) : (s.modLaunch l f).hostMem = s.hostMem := rfl
@[simp] theorem State.modLaunch_peerMem (s : State) (l : Nat) (f : Launch → Launch) : (s.modLaunch l f).peerMem = s.peerMem := rfl
@[simp] theorem State.modLaunch_flights (s : State) (l : Nat) (f : Launch → Launch) : (s.modLaunch l f).flights = s.flights := rfl
@[simp] theorem State.modLaunch_engine (s : State) (l : Nat) (f : Launch → Launch) : (s.modLaunch l f).engine = s.engine := rfl
@[simp] theorem State.modLaunch_monitors (s : State) (l : Nat) (f : Launch → Launch) : (s.modLaunch l f).monitors = s.monitors := rfl
@[simp] theorem State.modLaunch_counters (s : State) (l : Nat) (f : Launch → Launch) : (s.modLaunch l f).counters = s.counters := rfl
@[simp] theorem State.modLaunch_queues (s : State) (l : Nat) (f : Launch → Launch) : (s.modLaunch l f).queues = s.queues := rfl
@[simp] theorem State.modLaunch_flows (s : State) (l : Nat) (f : Launch → Launch) : (s.modLaunch l f).flows = s.flows := rfl
@[simp] theorem State.modLaunch_keys (s : State) (l : Nat) (f : Launch → Launch) : (s.modLaunch l f).keys = s.keys := rfl
@[simp] theorem State.modLaunch_inbound (s : State) (l : Nat) (f : Launch → Launch) : (s.modLaunch l f).inbound = s.inbound := rfl
@[simp] theorem State.modLaunch_hostEvents (s : State) (l : Nat) (f : Launch → Launch) : (s.modLaunch l f).hostEvents = s.hostEvents := rfl
@[simp] theorem State.modLaunch_readBack (s : State) (l : Nat) (f : Launch → Launch) : (s.modLaunch l f).readBack = s.readBack := rfl
@[simp] theorem State.modLaunch_hostDeny (s : State) (l : Nat) (f : Launch → Launch) : (s.modLaunch l f).hostDeny = s.hostDeny := rfl
@[simp] theorem State.modLaunch_joins (s : State) (l : Nat) (f : Launch → Launch) : (s.modLaunch l f).joins = s.joins := rfl
@[simp] theorem State.modLaunch_mgmt (s : State) (l : Nat) (f : Launch → Launch) : (s.modLaunch l f).mgmt = s.mgmt := rfl

@[simp] theorem State.charge_variant (s : State) (o : Nat) (t : Target) (n : Nat) : (s.charge o t n).variant = s.variant := rfl
@[simp] theorem State.charge_agenda (s : State) (o : Nat) (t : Target) (n : Nat) : (s.charge o t n).agenda = s.agenda := rfl
@[simp] theorem State.charge_cur (s : State) (o : Nat) (t : Target) (n : Nat) : (s.charge o t n).cur = s.cur := rfl
@[simp] theorem State.charge_curWord (s : State) (o : Nat) (t : Target) (n : Nat) : (s.charge o t n).curWord = s.curWord := rfl
@[simp] theorem State.charge_nextWord (s : State) (o : Nat) (t : Target) (n : Nat) : (s.charge o t n).nextWord = s.nextWord := rfl
@[simp] theorem State.charge_clock (s : State) (o : Nat) (t : Target) (n : Nat) : (s.charge o t n).clock = s.clock := rfl
@[simp] theorem State.charge_base (s : State) (o : Nat) (t : Target) (n : Nat) : (s.charge o t n).base = s.base := rfl
@[simp] theorem State.charge_steps (s : State) (o : Nat) (t : Target) (n : Nat) : (s.charge o t n).steps = s.steps := rfl
@[simp] theorem State.charge_free (s : State) (o : Nat) (t : Target) (n : Nat) : (s.charge o t n).free = s.free := rfl
@[simp] theorem State.charge_nextId (s : State) (o : Nat) (t : Target) (n : Nat) : (s.charge o t n).nextId = s.nextId := rfl
@[simp] theorem State.charge_cores (s : State) (o : Nat) (t : Target) (n : Nat) : (s.charge o t n).cores = s.cores := rfl
@[simp] theorem State.charge_dram (s : State) (o : Nat) (t : Target) (n : Nat) : (s.charge o t n).dram = s.dram := rfl
@[simp] theorem State.charge_hostMem (s : State) (o : Nat) (t : Target) (n : Nat) : (s.charge o t n).hostMem = s.hostMem := rfl
@[simp] theorem State.charge_peerMem (s : State) (o : Nat) (t : Target) (n : Nat) : (s.charge o t n).peerMem = s.peerMem := rfl
@[simp] theorem State.charge_flights (s : State) (o : Nat) (t : Target) (n : Nat) : (s.charge o t n).flights = s.flights := rfl
@[simp] theorem State.charge_engine (s : State) (o : Nat) (t : Target) (n : Nat) : (s.charge o t n).engine = s.engine := rfl
@[simp] theorem State.charge_monitors (s : State) (o : Nat) (t : Target) (n : Nat) : (s.charge o t n).monitors = s.monitors := rfl
@[simp] theorem State.charge_counters (s : State) (o : Nat) (t : Target) (n : Nat) : (s.charge o t n).counters = s.counters := rfl
@[simp] theorem State.charge_launches (s : State) (o : Nat) (t : Target) (n : Nat) : (s.charge o t n).launches = s.launches := rfl
@[simp] theorem State.charge_queues (s : State) (o : Nat) (t : Target) (n : Nat) : (s.charge o t n).queues = s.queues := rfl
@[simp] theorem State.charge_flows (s : State) (o : Nat) (t : Target) (n : Nat) : (s.charge o t n).flows = s.flows := rfl
@[simp] theorem State.charge_keys (s : State) (o : Nat) (t : Target) (n : Nat) : (s.charge o t n).keys = s.keys := rfl
@[simp] theorem State.charge_inbound (s : State) (o : Nat) (t : Target) (n : Nat) : (s.charge o t n).inbound = s.inbound := rfl
@[simp] theorem State.charge_hostEvents (s : State) (o : Nat) (t : Target) (n : Nat) : (s.charge o t n).hostEvents = s.hostEvents := rfl
@[simp] theorem State.charge_readBack (s : State) (o : Nat) (t : Target) (n : Nat) : (s.charge o t n).readBack = s.readBack := rfl
@[simp] theorem State.charge_hostDeny (s : State) (o : Nat) (t : Target) (n : Nat) : (s.charge o t n).hostDeny = s.hostDeny := rfl
@[simp] theorem State.charge_joins (s : State) (o : Nat) (t : Target) (n : Nat) : (s.charge o t n).joins = s.joins := rfl
@[simp] theorem State.charge_mgmt (s : State) (o : Nat) (t : Target) (n : Nat) : (s.charge o t n).mgmt = s.mgmt := rfl

@[simp] theorem State.modCounter_variant (s : State) (p : Counter → Bool) (f : Counter → Counter) : (s.modCounter p f).variant = s.variant := rfl
@[simp] theorem State.modCounter_agenda (s : State) (p : Counter → Bool) (f : Counter → Counter) : (s.modCounter p f).agenda = s.agenda := rfl
@[simp] theorem State.modCounter_cur (s : State) (p : Counter → Bool) (f : Counter → Counter) : (s.modCounter p f).cur = s.cur := rfl
@[simp] theorem State.modCounter_curWord (s : State) (p : Counter → Bool) (f : Counter → Counter) : (s.modCounter p f).curWord = s.curWord := rfl
@[simp] theorem State.modCounter_nextWord (s : State) (p : Counter → Bool) (f : Counter → Counter) : (s.modCounter p f).nextWord = s.nextWord := rfl
@[simp] theorem State.modCounter_clock (s : State) (p : Counter → Bool) (f : Counter → Counter) : (s.modCounter p f).clock = s.clock := rfl
@[simp] theorem State.modCounter_base (s : State) (p : Counter → Bool) (f : Counter → Counter) : (s.modCounter p f).base = s.base := rfl
@[simp] theorem State.modCounter_steps (s : State) (p : Counter → Bool) (f : Counter → Counter) : (s.modCounter p f).steps = s.steps := rfl
@[simp] theorem State.modCounter_free (s : State) (p : Counter → Bool) (f : Counter → Counter) : (s.modCounter p f).free = s.free := rfl
@[simp] theorem State.modCounter_nextId (s : State) (p : Counter → Bool) (f : Counter → Counter) : (s.modCounter p f).nextId = s.nextId := rfl
@[simp] theorem State.modCounter_cores (s : State) (p : Counter → Bool) (f : Counter → Counter) : (s.modCounter p f).cores = s.cores := rfl
@[simp] theorem State.modCounter_owners (s : State) (p : Counter → Bool) (f : Counter → Counter) : (s.modCounter p f).owners = s.owners := rfl
@[simp] theorem State.modCounter_dram (s : State) (p : Counter → Bool) (f : Counter → Counter) : (s.modCounter p f).dram = s.dram := rfl
@[simp] theorem State.modCounter_hostMem (s : State) (p : Counter → Bool) (f : Counter → Counter) : (s.modCounter p f).hostMem = s.hostMem := rfl
@[simp] theorem State.modCounter_peerMem (s : State) (p : Counter → Bool) (f : Counter → Counter) : (s.modCounter p f).peerMem = s.peerMem := rfl
@[simp] theorem State.modCounter_flights (s : State) (p : Counter → Bool) (f : Counter → Counter) : (s.modCounter p f).flights = s.flights := rfl
@[simp] theorem State.modCounter_engine (s : State) (p : Counter → Bool) (f : Counter → Counter) : (s.modCounter p f).engine = s.engine := rfl
@[simp] theorem State.modCounter_monitors (s : State) (p : Counter → Bool) (f : Counter → Counter) : (s.modCounter p f).monitors = s.monitors := rfl
@[simp] theorem State.modCounter_launches (s : State) (p : Counter → Bool) (f : Counter → Counter) : (s.modCounter p f).launches = s.launches := rfl
@[simp] theorem State.modCounter_queues (s : State) (p : Counter → Bool) (f : Counter → Counter) : (s.modCounter p f).queues = s.queues := rfl
@[simp] theorem State.modCounter_flows (s : State) (p : Counter → Bool) (f : Counter → Counter) : (s.modCounter p f).flows = s.flows := rfl
@[simp] theorem State.modCounter_keys (s : State) (p : Counter → Bool) (f : Counter → Counter) : (s.modCounter p f).keys = s.keys := rfl
@[simp] theorem State.modCounter_inbound (s : State) (p : Counter → Bool) (f : Counter → Counter) : (s.modCounter p f).inbound = s.inbound := rfl
@[simp] theorem State.modCounter_hostEvents (s : State) (p : Counter → Bool) (f : Counter → Counter) : (s.modCounter p f).hostEvents = s.hostEvents := rfl
@[simp] theorem State.modCounter_readBack (s : State) (p : Counter → Bool) (f : Counter → Counter) : (s.modCounter p f).readBack = s.readBack := rfl
@[simp] theorem State.modCounter_hostDeny (s : State) (p : Counter → Bool) (f : Counter → Counter) : (s.modCounter p f).hostDeny = s.hostDeny := rfl
@[simp] theorem State.modCounter_joins (s : State) (p : Counter → Bool) (f : Counter → Counter) : (s.modCounter p f).joins = s.joins := rfl
@[simp] theorem State.modCounter_mgmt (s : State) (p : Counter → Bool) (f : Counter → Counter) : (s.modCounter p f).mgmt = s.mgmt := rfl

@[simp] theorem State.fresh_variant (s : State) : (s.fresh.2).variant = s.variant := rfl
@[simp] theorem State.fresh_agenda (s : State) : (s.fresh.2).agenda = s.agenda := rfl
@[simp] theorem State.fresh_cur (s : State) : (s.fresh.2).cur = s.cur := rfl
@[simp] theorem State.fresh_curWord (s : State) : (s.fresh.2).curWord = s.curWord := rfl
@[simp] theorem State.fresh_nextWord (s : State) : (s.fresh.2).nextWord = s.nextWord := rfl
@[simp] theorem State.fresh_clock (s : State) : (s.fresh.2).clock = s.clock := rfl
@[simp] theorem State.fresh_base (s : State) : (s.fresh.2).base = s.base := rfl
@[simp] theorem State.fresh_steps (s : State) : (s.fresh.2).steps = s.steps := rfl
@[simp] theorem State.fresh_free (s : State) : (s.fresh.2).free = s.free := rfl
@[simp] theorem State.fresh_cores (s : State) : (s.fresh.2).cores = s.cores := rfl
@[simp] theorem State.fresh_owners (s : State) : (s.fresh.2).owners = s.owners := rfl
@[simp] theorem State.fresh_dram (s : State) : (s.fresh.2).dram = s.dram := rfl
@[simp] theorem State.fresh_hostMem (s : State) : (s.fresh.2).hostMem = s.hostMem := rfl
@[simp] theorem State.fresh_peerMem (s : State) : (s.fresh.2).peerMem = s.peerMem := rfl
@[simp] theorem State.fresh_flights (s : State) : (s.fresh.2).flights = s.flights := rfl
@[simp] theorem State.fresh_engine (s : State) : (s.fresh.2).engine = s.engine := rfl
@[simp] theorem State.fresh_monitors (s : State) : (s.fresh.2).monitors = s.monitors := rfl
@[simp] theorem State.fresh_counters (s : State) : (s.fresh.2).counters = s.counters := rfl
@[simp] theorem State.fresh_launches (s : State) : (s.fresh.2).launches = s.launches := rfl
@[simp] theorem State.fresh_queues (s : State) : (s.fresh.2).queues = s.queues := rfl
@[simp] theorem State.fresh_flows (s : State) : (s.fresh.2).flows = s.flows := rfl
@[simp] theorem State.fresh_keys (s : State) : (s.fresh.2).keys = s.keys := rfl
@[simp] theorem State.fresh_inbound (s : State) : (s.fresh.2).inbound = s.inbound := rfl
@[simp] theorem State.fresh_hostEvents (s : State) : (s.fresh.2).hostEvents = s.hostEvents := rfl
@[simp] theorem State.fresh_readBack (s : State) : (s.fresh.2).readBack = s.readBack := rfl
@[simp] theorem State.fresh_hostDeny (s : State) : (s.fresh.2).hostDeny = s.hostDeny := rfl
@[simp] theorem State.fresh_joins (s : State) : (s.fresh.2).joins = s.joins := rfl
@[simp] theorem State.fresh_mgmt (s : State) : (s.fresh.2).mgmt = s.mgmt := rfl

@[simp] theorem State.fresh_id (s : State) : s.fresh.1 = s.nextId := rfl
@[simp] theorem State.fresh_nextId (s : State) : s.fresh.2.nextId = s.nextId + 1 := rfl

@[simp] theorem State.undefinedValue_variant (s : State) : (s.undefinedValue.2).variant = s.variant := rfl
@[simp] theorem State.undefinedValue_agenda (s : State) : (s.undefinedValue.2).agenda = s.agenda := rfl
@[simp] theorem State.undefinedValue_cur (s : State) : (s.undefinedValue.2).cur = s.cur := rfl
@[simp] theorem State.undefinedValue_curWord (s : State) : (s.undefinedValue.2).curWord = s.curWord := rfl
@[simp] theorem State.undefinedValue_nextWord (s : State) : (s.undefinedValue.2).nextWord = s.nextWord := rfl
@[simp] theorem State.undefinedValue_clock (s : State) : (s.undefinedValue.2).clock = s.clock := rfl
@[simp] theorem State.undefinedValue_base (s : State) : (s.undefinedValue.2).base = s.base := rfl
@[simp] theorem State.undefinedValue_steps (s : State) : (s.undefinedValue.2).steps = s.steps := rfl
@[simp] theorem State.undefinedValue_nextId (s : State) : (s.undefinedValue.2).nextId = s.nextId := rfl
@[simp] theorem State.undefinedValue_cores (s : State) : (s.undefinedValue.2).cores = s.cores := rfl
@[simp] theorem State.undefinedValue_owners (s : State) : (s.undefinedValue.2).owners = s.owners := rfl
@[simp] theorem State.undefinedValue_dram (s : State) : (s.undefinedValue.2).dram = s.dram := rfl
@[simp] theorem State.undefinedValue_hostMem (s : State) : (s.undefinedValue.2).hostMem = s.hostMem := rfl
@[simp] theorem State.undefinedValue_peerMem (s : State) : (s.undefinedValue.2).peerMem = s.peerMem := rfl
@[simp] theorem State.undefinedValue_flights (s : State) : (s.undefinedValue.2).flights = s.flights := rfl
@[simp] theorem State.undefinedValue_engine (s : State) : (s.undefinedValue.2).engine = s.engine := rfl
@[simp] theorem State.undefinedValue_monitors (s : State) : (s.undefinedValue.2).monitors = s.monitors := rfl
@[simp] theorem State.undefinedValue_counters (s : State) : (s.undefinedValue.2).counters = s.counters := rfl
@[simp] theorem State.undefinedValue_launches (s : State) : (s.undefinedValue.2).launches = s.launches := rfl
@[simp] theorem State.undefinedValue_queues (s : State) : (s.undefinedValue.2).queues = s.queues := rfl
@[simp] theorem State.undefinedValue_flows (s : State) : (s.undefinedValue.2).flows = s.flows := rfl
@[simp] theorem State.undefinedValue_keys (s : State) : (s.undefinedValue.2).keys = s.keys := rfl
@[simp] theorem State.undefinedValue_inbound (s : State) : (s.undefinedValue.2).inbound = s.inbound := rfl
@[simp] theorem State.undefinedValue_hostEvents (s : State) : (s.undefinedValue.2).hostEvents = s.hostEvents := rfl
@[simp] theorem State.undefinedValue_readBack (s : State) : (s.undefinedValue.2).readBack = s.readBack := rfl
@[simp] theorem State.undefinedValue_hostDeny (s : State) : (s.undefinedValue.2).hostDeny = s.hostDeny := rfl
@[simp] theorem State.undefinedValue_joins (s : State) : (s.undefinedValue.2).joins = s.joins := rfl
@[simp] theorem State.undefinedValue_mgmt (s : State) : (s.undefinedValue.2).mgmt = s.mgmt := rfl

/-! ### Cores -/

@[simp] theorem Core.modWg_owner (k : Core) (i : Nat) (f : Workgroup → Workgroup) : (k.modWg i f).owner = k.owner := rfl
@[simp] theorem Core.modWg_quant (k : Core) (i : Nat) (f : Workgroup → Workgroup) : (k.modWg i f).quant = k.quant := rfl
@[simp] theorem Core.modWg_quarantined (k : Core) (i : Nat) (f : Workgroup → Workgroup) : (k.modWg i f).quarantined = k.quarantined := rfl
@[simp] theorem Core.modWg_h1 (k : Core) (i : Nat) (f : Workgroup → Workgroup) : (k.modWg i f).h1 = k.h1 := rfl
@[simp] theorem Core.modWg_h2 (k : Core) (i : Nat) (f : Workgroup → Workgroup) : (k.modWg i f).h2 = k.h2 := rfl
@[simp] theorem Core.modWg_stall (k : Core) (i : Nat) (f : Workgroup → Workgroup) : (k.modWg i f).stall = k.stall := rfl
@[simp] theorem Core.modWg_switch (k : Core) (i : Nat) (f : Workgroup → Workgroup) : (k.modWg i f).switch = k.switch := rfl
@[simp] theorem Core.modWg_saved (k : Core) (i : Nat) (f : Workgroup → Workgroup) : (k.modWg i f).saved = k.saved := rfl
@[simp] theorem Core.modWg_vatImage (k : Core) (i : Nat) (f : Workgroup → Workgroup) : (k.modWg i f).vatImage = k.vatImage := rfl
@[simp] theorem Core.modWg_context (k : Core) (i : Nat) (f : Workgroup → Workgroup) : (k.modWg i f).context = k.context := rfl
@[simp] theorem Core.modWg_spad (k : Core) (i : Nat) (f : Workgroup → Workgroup) : (k.modWg i f).spad = k.spad := rfl
@[simp] theorem Core.modWg_acc (k : Core) (i : Nat) (f : Workgroup → Workgroup) : (k.modWg i f).acc = k.acc := rfl
@[simp] theorem Core.modWg_mould (k : Core) (i : Nat) (f : Workgroup → Workgroup) : (k.modWg i f).mould = k.mould := rfl
@[simp] theorem Core.modWg_tags (k : Core) (i : Nat) (f : Workgroup → Workgroup) : (k.modWg i f).tags = k.tags := rfl
@[simp] theorem Core.modWg_bins (k : Core) (i : Nat) (f : Workgroup → Workgroup) : (k.modWg i f).bins = k.bins := rfl
@[simp] theorem Core.modWg_l1 (k : Core) (i : Nat) (f : Workgroup → Workgroup) : (k.modWg i f).l1 = k.l1 := rfl
@[simp] theorem Core.modWg_tlb (k : Core) (i : Nat) (f : Workgroup → Workgroup) : (k.modWg i f).tlb = k.tlb := rfl
@[simp] theorem Core.modWg_misses (k : Core) (i : Nat) (f : Workgroup → Workgroup) : (k.modWg i f).misses = k.misses := rfl
@[simp] theorem Core.modWg_events (k : Core) (i : Nat) (f : Workgroup → Workgroup) : (k.modWg i f).events = k.events := rfl
@[simp] theorem Core.modWg_channels (k : Core) (i : Nat) (f : Workgroup → Workgroup) : (k.modWg i f).channels = k.channels := rfl
@[simp] theorem Core.modWg_mq (k : Core) (i : Nat) (f : Workgroup → Workgroup) : (k.modWg i f).mq = k.mq := rfl
@[simp] theorem Core.modWg_xq (k : Core) (i : Nat) (f : Workgroup → Workgroup) : (k.modWg i f).xq = k.xq := rfl
@[simp] theorem Core.modWg_launchQ (k : Core) (i : Nat) (f : Workgroup → Workgroup) : (k.modWg i f).launchQ = k.launchQ := rfl
@[simp] theorem Core.modWg_refused (k : Core) (i : Nat) (f : Workgroup → Workgroup) : (k.modWg i f).refused = k.refused := rfl
@[simp] theorem Core.modWg_rrNext (k : Core) (i : Nat) (f : Workgroup → Workgroup) : (k.modWg i f).rrNext = k.rrNext := rfl
@[simp] theorem Core.modWg_acquired (k : Core) (i : Nat) (f : Workgroup → Workgroup) : (k.modWg i f).acquired = k.acquired := rfl
@[simp] theorem Core.modWg_lastSheet (k : Core) (i : Nat) (f : Workgroup → Workgroup) : (k.modWg i f).lastSheet = k.lastSheet := rfl

@[simp] theorem Core.modWg_wgs (k : Core) (i : Nat) (f : Workgroup → Workgroup) : (k.modWg i f).wgs = k.wgs.modify i (Option.map f) := rfl

@[simp] theorem Core.modHandler_owner (k : Core) (lv : Nat) (f : Handler → Handler) : (k.modHandler lv f).owner = k.owner := by unfold Core.modHandler; split <;> rfl
@[simp] theorem Core.modHandler_quant (k : Core) (lv : Nat) (f : Handler → Handler) : (k.modHandler lv f).quant = k.quant := by unfold Core.modHandler; split <;> rfl
@[simp] theorem Core.modHandler_quarantined (k : Core) (lv : Nat) (f : Handler → Handler) : (k.modHandler lv f).quarantined = k.quarantined := by unfold Core.modHandler; split <;> rfl
@[simp] theorem Core.modHandler_wgs (k : Core) (lv : Nat) (f : Handler → Handler) : (k.modHandler lv f).wgs = k.wgs := by unfold Core.modHandler; split <;> rfl
@[simp] theorem Core.modHandler_stall (k : Core) (lv : Nat) (f : Handler → Handler) : (k.modHandler lv f).stall = k.stall := by unfold Core.modHandler; split <;> rfl
@[simp] theorem Core.modHandler_switch (k : Core) (lv : Nat) (f : Handler → Handler) : (k.modHandler lv f).switch = k.switch := by unfold Core.modHandler; split <;> rfl
@[simp] theorem Core.modHandler_saved (k : Core) (lv : Nat) (f : Handler → Handler) : (k.modHandler lv f).saved = k.saved := by unfold Core.modHandler; split <;> rfl
@[simp] theorem Core.modHandler_vatImage (k : Core) (lv : Nat) (f : Handler → Handler) : (k.modHandler lv f).vatImage = k.vatImage := by unfold Core.modHandler; split <;> rfl
@[simp] theorem Core.modHandler_context (k : Core) (lv : Nat) (f : Handler → Handler) : (k.modHandler lv f).context = k.context := by unfold Core.modHandler; split <;> rfl
@[simp] theorem Core.modHandler_spad (k : Core) (lv : Nat) (f : Handler → Handler) : (k.modHandler lv f).spad = k.spad := by unfold Core.modHandler; split <;> rfl
@[simp] theorem Core.modHandler_acc (k : Core) (lv : Nat) (f : Handler → Handler) : (k.modHandler lv f).acc = k.acc := by unfold Core.modHandler; split <;> rfl
@[simp] theorem Core.modHandler_mould (k : Core) (lv : Nat) (f : Handler → Handler) : (k.modHandler lv f).mould = k.mould := by unfold Core.modHandler; split <;> rfl
@[simp] theorem Core.modHandler_tags (k : Core) (lv : Nat) (f : Handler → Handler) : (k.modHandler lv f).tags = k.tags := by unfold Core.modHandler; split <;> rfl
@[simp] theorem Core.modHandler_bins (k : Core) (lv : Nat) (f : Handler → Handler) : (k.modHandler lv f).bins = k.bins := by unfold Core.modHandler; split <;> rfl
@[simp] theorem Core.modHandler_l1 (k : Core) (lv : Nat) (f : Handler → Handler) : (k.modHandler lv f).l1 = k.l1 := by unfold Core.modHandler; split <;> rfl
@[simp] theorem Core.modHandler_tlb (k : Core) (lv : Nat) (f : Handler → Handler) : (k.modHandler lv f).tlb = k.tlb := by unfold Core.modHandler; split <;> rfl
@[simp] theorem Core.modHandler_misses (k : Core) (lv : Nat) (f : Handler → Handler) : (k.modHandler lv f).misses = k.misses := by unfold Core.modHandler; split <;> rfl
@[simp] theorem Core.modHandler_events (k : Core) (lv : Nat) (f : Handler → Handler) : (k.modHandler lv f).events = k.events := by unfold Core.modHandler; split <;> rfl
@[simp] theorem Core.modHandler_channels (k : Core) (lv : Nat) (f : Handler → Handler) : (k.modHandler lv f).channels = k.channels := by unfold Core.modHandler; split <;> rfl
@[simp] theorem Core.modHandler_mq (k : Core) (lv : Nat) (f : Handler → Handler) : (k.modHandler lv f).mq = k.mq := by unfold Core.modHandler; split <;> rfl
@[simp] theorem Core.modHandler_xq (k : Core) (lv : Nat) (f : Handler → Handler) : (k.modHandler lv f).xq = k.xq := by unfold Core.modHandler; split <;> rfl
@[simp] theorem Core.modHandler_launchQ (k : Core) (lv : Nat) (f : Handler → Handler) : (k.modHandler lv f).launchQ = k.launchQ := by unfold Core.modHandler; split <;> rfl
@[simp] theorem Core.modHandler_refused (k : Core) (lv : Nat) (f : Handler → Handler) : (k.modHandler lv f).refused = k.refused := by unfold Core.modHandler; split <;> rfl
@[simp] theorem Core.modHandler_rrNext (k : Core) (lv : Nat) (f : Handler → Handler) : (k.modHandler lv f).rrNext = k.rrNext := by unfold Core.modHandler; split <;> rfl
@[simp] theorem Core.modHandler_acquired (k : Core) (lv : Nat) (f : Handler → Handler) : (k.modHandler lv f).acquired = k.acquired := by unfold Core.modHandler; split <;> rfl
@[simp] theorem Core.modHandler_lastSheet (k : Core) (lv : Nat) (f : Handler → Handler) : (k.modHandler lv f).lastSheet = k.lastSheet := by unfold Core.modHandler; split <;> rfl

/-! ### Sheets -/

@[simp] theorem Sheet.modLane_kind (sh : Sheet) (l : Nat) (f : Thread → Thread) : (sh.modLane l f).kind = sh.kind := rfl
@[simp] theorem Sheet.modLane_width (sh : Sheet) (l : Nat) (f : Thread → Thread) : (sh.modLane l f).width = sh.width := rfl
@[simp] theorem Sheet.modLane_c (sh : Sheet) (l : Nat) (f : Thread → Thread) : (sh.modLane l f).c = sh.c := rfl
@[simp] theorem Sheet.modLane_code (sh : Sheet) (l : Nat) (f : Thread → Thread) : (sh.modLane l f).code = sh.code := rfl
@[simp] theorem Sheet.modLane_age (sh : Sheet) (l : Nat) (f : Thread → Thread) : (sh.modLane l f).age = sh.age := rfl
@[simp] theorem Sheet.modLane_u (sh : Sheet) (l : Nat) (f : Thread → Thread) : (sh.modLane l f).u = sh.u := rfl
@[simp] theorem Sheet.modLane_m (sh : Sheet) (l : Nat) (f : Thread → Thread) : (sh.modLane l f).m = sh.m := rfl
@[simp] theorem Sheet.modLane_sq (sh : Sheet) (l : Nat) (f : Thread → Thread) : (sh.modLane l f).sq = sh.sq := rfl
@[simp] theorem Sheet.modLane_fills (sh : Sheet) (l : Nat) (f : Thread → Thread) : (sh.modLane l f).fills = sh.fills := rfl
@[simp] theorem Sheet.modLane_pairs (sh : Sheet) (l : Nat) (f : Thread → Thread) : (sh.modLane l f).pairs = sh.pairs := rfl
@[simp] theorem Sheet.modLane_gen (sh : Sheet) (l : Nat) (f : Thread → Thread) : (sh.modLane l f).gen = sh.gen := rfl

@[simp] theorem Sheet.modLane_lanes (sh : Sheet) (l : Nat) (f : Thread → Thread) : (sh.modLane l f).lanes = sh.lanes.modify l f := rfl

@[simp] theorem Sheet.modLanes_kind (sh : Sheet) (ls : List Nat) (f : Thread → Thread) : (sh.modLanes ls f).kind = sh.kind := rfl
@[simp] theorem Sheet.modLanes_width (sh : Sheet) (ls : List Nat) (f : Thread → Thread) : (sh.modLanes ls f).width = sh.width := rfl
@[simp] theorem Sheet.modLanes_c (sh : Sheet) (ls : List Nat) (f : Thread → Thread) : (sh.modLanes ls f).c = sh.c := rfl
@[simp] theorem Sheet.modLanes_code (sh : Sheet) (ls : List Nat) (f : Thread → Thread) : (sh.modLanes ls f).code = sh.code := rfl
@[simp] theorem Sheet.modLanes_age (sh : Sheet) (ls : List Nat) (f : Thread → Thread) : (sh.modLanes ls f).age = sh.age := rfl
@[simp] theorem Sheet.modLanes_u (sh : Sheet) (ls : List Nat) (f : Thread → Thread) : (sh.modLanes ls f).u = sh.u := rfl
@[simp] theorem Sheet.modLanes_m (sh : Sheet) (ls : List Nat) (f : Thread → Thread) : (sh.modLanes ls f).m = sh.m := rfl
@[simp] theorem Sheet.modLanes_sq (sh : Sheet) (ls : List Nat) (f : Thread → Thread) : (sh.modLanes ls f).sq = sh.sq := rfl
@[simp] theorem Sheet.modLanes_fills (sh : Sheet) (ls : List Nat) (f : Thread → Thread) : (sh.modLanes ls f).fills = sh.fills := rfl
@[simp] theorem Sheet.modLanes_pairs (sh : Sheet) (ls : List Nat) (f : Thread → Thread) : (sh.modLanes ls f).pairs = sh.pairs := rfl
@[simp] theorem Sheet.modLanes_gen (sh : Sheet) (ls : List Nat) (f : Thread → Thread) : (sh.modLanes ls f).gen = sh.gen := rfl

@[simp] theorem stepLanes_kind (ls : List Nat) (y : Bool) (sh : Sheet) : (stepLanes ls y sh).kind = sh.kind := rfl
@[simp] theorem stepLanes_width (ls : List Nat) (y : Bool) (sh : Sheet) : (stepLanes ls y sh).width = sh.width := rfl
@[simp] theorem stepLanes_c (ls : List Nat) (y : Bool) (sh : Sheet) : (stepLanes ls y sh).c = sh.c := rfl
@[simp] theorem stepLanes_code (ls : List Nat) (y : Bool) (sh : Sheet) : (stepLanes ls y sh).code = sh.code := rfl
@[simp] theorem stepLanes_age (ls : List Nat) (y : Bool) (sh : Sheet) : (stepLanes ls y sh).age = sh.age := rfl
@[simp] theorem stepLanes_u (ls : List Nat) (y : Bool) (sh : Sheet) : (stepLanes ls y sh).u = sh.u := rfl
@[simp] theorem stepLanes_m (ls : List Nat) (y : Bool) (sh : Sheet) : (stepLanes ls y sh).m = sh.m := rfl
@[simp] theorem stepLanes_sq (ls : List Nat) (y : Bool) (sh : Sheet) : (stepLanes ls y sh).sq = sh.sq := rfl
@[simp] theorem stepLanes_fills (ls : List Nat) (y : Bool) (sh : Sheet) : (stepLanes ls y sh).fills = sh.fills := rfl
@[simp] theorem stepLanes_pairs (ls : List Nat) (y : Bool) (sh : Sheet) : (stepLanes ls y sh).pairs = sh.pairs := rfl
@[simp] theorem stepLanes_gen (ls : List Nat) (y : Bool) (sh : Sheet) : (stepLanes ls y sh).gen = sh.gen := rfl

@[simp] theorem Sheet.setV_kind (sh : Sheet) (l i : Nat) (r : Reg) : (sh.setV l i r).kind = sh.kind := rfl
@[simp] theorem Sheet.setV_width (sh : Sheet) (l i : Nat) (r : Reg) : (sh.setV l i r).width = sh.width := rfl
@[simp] theorem Sheet.setV_c (sh : Sheet) (l i : Nat) (r : Reg) : (sh.setV l i r).c = sh.c := rfl
@[simp] theorem Sheet.setV_code (sh : Sheet) (l i : Nat) (r : Reg) : (sh.setV l i r).code = sh.code := rfl
@[simp] theorem Sheet.setV_age (sh : Sheet) (l i : Nat) (r : Reg) : (sh.setV l i r).age = sh.age := rfl
@[simp] theorem Sheet.setV_u (sh : Sheet) (l i : Nat) (r : Reg) : (sh.setV l i r).u = sh.u := rfl
@[simp] theorem Sheet.setV_m (sh : Sheet) (l i : Nat) (r : Reg) : (sh.setV l i r).m = sh.m := rfl
@[simp] theorem Sheet.setV_sq (sh : Sheet) (l i : Nat) (r : Reg) : (sh.setV l i r).sq = sh.sq := rfl
@[simp] theorem Sheet.setV_fills (sh : Sheet) (l i : Nat) (r : Reg) : (sh.setV l i r).fills = sh.fills := rfl
@[simp] theorem Sheet.setV_pairs (sh : Sheet) (l i : Nat) (r : Reg) : (sh.setV l i r).pairs = sh.pairs := rfl
@[simp] theorem Sheet.setV_gen (sh : Sheet) (l i : Nat) (r : Reg) : (sh.setV l i r).gen = sh.gen := rfl

@[simp] theorem Sheet.setU_kind (sh : Sheet) (i : Nat) (r : Reg) : (sh.setU i r).kind = sh.kind := rfl
@[simp] theorem Sheet.setU_width (sh : Sheet) (i : Nat) (r : Reg) : (sh.setU i r).width = sh.width := rfl
@[simp] theorem Sheet.setU_c (sh : Sheet) (i : Nat) (r : Reg) : (sh.setU i r).c = sh.c := rfl
@[simp] theorem Sheet.setU_code (sh : Sheet) (i : Nat) (r : Reg) : (sh.setU i r).code = sh.code := rfl
@[simp] theorem Sheet.setU_age (sh : Sheet) (i : Nat) (r : Reg) : (sh.setU i r).age = sh.age := rfl
@[simp] theorem Sheet.setU_lanes (sh : Sheet) (i : Nat) (r : Reg) : (sh.setU i r).lanes = sh.lanes := rfl
@[simp] theorem Sheet.setU_m (sh : Sheet) (i : Nat) (r : Reg) : (sh.setU i r).m = sh.m := rfl
@[simp] theorem Sheet.setU_sq (sh : Sheet) (i : Nat) (r : Reg) : (sh.setU i r).sq = sh.sq := rfl
@[simp] theorem Sheet.setU_fills (sh : Sheet) (i : Nat) (r : Reg) : (sh.setU i r).fills = sh.fills := rfl
@[simp] theorem Sheet.setU_pairs (sh : Sheet) (i : Nat) (r : Reg) : (sh.setU i r).pairs = sh.pairs := rfl
@[simp] theorem Sheet.setU_gen (sh : Sheet) (i : Nat) (r : Reg) : (sh.setU i r).gen = sh.gen := rfl

@[simp] theorem Sheet.setM_kind (sh : Sheet) (i : Nat) (x : Lanes) : (sh.setM i x).kind = sh.kind := rfl
@[simp] theorem Sheet.setM_width (sh : Sheet) (i : Nat) (x : Lanes) : (sh.setM i x).width = sh.width := rfl
@[simp] theorem Sheet.setM_c (sh : Sheet) (i : Nat) (x : Lanes) : (sh.setM i x).c = sh.c := rfl
@[simp] theorem Sheet.setM_code (sh : Sheet) (i : Nat) (x : Lanes) : (sh.setM i x).code = sh.code := rfl
@[simp] theorem Sheet.setM_age (sh : Sheet) (i : Nat) (x : Lanes) : (sh.setM i x).age = sh.age := rfl
@[simp] theorem Sheet.setM_lanes (sh : Sheet) (i : Nat) (x : Lanes) : (sh.setM i x).lanes = sh.lanes := rfl
@[simp] theorem Sheet.setM_u (sh : Sheet) (i : Nat) (x : Lanes) : (sh.setM i x).u = sh.u := rfl
@[simp] theorem Sheet.setM_sq (sh : Sheet) (i : Nat) (x : Lanes) : (sh.setM i x).sq = sh.sq := rfl
@[simp] theorem Sheet.setM_fills (sh : Sheet) (i : Nat) (x : Lanes) : (sh.setM i x).fills = sh.fills := rfl
@[simp] theorem Sheet.setM_pairs (sh : Sheet) (i : Nat) (x : Lanes) : (sh.setM i x).pairs = sh.pairs := rfl
@[simp] theorem Sheet.setM_gen (sh : Sheet) (i : Nat) (x : Lanes) : (sh.setM i x).gen = sh.gen := rfl

@[simp] theorem Sheet.addFill_kind (sh : Sheet) (f : Fill) : (sh.addFill f).kind = sh.kind := rfl
@[simp] theorem Sheet.addFill_width (sh : Sheet) (f : Fill) : (sh.addFill f).width = sh.width := rfl
@[simp] theorem Sheet.addFill_c (sh : Sheet) (f : Fill) : (sh.addFill f).c = sh.c := rfl
@[simp] theorem Sheet.addFill_code (sh : Sheet) (f : Fill) : (sh.addFill f).code = sh.code := rfl
@[simp] theorem Sheet.addFill_age (sh : Sheet) (f : Fill) : (sh.addFill f).age = sh.age := rfl
@[simp] theorem Sheet.addFill_lanes (sh : Sheet) (f : Fill) : (sh.addFill f).lanes = sh.lanes := rfl
@[simp] theorem Sheet.addFill_u (sh : Sheet) (f : Fill) : (sh.addFill f).u = sh.u := rfl
@[simp] theorem Sheet.addFill_m (sh : Sheet) (f : Fill) : (sh.addFill f).m = sh.m := rfl
@[simp] theorem Sheet.addFill_sq (sh : Sheet) (f : Fill) : (sh.addFill f).sq = sh.sq := rfl
@[simp] theorem Sheet.addFill_pairs (sh : Sheet) (f : Fill) : (sh.addFill f).pairs = sh.pairs := rfl
@[simp] theorem Sheet.addFill_gen (sh : Sheet) (f : Fill) : (sh.addFill f).gen = sh.gen := rfl

@[simp] theorem Sheet.addFill_fills (sh : Sheet) (f : Fill) : (sh.addFill f).fills = sh.fills ++ [f] := rfl

@[simp] theorem Sheet.addSq_kind (sh : Sheet) (e : SqEntry) : (sh.addSq e).kind = sh.kind := rfl
@[simp] theorem Sheet.addSq_width (sh : Sheet) (e : SqEntry) : (sh.addSq e).width = sh.width := rfl
@[simp] theorem Sheet.addSq_c (sh : Sheet) (e : SqEntry) : (sh.addSq e).c = sh.c := rfl
@[simp] theorem Sheet.addSq_code (sh : Sheet) (e : SqEntry) : (sh.addSq e).code = sh.code := rfl
@[simp] theorem Sheet.addSq_age (sh : Sheet) (e : SqEntry) : (sh.addSq e).age = sh.age := rfl
@[simp] theorem Sheet.addSq_lanes (sh : Sheet) (e : SqEntry) : (sh.addSq e).lanes = sh.lanes := rfl
@[simp] theorem Sheet.addSq_u (sh : Sheet) (e : SqEntry) : (sh.addSq e).u = sh.u := rfl
@[simp] theorem Sheet.addSq_m (sh : Sheet) (e : SqEntry) : (sh.addSq e).m = sh.m := rfl
@[simp] theorem Sheet.addSq_fills (sh : Sheet) (e : SqEntry) : (sh.addSq e).fills = sh.fills := rfl
@[simp] theorem Sheet.addSq_pairs (sh : Sheet) (e : SqEntry) : (sh.addSq e).pairs = sh.pairs := rfl
@[simp] theorem Sheet.addSq_gen (sh : Sheet) (e : SqEntry) : (sh.addSq e).gen = sh.gen := rfl

@[simp] theorem Sheet.addSq_sq (sh : Sheet) (e : SqEntry) : (sh.addSq e).sq = sh.sq ++ [e] := rfl

@[simp] theorem Sheet.status_kind (sh : Sheet) (l : Nat) (f : BitVec 7) : (sh.status l f).kind = sh.kind := rfl
@[simp] theorem Sheet.status_width (sh : Sheet) (l : Nat) (f : BitVec 7) : (sh.status l f).width = sh.width := rfl
@[simp] theorem Sheet.status_c (sh : Sheet) (l : Nat) (f : BitVec 7) : (sh.status l f).c = sh.c := rfl
@[simp] theorem Sheet.status_code (sh : Sheet) (l : Nat) (f : BitVec 7) : (sh.status l f).code = sh.code := rfl
@[simp] theorem Sheet.status_age (sh : Sheet) (l : Nat) (f : BitVec 7) : (sh.status l f).age = sh.age := rfl
@[simp] theorem Sheet.status_u (sh : Sheet) (l : Nat) (f : BitVec 7) : (sh.status l f).u = sh.u := rfl
@[simp] theorem Sheet.status_m (sh : Sheet) (l : Nat) (f : BitVec 7) : (sh.status l f).m = sh.m := rfl
@[simp] theorem Sheet.status_sq (sh : Sheet) (l : Nat) (f : BitVec 7) : (sh.status l f).sq = sh.sq := rfl
@[simp] theorem Sheet.status_fills (sh : Sheet) (l : Nat) (f : BitVec 7) : (sh.status l f).fills = sh.fills := rfl
@[simp] theorem Sheet.status_pairs (sh : Sheet) (l : Nat) (f : BitVec 7) : (sh.status l f).pairs = sh.pairs := rfl
@[simp] theorem Sheet.status_gen (sh : Sheet) (l : Nat) (f : BitVec 7) : (sh.status l f).gen = sh.gen := rfl

@[simp] theorem waitHere_kind (g : Grp) (on : Stall) (sh : Sheet) : (waitHere g on sh).kind = sh.kind := rfl
@[simp] theorem waitHere_width (g : Grp) (on : Stall) (sh : Sheet) : (waitHere g on sh).width = sh.width := rfl
@[simp] theorem waitHere_c (g : Grp) (on : Stall) (sh : Sheet) : (waitHere g on sh).c = sh.c := rfl
@[simp] theorem waitHere_code (g : Grp) (on : Stall) (sh : Sheet) : (waitHere g on sh).code = sh.code := rfl
@[simp] theorem waitHere_age (g : Grp) (on : Stall) (sh : Sheet) : (waitHere g on sh).age = sh.age := rfl
@[simp] theorem waitHere_u (g : Grp) (on : Stall) (sh : Sheet) : (waitHere g on sh).u = sh.u := rfl
@[simp] theorem waitHere_m (g : Grp) (on : Stall) (sh : Sheet) : (waitHere g on sh).m = sh.m := rfl
@[simp] theorem waitHere_sq (g : Grp) (on : Stall) (sh : Sheet) : (waitHere g on sh).sq = sh.sq := rfl
@[simp] theorem waitHere_fills (g : Grp) (on : Stall) (sh : Sheet) : (waitHere g on sh).fills = sh.fills := rfl
@[simp] theorem waitHere_pairs (g : Grp) (on : Stall) (sh : Sheet) : (waitHere g on sh).pairs = sh.pairs := rfl
@[simp] theorem waitHere_gen (g : Grp) (on : Stall) (sh : Sheet) : (waitHere g on sh).gen = sh.gen := rfl

@[simp] theorem trapLanes_kind (ls : List Nat) (sh : Sheet) : (trapLanes ls sh).kind = sh.kind := rfl
@[simp] theorem trapLanes_width (ls : List Nat) (sh : Sheet) : (trapLanes ls sh).width = sh.width := rfl
@[simp] theorem trapLanes_c (ls : List Nat) (sh : Sheet) : (trapLanes ls sh).c = sh.c := rfl
@[simp] theorem trapLanes_code (ls : List Nat) (sh : Sheet) : (trapLanes ls sh).code = sh.code := rfl
@[simp] theorem trapLanes_age (ls : List Nat) (sh : Sheet) : (trapLanes ls sh).age = sh.age := rfl
@[simp] theorem trapLanes_u (ls : List Nat) (sh : Sheet) : (trapLanes ls sh).u = sh.u := rfl
@[simp] theorem trapLanes_m (ls : List Nat) (sh : Sheet) : (trapLanes ls sh).m = sh.m := rfl
@[simp] theorem trapLanes_sq (ls : List Nat) (sh : Sheet) : (trapLanes ls sh).sq = sh.sq := rfl
@[simp] theorem trapLanes_fills (ls : List Nat) (sh : Sheet) : (trapLanes ls sh).fills = sh.fills := rfl
@[simp] theorem trapLanes_pairs (ls : List Nat) (sh : Sheet) : (trapLanes ls sh).pairs = sh.pairs := rfl
@[simp] theorem trapLanes_gen (ls : List Nat) (sh : Sheet) : (trapLanes ls sh).gen = sh.gen := rfl

/-! ### Lanes -/

@[simp] theorem Thread.stepOn_live (t : Thread) (y : Bool) : (t.stepOn y).live = t.live := rfl
@[simp] theorem Thread.stepOn_pass (t : Thread) (y : Bool) : (t.stepOn y).pass = t.pass := rfl
@[simp] theorem Thread.stepOn_slot (t : Thread) (y : Bool) : (t.stepOn y).slot = t.slot := rfl
@[simp] theorem Thread.stepOn_present (t : Thread) (y : Bool) : (t.stepOn y).present = t.present := rfl
@[simp] theorem Thread.stepOn_v (t : Thread) (y : Bool) : (t.stepOn y).v = t.v := rfl
@[simp] theorem Thread.stepOn_p (t : Thread) (y : Bool) : (t.stepOn y).p = t.p := rfl
@[simp] theorem Thread.stepOn_t (t : Thread) (y : Bool) : (t.stepOn y).t = t.t := rfl
@[simp] theorem Thread.stepOn_rm (t : Thread) (y : Bool) : (t.stepOn y).rm = t.rm := rfl
@[simp] theorem Thread.stepOn_astat (t : Thread) (y : Bool) : (t.stepOn y).astat = t.astat := rfl
@[simp] theorem Thread.stepOn_aen (t : Thread) (y : Bool) : (t.stepOn y).aen = t.aen := rfl
@[simp] theorem Thread.stepOn_pend (t : Thread) (y : Bool) : (t.stepOn y).pend = t.pend := rfl
@[simp] theorem Thread.stepOn_gsrc (t : Thread) (y : Bool) : (t.stepOn y).gsrc = t.gsrc := rfl
@[simp] theorem Thread.stepOn_join (t : Thread) (y : Bool) : (t.stepOn y).join = t.join := rfl

@[simp] theorem Thread.stepOn_pc (t : Thread) (y : Bool) : (t.stepOn y).pc = t.pc + 12#32 := rfl

@[simp] theorem Thread.startRun_live (t : Thread) (pc : Word) (a : List AwaitReg) (y : Bool) (n : Nat) (j : Bool) : (t.startRun pc a y n j).live = t.live := rfl
@[simp] theorem Thread.startRun_present (t : Thread) (pc : Word) (a : List AwaitReg) (y : Bool) (n : Nat) (j : Bool) : (t.startRun pc a y n j).present = t.present := rfl
@[simp] theorem Thread.startRun_v (t : Thread) (pc : Word) (a : List AwaitReg) (y : Bool) (n : Nat) (j : Bool) : (t.startRun pc a y n j).v = t.v := rfl
@[simp] theorem Thread.startRun_p (t : Thread) (pc : Word) (a : List AwaitReg) (y : Bool) (n : Nat) (j : Bool) : (t.startRun pc a y n j).p = t.p := rfl
@[simp] theorem Thread.startRun_rm (t : Thread) (pc : Word) (a : List AwaitReg) (y : Bool) (n : Nat) (j : Bool) : (t.startRun pc a y n j).rm = t.rm := rfl
@[simp] theorem Thread.startRun_astat (t : Thread) (pc : Word) (a : List AwaitReg) (y : Bool) (n : Nat) (j : Bool) : (t.startRun pc a y n j).astat = t.astat := rfl
@[simp] theorem Thread.startRun_aen (t : Thread) (pc : Word) (a : List AwaitReg) (y : Bool) (n : Nat) (j : Bool) : (t.startRun pc a y n j).aen = t.aen := rfl
@[simp] theorem Thread.startRun_pend (t : Thread) (pc : Word) (a : List AwaitReg) (y : Bool) (n : Nat) (j : Bool) : (t.startRun pc a y n j).pend = t.pend := rfl
@[simp] theorem Thread.startRun_gsrc (t : Thread) (pc : Word) (a : List AwaitReg) (y : Bool) (n : Nat) (j : Bool) : (t.startRun pc a y n j).gsrc = t.gsrc := rfl
@[simp] theorem Thread.startRun_join (t : Thread) (pc : Word) (a : List AwaitReg) (y : Bool) (n : Nat) (j : Bool) : (t.startRun pc a y n j).join = t.join := rfl

@[simp] theorem Thread.startRun_pc (t : Thread) (pc : Word) (a : List AwaitReg) (y : Bool) (n : Nat) (j : Bool) : (t.startRun pc a y n j).pc = pc := rfl
@[simp] theorem Thread.startRun_t (t : Thread) (pc : Word) (a : List AwaitReg) (y : Bool) (n : Nat) (j : Bool) : (t.startRun pc a y n j).t = [] := rfl

@[simp] theorem Thread.status_live (t : Thread) (f : BitVec 7) : (t.status f).live = t.live := rfl
@[simp] theorem Thread.status_pc (t : Thread) (f : BitVec 7) : (t.status f).pc = t.pc := rfl
@[simp] theorem Thread.status_runPos (t : Thread) (f : BitVec 7) : (t.status f).runPos = t.runPos := rfl
@[simp] theorem Thread.status_wait (t : Thread) (f : BitVec 7) : (t.status f).wait = t.wait := rfl
@[simp] theorem Thread.status_awaits (t : Thread) (f : BitVec 7) : (t.status f).awaits = t.awaits := rfl
@[simp] theorem Thread.status_pass (t : Thread) (f : BitVec 7) : (t.status f).pass = t.pass := rfl
@[simp] theorem Thread.status_jumped (t : Thread) (f : BitVec 7) : (t.status f).jumped = t.jumped := rfl
@[simp] theorem Thread.status_slot (t : Thread) (f : BitVec 7) : (t.status f).slot = t.slot := rfl
@[simp] theorem Thread.status_waited (t : Thread) (f : BitVec 7) : (t.status f).waited = t.waited := rfl
@[simp] theorem Thread.status_forced (t : Thread) (f : BitVec 7) : (t.status f).forced = t.forced := rfl
@[simp] theorem Thread.status_yieldMark (t : Thread) (f : BitVec 7) : (t.status f).yieldMark = t.yieldMark := rfl
@[simp] theorem Thread.status_present (t : Thread) (f : BitVec 7) : (t.status f).present = t.present := rfl
@[simp] theorem Thread.status_v (t : Thread) (f : BitVec 7) : (t.status f).v = t.v := rfl
@[simp] theorem Thread.status_p (t : Thread) (f : BitVec 7) : (t.status f).p = t.p := rfl
@[simp] theorem Thread.status_t (t : Thread) (f : BitVec 7) : (t.status f).t = t.t := rfl
@[simp] theorem Thread.status_rm (t : Thread) (f : BitVec 7) : (t.status f).rm = t.rm := rfl
@[simp] theorem Thread.status_aen (t : Thread) (f : BitVec 7) : (t.status f).aen = t.aen := rfl
@[simp] theorem Thread.status_gsrc (t : Thread) (f : BitVec 7) : (t.status f).gsrc = t.gsrc := rfl
@[simp] theorem Thread.status_join (t : Thread) (f : BitVec 7) : (t.status f).join = t.join := rfl

@[simp] theorem Thread.status_astat (t : Thread) (f : BitVec 7) : (t.status f).astat = t.astat ||| f.setWidth 32 := rfl

@[simp] theorem Thread.pWrite_live (t : Thread) (i : Nat) (b : Bool) : (t.pWrite i b).live = t.live := by unfold Thread.pWrite; split <;> rfl
@[simp] theorem Thread.pWrite_pc (t : Thread) (i : Nat) (b : Bool) : (t.pWrite i b).pc = t.pc := by unfold Thread.pWrite; split <;> rfl
@[simp] theorem Thread.pWrite_runPos (t : Thread) (i : Nat) (b : Bool) : (t.pWrite i b).runPos = t.runPos := by unfold Thread.pWrite; split <;> rfl
@[simp] theorem Thread.pWrite_wait (t : Thread) (i : Nat) (b : Bool) : (t.pWrite i b).wait = t.wait := by unfold Thread.pWrite; split <;> rfl
@[simp] theorem Thread.pWrite_awaits (t : Thread) (i : Nat) (b : Bool) : (t.pWrite i b).awaits = t.awaits := by unfold Thread.pWrite; split <;> rfl
@[simp] theorem Thread.pWrite_pass (t : Thread) (i : Nat) (b : Bool) : (t.pWrite i b).pass = t.pass := by unfold Thread.pWrite; split <;> rfl
@[simp] theorem Thread.pWrite_jumped (t : Thread) (i : Nat) (b : Bool) : (t.pWrite i b).jumped = t.jumped := by unfold Thread.pWrite; split <;> rfl
@[simp] theorem Thread.pWrite_slot (t : Thread) (i : Nat) (b : Bool) : (t.pWrite i b).slot = t.slot := by unfold Thread.pWrite; split <;> rfl
@[simp] theorem Thread.pWrite_waited (t : Thread) (i : Nat) (b : Bool) : (t.pWrite i b).waited = t.waited := by unfold Thread.pWrite; split <;> rfl
@[simp] theorem Thread.pWrite_forced (t : Thread) (i : Nat) (b : Bool) : (t.pWrite i b).forced = t.forced := by unfold Thread.pWrite; split <;> rfl
@[simp] theorem Thread.pWrite_yieldMark (t : Thread) (i : Nat) (b : Bool) : (t.pWrite i b).yieldMark = t.yieldMark := by unfold Thread.pWrite; split <;> rfl
@[simp] theorem Thread.pWrite_present (t : Thread) (i : Nat) (b : Bool) : (t.pWrite i b).present = t.present := by unfold Thread.pWrite; split <;> rfl
@[simp] theorem Thread.pWrite_v (t : Thread) (i : Nat) (b : Bool) : (t.pWrite i b).v = t.v := by unfold Thread.pWrite; split <;> rfl
@[simp] theorem Thread.pWrite_t (t : Thread) (i : Nat) (b : Bool) : (t.pWrite i b).t = t.t := by unfold Thread.pWrite; split <;> rfl
@[simp] theorem Thread.pWrite_rm (t : Thread) (i : Nat) (b : Bool) : (t.pWrite i b).rm = t.rm := by unfold Thread.pWrite; split <;> rfl
@[simp] theorem Thread.pWrite_astat (t : Thread) (i : Nat) (b : Bool) : (t.pWrite i b).astat = t.astat := by unfold Thread.pWrite; split <;> rfl
@[simp] theorem Thread.pWrite_aen (t : Thread) (i : Nat) (b : Bool) : (t.pWrite i b).aen = t.aen := by unfold Thread.pWrite; split <;> rfl
@[simp] theorem Thread.pWrite_pend (t : Thread) (i : Nat) (b : Bool) : (t.pWrite i b).pend = t.pend := by unfold Thread.pWrite; split <;> rfl
@[simp] theorem Thread.pWrite_gsrc (t : Thread) (i : Nat) (b : Bool) : (t.pWrite i b).gsrc = t.gsrc := by unfold Thread.pWrite; split <;> rfl
@[simp] theorem Thread.pWrite_join (t : Thread) (i : Nat) (b : Bool) : (t.pWrite i b).join = t.join := by unfold Thread.pWrite; split <;> rfl

end Sys2Proof.Machine
end

