-- ==== Sys2Proof/Laws/Groups.lean ====
section
/-!
SUPPORT. What the shared operations of a word do, said once: reading a sheet back, the word of a ready group, its sources,
the writes of its lanes and its advance, and taking an exception.
-/

namespace Sys2Proof.Machine

/-! ### Reading a sheet back -/

theorem State.core_modCore_self {s : State} {c : Nat} (f : Core → Core) (h : c < s.cores.length) :
    (s.modCore c f).core c = f (s.core c) := by
  simp [State.core, State.modCore, h]

theorem State.core_modCore_ne {s : State} {c d : Nat} (f : Core → Core) (h : d ≠ c) : (s.modCore c f).core d = s.core d := by
  simp [State.core, State.modCore, h.symm]

theorem Core.wg_modWg_self {k : Core} {i : Nat} (f : Workgroup → Workgroup) : (k.modWg i f).wg i = (k.wg i).map f := by
  simp only [Core.wg, Core.modWg, List.getElem?_modify_eq]
  cases k.wgs[i]? with
  | none => rfl
  | some g => cases g <;> rfl

theorem Core.wg_modWg_ne {k : Core} {i j : Nat} (f : Workgroup → Workgroup) (h : j ≠ i) : (k.modWg i f).wg j = k.wg j := by
  simp [Core.wg, Core.modWg, h.symm]

/-- An agent that runs code stands on a core of the module. -/
theorem State.core_lt {s : State} {w : Where} {sh : Sheet} (h : s.sheetAt w = some sh) : wCore w < s.cores.length := by
  by_cases g : wCore w < s.cores.length
  · exact g
  · have e : s.core (wCore w) = Core.reset := by simp [State.core, List.getD, Nat.le_of_not_lt g]
    cases w with
    | front c slot =>
      simp only [wCore] at e
      simp only [State.sheetAt, e, Core.wg, Core.reset, List.getElem?_replicate] at h
      split at h <;> simp at h
    | sheet c slot i =>
      simp only [wCore] at e
      simp only [State.sheetAt, e, Core.wg, Core.reset, List.getElem?_replicate] at h
      split at h <;> simp at h
    | handler c lv =>
      simp only [wCore] at e
      simp only [State.sheetAt, e, Core.handler, Core.reset] at h
      split at h <;> simp at h

/-- The sheet put back is the sheet that the agent runs. -/
theorem State.sheetAt_putSheet {s : State} {w : Where} {sh : Sheet} (sh' : Sheet) (h : s.sheetAt w = some sh) :
    (s.putSheet w sh').sheetAt w = some sh' := by
  have lt := State.core_lt h
  cases w with
  | front c slot =>
    simp only [wCore] at lt
    simp only [State.sheetAt, Option.bind_eq_some_iff] at h
    obtain ⟨g, hg, hf⟩ := h
    simp [State.putSheet, State.sheetAt, State.core_modCore_self _ lt, Core.wg_modWg_self, hg, hf]
  | sheet c slot i =>
    simp only [wCore] at lt
    simp only [State.sheetAt, Option.bind_eq_some_iff] at h
    obtain ⟨g, hg, hf⟩ := h
    simp only [State.putSheet, State.sheetAt, State.core_modCore_self _ lt, Core.wg_modWg_self, hg, Option.map_some,
      Option.bind_some, List.getElem?_modify_eq]
    cases e : g.sheets[i]? with
    | none => simp [e] at hf
    | some x => cases x with
      | none => simp [e] at hf
      | some y => rfl
  | handler c lv =>
    simp only [wCore] at lt
    simp only [State.sheetAt, Option.map_eq_some_iff] at h
    obtain ⟨g, hg, hf⟩ := h
    simp only [State.putSheet, State.sheetAt, State.core_modCore_self _ lt, Core.modHandler, Core.handler] at hg ⊢
    by_cases e : lv = 2
    · simp_all
    · simp_all

theorem State.core_modCore (s : State) (c d : Nat) (f : Core → Core) :
    (s.modCore c f).core d = if d = c ∧ c < s.cores.length then f (s.core d) else s.core d := by
  by_cases e : d = c
  · subst e
    by_cases lt : d < s.cores.length
    · simp [State.core_modCore_self _ lt, lt]
    · simp [State.core, State.modCore, lt]
  · simp [State.core_modCore_ne _ e, e]

theorem Core.wg_modWg (k : Core) (i j : Nat) (f : Workgroup → Workgroup) :
    (k.modWg i f).wg j = if j = i then (k.wg j).map f else k.wg j := by
  by_cases e : j = i
  · subst e; simp [Core.wg_modWg_self]
  · simp [Core.wg_modWg_ne _ e, e]

@[simp] theorem Core.handler_modWg (k : Core) (i lv : Nat) (f : Workgroup → Workgroup) :
    (k.modWg i f).handler lv = k.handler lv := rfl

@[simp] theorem Core.wg_modHandler (k : Core) (i lv : Nat) (f : Handler → Handler) : (k.modHandler lv f).wg i = k.wg i := by
  unfold Core.modHandler; split <;> rfl

theorem Core.handler_modHandler (k : Core) (a b : Nat) (f : Handler → Handler) :
    (k.modHandler a f).handler b = if (a = 2 ↔ b = 2) then (k.handler b).map f else k.handler b := by
  unfold Core.modHandler Core.handler
  by_cases ha : a = 2 <;> by_cases hb : b = 2 <;> simp [ha, hb]

/-- Every other agent's code state is as before. -/
theorem State.sheetAt_putSheet_ne {s : State} {w v : Where} (sh' : Sheet) (h : sameAgent w v = false) :
    (s.putSheet w sh').sheetAt v = s.sheetAt v := by
  cases w <;> cases v <;> simp only [State.putSheet, State.sheetAt, State.core_modCore] <;> split <;> try rfl
  all_goals
    rename_i e
    obtain ⟨rfl, -⟩ := e
    simp only [Core.wg_modWg, Core.wg_modHandler, Core.handler_modHandler]
    try split
    all_goals try rfl
  · simp_all [sameAgent]
  · subst_vars; cases (s.core _).wg _ <;> rfl
  · subst_vars; cases (s.core _).wg _ <;> rfl
  · rename_i i k _ j m e
    subst e
    have : k ≠ m := by intro e; simp [sameAgent, e] at h
    cases (s.core _).wg _ with
    | none => rfl
    | some g => simp [this]
  · simp_all [sameAgent]

/-! ### A word at a ready group -/

/-- A word at a ready lane acts on that lane's group. -/
theorem atWord_of_stands {s : State} {w : Where} {l : Nat} {sh : Sheet} (h : Stands s w l sh) (c : Ctl)
    (f : State → Grp → State) : atWord s c f = .next (f s (Grp.of w sh l c)) := by
  simp [atWord, h.1, h.2.1, h.2.2]

/-- Nothing keeps a word whose sources are full (R28). -/
theorem withSources_of_full {g : Grp} {xs : List Src} (h : Full g xs) (s k : State) : withSources s g xs k = k := by
  have e : ∀ x ∈ xs, (emptyLanes g x).isEmpty = true := by
    intro x hx
    simp only [emptyLanes, List.isEmpty_iff, List.filter_eq_nil_iff]
    intro l hl
    simp [h x hx l hl]
  have h1 : xs.find? (fun x => opdEw x.2.2 && !(emptyLanes g x).isEmpty) = none := by
    rw [List.find?_eq_none]; intro x hx; simp [e x hx]
  have h2 : xs.any (fun x => !(emptyLanes g x).isEmpty) = false := by
    rw [List.any_eq_false]; intro x hx; simp [e x hx]
  simp only [withSources, h1, h2]
  rfl

/-- A word that computes in each lane lands its results once its sources are full. -/
theorem lanewise_of_full {s : State} {w : Where} {l : Nat} {sh : Sheet} {c : Ctl} {xs : List Src} (h : Stands s w l sh)
    (hf : Full (Grp.of w sh l c) xs) (d : Opd) (f : State → Grp → Nat → DWord × Flags) :
    lanewise s c xs d f = .next (landed s (Grp.of w sh l c) c d (f s (Grp.of w sh l c))) := by
  rw [lanewise, atWord_of_stands h, withSources_of_full hf]; rfl

/-- The group of a word is that of the agent that stands at it. -/
@[simp] theorem Grp.of_w (w : Where) (sh : Sheet) (l : Nat) (c : Ctl) : (Grp.of w sh l c).w = w := rfl

@[simp] theorem Grp.of_sh (w : Where) (sh : Sheet) (l : Nat) (c : Ctl) : (Grp.of w sh l c).sh = sh := rfl

/-- Taking a precise exception in ordinary code with room in the queue: the group stands at its word and its event joins the
queue (R220). -/
theorem takeTrap_ordinary {s : State} {g : Grp} (t : TrapInfo) (h : g.inHandler = false)
    (room : (s.core (wCore g.w)).eventRoom = true) :
    takeTrap s g t =
      (s.put g (trapLanes g.grp g.sh)).queueEvent (wCore g.w) (trapEvent s g.w g.sh g.grp t none false) := by
  unfold takeTrap
  cases e : g.w with
  | handler c lv => simp [Grp.inHandler, e] at h
  | front c i => simp only [e] at room ⊢; simp [room]
  | sheet c i k => simp only [e] at room ⊢; simp [room]

end Sys2Proof.Machine
end

