-- ==== Sys2Proof/Laws/Memory.lean ====
section
/-!
SUPPORT. What reading and writing a sparse map and a byte memory do, and that every memory operation keeps the canonical
form of R200's empty memory.
-/

namespace Sys2Proof.Machine

/-! ### Sparse maps -/

theorem SMap.get_insert {α : Type} (dflt x : α) (m : SMap α) (k j : Nat) :
    SMap.get dflt (SMap.insert m k x) j = if j = k then x else SMap.get dflt m j := by
  induction m with
  | nil => simp [SMap.insert, SMap.get]
  | cons e rest ih =>
    obtain ⟨a, v⟩ := e
    simp only [SMap.insert]
    split
    · simp [SMap.get]
    · split
      · subst_vars; simp only [SMap.get]; split <;> simp_all
      · simp only [SMap.get, ih]; split <;> split <;> simp_all

theorem SMap.get_filter_ne {α : Type} (dflt : α) (m : SMap α) (k j : Nat) :
    SMap.get dflt (m.filter fun e => decide (e.1 ≠ k)) j = if j = k then dflt else SMap.get dflt m j := by
  induction m with
  | nil => simp [SMap.get]
  | cons e rest ih =>
    obtain ⟨a, v⟩ := e
    rw [List.filter_cons]
    by_cases h : a = k
    · subst h; simp only [ne_eq, not_true_eq_false, decide_false, Bool.false_eq_true, if_false, ih, SMap.get]
      split <;> simp_all
    · simp only [ne_eq, h, not_false_eq_true, decide_true, if_true, SMap.get, ih]
      split <;> split <;> simp_all

/-- A key reads as the value last written to it, and every other key as before. -/
theorem SMap.get_set {α : Type} [DecidableEq α] (dflt x : α) (m : SMap α) (k j : Nat) :
    SMap.get dflt (SMap.set dflt m k x) j = if j = k then x else SMap.get dflt m j := by
  unfold SMap.set
  split
  · subst_vars; exact SMap.get_filter_ne _ m k j
  · exact SMap.get_insert _ x m k j

@[simp] theorem SMap.get_set_self {α : Type} [DecidableEq α] (dflt x : α) (m : SMap α) (k : Nat) :
    SMap.get dflt (SMap.set dflt m k x) k = x := by simp [SMap.get_set]

theorem SMap.get_set_ne {α : Type} [DecidableEq α] (dflt x : α) (m : SMap α) {k j : Nat} (h : j ≠ k) :
    SMap.get dflt (SMap.set dflt m k x) j = SMap.get dflt m j := by simp [SMap.get_set, h]

theorem SMap.get_clear {α : Type} (dflt : α) (m : SMap α) (lo n j : Nat) :
    SMap.get dflt (SMap.clear m lo n) j = if lo ≤ j ∧ j < lo + n then dflt else SMap.get dflt m j := by
  induction m with
  | nil => simp [SMap.clear, SMap.get]
  | cons e rest ih =>
    obtain ⟨a, v⟩ := e
    unfold SMap.clear at ih ⊢
    rw [List.filter_cons]
    split
    · rename_i h
      simp only [decide_eq_true_eq] at h
      simp only [SMap.get, ih]
      split <;> split <;> first | rfl | omega
    · rename_i h
      simp only [decide_eq_true_eq] at h
      simp only [SMap.get, ih]
      split <;> first | rfl | (split <;> first | rfl | omega)

/-! ### Byte memories -/

/-- A byte reads as what was last written to it, and every other byte as before. -/
theorem Memory.get_set (m : Memory) (a x : Nat) (b : Byte) :
    (m.set a b).get x = if x = a then b else m.get x := SMap.get_set _ _ m a x

/-- After a write of several bytes each reads as written, and every other byte as before. -/
theorem Memory.get_write (bs : List Byte) (m : Memory) (a x : Nat) :
    (Memory.write m a bs).get x = if a ≤ x then bs.getD (x - a) (m.get x) else m.get x := by
  induction bs generalizing m a with
  | nil => simp [Memory.write]
  | cons b rest ih =>
    rw [Memory.write, ih, Memory.get_set]
    by_cases h : x = a
    · subst h; rw [if_neg (by omega)]; simp
    · by_cases g : a + 1 ≤ x
      · have e : x - a = (x - (a + 1)) + 1 := by omega
        rw [e]; simp [h, g, show a ≤ x by omega]
      · have : ¬ a ≤ x := by omega
        simp [h, g, this]

theorem Memory.wfFrom_weaken {lo hi : Nat} {m : Memory} (hle : lo ≤ hi) (h : Memory.wfFrom hi m = true) :
    Memory.wfFrom lo m = true := by
  cases m with
  | nil => rfl
  | cons e rest =>
    obtain ⟨a, v⟩ := e
    simp only [Memory.wfFrom, Bool.and_eq_true, decide_eq_true_eq] at h ⊢
    exact ⟨⟨by omega, h.1.2⟩, h.2⟩

theorem Memory.wfFrom_filter (p : Host.Cell → Bool) {lo : Nat} {m : Memory} (h : Memory.wfFrom lo m = true) :
    Memory.wfFrom lo (m.filter p) = true := by
  induction m generalizing lo with
  | nil => rfl
  | cons e rest ih =>
    obtain ⟨a, v⟩ := e
    simp only [Memory.wfFrom, Bool.and_eq_true, decide_eq_true_eq] at h
    rw [List.filter_cons]
    split
    · simp only [Memory.wfFrom, Bool.and_eq_true, decide_eq_true_eq]; exact ⟨h.1, ih h.2⟩
    · exact Memory.wfFrom_weaken (by omega) (ih h.2)

theorem Memory.wfFrom_insert {lo : Nat} {m : Memory} {k : Nat} {x : Byte} (hk : lo ≤ k) (hx : x ≠ 0#8)
    (h : Memory.wfFrom lo m = true) : Memory.wfFrom lo (SMap.insert m k x) = true := by
  induction m generalizing lo with
  | nil => simp [SMap.insert, Memory.wfFrom, hk, hx]
  | cons e rest ih =>
    obtain ⟨a, v⟩ := e
    simp only [Memory.wfFrom, Bool.and_eq_true, decide_eq_true_eq] at h
    simp only [SMap.insert]
    split
    · simp only [Memory.wfFrom, Bool.and_eq_true, decide_eq_true_eq]
      exact ⟨⟨hk, hx⟩, ⟨by omega, h.1.2⟩, h.2⟩
    · split
      · subst_vars; simp only [Memory.wfFrom, Bool.and_eq_true, decide_eq_true_eq]; exact ⟨⟨hk, hx⟩, h.2⟩
      · simp only [Memory.wfFrom, Bool.and_eq_true, decide_eq_true_eq]
        exact ⟨h.1, ih (by omega) h.2⟩

/-- Writing a byte keeps the canonical form. -/
theorem Memory.wf_set {m : Memory} (a : Nat) (b : Byte) (h : m.wf = true) : (m.set a b).wf = true := by
  unfold Memory.set SMap.set
  split
  · exact Memory.wfFrom_filter _ h
  · exact Memory.wfFrom_insert (Nat.zero_le _) ‹_› h

/-- Clearing a range keeps the canonical form. -/
theorem Memory.wf_clear {m : Memory} (lo n : Nat) (h : Memory.wf m = true) : Memory.wf (SMap.clear m lo n) = true :=
  Memory.wfFrom_filter _ h

/-- Writing several bytes keeps the canonical form. -/
theorem Memory.wf_write (bs : List Byte) {m : Memory} (a : Nat) (h : m.wf = true) : (Memory.write m a bs).wf = true := by
  induction bs generalizing m a with
  | nil => exact h
  | cons b rest ih => exact ih _ (Memory.wf_set a b h)

/-- The empty memory is in canonical form. -/
@[simp] theorem Memory.wf_nil : Memory.wf [] = true := rfl

/-! ### DRAM -/

theorem Dram.revive_wf {d : Dram} (row : Nat) (h : d.cells.wf = true) : (d.revive row).cells.wf = true := by
  unfold Dram.revive; split
  · exact h
  · exact Memory.wf_clear _ _ h

/-- Room in a die cache is made without a change of any cell. -/
@[simp] theorem Dram.makeRoom_cells (d : Dram) (die : Nat) : (d.makeRoom die).cells = d.cells := by
  unfold Dram.makeRoom
  dsimp only
  split
  · rfl
  · split
    · rfl
    · split <;> rfl

/-- The die cache takes a line without a change of any cell. -/
@[simp] theorem Dram.allocLine_cells (d : Dram) (line : Nat) (store : Bool) : (d.allocLine line store).cells = d.cells := by
  unfold Dram.allocLine
  split
  · rfl
  · exact Dram.makeRoom_cells d _

/-- A store of a byte keeps the canonical form of the cells. -/
theorem Dram.setByte_wf {d : Dram} (p : Place) (b : Byte) (h : d.cells.wf = true) : (d.setByte p b).cells.wf = true :=
  Memory.wf_set _ _ (by rw [Dram.allocLine_cells]; exact Dram.revive_wf p.rowKey h)

/-- The death of rows keeps it. -/
theorem Dram.kill_wf {d : Dram} (lo n : Nat) (h : d.cells.wf = true) : (d.kill lo n).cells.wf = true :=
  Memory.wf_clear _ _ h

/-- The poisoning of a line keeps it. -/
theorem Dram.poisonLine_wf {d : Dram} (line : Nat) (h : d.cells.wf = true) : (d.poisonLine line).cells.wf = true :=
  Memory.wf_clear _ _ h

/-! ### The memories of a state -/

/-- The canonical form, memory by memory. -/
theorem canonical_iff (s : State) : Canonical s ↔
    s.dram.cells.wf = true ∧ s.hostMem.wf = true ∧ s.mgmt.bootSram.wf = true ∧
    (∀ e ∈ s.peerMem, Memory.wf e.2 = true) ∧ (∀ k ∈ s.cores, ∀ m ∈ coreMemories k, Memory.wf m = true) := by
  unfold Canonical memories
  simp only [List.mem_append, List.mem_cons, List.mem_map, List.mem_flatMap, List.not_mem_nil, or_false]
  constructor
  · intro h
    exact ⟨h _ (.inl (.inl (.inl rfl))), h _ (.inl (.inl (.inr (.inl rfl)))), h _ (.inl (.inl (.inr (.inr rfl)))),
      fun e he => h _ (.inl (.inr ⟨e, he, rfl⟩)), fun k hk m hm => h _ (.inr ⟨k, hk, hm⟩)⟩
  · rintro ⟨h1, h2, h3, h4, h5⟩ m (((rfl | rfl | rfl) | ⟨e, he, rfl⟩) | ⟨k, hk, hm⟩)
    · exact h1
    · exact h2
    · exact h3
    · exact h4 e he
    · exact h5 k hk m hm

theorem mem_modify {α : Type} {f : α → α} {x : α} : ∀ {l : List α} {i : Nat}, x ∈ l.modify i f → x ∈ l ∨ ∃ y ∈ l, x = f y
  | [], _, h => by simp at h
  | a :: l, 0, h => by
    rw [List.modify_zero_cons] at h
    rcases List.mem_cons.1 h with h | h
    · exact .inr ⟨a, List.mem_cons_self .., h⟩
    · exact .inl (List.mem_cons_of_mem _ h)
  | a :: l, i + 1, h => by
    rw [List.modify_succ_cons] at h
    rcases List.mem_cons.1 h with h | h
    · exact .inl (h ▸ List.mem_cons_self ..)
    · rcases mem_modify h with h | ⟨y, hy, h⟩
      · exact .inl (List.mem_cons_of_mem _ h)
      · exact .inr ⟨y, List.mem_cons_of_mem _ hy, h⟩

/-- A change of a core that keeps its memories canonical keeps the state's. -/
theorem canonical_modCore {s : State} (c : Nat) {f : Core → Core} (h : Canonical s)
    (hf : ∀ k, (∀ m ∈ coreMemories k, Memory.wf m = true) → ∀ m ∈ coreMemories (f k), Memory.wf m = true) :
    Canonical (s.modCore c f) := by
  rw [canonical_iff] at h ⊢
  obtain ⟨h1, h2, h3, h4, h5⟩ := h
  refine ⟨h1, h2, h3, h4, fun k hk => ?_⟩
  rcases mem_modify hk with hk | ⟨y, hy, rfl⟩
  · exact h5 k hk
  · exact hf y (h5 y hy)

/-- A change of a core that leaves its memories as they are keeps the canonical form. -/
theorem canonical_modCore_same {s : State} (c : Nat) {f : Core → Core} (h : Canonical s)
    (hf : ∀ k, coreMemories (f k) = coreMemories k) : Canonical (s.modCore c f) :=
  canonical_modCore c h fun k hk => by rw [hf k]; exact hk

theorem mem_insert {α : Type} {x : α} {e : Nat × α} {k : Nat} : ∀ {m : SMap α}, e ∈ SMap.insert m k x → e = (k, x) ∨ e ∈ m
  | [], h => by simpa [SMap.insert] using h
  | (a, v) :: rest, h => by
    simp only [SMap.insert] at h
    split at h
    · exact List.mem_cons.1 h
    · split at h
      · rcases List.mem_cons.1 h with h | h
        · exact .inl h
        · exact .inr (List.mem_cons_of_mem _ h)
      · rcases List.mem_cons.1 h with h | h
        · exact .inr (h ▸ List.mem_cons_self ..)
        · rcases mem_insert h with h | h
          · exact .inl h
          · exact .inr (List.mem_cons_of_mem _ h)

theorem mem_set {α : Type} [DecidableEq α] {dflt x : α} {e : Nat × α} {k : Nat} {m : SMap α} (h : e ∈ SMap.set dflt m k x) :
    e = (k, x) ∨ e ∈ m := by
  unfold SMap.set at h
  split at h
  · exact .inr (List.mem_filter.1 h).1
  · exact mem_insert h

theorem peer_wf {m : SMap Memory} (h : ∀ e ∈ m, Memory.wf e.2 = true) (k : Nat) : Memory.wf (SMap.get [] m k) = true := by
  induction m with
  | nil => rfl
  | cons e rest ih =>
    obtain ⟨a, v⟩ := e
    simp only [SMap.get]
    split
    · exact h (a, v) (List.mem_cons_self ..)
    · exact ih fun e he => h e (List.mem_cons_of_mem _ he)

/-- A byte written to the vat's image changes no other memory of the core, and keeps that one canonical. -/
theorem Core.setVat_wf {k : Core} (a : Nat) (b : Byte) (h : Memory.wf k.vatImage = true) :
    (k.setVat a b).spad = k.spad ∧ (k.setVat a b).mould = k.mould ∧ (k.setVat a b).context = k.context ∧
      Memory.wf (k.setVat a b).vatImage = true := by
  unfold Core.setVat
  split
  · exact ⟨rfl, rfl, rfl, h⟩
  · exact ⟨rfl, rfl, rfl, Memory.wf_set a b h⟩

theorem Core.setImageByte_wf {k : Core} (a : Nat) (b : Byte) (h : ∀ m ∈ coreMemories k, Memory.wf m = true) :
    ∀ m ∈ coreMemories (k.setImageByte a b), Memory.wf m = true := by
  have h' : Memory.wf k.spad = true ∧ Memory.wf k.mould = true ∧ Memory.wf k.vatImage = true ∧ Memory.wf k.context = true := by
    simpa [coreMemories] using h
  obtain ⟨h1, h2, h3, h4⟩ := h'
  unfold Core.setImageByte
  repeat' split
  all_goals simp only [coreMemories, List.forall_mem_cons, List.not_mem_nil, false_imp_iff, implies_true, and_true]
  · exact ⟨Memory.wf_set _ _ h1, h2, h3, h4⟩
  · exact ⟨h1, h2, h3, h4⟩
  · exact ⟨h1, h2, h3, h4⟩
  · exact ⟨h1, Memory.wf_set _ _ h2, h3, h4⟩
  · obtain ⟨e1, e2, e3, e4⟩ := Core.setVat_wf (a - 0x1C00000) b h3
    rw [e1, e2, e3]
    exact ⟨h1, h2, e4, h4⟩
  · exact ⟨h1, h2, h3, Memory.wf_set _ _ h4⟩

/-- A store of a byte at any home keeps the canonical form of every memory. -/
theorem putByte_canonical {s : State} (t : Target) (b : Byte) (h : Canonical s) : Canonical (s.putByte t b) := by
  cases t with
  | spad c a => exact canonical_modCore c h fun k hk => Core.setImageByte_wf a b hk
  | dev pa =>
    simp only [State.putByte]
    split
    · rw [canonical_iff] at h ⊢
      exact ⟨Dram.setByte_wf _ b h.1, h.2⟩
    · exact h
  | host a =>
    rw [canonical_iff] at h ⊢
    exact ⟨h.1, Memory.wf_set a b h.2.1, h.2.2⟩
  | peer m a =>
    rw [canonical_iff] at h ⊢
    refine ⟨h.1, h.2.1, h.2.2.1, fun e he => ?_, h.2.2.2.2⟩
    rcases mem_set he with rfl | he
    · exact Memory.wf_set a b (peer_wf h.2.2.2.1 m)
    · exact h.2.2.2.1 e he

/-- A store of bytes at any home keeps it. -/
theorem putBytes_canonical (bs : List Byte) {s : State} (t : Target) (h : Canonical s) : Canonical (s.putBytes t bs) := by
  induction bs generalizing s t with
  | nil => exact h
  | cons b rest ih => exact ih _ (putByte_canonical t b h)

theorem wakeMonitors_canonical {s : State} (h : Canonical s) : Canonical s.wakeMonitors := h

/-- The death of rows keeps it. -/
theorem killRows_canonical {s : State} (lo n : Nat) (h : Canonical s) : Canonical (s.killRows lo n) := by
  rw [canonical_iff] at h
  exact wakeMonitors_canonical ((canonical_iff _).2 ⟨Dram.kill_wf lo n h.1, h.2⟩)

theorem wipeRows_canonical {s : State} (lo n : Nat) (h : Canonical s) : Canonical (s.wipeRows lo n) := by
  rw [canonical_iff] at h
  exact wakeMonitors_canonical ((canonical_iff _).2 ⟨Dram.kill_wf lo n h.1, h.2⟩)

theorem killChunk_canonical {s : State} (pa : Nat) (h : Canonical s) : Canonical (s.killChunk pa) := by
  unfold State.killChunk
  split
  · exact h
  · rename_i p hp
    clear hp
    generalize (if pa / 2 ^ 39 = 16 then List.range s.variant.stackCount else _) = ids
    induction ids generalizing s with
    | nil => exact h
    | cons a rest ih => exact ih (killRows_canonical _ _ h)

/-- Reset leaves every memory in canonical form (R200). -/
theorem reset_canonical : Canonical State.reset := by
  rw [canonical_iff]
  refine ⟨rfl, rfl, rfl, fun e he => (List.not_mem_nil he).elim, fun k hk => ?_⟩
  obtain rfl : k = Core.reset := (List.mem_replicate.1 hk).2
  intro m hm
  simp only [coreMemories, Core.reset, List.mem_cons, List.not_mem_nil, or_false] at hm
  rcases hm with rfl | rfl | rfl | rfl <;> rfl

end Sys2Proof.Machine
end

