-- ==== Sys2Proof/Tests/Slice0.lean ====
section
/-!
SUPPORT. Tests: words written out from the encoding tables, ill-formed terms, single steps with results from the manual's worked examples or by
hand from its rules, and witnesses of the hypotheses of the statements.
-/

namespace Sys2Proof.Tests

set_option Elab.async false

open Sys2Proof Sys2Proof.Machine Sys2Proof.Spec

/-! ### Small machines -/

/-- An unguarded word without hints. -/
def ctl : Ctl := ⟨63#6, false, false, false, 0#4⟩

/-- Operands: a V register and its pair, a W or S register and its pair, an immediate. -/
def v (i : Nat) : Opd := .v false .full (BitVec.ofNat 8 i)
def vp (i : Nat) : Opd := .v false .pair (BitVec.ofNat 8 i)
def u (i : Nat) : Opd := .u false .full (BitVec.ofNat 8 i)
def up (i : Nat) : Opd := .u false .pair (BitVec.ofNat 8 i)
def im (x : Nat) : Opd := .imm (BitVec.ofNat 14 x)
def p (i : Nat) : Opd := .p (BitVec.ofNat 6 i)

/-- Registers with these values, full. -/
def regs (xs : List (Nat × Nat)) : SMap Reg := xs.map fun x => (x.1, ⟨BitVec.ofNat 32 x.2, []⟩)

/-- A live lane at word 0 with V registers and predicates. -/
def lane (xs : List (Nat × Nat)) (ps : Nat := 0) : Thread := { Thread.start 0#32 with v := regs xs, p := BitVec.ofNat 64 ps }

/-- A 16-wide sheet of 64 registers, its first lanes live, with W registers. -/
def sheet (ls : List Thread) (us : List (Nat × Nat) := []) : Sheet :=
  { placeSheet .sheet 16 0 0 with c := 64, lanes := ls ++ List.replicate (16 - ls.length) Thread.absent, u := regs us }

/-- A front-end thread with S registers. -/
def front (us : List (Nat × Nat)) : Sheet := { placeSheet .front 1 0 0 with lanes := [lane []], u := regs us }

/-- A level-1 handler sheet for a cause, its first lanes live. -/
def handler (c : Cause) (ls : List Thread) : Sheet :=
  { placeSheet (.handler 1 c) 64 0 0 with lanes := ls ++ List.replicate (64 - ls.length) Thread.absent }

/-- A core of owner 1 with one workgroup and a translation of page 1. -/
def core (g : Workgroup) : Core :=
  { Core.reset with owner := some 1, quant := 2000000, wgs := some g :: List.replicate 7 none,
                    tlb := [⟨0x10000, BitVec.ofNat 64 (2 ^ 32 + 0x2000000), 65536, true, true, true, false, 0#2, 0#2⟩] }

/-- A module of one core. -/
def one (k : Core) : State := { State.reset with cores := [k], owners := [placeOwner], launches := [placeLaunch] }

/-- The agents of the tests. -/
def ws : Where := .sheet 0 0 0
def wf : Where := .front 0 0
def wh : Where := .handler 0 1

/-- A sheet's word issues. -/
def onSheet (sh : Sheet) : State := { one (core (placeGroup none [some sh])) with cur := some (ws, 0) }

/-- A front-end thread's word issues. -/
def onFront (sh : Sheet) : State := { one (core (placeGroup (some sh) [some (sheet [])])) with cur := some (wf, 0) }

/-- A level-1 handler whose word issues, for an event of lane 0 of the sheet. -/
def handlerOf (c : Cause) (sh : Sheet) : Handler :=
  { sheet := sh, ev := { placeEvent with cause := c }, entry := 1, mended := 0#64, mendRight := true, restore := false, frozen := false, again := [] }

/-- The same as a module; the trapped sheet's lane 0 stands at its word. -/
def onHandler (c : Cause) (sh : Sheet) : State :=
  { one { core (placeGroup none [some (sheet [{ lane [] with wait := .trapped }])]) with h1 := some (handlerOf c sh) } with cur := some (wh, 0) }

/-- What a next state holds. -/
def next {α : Type} (r : Res) (f : State → α) : Option α :=
  match r with
  | .next t => some (f t)
  | _ => none

/-- A V register of a lane of the sheet, and a W or S register, after a word. -/
def vOf (r : Res) (l i : Nat) (w : Where := ws) : Option Nat := (next r fun t => (t.sheetAt w).map fun sh => (sh.vReg l i).val.toNat).join
def uOf (r : Res) (i : Nat) (w : Where := ws) : Option Nat := (next r fun t => (t.sheetAt w).map fun sh => (sh.uReg i).val.toNat).join

/-- A lane after a word. -/
def lOf {α : Type} (r : Res) (l : Nat) (f : Thread → α) (w : Where := ws) : Option α := (next r fun t => (t.sheetAt w).map fun sh => f (sh.lane l)).join

/-- The sheet, and the core, after a word. -/
def shOf {α : Type} (r : Res) (f : Sheet → α) (w : Where := ws) : Option α := (next r fun t => (t.sheetAt w).map f).join
def kOf {α : Type} (r : Res) (f : Core → α) : Option α := next r fun t => f (t.core 0)

/-- What the decoder answers in a kind of code with every register. -/
def dec (k : CodeKind) (w : IWord) : Option Instr := (decode ⟨k, 256, 0, true⟩ w).toOption

/-! ### Words written out from the encoding tables (Tables 3.1 to 3.13 and the reference's own words) -/

theorem test_decode_iadd : dec .sheet 0x003F4000008000E350000006#96 = some (.iadd ctl .i32 false (v 1) (v 1) (.limm 100000#30)) := by decide
theorem test_decode_mov : dec .sheet 0x083F00000100006000000000#96 = some (.mov ctl .i32 (v 2) (im 0)) := by decide
theorem test_decode_fadd : dec .sheet 0x103F03800180008001030000#96 =
    some (.fadd { ctl with stall := 3#4 } .f32 false .dyn (v 3) (v 1) (v 2)) := by decide
theorem test_decode_fsin : dec .sheet 0x137F07800100008000000000#96 = some (.fsin ctl true false (v 2) (v 1)) := by decide
theorem test_decode_icmp : dec .sheet 0x303F01400080026000010000#96 =
    some (.icmp { ctl with stall := 1#4 } .i32 .lt (p 1) (v 4) (im 0)) := by decide
theorem test_decode_plop : dec .sheet 0x30BF044001C000C001010000#96 = some (.plop { ctl with stall := 1#4 } 8#4 (p 3) (p 1) (p 2)) := by decide
theorem test_decode_sel : dec .sheet 0x30FF00000300028002008002#96 = some (.sel ctl .i32 (v 6) (v 5) (v 4) (p 2)) := by decide
theorem test_decode_rdux : dec .sheet 0x40BF78200100008000001400#96 =
    some (.rdux ctl .add .f32 .dyn (u 2) (v 1) ⟨5#6, false, 0#4⟩) := by decide
theorem test_decode_nop : dec .sheet 0x51FF000000000000000F0000#96 = some (.nop { ctl with stall := 15#4 }) := by decide
theorem test_decode_bra : dec .sheet 0x500100000000006001800000#96 = some (.bra { ctl with gp := 1#6 } (im 3)) := by decide
theorem test_decode_ret : dec .sheet 0x513F00000000028000000000#96 = some (.ret ctl (v 5)) := by decide
theorem test_decode_join : dec .sheet 0x603F00402800000000000000#96 = some (.join ctl 0#4) := by decide
theorem test_decode_mmov : dec .sheet 0x60FF002001C0290000000000#96 = some (.mmov ctl (u 3) (.m .full 2#4)) := by decide
theorem test_decode_ld : dec .sheet 0x803F2580008C046000000000#96 = some (.ld ctl (.ordered .dev) .b32 (v 1) (vp 8) (im 0)) := by decide
theorem test_decode_mwait : dec .sheet 0x933F0680010C046000000000#96 = some (.mwait ctl true .dev (v 2) (vp 8) (im 0)) := by decide
theorem test_decode_bara : dec .sheet 0x927F08E0008004E100000000#96 = some (.bara ctl .wg (im 1) (v 9) (im 0x200)) := by decide
theorem test_decode_mrdy : dec .sheet 0xA03F00000020020000000000#96 = some (.mrdy ctl (u 4)) := by decide
theorem test_decode_copy : dec .front 0xB03F1820012C036800000000#96 = some (.copy ctl 3#4 .ds none 0#2 .b8 (u 2) (up 6) (im 4096)) := by decide
theorem test_decode_gyld : dec .sheet 0xC17F00000000026000800000#96 = some (.gyld ctl (v 4) (im 1)) := by decide
theorem test_decode_spawn : dec .sheet 0xC00100C0010000E002800000#96 = some (.spawn { ctl with gp := 1#6 } 1#3 (p 2) (v 1) (im 5)) := by decide
theorem test_decode_launch : dec .front 0xD03F002001A0006000000000#96 = some (.launch ctl (u 3) (u 0) (im 0)) := by decide
theorem test_decode_tlbw : dec .sheet 0xE03F0000000C000C01000004#96 = some (.tlbw ctl (vp 0) (vp 2) (v 4)) := by decide
theorem test_decode_tlbi : dec .sheet 0xE07F06800000000000000000#96 = some (.tlbi ctl true .dev .none) := by decide
theorem test_decode_rfh : dec (.handler 1 .page) 0xE13F01000000000000000000#96 = some (.rfh ctl .fail) := by decide
theorem test_decode_mend : dec (.handler 1 .page) 0xE33F00000000018000000000#96 = some (.mend ctl (v 3)) := by decide
theorem test_decode_srd : dec .sheet 0xE23F000001C0480000000000#96 = some (.srd ctl (v 3) (.sr .full 0x90#8)) := by decide
theorem test_decode_swr : dec .sheet 0xE27F00404E20000000000000#96 = some (.swr ctl (.sr .full 0x9C#8) (u 0)) := by decide
theorem test_encode_copy : encode (.copy ctl 3#4 .ds none 0#2 .b8 (u 2) (up 6) (im 4096)) = 0xB03F1820012C036800000000#96 := by decide

/-- RFH is no word of sheet code, and an unassigned cell of class 0xE is ILLEGAL while one of class 0xF is EXTEMU (R57, R58). -/
theorem test_decode_refuses : (match decode ⟨.sheet, 256, 0, true⟩ 0xE13F00000000000000000000#96, decode ⟨.sheet, 256, 0, true⟩ 0xEFFF00000000000000000000#96,
    decode ⟨.sheet, 256, 0, true⟩ 0xFFFF00000000000000000000#96 with
  | .error a, .error b, .error c => some (a, b, c)
  | _, _, _ => none) = some (.illegal 15, .illegal 15, .extemu) := by decide

/-! ### Ill-formed terms, each refused by the check that it fails -/

/-- A plain sheet's code with 64 registers. -/
def code : DecodeCtx := ⟨.sheet, 64, 0, true⟩

theorem test_wellformed : (Instr.iadd ctl .i32 false (v 1) (v 63) (im 5)).accepts code = true := by decide
/-- Table 11.1 admits an immediate as STL's data at every size. -/
theorem test_wellformed_stl_quad_immediate : (Instr.stl ctl false .b128 (im 1) (v 1) (im 0) .none).accepts code = true := by decide
theorem test_illformed_register_count : (Instr.iadd ctl .i32 false (v 1) (v 64) (im 5)).accepts code = false := by decide
theorem test_illformed_odd_pair : (Instr.iadd ctl .i64 false (vp 3) (vp 2) (vp 4)).accepts code = false := by decide
theorem test_illformed_type : (Instr.iadd ctl .b32 false (v 1) (v 2) (v 3)).accepts code = false := by decide
theorem test_illformed_part : (Instr.iadd ctl .i64 false (v 2) (vp 2) (vp 4)).accepts code = false := by decide
theorem test_illformed_destination : (Instr.iadd ctl .i32 false (im 1) (v 2) (v 3)).accepts code = false := by decide
theorem test_illformed_condition : (Instr.icmp ctl .b32 .lt (p 1) (v 2) (v 3)).accepts code = false := by decide
theorem test_illformed_half : (Instr.imul ctl .i64 false .wide (vp 2) (vp 4) (vp 6)).accepts code = false := by decide
theorem test_illformed_conversion : (Instr.cvt ctl false .dyn .fp32 .fp32 (v 1) (v 2)).accepts code = false := by decide
theorem test_illformed_kind_of_code : (Instr.mend ctl (v 3)).accepts code = false := by decide
theorem test_illformed_mask : (Instr.join ctl 12#4).accepts code = false := by decide
theorem test_illformed_limm : (Instr.fadd ctl .f16x2 false .dyn (v 1) (v 2) (.limm 0#30)).accepts code = false := by decide
theorem test_illformed_quad : (Instr.ldl ctl false .b128 (v 2) (v 1) (im 0) .none).accepts code = false := by decide
theorem test_illformed_genb_cap : (Instr.genb ctl 0#3 4#8 (v 1) (im 1) (im 2)).accepts code = false := by decide
theorem test_illformed_guarded_rfh : (Instr.rfh { ctl with gp := 1#6 } .plain).accepts ⟨.handler 1 .page, 32, 0, true⟩ = false := by decide
theorem test_illformed_scope : (Instr.tlbi ctl true .wg .none).accepts code = false := by decide
theorem test_illformed_special : (Instr.srd ctl (v 1) (.sr .full 0xA7#8)).accepts code = false := by decide
theorem test_illformed_trailer : (Instr.trlr (List.replicate 8 ⟨false, 0#8⟩) 1#8).accepts code = false := by decide
theorem test_illformed_transform : (Instr.xform ctl .transpose .dyn (u 1) (u 2) (u 3) .none).accepts ⟨.front, 0, 0, false⟩ = false := by decide

/-! ### One word each, with results from the manual or by hand from its rules -/

/-- IADD.sat.i32 of 0x7FFFFFF0 and 0x20 saturates and raises ST (R325). -/
theorem test_iadd_saturates :
    let r := exec (.iadd ctl .i32 true (v 3) (v 1) (v 2)) (onSheet (sheet [lane [(1, 0x7FFFFFF0), (2, 0x20)]]))
    vOf r 0 3 = some 0x7FFFFFFF ∧ lOf r 0 (·.astat) = some 32#32 := by decide
theorem test_iadd_goes_on :
    lOf (exec (.iadd ctl .i32 false (v 3) (v 1) (im 1)) (onSheet (sheet [lane [(1, 0xFFFFFFFF)]]))) 0 (fun t => (t.pc, t.astat)) =
      some (12#32, 0#32) := by decide
theorem test_isub_packed :
    vOf (exec (.isub ctl .u16x2 false (v 3) (v 1) (v 2)) (onSheet (sheet [lane [(1, 0x00010005), (2, 0x00020003)]]))) 0 3 =
      some 0xFFFF0002 := by decide
theorem test_imin_by_type :
    let s := onSheet (sheet [lane [(1, 0xFFFFFFFF), (2, 1)]])
    vOf (exec (.imin ctl .u32 (v 3) (v 1) (v 2)) s) 0 3 = some 1 ∧ vOf (exec (.imin ctl .i32 (v 3) (v 1) (v 2)) s) 0 3 = some 0xFFFFFFFF := by decide
theorem test_imax_by_type :
    vOf (exec (.imax ctl .i32 (v 3) (v 1) (v 2)) (onSheet (sheet [lane [(1, 0xFFFFFFFF), (2, 1)]]))) 0 3 = some 1 := by decide
/-- 199 × 1639 = 326161, and 326161 >> 16 = 4. -/
theorem test_imul_low :
    vOf (exec (.imul ctl .i32 false .lo (v 3) (v 1) (v 2)) (onSheet (sheet [lane [(1, 199), (2, 1639)]]))) 0 3 = some 326161 := by decide
theorem test_imul_high :
    vOf (exec (.imul ctl .u32 false .hi (v 3) (v 1) (v 2)) (onSheet (sheet [lane [(1, 0x80000000), (2, 6)]]))) 0 3 = some 3 := by decide
/-- 0xFFFFFFFF squared plus 1 is 0xFFFFFFFE_00000002. -/
theorem test_imad_wide :
    let r := exec (.imad ctl .u32 false .wide (vp 6) (v 1) (v 1) (vp 2)) (onSheet (sheet [lane [(1, 0xFFFFFFFF), (2, 1), (3, 0)]]))
    vOf r 0 6 = some 2 ∧ vOf r 0 7 = some 0xFFFFFFFE := by decide
theorem test_land : vOf (exec (.land ctl .b32 (v 3) (v 1) (v 2)) (onSheet (sheet [lane [(1, 0xFF00FF00), (2, 0x0FF00FF0)]]))) 0 3 =
    some 0x0F000F00 := by decide
theorem test_lor : vOf (exec (.lor ctl .b32 (v 3) (v 1) (v 2)) (onSheet (sheet [lane [(1, 0xFF00FF00), (2, 0x0FF00FF0)]]))) 0 3 =
    some 0xFFF0FFF0 := by decide
theorem test_lxor : vOf (exec (.lxor ctl .b32 (v 3) (v 1) (v 2)) (onSheet (sheet [lane [(1, 0xFF00FF00), (2, 0x0FF00FF0)]]))) 0 3 =
    some 0xF0F0F0F0 := by decide
/-- A count of the width leaves zero (R355). -/
theorem test_shl_by_width :
    let s := onSheet (sheet [lane [(1, 1), (2, 32), (4, 31)]])
    vOf (exec (.shl ctl .u32 (v 3) (v 1) (v 2)) s) 0 3 = some 0 ∧ vOf (exec (.shl ctl .u32 (v 3) (v 1) (v 4)) s) 0 3 = some 0x80000000 := by decide
theorem test_shr_copies_the_sign :
    let s := onSheet (sheet [lane [(1, 0x80000010), (2, 326161)]])
    vOf (exec (.shr ctl .i32 (v 3) (v 1) (im 4)) s) 0 3 = some 0xF8000001 ∧ vOf (exec (.shr ctl .u32 (v 3) (v 2) (im 16)) s) 0 3 = some 4 := by decide
theorem test_bfx_signed :
    vOf (exec (.bfx ctl .i32 (v 3) (v 1) (im 4) (im 4)) (onSheet (sheet [lane [(1, 0xF0)]]))) 0 3 = some 0xFFFFFFFF := by decide
theorem test_bfi :
    vOf (exec (.bfi ctl (v 3) (v 1) (im 8) (im 8)) (onSheet (sheet [lane [(1, 0xAB), (3, 0x11223344)]]))) 0 3 = some 0x1122AB44 := by decide
theorem test_popc : vOf (exec (.popc ctl .b32 (v 3) (v 1)) (onSheet (sheet [lane [(1, 0xF00F0001)]]))) 0 3 = some 9 := by decide
theorem test_clz :
    let s := onSheet (sheet [lane [(1, 0x00010000), (2, 0)]])
    vOf (exec (.clz ctl .b32 (v 3) (v 1)) s) 0 3 = some 15 ∧ vOf (exec (.clz ctl .b32 (v 3) (v 2)) s) 0 3 = some 32 := by decide
/-- LEA.i32.s3 of 0x40_0000_0000 and −1 is 0x3F_FFFF_FFF8. -/
theorem test_lea :
    let r := exec (.lea ctl .i32 3#3 (vp 6) (vp 2) (v 1)) (onSheet (sheet [lane [(1, 0xFFFFFFFF), (2, 0), (3, 0x40)]]))
    vOf r 0 6 = some 0xFFFFFFF8 ∧ vOf r 0 7 = some 0x3F := by decide
theorem test_mov_half :
    vOf (exec (.mov ctl .i32 (v 3) (.v false .hi 1#8)) (onSheet (sheet [lane [(1, 0x80010002)]]))) 0 3 = some 0xFFFF8001 := by decide
theorem test_mov_first_lane :
    uOf (exec (.mov ctl .i32 (u 3) (v 1)) (onSheet (sheet [lane [(1, 7)], lane [(1, 9)]]))) 3 = some 7 := by decide
theorem test_icmp :
    lOf (exec (.icmp ctl .i32 .lt (p 1) (v 1) (im 0)) (onSheet (sheet [lane [(1, 0xFFFFFFFF)]]))) 0 (·.pRead 1) = some true := by decide
theorem test_plop :
    lOf (exec (.plop ctl 8#4 (p 3) (p 1) (p 2)) (onSheet (sheet [lane [] 6]))) 0 (·.p) = some 14#64 := by decide
theorem test_sel :
    let s (ps : Nat) := onSheet (sheet [lane [(4, 10), (5, 20)] ps])
    vOf (exec (.sel ctl .i32 (v 6) (v 5) (v 4) (p 2)) (s 4)) 0 6 = some 20 ∧
    vOf (exec (.sel ctl .i32 (v 6) (v 5) (v 4) (p 2)) (s 0)) 0 6 = some 10 := by decide

/-! Class 0x1: binary32 numbers 1.0 = 0x3F800000, 2.0 = 0x40000000, 0.5 = 0x3F000000, 3.0 = 0x40400000, −0 = 0x80000000. -/

theorem test_fadd : vOf (exec (.fadd ctl .f32 false .dyn (v 3) (v 1) (v 2)) (onSheet (sheet [lane [(1, 0x3F800000), (2, 0x40000000)]]))) 0 3 =
    some 0x40400000 := by decide
/-- 1 + 2^-24 rounds up under RUP with NX. -/
theorem test_fadd_rounds_up :
    let r := exec (.fadd ctl .f32 false .rup (v 3) (v 1) (v 2)) (onSheet (sheet [lane [(1, 0x3F800000), (2, 0x33800000)]]))
    vOf r 0 3 = some 0x3F800001 ∧ lOf r 0 (·.astat) = some 16#32 := by decide
theorem test_fmul_zero_infinity :
    vOf (exec (.fmul ctl .f32 false .dyn (v 3) (v 1) (v 2)) (onSheet (sheet [lane [(1, 0), (2, 0x7F800000)]]))) 0 3 = some 0x7FC00000 := by decide
theorem test_ffma : vOf (exec (.ffma ctl .f32 false .dyn (v 3) (v 1) (v 2) (v 1)) (onSheet (sheet [lane [(1, 0x3F800000), (2, 0x40000000)]]))) 0 3 =
    some 0x40400000 := by decide
theorem test_fmin_zeros : vOf (exec (.fmin ctl .f32 false .dyn (v 3) (v 1) (v 2)) (onSheet (sheet [lane [(1, 0), (2, 0x80000000)]]))) 0 3 =
    some 0x80000000 := by decide
theorem test_fmax_zeros : vOf (exec (.fmax ctl .f32 false .dyn (v 3) (v 1) (v 2)) (onSheet (sheet [lane [(1, 0x80000000), (2, 0)]]))) 0 3 =
    some 0 := by decide
/-- FRCP of +0 is +infinity with DZ, and under an enabled DZ pend is set. -/
theorem test_frcp_of_zero :
    let r := exec (.frcp ctl .f32 false .dyn (v 3) (v 1)) (onSheet (sheet [{ lane [(1, 0)] with aen := 2#32 }]))
    vOf r 0 3 = some 0x7F800000 ∧ lOf r 0 (fun t => (t.astat, t.pend)) = some (2#32, true) := by decide
theorem test_fsqrt_of_negative :
    vOf (exec (.fsqrt ctl .f32 false .dyn (v 3) (v 1)) (onSheet (sheet [lane [(1, 0xBF800000)]]))) 0 3 = some 0x7FC00000 := by decide
theorem test_frsq_of_infinity : vOf (exec (.frsq ctl false (v 3) (v 1)) (onSheet (sheet [lane [(1, 0x7F800000)]]))) 0 3 = some 0 := by decide
theorem test_fex2_of_minus_infinity : vOf (exec (.fex2 ctl false (v 3) (v 1)) (onSheet (sheet [lane [(1, 0xFF800000)]]))) 0 3 = some 0 := by decide
theorem test_flg2_of_infinity : vOf (exec (.flg2 ctl false (v 3) (v 1)) (onSheet (sheet [lane [(1, 0x7F800000)]]))) 0 3 = some 0x7F800000 := by decide
theorem test_fsin_of_infinity : vOf (exec (.fsin ctl false false (v 3) (v 1)) (onSheet (sheet [lane [(1, 0x7F800000)]]))) 0 3 = some 0x7FC00000 := by decide
theorem test_fcmp_unordered :
    let s := onSheet (sheet [lane [(1, 0x7FC00000), (2, 0x3F800000)]])
    lOf (exec (.fcmp ctl .f32 .neu (p 1) (v 1) (v 2)) s) 0 (·.pRead 1) = some true ∧
    lOf (exec (.fcmp ctl .f32 .lt (p 1) (v 1) (v 2)) s) 0 (·.pRead 1) = some false := by decide
/-- CVT.rdn.e4m3.f32 of 449.0 is 0x7E with NX; .rup raises OF, NX and ST. -/
theorem test_cvt_float :
    let s := onSheet (sheet [lane [(1, 0x43E08000)]])
    let f (m : Rnd) := exec (.cvt ctl true m .e4m3 .fp32 (v 3) (v 1)) s
    vOf (f .rdn) 0 3 = some 0x7E ∧ lOf (f .rdn) 0 (·.astat) = some 16#32 ∧ lOf (f .rup) 0 (·.astat) = some 52#32 := by decide
/-- CVT.rtz.i32.f32 of −3.99 is −3 with NX. -/
theorem test_cvt_to_integer :
    let r := exec (.cvt ctl false .rtz .int32 .fp32 (v 3) (v 1)) (onSheet (sheet [lane [(1, 0xC07F5C29)]]))
    vOf r 0 3 = some 0xFFFFFFFD ∧ lOf r 0 (·.astat) = some 16#32 := by decide

/-! ### Witnesses: a state and operands that meet the hypotheses of each statement, clause by clause -/

/-- Two live lanes, the first with p1 set, at one word. -/
def sh1 : Sheet :=
  sheet [lane [(1, 12), (2, 8), (3, 4), (4, 24), (5, 1), (6, 2), (7, 3), (8, 0), (9, 0)] 2, lane [(1, 12), (2, 8), (3, 4), (4, 24), (5, 1), (6, 2), (7, 3)] 0]
    [(1, 64), (2, 0x3F80), (3, 0x40000000), (4, 0), (5, 0x10000), (6, 0)]
def s1 : State := onSheet sh1
def g1 : Grp := Grp.of ws sh1 0 ctl
/-- The guard p1, under which the first lane alone executes. -/
def ctl1 : Ctl := { ctl with gp := 1#6 }
def g1p : Grp := Grp.of ws sh1 0 ctl1
/-- The hypotheses that the word stands and its sources are full. -/
abbrev Ready (s : State) (w : Where) (sh : Sheet) (c : Ctl) (xs : List Src) : Prop :=
  Stands s w 0 sh ∧ Full (Grp.of w sh 0 c) xs ∧ (Grp.of w sh 0 c).act ≠ []
/-- An empty source register, without and with EW. -/
def she : Sheet := sheet [{ lane [] with v := [(1, ⟨0#32, [⟨7, none⟩]⟩)] }]
def ve : Opd := .v false .full 1#8
def vew : Opd := .v true .full 1#8
def xall : XExt := ⟨5#6, true, 0#4⟩

theorem witness_IntegerWordsWrapModuloTheirWidth : Ready s1 ws sh1 ctl [(1, false, v 1), (2, false, v 2)] := by decide
theorem witness_IntegerWordsSaturateAndRaiseST : Ready s1 ws sh1 ctl [(1, false, v 1), (2, false, v 2), (3, false, v 3)] := by decide
theorem witness_MultiplyWordsAnswerTheirHalf : Ready s1 ws sh1 ctl [(1, false, vp 2), (2, false, vp 4), (3, false, vp 6)] ∧
    IntTy.i64.packed = false ∧ IntTy.u16x2.packed = true := by decide
theorem witness_ShiftsFieldsAndCounts : Ready s1 ws sh1 ctl [(1, false, v 1), (2, false, v 2), (3, false, v 3)] ∧
    Full g1 [(0, false, v 4)] := by decide
theorem witness_LogicMovesAndComparesWriteTheirResult : Ready s1 ws sh1 ctl [(1, false, p 1), (2, false, p 2), (3, false, p 1)] ∧
    accP (p 1) = true ∧ accP (p 2) = true ∧ icmpCond .b32 .eq = true ∧ icmpCond .i64 .lt = true ∧ IntTy.i64.packed = false := by decide
theorem witness_LaneWordsChangeOnlyTheirDestination :
    laneWord (.iadd ctl1 .i32 true (v 3) (v 1) (v 2)) = some (ctl1, v 3) ∧ Stands s1 ws 0 sh1 ∧ g1p.act = [0] ∧
    next (exec (.iadd ctl1 .i32 true (v 3) (v 1) (v 2)) s1) (fun _ => ()) = some () := by decide
theorem witness_EmptySourcesTrapOrWait : Stands (onSheet she) ws 0 she ∧ (Grp.of ws she 0 ctl).inHandler = false ∧
    ((onSheet she).core 0).eventRoom = true ∧ (∀ k ∈ (Grp.of ws she 0 ctl).act, opdFull she false ve k = false ∧ opdFull she false vew k = false) ∧
    (Grp.of ws she 0 ctl).act ≠ [] ∧ opdEw vew = true ∧ opdEw ve = false ∧ opdEw (v 2) = false := by decide
theorem witness_ResultsLandInTheirDestination : Stands s1 ws 0 sh1 ∧ g1p.act = [0] ∧ g1p.grp = [0, 1] ∧
    (⟨5#32, []⟩ : Reg).full = true ∧ (1 : Nat) ≠ 2 := by decide
theorem witness_FloatAndConvertWordsComplete : Ready s1 ws sh1 ctl [(1, false, v 1), (2, false, v 2), (3, false, v 3)] ∧
    Full g1 (blockSrcs (v 1)) ∧ blockSrcs (v 1) ≠ [] := by decide
/-- The exact value 3 × 2^-150, which ROUND to binary32 brings to 2^-148 or 2^-149. -/
theorem witness_RoundingBracketsTheExactValue : fp32 ∈ [fp32, bf16, fp16, e5m2, e4m3] ∧ Rnd.rtz ≠ .dyn ∧ 0 < 3 ∧
    roundVal fp32 .rtz (.fin false 3 (-150)) = (1, fUF ||| fNX) := by decide
theorem witness_InvalidOperandsAndConversionsFollowTheirRules : fp16 ∈ [fp32, bf16, fp16] ∧ (FVal.nan true).isNan = true ∧
    (fp16.value 0x7E00).isNan = true ∧ (fp16.value 0x3C00).isNan = false ∧ elemFmt .int8 = none ∧ elemFmt .uint32 = none ∧
    Elem.int8 ≠ .q4x ∧ Elem.uint32 ≠ .q4x := by decide
theorem witness_CrossLaneWordsPerformOnceForTheirMembers : Ready s1 ws sh1 ctl [(1, false, v 5), (2, false, v 5)] ∧
    AllHere sh1 g1 xall ∧ AllHere sh1 g1 ⟨5#6, false, 0#4⟩ ∧ [1#32, 2#32, 3#32, 4#32].length = 2 ^ 2 := by
  refine ⟨by decide, ⟨by decide, by decide, ?_⟩, ⟨by decide, by decide, ?_⟩, rfl⟩ <;> decide
/-- V1 holds a multiple of 12 and V2 does not. -/
theorem witness_TransfersSendLanesToTheirTargets : Ready s1 ws sh1 ctl [(1, false, v 1), (1, false, v 2)] ∧ g1.inHandler = false ∧
    (∀ k ∈ g1.act, (rd s1 g1 false (v 1) k).toNat % 12 = 0) ∧ (∃ k ∈ g1.act, (rd s1 g1 false (v 2) k).toNat % 12 ≠ 0) ∧
    (s1.core 0).eventRoom = true := by decide
/-- No lane, one of two, and both execute; a lane with a pending trap; a bin with room, and a vat without. -/
theorem witness_ExitAndBrdEndLanes : Stands s1 ws 0 sh1 ∧ g1p.inHandler = false ∧ sh1.gen = none ∧ g1p.act ≠ [] ∧ g1p.rest ≠ [] ∧
    (Grp.of ws sh1 0 { ctl with gp := 2#6 }).act = [] ∧ g1.rest = [] ∧ (∀ k ∈ g1p.act, (sh1.lane k).pend = false) ∧
    (s1.core 0).eventRoom = true ∧ (s1.wgOf ws).isSome = true ∧
    (((s1.pendingCore 0).addRecs (placeGroup none [some sh1]) 24#32 16 64 0#64 [⟨List.replicate 8 0#32, none⟩]).isSome = true) ∧
    ((s1.core 0).addRecs (placeGroup none [some sh1]) 24#32 16 64 0#64 [⟨List.replicate 8 0#32, none⟩]).isSome = true ∧
    (Core.addRecs { (s1.core 0) with bins := List.replicate 64 ⟨0, 1, 0#32, 16, 64, 0#64, [], false⟩ } (placeGroup none [some sh1]) 24#32 16 64
      0#64 [⟨List.replicate 8 0#32, none⟩]) = none ∧
    Full { g1p with act := [0] } (recordSrcs (v 1) 2) := by decide
theorem witness_EXIT_with_a_pending_trap : let sh := sheet [{ lane [] with pend := true }]
    Stands (onSheet sh) ws 0 sh ∧ (∃ k ∈ (Grp.of ws sh 0 ctl).act, (sh.lane k).pend = true) ∧ ((onSheet sh).core 0).eventRoom = true := by decide
/-- Mask m0 is empty, and m1 holds a running lane that does not stand at the word. -/
def shm : Sheet := { sheet [lane [(1, 3)], { lane [] with pc := 24#32 }] with m := [(1, 2#64)] }
theorem witness_MasksChangeAndReleaseTheirLanes : Ready (onSheet shm) ws shm ctl [(1, false, v 1)] ∧
    ∀ k ∈ (Grp.of ws shm 0 ctl).act, (shm.lane k).pend = false := by decide
theorem witness_WAITM_of_a_mask_that_has_come : ∀ k, k < shm.lanes.length → (shm.mReg 0).getLsbD k = true → (shm.lane k).running = true →
    k ∈ (Grp.of ws shm 0 ctl).act := by decide
theorem witness_WAITM_of_a_mask_that_has_not : ∃ k, k < shm.lanes.length ∧ (shm.mReg 1).getLsbD k = true ∧ (shm.lane k).running = true ∧
    k ∉ (Grp.of ws shm 0 ctl).act ∧ k ∉ waitmLanes shm 0#32 := ⟨1, by decide⟩
/-- Lane addresses of the words of the scratchpad: V1 = 16 lies in the 8,192-byte allocation, V2 is past it, V3 is misaligned. -/
def shl : Sheet := sheet [lane [(1, 16), (2, 8192), (3, 17), (4, 7), (5, 0), (6, 16)]] [(1, 0), (2, 0x3F80), (3, 0x40000000), (4, 64)]
def sl : State := onSheet shl
def gl : Grp := Grp.of ws shl 0 ctl
def al1 : Alloc := sl.alloc ws
/-- 255 outstanding local operations of the sheet. -/
def shfull : Sheet := { shl with sq := List.replicate 255 ⟨1, .stl, [], true, 0#32, 0#96⟩ }

theorem witness_LocalLoadsAndStoresIssueInOrder : Ready sl ws shl ctl (localSrcs false (v 1) (im 0) .none) ∧ sl.reach ws false 0 = some al1 ∧
    pastEnd al1 4 (ea sl gl (v 1) (im 0)) [0] = [] ∧ misaligned 4 (ea sl gl (v 1) (im 0)) [0] = [] ∧ shl.lcc < 255 ∧ shl.sqRoom = true ∧
    Full gl [(0, false, v 4)] ∧ pastEnd al1 4 (ea sl gl (v 2) (im 0)) [0] ≠ [] ∧
    pastEnd al1 4 (ea sl gl (v 3) (im 0)) [0] = [] ∧ misaligned 4 (ea sl gl (v 3) (im 0)) [0] ≠ [] ∧
    (rd sl gl false (v 5) 0).toNat = 0 ∧ (rd sl gl false (v 1) 0).toNat = 16 ∧ sl.reach ws true 16 = none := by decide
theorem witness_can_trap : CanTrap sl gl := by unfold CanTrap; decide
theorem witness_no_room_for_local_operations : 255 ≤ shfull.lcc ∧ shfull.sqRoom = false := by decide +kernel
theorem witness_TagWordsReadAndWriteTheTable : Ready sl ws shl ctl [(1, false, vp 0), (2, false, im 0), (3, false, v 1)] ∧
    sl.wgOf ws = some (placeGroup none [some shl]) ∧ (placeGroup none [some shl]).tagSets = 4 ∧ shl.lcc < 255 ∧ shl.sqRoom = true ∧
    ¬ (8192 / 2 ^ 9 ≤ (rd sl gl false (v 4) 0).toNat) ∧ 8192 / 2 ^ 9 ≤ (rd sl gl false (v 1) 0).toNat := by decide
/-- Way 0 of set 0 holds tag 9. -/
theorem witness_tag_lookups : let k : Core := { sl.core 0 with tags := [(0, ⟨9, 5#32⟩)] }
    0 < (placeGroup none [some shl]).tagSets ∧ (k.tag 0 0).tag = 9 ∧ (9 * 2 ^ 9 * 4 / 2 ^ 9) % 4 = 0 ∧
    (∀ u < 8, (k.tag 1 u).tag ≠ 9) ∧ (4 : Nat) ≤ 5 := by decide
/-- A sheet in the consumer body, an outstanding local operation, and a workgroup whose rank is 0. -/
def gen1 : Gen :=
  { body := .consumer, resume := false, k := 8, capn := 64, base := 0, pent := 0#32, cent := 24#32, join := 0#32, y := 8, h := 0, f := 0, a := 8,
    ended := 0#64, cr := 0, srcl := [], opened := 1#64, frozen := [] }
def shc : Sheet := { shl with gen := some gen1, sq := [⟨1, .stl, [], true, 0#32, 0#96⟩] }
theorem witness_ProducersOfAWorkgroupIssue : Stands sl ws 0 shl ∧ gl.act ≠ [] ∧ consuming shc = some gen1 ∧ consuming shl = none ∧
    Full gl [(1, false, vp 4)] ∧ ((sl.wgOf ws).map fun wg => wg.qrank == 0).getD false = true ∧
    ((sl.wgOf ws).map fun wg => wg.qrank == 1).getD false = false ∧ sl.member ws 1 = none ∧ shl.lcc = 0 ∧ shc.lcc ≠ 0 := by decide
def pkt2 : LaunchPkt := { placeLaunch.pkt with qn := 2 }
theorem witness_a_quire_member : 
    let s : State := { sl with
      cores := [sl.core 0, core { placeGroup none [] with qrank := 1 }],
      launches := [{ placeLaunch with pkt := pkt2 }] }
    ((s.member ws 1).map (·.1)) = some 1 := by decide
theorem witness_DecisionQueueIsFirstInFirstOut : let wg := { placeGroup none [some shl, some shl] with popWait := [(1, 9)] }
    Stands sl ws 0 shl ∧ (sl.wgOf ws).isSome = true ∧ gl.act ≠ [] ∧ Full gl [(1, false, vp 4)] ∧ sl.released ws shl gl.act .wg = true ∧
    (List.replicate 64 0#64).length = 64 ∧ wg.dq.length < 64 ∧ (placeGroup none [some shl]).popWait.filter (placeGroup none [some shl]).waits = [] ∧
    ({ wg with sheets := [some shl, some { shl with fills := [⟨9, .dqpop, v 6, [⟨0, 0#64, .ok (.spad 0 0) true, false, none⟩], 0#32, 0#96⟩] }] } :
      Workgroup).popWait.filter ({ wg with sheets := [some shl, some { shl with fills := [⟨9, .dqpop, v 6, [⟨0, 0#64, .ok (.spad 0 0) true, false, none⟩],
        0#32, 0#96⟩] }] } : Workgroup).waits = [(1, 9)] := by decide
/-- W1 to W4 hold an output at 0, the scale 1.0, the threshold 2.0 and a side list at 64; W2 to W5 begin with a misaligned address. -/
theorem witness_CvtqQueuesItsEncodedBlocks : Ready sl ws shl ctl [(1, false, v 1), (2, true, u 1)] ∧
    (rdQuad gl (u 1) 0).map (·.toNat) = [0, 0x3F80, 0x40000000, 64] ∧ al1.outside 0#64 40 = false ∧ al1.outside 64#64 4 = false ∧ 40 ≤ 64 ∧
    2 ^ 16 ≤ (((rdQuad gl (u 2) 0).map (·.toNat)).getD 1 0) ∧ shl.lcc < 255 ∧ shl.sqRoom = true := by decide
theorem witness_CVTQ_elements : (List.replicate 32 (⟨.fin false 1 0, .rne, false⟩ : QIn)).length = 32 ∧ bf16.value 0x3F80 = .fin false (127 + 1) (-7) ∧ bf16.value 0x7F80 = .inf false ∧ (bf16.value 0x7FC0).isNan = true ∧
    isOutlier (quotient (.fin false 0 0) (bf16.value 0x3F80)) (.inf false) = false := by decide
/-- Lane addresses of the words of device memory, as pairs: V0 translates, V2 is misaligned, V4 lies past the address space, V6 misses, V8 has no
permission, V10 lies in host memory. -/
def shd : Sheet := sheet [lane [(0, 0x10000), (2, 0x10001), (3, 0), (4, 0), (5, 0x10000), (6, 0x90000), (7, 0), (8, 0x20000), (10, 0x30000), (12, 1), (13, 0x80000000), (14, 0)]]
def tlbd : List TlbEntry := [⟨0x10000, BitVec.ofNat 64 (2 ^ 32 + 0x2000000), 65536, true, true, true, false, 0#2, 0#2⟩,
  ⟨0x20000, BitVec.ofNat 64 (2 ^ 32 + 0x2000000), 65536, false, false, true, false, 0#2, 0#2⟩,
  ⟨0x30000, 0x8000000000010000#64, 65536, true, true, false, false, 0#2, 0#2⟩]
def sd : State := (onSheet shd).modCore 0 fun k => { k with tlb := tlbd }
def gd : Grp := Grp.of ws shd 0 ctl
/-- The same with a store queue that is full. -/
def shdf : Sheet := { shd with sq := List.replicate 64 ⟨1, .cwb, [], false, 0#32, 0#96⟩ }

theorem witness_DeviceAccessesIssueJoinOrTrap : Ready sd ws shd ctl [(1, false, vp 0), (2, false, im 0)] ∧ (∀ co, ws ≠ .handler co 2) ∧
    sd.translate 0 .read (ea sd gd (vp 0) (im 0) 0) = .ok (.dev (2 ^ 32 + 0x2000000)) false ∧
    sd.outstanding 0 + gd.act.length ≤ 1024 ∧ 0 < sd.cores.length := by
  refine ⟨by decide, fun _ => by simp [ws], by decide, by decide, by decide⟩
theorem witness_PREF_of_a_live_line : ({ sd with dram := { sd.dram with live := [(4227074, true)] } }.prefable (.dev (2 ^ 32 + 0x2000000))).isSome = true := by
  decide
theorem witness_DeviceAccesses_that_reach : Reaches sd ws false .read 4 true (ea sd gd (vp 0) (im 0)) [0] ∧
    Reaches sd ws false .write 4 true (ea sd gd (vp 0) (im 0)) [0] ∧ shd.sqRoom = true ∧ sd.released ws shd gd.act .dev = true ∧
    shdf.sqRoom = false ∧ Full gd [(0, false, v 12)] ∧ CanTrap sd gd ∧ accBw .plain = false := by
  unfold Reaches CanTrap
  refine ⟨⟨by decide, ?_, .inr fun _ => by simp [ws]⟩, ⟨by decide, ?_, .inr fun _ => by simp [ws]⟩, by decide, by decide, by decide +kernel, by decide, by decide, by decide⟩ <;>
  · intro k hk
    obtain rfl : k = 0 := by simpa using hk
    exact ⟨_, _, rfl⟩
theorem witness_DeviceAccesses_that_do_not : let va (i : Nat) := ea sd gd (vp i) (im 0)
    misaligned 4 (va 2) [0] ≠ [] ∧ misaligned 4 (va 4) [0] = [] ∧ 2 ^ 48 ≤ (va 4 0).toNat ∧
    misaligned 4 (va 8) [0] = [] ∧ (va 8 0).toNat < 2 ^ 48 ∧ sd.resolve ws false .read 4 (va 8 0) = .perm ∧
    sd.resolve ws false .write 4 (va 8 0) = .perm := by decide
theorem witness_DeviceAccesses_that_miss : let va := ea sd gd (vp 6) (im 0)
    Full gd [(1, false, vp 6), (2, false, im 0)] ∧ sd.resolve ws false .read 4 (va 0) = .miss ∧ sd.resolve ws false .write 4 (va 0) = .miss ∧
    0 < sd.cores.length ∧ (sd.core 0).misses.length + gd.act.length ≤ 256 ∧ (va 0).toNat % 4 = 0 ∧ (va 0).toNat < 2 ^ 48 := by decide
theorem witness_RowWordsAskTheControllers : Ready sd ws shd ctl [(1, false, vp 0), (2, false, im 0)] ∧
    (sd.owner (sd.ownerId ws)).isSome = true ∧ CanTrap sd gd ∧ shd.sqRoom = true ∧
    (gd.act.filter fun k => !chunkStart sd.variant (targetOf sd ws false .write (ea sd gd (vp 0) (im 0) k))) = [] ∧
    (gd.act.filter fun k => !chunkStart sd.variant (targetOf sd ws false .write (ea sd gd (vp 2) (im 0) k))) ≠ [] ∧
    (gd.act.filter fun k => match sd.resolve ws false .read 1 (ea sd gd (vp 10) (im 0) k) with
      | .ok (.dev _) _ => false
      | .miss => false
      | _ => true) ≠ [] := by unfold CanTrap; decide
theorem witness_ReachesDevice : ReachesDevice sd ws false .read (ea sd gd (vp 0) (im 0)) gd.act ∧
    ReachesDevice sd ws false .write (ea sd gd (vp 0) (im 0)) gd.act := by
  refine ⟨⟨?_, .inr fun _ => by simp [ws]⟩, ⟨?_, .inr fun _ => by simp [ws]⟩⟩ <;>
  · intro k hk
    obtain rfl : k = 0 := by
      have h : gd.act = [0] := by decide
      simpa [h] using hk
    exact ⟨_, _, rfl⟩
theorem witness_AtomicsFollowTheirOrderAndOperation : Ready sd ws shd ctl [(1, false, vp 0), (2, false, v 12), (3, false, atomNewOpd (.ty .uint32))] ∧
    returns .none = false ∧ returns (v 6) = true ∧ shd.sqRoom = true ∧ shd.lcc < 255 ∧
    pastEnd (sd.alloc ws) 4 (atomVa sd gd .none (vp 14)) gd.act = [] ∧ misaligned 4 (atomVa sd gd .none (vp 14)) gd.act = [] ∧
    shd.sq = [] ∧ shd.quiet gd.act = true ∧ sd.released ws shd gd.act .dev = true ∧ shdf.sq ≠ [] ∧ elemFmt .uint32 = none ∧ elemFmt .int64 = none ∧
    Elem.uint32.bits = 32 ∧ Elem.int64.bits = 64 ∧ (0xFFFFFFFF#64).toNat < 2 ^ 32 := by decide
theorem witness_atomics_that_reach : Reaches sd ws false .atomic 4 true (atomVa sd gd .none (vp 0)) gd.act := by
  refine ⟨by decide, ?_, .inr fun _ => by simp [ws]⟩
  intro k hk
  obtain rfl : k = 0 := by
    have h : gd.act = [0] := by decide
    simpa [h] using hk
  exact ⟨_, _, rfl⟩
/-- The counts 1, 2^31 and 0; an object at 0 and AUTOEXIT objects below four. -/
theorem witness_BarriersAndWaitsStandAtTheirObject : Ready sd ws shd ctl [(0, false, v 12), (1, false, v 14), (2, false, im 0)] ∧
    (sd.alloc ws).outside (ea sd gd (v 14) (im 0) 0) 16 = false ∧ (ea sd gd (v 14) (im 0) 0).toNat % 16 = 0 ∧ shd.lcc < 255 ∧
    shd.sqRoom = true ∧ rd sd gd false (v 12) 0 = 1#32 ∧ 2 ^ 31 ≤ (rd sd gd false (v 13) 0).toNat ∧ rd sd gd false (v 14) 0 = 0#32 ∧
    (∀ k ∈ gd.act, (shd.lane k).pend = false) ∧ shd.sq = [] ∧ (∀ k ∈ gd.act, shd.loadsDone sd.nextId k = true) ∧ ([] : List Nat).length < 4 ∧
    sd.translate 0 .read (rd64 sd gd (vp 0) 0) = .ok (.dev (2 ^ 32 + 0x2000000)) false := by decide
theorem witness_ARRIVE_CHECK : (BarObj.check ⟨2#32, 7#32, false, false, 0#32⟩).2 = true ∧ (2#32 : Word) ≠ 0#32 := by decide
theorem witness_image_of_an_object : ∀ i, i < 16 → (sd.core 0).imageByte (0 + i) = ((BarObj.bytes (BarObj.mk 0#32 0#32 false false 0#32))[i]?).getD 0#8 := by decide
/-- A front-end thread: S8 to S15 hold an MLOOP's descriptor of 16 rows, 16 columns and 64 positions, S16 to S23 an AOUT's of 16 rows and columns to
offset 0, S24 the format word of INT8, S25 one, S26 zero, S28 and S30 a translated and a host address, S32 and S33 a local source and a length. -/
def fr : Sheet :=
  front [(8, 16), (9, 16), (10, 64), (11, 0), (12, 0), (13, 64), (14, 0), (15, 0), (16, 0), (17, 16), (18, 16), (19, 0), (20, 16), (21, 0),
    (22, 0xFFFFFFFF), (23, 0), (24, 0x944), (25, 1), (26, 0), (27, 64), (28, 0x10000), (29, 0), (30, 0x100), (31, 0x80000000), (32, 512), (33, 0), (34, 128)]
def sf : State := onFront fr
def gf : Grp := Grp.of wf fr 0 ctl
/-- Its workgroup has counted an arrival with the format word. -/
def wgf : Workgroup := { placeGroup (some fr) [some (sheet [])] with orc := 1, agw := some 0x944#32 }
def sfm : State := { one (core wgf) with cur := some (wf, 0) }

theorem witness_MatrixWordsJoinTheQueue : Ready sfm wf fr ctl (descSrcs (u 8) ++ [(2, false, u 24), (3, false, u 25)]) ∧ sfm.wgOf wf = some wgf ∧
    mloopDescOk 16#32 16#32 64#32 0#32 0#32 64#32 0#32 0#32 = true ∧ fwOk 0x944#32 = true ∧ bOutside 65536 1 64 0 0 0x944#32 = false ∧
    sfm.mouldMax wf = 65536 ∧ aOutside wgf.spadSize 1 16 64 0 64 0 0x944#32 = none ∧ 0 + 16 ≤ sfm.accMax wf ∧ ¬ (16 ≤ (sfm.core 0).mq.length) ∧
    wgf.orc = 1 ∧ wgf.agw = some 0x944#32 ∧ Full gf [(1, false, u 26), (2, false, u 25)] ∧ Full gf (descSrcs (u 16)) ∧
    aoutDescOk 0#32 16#32 16#32 0#32 16#32 0xFFFFFFFF#32 0#32 (outBytes .e4m3) = true ∧ 0 + 15 * 16 + 16 * outBytes .e4m3 ≤ wgf.spadSize := by decide
theorem witness_MRDY_and_MSYNC : Ready s1 ws sh1 ctl [(1, false, v 1)] ∧ (s1.wgOf ws).isSome = true ∧ g1.inHandler = false ∧
    (∀ k ∈ g1.act, rd s1 g1 false (v 1) k = 12#32) ∧ sh1.sq = [] ∧ s1.flights = [] ∧ CanTrap s1 g1 ∧ s1.wgSlot ws = some 0 ∧
    msyncMet (s1.core 0) 0 (placeGroup none [some sh1]) 0#32 = true ∧ msyncMet (s1.core 0) 0 (placeGroup none [some sh1]) 5#32 = false := by
  unfold CanTrap; decide
theorem witness_ArrivalsTicketsAndStepsOfTheMatrix : (16 : Nat) ≤ 256 ∧ stepLen 0x944#32 64 0 ≠ 0 ∧ fwA 0x944#32 = 4 ∧ fwA 0x800#32 ≠ 4 ∧
    fwB 0x800#32 ≠ 5 ∧ shd.quiet [0] = true := by decide
theorem witness_CopiesAndTransformsQueueAfterTheirChecks : Ready sf wf fr ctl [(0, false, u 26), (1, false, u 28), (2, false, u 27)] ∧ 0 < sf.cores.length ∧
    copyCheck .ds none .b8 (sf.flowOn 0 3) (rd64 sf gf (up 32) 0) (rd64 sf gf (up 28) 0) 64#64 (sf.alloc wf) none (sf.mouldMax wf) = none ∧
    ((sf.core 0).channel 3).q.length < 8 ∧ 3 < (sf.core 0).channels.length ∧
    Full gf [(0, false, u 27), (1, false, u 34), (2, false, u 26), (3, false, u 25)] ∧ sf.wgSlot wf = some 0 ∧
    (rd sf gf false (u 27) 0).toNat % 64 = 0 ∧ (rd sf gf false (u 34) 0).toNat % 64 = 0 ∧ (sf.alloc wf).outside 64#64 64 = false ∧
    (sf.alloc wf).outside 128#64 64 = false ∧ (sf.alloc wf).outside 0#64 16 = false ∧ (sf.core 0).xq.length < 8 := by decide
/-- Each check of COPY fails on some operands where those before it hold, and passes on others. -/
theorem witness_checks_of_COPY : let al : Alloc := ⟨0, 0, 8192⟩
    (64#64 : DWord) ≠ 0#64 ∧ (0x8000000000000100#64 : DWord).getLsbD 63 = true ∧ (0x10000#64 : DWord).getLsbD 63 = false ∧
    al.outside 8192#64 64 = true ∧ al.outside 0#64 64 = false ∧ ¬ ((3#64 : DWord).toNat % (Elem.bits .fp32 / 8) = 0) := by decide
/-- A sheet in the producer body with one entry, and one whose felt is full. -/
def genp : Gen := { gen1 with body := .producer, f := 1, y := 1, a := 2, capn := 16 }
def shp : Sheet := { sh1 with gen := some genp }
def shpf : Sheet := { sh1 with gen := some { genp with f := 16 } }
theorem witness_GeneratorsOpenMoveAndEnd : Ready (onSheet shp) ws shp ctl [(1, false, v 1), (2, false, v 2)] ∧ producing sh1 = none ∧
    producing shp = some genp ∧ genp.f + (Grp.of ws shp 0 ctl).act.length ≤ genp.capn ∧ shp.sqRoom = true ∧ genp.capn < 16 + 2 ∧
    producing shpf = some { genp with f := 16 } ∧ 0 < shp.width ∧ CanTrap s1 g1 := by unfold CanTrap; decide
theorem witness_GEND_of_a_round : let sh := { sh1 with gen := some { gen1 with f := 18, cr := 2 } }
    Stands (onSheet sh) ws 0 sh ∧ consuming sh = some { gen1 with f := 18, cr := 2 } ∧ sh.fills = [] ∧ 16 ≤ 18 - 2 ∧
    (∀ j < 2, j ∈ (Grp.of ws sh 0 ctl).grp) ∧ (Grp.of ws (sheet [lane [], { lane [] with pc := 12#32 }]) 0 ctl).grp = [0] := by decide
theorem witness_GENB : Stands s1 ws 0 sh1 ∧ CanTrap s1 g1 ∧ shp.gen.isSome = true ∧ sh1.c < 63 + 2 ∧ sh1.gen = none ∧ 8 + 2 ≤ sh1.c ∧
    Full g1 [(1, false, v 2)] ∧ (∀ j ∈ sh1.liveLanes, j ∈ g1.grp) ∧ (rd s1 g1 false (v 2) 0).toNat % 8 = 0 ∧
    (rd s1 g1 false (v 2) 0).toNat + 8 * 16 ≤ (s1.alloc ws).size := by unfold CanTrap; decide
theorem witness_GENB_with_a_lane_elsewhere : let sh := sheet [lane [], { lane [] with pc := 12#32 }]
    1 ∈ sh.liveLanes ∧ 1 ∉ (Grp.of ws sh 0 ctl).grp ∧ (sh.lane 1).pc ≠ 0#32 := by decide
theorem witness_SpawnAcceptsInLaneOrder : Ready s1 ws sh1 ctl (recordSrcs (v 1) 2) ∧ (s1.wgOf ws).isSome = true ∧ sh1.sqRoom = true ∧
    (s1.pendingCore 0).spawnRoom (placeGroup none [some sh1]) 72#32 (16, 64, 0#64) 2 = 2 := by decide
theorem witness_SPAWN_without_room : shdf.sqRoom = false := by decide +kernel
theorem witness_LaunchesBeginEndAndAreCounted : Ready s1 ws sh1 ctl [(1, false, v 9)] ∧ s1.named (s1.ownLaunch ws) (s1.ownerId ws) .launch 0 = [0] ∧
    (s1.launches.map (·.ended)) = [false] ∧ Level.launch ≠ .unit ∧ rd s1 g1 false (v 1) 0 ≠ 0#32 ∧ cntwStatus s1 ws .unit 9 = some 0xFF ∧
    cntwStatus s1 ws .launch 0 = none ∧ s1.counters.find? (fun r => r.named 1 .graph 7) = none := by decide
/-- A packet of one workgroup of one sheet of 32 registers at offset 0 of the allocation; offset 64 holds none. -/
def packet : List Byte :=
  leBytes 4 1 ++ leBytes 4 7 ++ leBytes 8 0x10000 ++ leBytes 2 0 ++ leBytes 2 0xFFFF ++ leBytes 2 1 ++ leBytes 2 1 ++ leBytes 2 1 ++ leBytes 2 1 ++
    leBytes 1 4 ++ leBytes 1 0 ++ leBytes 2 0 ++ leBytes 4 8192 ++ leBytes 28 0
def sla : State := sf.modCore 0 fun k => { k with spad := Memory.write [] 0 packet }
theorem witness_LAUNCH : Ready sla wf fr ctl [(1, false, up 32), (2, false, im 0)] ∧ sla.ownerOf wf = some placeOwner ∧
    (sla.alloc wf).outside (ea sla gf (u 26) (im 0) 0) 64 = false ∧ (ea sla gf (u 26) (im 0) 0).toNat % 64 = 0 ∧ sla.released wf fr gf.act .dev = true ∧
    (sla.core 0).outBusy 0 64 = false ∧ launchStatus placeOwner (sla.coreBytes 0 (.spad 0 0) 64) = 0 ∧
    launchStatus placeOwner (sla.coreBytes 0 (.spad 0 64) 64) = 10 ∧ (sla.core 0).launchQ.length < 16 := by decide +kernel
/-- A level-1 page handler: V0 holds an address, V2 a frame of the owner's extent, V4 the attributes of a readable 64 KiB page, V5 bad ones, V6 a
misplaced address. -/
def shh : Sheet := handler .page [lane [(0, 0x40000), (1, 0), (2, 0x2000000), (3, 1), (4, 8), (5, 4), (6, 0x40001), (8, 0)]]
def sH : State := onHandler .page shh
def gH : Grp := Grp.of wh shh 0 ctl

theorem witness_TlbWordsAndTrapAct : Ready sH wh shh ctl [(1, false, vp 0), (2, false, vp 2), (3, false, v 4)] ∧ sH.ownerOf wh = some placeOwner ∧
    atOk 8#32 = true ∧ atOk 4#32 = false ∧ 0x40000 % 0x10000 = 0 ∧ 0x40001 % 0x10000 ≠ 0 ∧ (2 ^ 32 + 0x2000000) % 0x10000 = 0 ∧
    (placeOwner.extents.any fun y => y.grants (tlbEntry (rd64 sH gH (vp 0) 0) (rd64 sH gH (vp 2) 0) 8#32)) = true ∧
    (sH.core 0).tlb.length + gH.act.length ≤ 8192 := by decide
theorem witness_traps_of_TLBW_and_TRAP : Ready s1 ws sh1 ctl [(1, false, v 1)] ∧ CanTrap s1 g1 ∧ sh1.liveLanes = [0, 1] := by unfold CanTrap; decide
/-- Front-end code selects a window; it has one window, number 0. -/
theorem witness_SwrWritesSpecialRegisters : Ready sf wf fr ctl [(1, false, u 26)] ∧ Spec.mayWrite 0x90 wf = false ∧ CanTrap sf gf ∧
    Spec.mayWrite 0x8C wf = true ∧ Spec.mayWrite 0x8F wf = true ∧ Spec.mayWrite 0x9C wf = true ∧ Spec.reserved 0x8C 4#32 = false ∧ Spec.reserved 0x8C 5#32 = true ∧
    (sf.wgOf wf).isSome = true ∧ sf.ownerOf wf = some placeOwner ∧ Spec.reserved 0x9C 0x80000000#32 = false ∧ Spec.reserved 0x9C 0x100#32 = true ∧ placeOwner.window 1#4 = none ∧
    (placeOwner.window 0#4).map (·.shared) = some false ∧ (0x80000000#32 : Word).getLsbD 31 = true ∧ sf.released wf fr gf.act .dev = true := by
  unfold CanTrap; decide
theorem witness_SWR_of_a_shared_window : (({ placeOwner with windows := [⟨512, 512, false, 0, true, true, 0xFF#8, 0xFF#8, 0x1F#5⟩] } : Owner).window 0#4).map
    (fun wd => wd.shared) = some true ∧ (1#32 : Word).getLsbD 31 = false ∧ Spec.reserved 0x9C 1#32 = false := by decide
/-- An emulation handler of a word that writes V7 of lane 0 of the sheet, and of one that traps again. -/
def hE : Handler := { handlerOf .extemu (handler .extemu [lane [(1, 5)]]) with ev := { placeEvent with cause := .extemu, word := 0x380000000000000#96 } }
def sE : State := (onHandler .extemu hE.sheet).modCore 0 fun k => { k with h1 := some hE }
theorem witness_HandlersReturnAndMend : Ready sE wh hE.sheet ctl [(1, false, v 1)] ∧ (sE.core 0).handler 1 = some hE ∧ hE.ev.who = ws ∧
    (sE.sheetAt ws).isSome = true ∧ hE.ev.cause = .extemu ∧ hE.ev.of = none ∧ opdPart (v 1) ≠ .pair ∧
    (∀ k ∈ (Grp.of wh hE.sheet 0 ctl).act, k < 16) ∧ mendField (fFd hE.ev.word) = some (.v false .full 7#8) := by decide
theorem witness_RFH : modeOk hE.ev .plain = true ∧ rfhReady (Grp.of wh hE.sheet 0 ctl) = true ∧ hE.ev.cause ≠ .save ∧ RfhMode.plain ≠ .fail ∧
    isTransfer hE.ev.word = false ∧ isTrlr hE.ev.word = false ∧ (sE.sheetAt ws).map (·.gen) = some none ∧
    rfhReady (Grp.of wh (handler .page [lane [], { lane [] with pc := 12#32 }]) 0 ctl) = false := by decide
theorem witness_WordsLeaveMemoryToTheirQueues : isEvent (.iadd ctl .i32 false (v 3) (v 1) (v 2)) = false ∧
    reachesMemory (.iadd ctl .i32 false (v 3) (v 1) (v 2)) = false ∧
    next (exec (.iadd ctl .i32 false (v 3) (v 1) (v 2)) s1) (fun _ => ()) = some () := by decide

/-- A load of the scratchpad and one of device memory in flight. -/
def fl : Fill := ⟨5, .ldl .b32, v 4, [⟨0, 16#64, .ok (.spad 0 16) true, false, none⟩], 0#32, 0#96⟩
def fd : Fill := ⟨5, .ld .b32 .plain, v 4, [⟨0, 0x10000#64, .ok (.dev (2 ^ 32 + 0x2000000)) false, false, none⟩], 0#32, 0#96⟩
/-- The sheet with V4 empty for producer 5 in lane 0. -/
def shl4 : Sheet :=
  { shl with lanes := shl.lanes.modify 0 fun t => { t with v := SMap.set Reg.zero t.v 4 ⟨0#32, [⟨5, none⟩]⟩ } }
def shlf : Sheet := { shl4 with fills := [fl] }
def shdl : Sheet := { shl4 with fills := [fd] }
/-- The same load behind the sheet's own store to its bytes. -/
def shlq : Sheet := { shlf with sq := [⟨4, .stl, [⟨0, 16#64, .ok (.spad 0 16) true, false, false, leBytes 4 7, []⟩], true, 0#32, 0#96⟩] }
theorem witness_AnswersFillTheirDestination : (onSheet shlf).sheetAt ws = some shlf ∧ shlf.openFill 5 0 = some (fl, ⟨0, 16#64, .ok (.spad 0 16) true, false, none⟩) ∧
    shlf.alive 0 = true ∧ (onSheet shlf).loadMay ws shlf 5 0 = true ∧ ((onSheet shlf).core 0).outBusy 16 4 = false ∧
    shlf.forward .x48 5 0 (.spad 0 16) 16#64 4 = .pass ∧ shlq.forward .x48 5 0 (.spad 0 16) 16#64 4 = .bytes (leBytes 4 7) ∧
    shdl.openFill 5 0 = some (fd, ⟨0, 0x10000#64, .ok (.dev (2 ^ 32 + 0x2000000)) false, false, none⟩) ∧ (onSheet shdl).loadMay ws shdl 5 0 = true ∧
    shdl.forward .x48 5 0 (.dev (2 ^ 32 + 0x2000000)) 0x10000#64 4 = .pass ∧ (onSheet shdl).engineHolds (.dev (2 ^ 32 + 0x2000000)) 4 = false ∧
    (onSheet shdl).poisonedAt (.dev (2 ^ 32 + 0x2000000)) 4 = false ∧ (Target.dev (2 ^ 32 + 0x2000000)).charged = true ∧
    (onSheet shdl).mayRequest ws (.dev (2 ^ 32 + 0x2000000)) = true ∧ (onSheet shdl).firstMisses 0 = false ∧
    ((onSheet shdl).core 0).hintF 0x10000#64 = false := by decide
/-- A store of the scratchpad and one of device memory at the head of the queue; a store on its way home. -/
def eS : SqEntry := ⟨4, .stl, [⟨0, 16#64, .ok (.spad 0 16) true, false, false, leBytes 4 7, []⟩], true, 0#32, 0#96⟩
def eD : SqEntry := ⟨4, .st none false, [⟨0, 0x10000#64, .ok (.dev (2 ^ 32 + 0x2000000)) false, false, false, leBytes 4 7, []⟩], false, 0#32, 0#96⟩
def shS : Sheet := { shl with sq := [eS] }
def shD : Sheet := { shl with sq := [eD] }
def fT : Flight := ⟨3, 4, 0, ws, 0, 0x10000#64, .dev (2 ^ 32 + 0x2000000), leBytes 4 7, 1#64, 1, false, 0#32, 0#96⟩
def sT : State := { s1 with flights := [fT] }
theorem witness_StoresWriteTheirBytesAndNoOthers : (onSheet shS).sheetAt ws = some shS ∧ shS.openHead 0 = some (eS, ⟨0, 16#64, .ok (.spad 0 16) true, false, false, leBytes 4 7, []⟩) ∧
    shS.mayAccept eS 0 = true ∧ shD.mayAccept eD 0 = true ∧ (onSheet shD).mayAdd 0 1 = true ∧ 16 + (leBytes 4 7).length ≤ 0x800000 ∧ (onSheet shS).generators 0 = [] ∧ (∀ k < 16, (shS.lane k).wait = .ready) ∧
    shD.openHead 0 = some (eD, ⟨0, 0x10000#64, .ok (.dev (2 ^ 32 + 0x2000000)) false, false, false, leBytes 4 7, []⟩) ∧
    (onSheet shD).poisonedAt (.dev (2 ^ 32 + 0x2000000)) 4 = false ∧ (onSheet shD).mayRequest ws (.dev (2 ^ 32 + 0x2000000)) = true ∧
    releaseOpen (onSheet shD) ws eD none = false := by decide
theorem witness_a_store_at_home : sT.flights[0]? = some fT ∧ fT.dead = false ∧ sT.earlier 0 3 fT.target 4 = false ∧ sT.overtakes ws fT.entry 0 fT.target fT.va 4 = false ∧ sT.poisonedAt fT.target 4 = false ∧
    sT.bankDelayed 1 fT.target = false ∧ fT.bytes.length ≤ 16 ∧
    (∀ i, i < 4 → (sT.place (2 ^ 32 + 0x2000000 + i)).map (fun q => (q.cell, q.rowKey)) = some (4328523776 + i, 4227074)) := by decide
/-- An atomic on a host word, and a monitor with a value. -/
def eA : EngineOp := ⟨3, 0, ws, 0, 0#64, 3, some 5, .host 64, ⟨.add, some .uint32, false⟩, leBytes 4 7, [], 1#64, 1, .rlx, .dev, 0#32, 0#96⟩
def fA : Fill := ⟨5, .atom, v 4, [⟨0, 0#64, .ok (.host 64) true, false, none⟩], 0#32, 0#96⟩
def fM : Fill := ⟨5, .mwait false [(0, 0#64)] true .dev, v 4, [⟨0, 0#64, .ok (.dev 64) true, false, none⟩, ⟨1, 0#64, .ok (.dev 64) true, false, none⟩], 0#32, 0#96⟩
theorem witness_AtomicsReturnTheOldValue : let s := { onSheet { shl4 with fills := [fA] } with engine := [eA] }
    let sm := { onSheet { shl4 with fills := [fM] } with monitors := [⟨0, ws, 0, 5, 64, false, 0#64, true, some 7#64, true, .dev⟩] }
    s.engine[0]? = some eA ∧ s.overtakes ws eA.entry 0 eA.target eA.va 4 = false ∧ s.earlier 0 3 (.host 64) 4 = false ∧ ({ shl4 with fills := [fA] } : Sheet).openFill 5 0 = some (fA, ⟨0, 0#64, .ok (.host 64) true, false, none⟩) ∧
    ({ shl4 with fills := [fA] } : Sheet).alive 0 = true ∧ sm.monitors.map (·.hit) = [some 7#64] ∧
    ({ shl4 with fills := [fM] } : Sheet).openFill 5 0 = some (fM, ⟨0, 0#64, .ok (.dev 64) true, false, none⟩) ∧ shl.gen = none ∧ scopeFar .dev = true ∧
    (fM.lanes.any fun y => y.lane != 0 && !y.done) = true ∧ (fA.lanes.all fun y => y.lane == 0 || y.done) = true := by decide
def fR : Fill := ⟨5, .madr, .v false .pair 4#8, [⟨0, 0#64, .ok (.dev (2 ^ 32 + 0x2000000)) true, false, none⟩], 0#32, 0#96⟩
theorem witness_PromotionsKeepQuotasAndPins : let sh := { shl with fills := [fR], gen := none }
    (onSheet sh).sheetAt ws = some sh ∧ sh.fills = [fR] ∧ fR.kind = .madr ∧
    (LaneReq.place (onSheet sh) ((onSheet sh).ownerId ws) ⟨0, 0#64, .ok (.dev (2 ^ 32 + 0x2000000)) true, false, none⟩).isSome = true := by decide
/-- A core with an event, one with a missed page, and one whose level-1 handler is frozen by a missed page. -/
def sV : State := s1.modCore 0 fun k => { k with events := [{ placeEvent with cause := .extemu }] }
def mr (w : Where) : MissReq := ⟨w, 0, 0x90000#64, 1, 1, .word, 0#32, 0#96⟩
def sW : State := s1.modCore 0 fun k => { k with misses := [⟨9, [mr ws]⟩] }
def sW2 : State := sH.modCore 0 fun k => { k with misses := [⟨9, [mr wh]⟩], h1 := k.h1.map fun h => { h with frozen := true } }
theorem witness_TrapsAndHandlersFollowTheirEvents : (sV.core 0).stall = none ∧ (sV.core 0).owner = some 1 ∧ sV.owner 1 = some placeOwner ∧ 0 < sV.cores.length ∧
    (sV.core 0).h1 = none ∧ (sV.core 0).events.map (·.cause) = [.extemu] ∧ (sV.core 0).misses = [] ∧ (sW.core 0).misses ≠ [] ∧ (sW.core 0).h1 = none ∧
    ((sW.core 0).misses.map (·.page)).Nodup ∧ (∀ m ∈ (sW.core 0).misses, ∀ r ∈ m.reqs, r.ofHandler = false) ∧
    ((sW2.core 0).h1.map (·.frozen)) = some true ∧ (sW2.core 0).h2 = none ∧ ((sW2.core 0).misses.all fun m => m.reqs.any MissReq.ofHandler) = true := by decide
theorem witness_frames_stand_in_one_row : ((List.range 128).all fun i => decide (((sV.place (frameAt placeOwner 0 1 + i)).map fun q => (q.cell, q.rowKey)) =
    (sV.place (frameAt placeOwner 0 1)).map fun q => (q.cell + i, q.rowKey)) && (sV.place (frameAt placeOwner 0 1 + i)).isSome) = true := by decide +kernel
theorem witness_takeTrap : (s1.sheetAt ws = some sh1 ∧ g1.inHandler = false ∧ (s1.core 0).eventRoom = true) ∧
    (sH.sheetAt wh = some shh ∧ gH.inHandler = true ∧ wh = .handler 0 1) ∧
    (Core.eventRoom { s1.core 0 with events := List.replicate 64 placeEvent }) = false := by decide +kernel
theorem witness_StallsResumeOrEnd : let s := sH.modCore 0 fun k => { k with stall := some 1 }
    (s.core 0).stall = some 1 ∧ (s.core 0).switch = none ∧ ((s.core 0).handler 1).map (fun h => (h.sheet.fills, h.sheet.sq)) = some ([], []) ∧
    (s.core 0).owner = some 1 ∧ s.launchesOn 0 = [0] ∧ s.launches.map (·.ended) = [false] := by decide
/-- A COPY of 64 bytes between two places of the scratchpad of rank 0, queued and started. -/
def jc : CopyJob :=
  { id := 3, who := wf, lane := 0, kind := .sq, conv := none, rnd := .rne, sat := false, f := .b8, dst := 256#64, src := 0#64, len := 64, got := 0,
    peerCore := 0, peerBase := 0, base := 0, started := false, held := none, flags := 0#32, pc := 0#32, word := 0#96, issuer := true }
def sC (j : CopyJob) : State := sf.modCore 0 fun k => { k with channels := k.channels.set 3 ⟨[j], 0#64⟩ }
theorem witness_copies_that_deliver : let j := { jc with started := true }
    ((sC j).core 0).channel 3 = ⟨[j], 0#64⟩ ∧ j.srcAt (sC j) 0 0 = .ok (.spad 0 0) true ∧ j.dstAt (sC j) 0 0 = .ok (.spad 0 256) true ∧
    (sC j).poisonedAt (.spad 0 0) 1 = false ∧ (sC j).inFlight 0 (.spad 0 256) 1 = false ∧ copyDry (sC j) j (.spad 0 0) = false ∧
    copyDry (sC j) j (.spad 0 256) = false ∧ (sC j).engineHolds (.spad 0 0) 1 = false ∧ ((sC j).core 0).outBusy 0 1 = false ∧ 0 < (sC j).cores.length ∧ (sC j).generators 0 = [] ∧
    j.kind ≠ .sm ∧ j.held = none ∧ j.conv = none := by decide
theorem witness_copies_that_start_or_wait : ((sC jc).core 0).channel 3 = ⟨[jc], 0#64⟩ ∧ copyFree (sC jc) jc = true ∧
    copyFree ((sC jc).putSheet wf { fr with sq := [{ eS with id := 2 }] }) jc = false := by decide
/-- A matrix queue with an entry not begun, and a begun last step of each kind. -/
def me (op : MatrixOp) (next : Nat) (begun : Bool) : MatrixEntry := ⟨0, 1, op, .rne, false, next, begun, false, 0#32⟩
def sM (e : MatrixEntry) : State := sf.modCore 0 fun k => { k with mq := [e] }
theorem witness_MatrixEntriesPerformInTurn : (∀ e ∈ [me (.aclr 0 4) 0 false, me (.aclr 0 4) 1 true, me (.mloop 1 16 16 64 0 0 64 0 0 0 0x944#32) 0 true,
      me (.aout 0 16 16 0 16 0#32 0xFFFFFFFF#32 false .e4m3 false) 15 true],
      ((sM e).core 0).mq = [e] ∧ (((sM e).core 0).wg 0).map (fun g => g.front) = some (some fr)) ∧ 0 < fr.lanes.length ∧ 1 ≤ 4 ∧ 1 = 0 + 1 ∧ 16 = 15 + 1 ∧
    sf.generators 0 = [] ∧ (fr.lane 0).wait = .ready := by decide
theorem witness_AOUT_row : (0 + 0 + 15 * 16) + (aoutRow (sf.core 0) ((sf.core 0).seen 0) 0 15 2 0#32 0xFFFFFFFF#32 false .e4m3 false .rne false).1.length ≤ 0x800000 := by decide
/-- A transpose of four bytes at 128 into 256, its records at 1024 and 1088 and its barrier at 1152. -/
def record (base fmt : Nat) : List Byte :=
  leBytes 4 base ++ [1#8, BitVec.ofNat 8 fmt, 0#8, 0#8] ++ leBytes 4 4 ++ leBytes 16 0 ++ leBytes 4 1 ++ leBytes 16 0 ++ leBytes 16 0
def jx : XfJob := ⟨0, .transpose, .rne, false, 1024, 1088, 1152, 0, true⟩
def sX (j : XfJob) : State := sf.modCore 0 fun k => { k with xq := [j], spad := Memory.write (Memory.write (Memory.write [] 128 [1#8, 2#8, 3#8, 4#8]) 1024 (record 256 7)) 1088 (record 128 7) }
theorem witness_CopiesAndTransformsDeliver : ((sX jx).core 0).xq = [jx] ∧ (((sX jx).core 0).wg 0).map (fun g => (g.spadBase, g.spadSize)) = some (0, 8192) ∧
    (sX jx).generators 0 = [] ∧ 1024 + 64 ≤ 8192 ∧ 1152 + 16 ≤ 8192 ∧ 1024 + 64 ≤ 1152 ∧ jx.started = true ∧
    (readRec ((sX jx).core 0).spad 1024).isQ = false ∧ (readRec ((sX jx).core 0).spad 1024).ok = true ∧ (readRec [] 1024).ok = false ∧
    (let o := xRun jx (((sX jx).core 0).seen (sX jx).free) 0 8192
     o.count = 4 ∧ o.code = 0 ∧ xBlur (((sX jx).core 0).seen (sX jx).free) 0 jx o = false ∧ (∀ w ∈ o.writes, rangesMeet w.1 w.2.length 1152 16 = false) ∧
     o.writes.Pairwise (fun x y => rangesMeet x.1 x.2.length y.1 y.2.length = false)) := by decide +kernel
/-- A store queue whose head is a SPAWN's entry of one record; a bin of its key, an unfinished one and a full one. -/
def eP : SqEntry := ⟨4, .spawn 24#32 16 64 0#64, [⟨0, 0#64, .ok (.spad 0 0) true, false, false, leBytes 32 5, []⟩], false, 0#32, 0#96⟩
def shP : Sheet := { shl with sq := [eP] }
def gP : Workgroup := placeGroup none [some shP]
def bin (n : Nat) : Bin := ⟨0, 0, 24#32, 16, 64, 0#64, List.replicate n ⟨List.replicate 8 1#32, none⟩, false⟩
def sP (bs : List Bin) : State := { one { core gP with bins := bs } with cur := some (ws, 0) }
theorem witness_SpawnedRecordsBecomeSheets : (sP []).sheetAt ws = some shP ∧ shP.sq = [eP] ∧ eP.lanes ≠ [] ∧ (sP []).wgSlot ws = some 0 ∧ ((sP []).core 0).wg 0 = some gP ∧
    (∀ x ∈ eP.lanes, shP.mayAccept eP x.lane = true) ∧ ((sP []).core 0).vatUsed + 1 ≤ 16384 ∧ (sP [bin 1]).core 0 ≠ (sP []).core 0 ∧
    (bin 1).accepts gP 0 0 24#32 16 64 0#64 = true ∧ { bin 1 with expired := true }.accepts gP 0 0 28#32 16 64 0#64 = false ∧ ([] : List Bin).length < 64 := by decide
theorem witness_bins : (bin 1).recs ≠ [] ∧ (bin 0).recs = [] ∧ ((sP [bin 16]).core 0).binSlot (bin 16) = some 0 ∧ gP.freeSheet = some 1 ∧
    (bin 16).width ≤ (bin 16).recs.length ∧ ((sP [bin 16]).core 0).switch = none ∧ ((sP [bin 16]).core 0).quadFits 1 [(16, 64)] = true ∧
    (bin 1).recs.length < (bin 1).width ∧ (bin 1).expired = false ∧ { bin 1 with expired := true }.expired = true := by decide
/-- A sheet without lane, alone in its workgroup and beside another. -/
def she0 : Sheet := sheet []
theorem witness_SheetsEndAndWaitingGroupsGoOn : wCore ws = 0 ∧ wSlot ws = some 0 ∧ (onSheet she0).sheetAt ws = some she0 ∧ she0.isOver = true ∧ sh1.isOver = false ∧
    (onSheet she0).unitOver 0 0 ((placeGroup none [some she0]).drop ws) = true ∧ ((onSheet she0).launches.map (·.ended)) = [false] ∧
    ((one (core (placeGroup none [some she0, some sh1]))).sheetAt (.sheet 0 0 1)) = some sh1 ∧
    (sh1.lane 0).canIssue = true ∧ (sh1.lane 0).slot = none ∧ eligible sh1 0 = true ∧ shc.localDone = false ∧ shl.localDone = true := by decide
theorem witness_lanes_that_wait : let sh := sheet [{ lane [] with wait := .stalled .drained }, { lane [] with wait := .blocked .lwait }]
    (onSheet sh).stallOver ws sh .drained = true ∧ (onSheet shP).stallOver ws shP .drained = false ∧
    (sh.lane 0).live = true ∧ (sh.lane 0).wait = .stalled .drained ∧ (sh.lane 1).live = true ∧ (sh.lane 1).wait = .blocked .lwait := by decide
theorem witness_GeneratorsSwitchBodies : let gs := { genp with body := .switching, f := 16 }
    let gr := { genp with resume := true, frozen := [(0, lane []), (1, { lane [] with wait := .stalled .drained })] }
    (onSheet { sh1 with gen := some gs }).sheetAt ws = some { sh1 with gen := some gs } ∧ roundReady { sh1 with gen := some gs } = true ∧ gs.frozen = [] ∧
    genp.body ≠ .switching ∧ gr.resume = true ∧ genp.resume = false ∧ (gr.frozen.find? fun x => x.1 == 0) = some (0, lane []) := by decide
/-- A second owner of higher priority, whose launch of one workgroup waits for the die of core 0. -/
def o2 : Owner := { placeOwner with id := 2, prio := 0 }
def o1 : Owner := { placeOwner with prio := 1 }
def la2 : Launch := { placeLaunch with owner := 2, unplaced := [0], pkt := { placeLaunch.pkt with launchId := 9#32 } }
def sO (f : Core → Core) : State := { s1.modCore 0 f with owners := [o1, o2], launches := [placeLaunch, la2] }
def keep (k : Core) : Core := k
theorem witness_CoresPassFromOwnerToOwner : 0 < (sO keep).cores.length ∧ (sO keep).owner 2 = some o2 ∧ (sO keep).owner 1 = some o1 ∧
    ((sO keep).core 0).owner = some 1 ∧ ((sO keep).core 0).switch = none ∧ ((sO keep).core 0).stall = none ∧ (sO keep).wants o2 0 = true ∧
    (sO keep).handsOver 0 o2 = true ∧ (sO keep).coreQuiet 0 = true ∧ (sO keep).nextOwner 0 = some o2 ∧ (1 : Nat) ≠ 2 ∧
    { sO keep with launches := [] }.wants o2 0 = false ∧ ({ s1 with flights := [{ fT with target := .spad 0 0 }] } : State).coreQuiet 0 = false := by decide
def vE : Saved := ⟨1, [], none, none, [], [], [], [], [], [], none, none, [], []⟩
theorem witness_switches_of_a_core : let a := sO fun k => { k with switch := some (.saved 2), owner := none }
    let b := sO fun k => { k with h1 := some (handlerOf .page shh), quant := -20000 }
    let c := sO fun k => { k with switch := some (.saving 2), saved := some vE, h1 := some (handlerOf .page shh) }
    (a.core 0).switch = some (.saved 2) ∧ ((o2.saves.find? fun e => e.1 == 0).bind fun e => e.2.hard) = none ∧
    (b.core 0).handling = true ∧ (b.core 0).quant ≤ -20000 ∧ b.nextOwner 0 = some o2 ∧ b.coreQuiet 0 = true ∧ (-20000 : Int) < ((sO keep).core 0).quant ∧
    (c.core 0).switch = some (.saving 2) ∧ (c.core 0).saved = some vE ∧ (c.core 0).h1 ≠ none ∧ o1.freeArea = some 0 ∧ { o1 with hsaven := 0 }.freeArea = none := by
  decide
theorem witness_ticks : (sO keep).othersWant 0 = true ∧ s1.othersWant 0 = false ∧ (s1.core 0).owner = some 1 ∧ s1.owner 1 = some placeOwner ∧
    (5 : Int) - 5 ≤ 0 ∧ 0 < (s1.core 0).quant - 5 ∧ Core.reset.owner = none := by decide
/-- Four cores of owner 1, a launch with one quire that waits. -/
def laq : Launch := { placeLaunch with unplaced := [0] }
def sq4 : State := { State.reset with cores := List.replicate 4 { Core.reset with owner := some 1 }, owners := [placeOwner], launches := [laq] }
theorem witness_QuiresArePlacedAndPreempted : (sq4.waiting.find? fun v => v.launch == 0 && v.quire == 0) = some ⟨0, 0, []⟩ ∧ sq4.waiting = [⟨0, 0, []⟩] ∧
    sq4.fit ⟨0, 0, []⟩ = some [0] ∧ sq4.fit ⟨0, 0, []⟩ ≠ some [1] ∧ [0].Nodup ∧ ((sq4.core 0).room placeOwner laq.pkt) = some (0, 0, [0, 1, 2, 3]) ∧
    8 ≤ (sq4.core 0).wgs.length := by decide +kernel
/-- One core without a free slot, whose last slot's workgroup ranks below a waiting quire of its owner. -/
def gB : Workgroup := { placeGroup none [some (sheet [{ lane [] with live := false }])] with launch := 1, spadSize := 0, tagIdx := [], accRows := 0, mouldUse := 0 }
def sPre : State := { State.reset with
  queues := [{ Queue.reset with qprio := 1#32 }],
  cores := [{ Core.reset with owner := some 1, wgs := some gB :: List.replicate 7 (some { gB with launch := 2, owner := 9 }) }], owners := [placeOwner],
  launches := [{ laq with index := 0, queue := some 0, pkt := { placeLaunch.pkt with acc := 0, mould := 0 } }, { placeLaunch with index := 1, pkt := { placeLaunch.pkt with qn := 2 } },
    { placeLaunch with index := 2 }] }
theorem witness_PREEMPT : (sPre.core 0).wg 0 = some gB ∧ sPre.waiting = [⟨0, 0, []⟩] ∧ sPre.fit ⟨0, 0, []⟩ = none ∧
    ranksBelow ((sPre.rankOf ⟨0, 0, []⟩).drop 2) ((sPre.rankOf ⟨1, 0, [(0, 0)]⟩).drop 2) = true ∧ gB.portal = none ∧ sPre.memberQuiet (0, 0) = true := by decide +kernel
theorem witness_WATCHDOG : s1.launches[0]? = some placeLaunch ∧ placeLaunch.ended = false ∧ s1.resident 0 = true ∧ sq4.resident 0 = false ∧
    0 + 999999 < placeLaunch.pkt.watchdog ∧ placeLaunch.pkt.watchdog ≤ 0 + 1000000 := by decide +kernel
/-- Queue 0 of owner 1 with a ring of four packets in host memory, one packet written. -/
def qu : Queue := { Queue.reset with qbase := 0x8000000000001000#64, qsize := 2#32, qwrite := 1#32, enable := true, owner := some 1 }
def sQ (bs : List Byte) (u : Queue := qu) : State := { s1 with queues := [u], hostMem := Memory.write [] 0x1000 bs }
def off : Queue := { qu with enable := false }
theorem witness_QueueRegistersFollowTheHost : (sQ []).queues[0]? = some qu ∧ (sQ [] off).queues[0]? = some off ∧ 2 ^ (qu.qsize.toNat % 32) < (5#32 - qu.qread).toNat ∧
    (4#32 - qu.qread).toNat ≤ 2 ^ (qu.qsize.toNat % 32) ∧ (sQ [] off).owner (off.owner.getD 1) = some placeOwner ∧ off.enable = false ∧
    placeOwner.geometryOk off.qbase 2 = true ∧ placeOwner.geometryOk off.qbase 1 = false ∧ (off.qwrite - off.qread).toNat ≤ 4 ∧ qu.wait = .none ∧
    (leBytes 8 5).length = 8 ∧ (leBytes 4 5).length = 4 ∧ 0 + (leBytes 8 5).length ≤ 0x1000000 ∧ (sQ []).mgmt.bootstat = .waiting ∧ BootStat.ready ≠ .waiting := by decide
def pkt64 (xs : List Byte) : List Byte := xs ++ List.replicate (64 - xs.length) 0#8
def launchP : List Byte := packet
def fenceP : List Byte := pkt64 (leBytes 4 2 ++ leBytes 4 1 ++ leBytes 8 0x8000000000002000 ++ leBytes 4 0x14000001)
def signalP (all add : Nat) : List Byte := pkt64 (leBytes 4 3 ++ leBytes 4 (all + 2 * add) ++ leBytes 8 0x8000000000002000 ++ leBytes 8 7)
def chainP (size : Nat) : List Byte := pkt64 (leBytes 4 4 ++ leBytes 4 0 ++ leBytes 8 0x8000000000004000 ++ leBytes 4 size)
theorem witness_PacketsActInQueueOrder : (sQ launchP).packet 0 = some (placeOwner, launchP) ∧ packetOk (sQ launchP) placeOwner launchP = true ∧
    pktField launchP 0 4 = 1 ∧ packetOk (sQ []) placeOwner (pkt64 []) = false ∧ (sQ []).packet 0 = some (placeOwner, pkt64 []) ∧
    launchStatus placeOwner launchP = 0 ∧ launchStatus { placeOwner with spadMax := 0 } launchP ≠ 0 := by decide +kernel
theorem witness_FENCE_SIGNAL_and_CHAIN : packetOk (sQ fenceP) placeOwner fenceP = true ∧ (sQ fenceP).packet 0 = some (placeOwner, fenceP) ∧ pktField fenceP 0 4 = 2 ∧
    packetOk (sQ (signalP 1 1)) placeOwner (signalP 1 1) = true ∧ (sQ (signalP 1 1)).packet 0 = some (placeOwner, signalP 1 1) ∧ pktField (signalP 1 1) 4 4 % 2 = 1 ∧
    pktField (signalP 0 1) 8 8 ≥ 2 ^ 63 ∧ pktField (signalP 0 1) 0x18 8 = 0 ∧
    packetOk (sQ (chainP 2)) placeOwner (chainP 2) = true ∧ (sQ (chainP 2)).packet 0 = some (placeOwner, chainP 2) ∧
    packetOk (sQ (chainP 16)) placeOwner (chainP 16) = true ∧ pktField (chainP 1) 0x10 4 < 2 ∧ 16 < pktField (chainP 17) 0x10 4 := by decide +kernel
theorem witness_queues_that_wait : (sQ launchP { qu with wait := .serial 0 }).queues[0]? = some { qu with wait := .serial 0 } ∧
    (sQ launchP { qu with wait := .serial 0 }).launches.map (·.ended) = [false] ∧ ({ placeLaunch with ended := true } : Launch).ended = true ∧
    (sQ fenceP { qu with wait := .fence [⟨true, 0x2000, 1, 1, false⟩] }).packet 0 = some (placeOwner, fenceP) ∧
    ({ qu with launches := [0] } : Queue).launches = [0] := by decide +kernel
/-- A FLOWSET of flow 5 onto channel 3 of the workgroup with flat index 0 of launch 1, and its three companions. -/
def flowP : List Byte := pkt64 (leBytes 4 0x10 ++ leBytes 2 5 ++ leBytes 2 1 ++ leBytes 4 77 ++ [0#8, 16#8, 3#8, 0#8] ++ leBytes 4 1 ++ leBytes 4 0 ++ leBytes 4 65536)
def killP : List Byte := pkt64 (leBytes 4 0x11 ++ leBytes 2 5)
def keyP (h : Nat) : List Byte := pkt64 (leBytes 4 h ++ leBytes 1 0 ++ leBytes 3 0 ++ (if h = 0x12 then leBytes 8 0x8000000000002000 else leBytes 8 0))
/-- An owner of every key slot, and a workgroup of 128 KiB. -/
def oK : Owner := { placeOwner with keys := List.replicate 32 0xFF#8 }
def gK : Workgroup := { placeGroup none [some (sheet [])] with spadSize := 131072 }
def sK (bs : List Byte) : State := { one (core gK) with owners := [oK], queues := [qu], hostMem := Memory.write [] 0x1000 bs }
theorem witness_IngestControlBindsFlowsAndKeys : (∀ bs ∈ [flowP, killP, keyP 0x12, keyP 0x13], (sK bs).packet 0 = some (oK, bs) ∧ packetOk (sK bs) oK bs = true ∧
      packetOk { sK bs with variant := .n24 } oK bs = true) ∧
    [flowP, killP, keyP 0x12, keyP 0x13].map (fun bs => pktField bs 0 4) = [0x10, 0x11, 0x12, 0x13] ∧ (sK flowP).flowHome oK flowP = some (0, gK) ∧
    ((sK flowP).core 0).channel 3 = ⟨[], 0#64⟩ ∧ ((sC jc).core 0).channel 3 = ⟨[jc], 0#64⟩ ∧ (sK flowP).generators 0 = [] ∧ gK.spadBase + gK.spadSize ≤ 0x800000 := by
  decide +kernel
/-- A live flow of port 1 and job 77. -/
def flo : Flow :=
  { idx := 5, port := 1, job := 77, decrypt := false, ordered := false, key := 0, sizeLog := 16, ch := 3, core := 0, launch := 0, flat := 0, rbase := 65536,
    p0 := 0#64, owner := 1, lastSeq := none }
def pk (job : Nat) : IngestPkt := ⟨1, job, 9#32, leBytes 4 5⟩
theorem witness_OutsideTrafficArrives : let s := { sK [] with flows := [flo] }
    s.variant = .x48 ∧ (pk 77).port < 4 ∧ (s.flows.find? fun f => f.port == 1 && f.job == 77) = some flo ∧ (s.flows.find? fun f => f.port == 1 && f.job == 78) = none ∧
    s.flowBase flo = some 0 ∧ s.generators 0 = [] ∧ (s.core 0).outPending = false ∧ flo.ch < (s.core 0).channels.length ∧ 64 ≤ flo.rbase ∧ 0 + flo.rbase + 2 ^ flo.sizeLog ≤ 0x800000 ∧
    (pk 77).bytes.length + 31 ≤ 2 ^ flo.sizeLog ∧ 0 + 32 ≤ 0 + 2 ^ flo.sizeLog := by decide +kernel
def inb (r pa : Nat) (relaxed : Bool) : Inbound := ⟨r, relaxed, pa, [1#8], false⟩
theorem witness_inbound_writes : let s := { s1 with inbound := [inb 1 (2 ^ 32) false, inb 1 (2 ^ 32 + 256) false, inb 2 (2 ^ 32) false] }
    s.inbound[1]? = some (inb 1 (2 ^ 32 + 256) false) ∧ (s.inbound.take 2).length = 2 ∧ ((s.inbound.take 2).filter fun x => x.requester == 2) = [] ∧
    (s.inbound.any fun x => x.requester == 1) = true ∧ (s.inbound.all fun x => x.requester != 3) = true := by decide
theorem witness_the_host_refuses : let f : Fill := ⟨5, .ld .b32 .plain, v 4, [⟨0, 64#64, .ok (.host 64) false, false, none⟩], 0#32, 0#96⟩
    let s := { onSheet { shl with fills := [f] } with flights := [{ fT with target := .host 64 }] }
    (s.sheetAt ws).isSome = true ∧ ({ shl with fills := [f] } : Sheet).openFill 3 0 = none ∧
    (s.flights.findIdx? fun f => decide (f.who = ws) && f.seq == 3 && f.target.isHost) = some 0 ∧
    ({ shl with fills := [f] } : Sheet).openFill 5 0 = some (f, ⟨0, 64#64, .ok (.host 64) false, false, none⟩) ∧ (s.core 0).eventRoom = true ∧
    ({ shl with fills := [f] } : Sheet).alive 0 = true ∧ s.loadMay ws { shl with fills := [f] } 5 0 = true ∧
    ({ shl with fills := [f] } : Sheet).forward .x48 5 0 (.host 64) 64#64 4 = .pass ∧ s.mayRequest ws (.host 64) = true := by decide
theorem witness_a_flit_of_a_trained_link : ({ s1 with mgmt := { s1.mgmt with links := [(2, 7)] } } : State).mgmt.links = [(2, 7)] ∧
    ((List.range 4).all fun i => decide (((s1.place (2 ^ 32 + i)).map fun q => (q.cell, q.rowKey)) = (s1.place (2 ^ 32)).map fun q => (q.cell + i, q.rowKey)) &&
      (s1.place (2 ^ 32 + i)).isSome) = true ∧ s1.arrivalWaits (2 ^ 32) 4 = false ∧ s1.poisonedAt (.dev (2 ^ 32)) 4 = false := by decide
/-- A portal record for core 0 with CODE 0x10000, ENTRY 2, 16 lanes of 64 registers and a host JOIN, and one whose width is reserved. -/
def portalP (w : Nat) : List Byte :=
  leBytes 32 1 ++ leBytes 8 0x10000 ++ leBytes 4 2 ++ [BitVec.ofNat 8 (w + 4 * 8), 1#8, 0#8, 0#8] ++ leBytes 8 0x1000 ++ leBytes 8 0
def gPort : Workgroup := { placeGroup none [] with launch := 2 ^ 32, portal := some 1 }
def sPort : State := { one (core gPort) with cores := [{ core gPort with bins := [⟨2 ^ 32, 0, 24#32, 16, 64, 0x10000#64, [], false⟩] }] }
theorem witness_portal_records : portalOk 0 (portalP 0) = true ∧ portalOk 0 (portalP 3) = false ∧ s1.owner 9 = none ∧ s1.owner 1 = some placeOwner ∧
    (portalFields (portalP 0)).target = 0 ∧ (portalFields (portalP 0)).host = true ∧ (portalFields (portalP 0)).entry = 24#32 ∧
    (s1.core 0).owner = some 1 ∧ (s1.core 0).portalGroup = none ∧ (s1.core 0).wgs.length = 8 ∧ (s1.core 0).freeSlot = some 1 ∧
    lowestHole ((s1.core 0).groups.map fun g => (g.spadBase, g.spadSize)) 8192 placeOwner.spadMax = some 8192 ∧ (s1.core 0).vatUsed < 16384 ∧
    (s1.core 0).bins = [] ∧ (sPort.core 0).portalGroup = some (0, gPort) ∧ (sPort.core 0).bins.map (·.entry) = [24#32] ∧ Core.reset.owner ≠ some 1 := by decide
theorem witness_ResetStartsAndLifecycleWipes : LifeState.code .secure = (2#32 : Word).toNat ∧ LifeState.next .manufacture .secure = true ∧
    (∀ life ∈ [LifeState.manufacture, .secure, .rma, .scrapped], life.code = (1#32 : Word).toNat → LifeState.next .manufacture life = false) ∧
    State.reset.mgmt.life ≠ .scrapped ∧ State.reset.mgmt.bootstat = .waiting ∧ BootStat.ready ≠ .waiting ∧ State.reset.mgmt.reports < 1024 ∧
    State.reset.mgmt.feat.length = 4 ∧ State.reset.mgmt.measure.length = 64 ∧ State.reset.mgmt.attNonce.length = 32 := by decide
/-- A live row 600 of bank 3, with a tracker at the limit, and two bad symbols in one unit of its first line. -/
def keyR : Nat := rowKey 0 600 3 0
def sR : State := { s1 with
  dram := { s1.dram with
    live := [(keyR, true)], errors := [(keyR * 512, true), (keyR * 512 + 1, true)], trackers := [⟨0, 0, 3, 600, 1, 512⟩] } }
theorem witness_ControllersRefreshScrubAndDelay : sR.dram.isLive keyR = true ∧ s1.dram.isLive keyR = false ∧ SMap.get none sR.dram.cached (keyR * 8) = none ∧
    2 ≤ sR.dram.badSymbols (keyR * 8) 0 ∧ (∀ u, u < 4 → sR.dram.badSymbols (keyR * 8 + 1) u ≤ 1) ∧ sR.owner 1 = some placeOwner ∧
    (∃ x ∈ sR.dram.trackers, x.owner = 1 ∧ 512 ≤ x.count) ∧ s1.dram.trackers = [] := by decide +kernel
/-- An envelope of owner 3 with one window, one extent and a ballast at its start. -/
def envelope : List Byte :=
  leBytes 12 3 ++ leBytes 8 8 ++ leBytes 8 65536 ++ leBytes 4 65536 ++ leBytes 8 (2 ^ 32) ++ leBytes 4 512 ++ leBytes 4 0x800000 ++ leBytes 4 65536 ++ leBytes 4 3072 ++
    leBytes 32 0 ++ leBytes 4 0x4000 ++ leBytes 4 1 ++ List.replicate 160 0#8 ++ leBytes 16 (512 + 512 * 65536 + 2 ^ 48) ++ List.replicate 240 0#8 ++
    leBytes 16 (2 ^ 32 + 65536 * 2 ^ 64 + 15 * 2 ^ 96) ++ List.replicate 1008 0#8
def booted : State := { State.reset with mgmt := { State.reset.mgmt with bootstat := .ready } }
theorem witness_OwnersAreMadeAndRemoved : booted.booted = true ∧ State.reset.booted = false ∧ booted.envelopeOk (ownerOf envelope) envelope = true ∧
    booted.envelopeOk (ownerOf []) [] = false := by decide +kernel
theorem witness_owners_that_are_removed_and_granted_windows : let w := windowOf (leBytes 8 (1024 + 512 * 65536 + 2 ^ 48))
    s1.owner 1 = some placeOwner ∧ s1.owner 9 = none ∧ (s1.core 0).owner = some 1 ∧ s1.launches[0]? = some placeLaunch ∧ placeLaunch.owner = 1 ∧
    placeLaunch.ended = false ∧ (∀ w ∈ placeOwner.windows, w.valid = true ∧ ((s1.othersWindows 1).all fun x => !w.sharedWith x) = true) ∧
    placeOwner.windows[0]?.isSome = true ∧ w.valid = true ∧ s1.windowOk 1 w = true ∧ (placeOwner.windows.all fun x => !(x.valid && x.sharedWith w)) = true ∧
    s1.quotasOk { placeOwner with windows := [w], extents := [] } = true ∧ ({ placeLaunch with ended := true } : Launch).ended = true := by decide +kernel
/-- An issue cycle of slot 0 of quadrant 0 serves lane 0 of the sheet, whose word stands with its trailer in device memory. -/
theorem witness_StepRunsTheDecodedWord : let s := State.reset.withFetchWord 96 0x51FF000000000000000F0000
    s.agenda = [.issue 0 0 []] ∧ (State.reset.withFetchWord 96 0xB03F1820012C036800000000).agenda = [.front 0 []] ∧
    (s.sheetAt ws).isSome = true ∧ s.fetch ws 0 = .word 0x51FF000000000000000F0000#96 ∧
    (match s.fetch ws 12 with
      | .word y => isTrlr y
      | _ => false) = true ∧
    isTrlr 0x51FF000000000000000F0000#96 = false ∧ s.runStart ws 0 = .yes ∧ isEvent .reset = true ∧ isEvent (.nop ctl) = false := by decide +kernel
theorem witness_EncodingsDecodeToTheirInstructions : (Instr.iadd ctl .i32 false (v 1) (v 63) (im 5)).WellFormed code ∧
    isEvent (.iadd ctl .i32 false (v 1) (v 63) (im 5)) = false := ⟨by unfold Instr.WellFormed; decide, by decide⟩
theorem witness_StepsKeepMemoriesCanonical : (∀ m ∈ memories (State.reset.withFetchWord 96 0x51FF000000000000000F0000), Memory.wf m = true) ∧
    (next (step (State.reset.withFetchWord 96 0x51FF000000000000000F0000)) fun _ => ()) = some () := by decide +kernel
/-- The place of the row that the sheet's DEMOTE names, a slot that holds it, and eight slots of its owner in the bank. -/
def fDem (k : FillKind) : Fill := ⟨5, k, v 4, [⟨0, 0#64, .ok (.dev (2 ^ 32 + 0x2000000)) true, false, none⟩], 0#32, 0#96⟩
def sDem (k : FillKind) (slots : Place → List RingSlot) : State :=
  let s := onSheet { shl with fills := [fDem k] }
  match s.place (2 ^ 32 + 0x2000000) with
  | some p => { s with dram := { s.dram with slots := slots p, live := [(p.rowKey, true)] } }
  | none => s
def xDem : LaneReq := ⟨0, 0#64, .ok (.dev (2 ^ 32 + 0x2000000)) true, false, none⟩
theorem witness_DemoteFreesAndPromotionsEvictTheOldest : let s := sDem .demote fun p => [⟨p.stack, p.pc, p.bank, 0, 1, p.row, 7, false, true⟩]
    let t := sDem (.promote false [(0, 9)]) fun p => (List.range 8).map fun i => ⟨p.stack, p.pc, p.bank, i, 1, p.row + 1 + i, 7 + i, false, false⟩
    (s.sheetAt ws).map (·.fills) = some [fDem .demote] ∧ 0 < placeOwner.hbm ∧ s.dram.delays = [] ∧ s.owner (s.ownerId ws) = some placeOwner ∧
    ((xDem.place s 1).bind fun p => (s.dram.slotOf p).map fun r => (r.owner, r.idx)) = some (1, 0) ∧
    ((xDem.place t 1).map fun p => (t.dram.isLive p.rowKey, t.dram.nearRow p, t.dram.slotOf p, (t.dram.held p 1).length,
      decide (0 < t.dram.ring p.stack))) = some (true, false, none, 8, true) ∧ placeOwner.nearq = 8 := by decide +kernel

/-! ### Witnesses of further clauses: level 2, shared answers, engines, refusals, whole quires, two slots of one cycle -/

/-- A level-2 handler at its word, below a frozen level-1 one. -/
def wh2 : Where := .handler 0 2
def sH2 : State := { (sH.modCore 0 fun k => { k with h1 := k.h1.map fun h => { h with frozen := true }, h2 := some (handlerOf .page shh) }) with cur := some (wh2, 0) }
theorem witness_local_words_at_level_2 : Ready sH2 wh2 shh ctl [(1, false, vp 0), (2, false, im 0)] ∧ Full (Grp.of wh2 shh 0 ctl) [(0, false, v 4)] := by decide
theorem witness_DQPUSH_that_waits : sl.released ws shS gl.act .wg = false ∧ (Workgroup.dq { placeGroup none [] with dq := List.replicate 64 0#64 }).length = 64 := by
  decide
/-- Lane 0 waits on mask m0, whose lanes all wait there; and on m1, of which lane 1 runs on. -/
def shw (m : Nat) : Sheet := { shm with lanes := shm.lanes.modify 0 fun t => { t with wait := .blocked (.waitm (BitVec.ofNat 4 m)) } }
theorem witness_MaskWaitsLookAtTheirConditions : ((shw 0).lane 0).live = true ∧ ((shw 0).lane 0).wait = .blocked (.waitm 0#4) ∧
    (∀ j, j < (shw 0).lanes.length → ((shw 0).mReg 0).getLsbD j = true → ((shw 0).lane j).running = true → j ∈ waitmLanes (shw 0) ((shw 0).lane 0).pc) ∧
    ((shw 1).mReg 1).getLsbD 1 = true ∧ ((shw 1).lane 1).running = true ∧ 1 ∉ waitmLanes (shw 1) ((shw 1).lane 0).pc := by decide
theorem witness_RDWP_behind_a_load : (onSheet { shl4 with fills := [fl] }).loadMay ws { shl4 with fills := [fl] } 9 0 = false ∧
    sl.loadMay ws shl sl.nextId 0 = true := by decide
theorem witness_PREF_with_tokens : sd.dram.delays = [] ∧ 256 * 128 * (gd.act.length : Int) ≤ placeOwner.hbm := by decide
theorem witness_MRDY_that_blocks : { onSheet shS with nextId := 9 }.mrdyMay ws shS 9 gl.act = false := by decide
theorem witness_GYLD_without_lanes : producing sh1 = none ∧ (Grp.of ws sh1 0 { ctl with gp := 2#6 }).act = [] := by decide
theorem witness_LAUNCH_of_a_full_queue : let s := sla.modCore 0 fun k => { k with launchQ := List.replicate 16 0 }
    16 ≤ (s.core 0).launchQ.length ∧ ((s.handOff 0).core 0).launchQ = [] := by decide +kernel
/-- Lane 0's operands pass each check but one. -/
theorem witness_TLBW_that_fails : let e (a b x : Nat) := tlbEntry (rd64 sH gH (vp a) 0) (rd64 sH gH (vp b) 0) (rd sH gH false (v x) 0)
    atOk (rd sH gH false (v 5) 0) = false ∧ atOk (rd sH gH false (v 4) 0) = true ∧ (e 6 2 4).va % (e 6 2 4).size ≠ 0 ∧ (e 0 2 4).va % (e 0 2 4).size = 0 ∧
    (e 0 6 4).pa.toNat % (e 0 6 4).size ≠ 0 ∧ (placeOwner.extents.all fun y => !y.grants (e 0 0 4)) = true ∧ gH.act = [0] := by decide
theorem witness_RFH_behind_its_stores : rfhReady gH = true ∧ ({ shh with sq := [eD] } : Sheet).sq ≠ [] := by decide
/-- Two lanes of one load touch one granule. -/
def f2 : Fill := { fl with lanes := [⟨0, 16#64, .ok (.spad 0 16) true, false, none⟩, ⟨1, 20#64, .ok (.spad 0 20) true, false, none⟩] }
def sh2l : Sheet := { sheet [lane [], lane []] with fills := [f2] }
theorem witness_lanes_that_share_a_granule : (f2.sharing (onSheet sh2l) ws sh2l ⟨0, 16#64, .ok (.spad 0 16) true, false, none⟩ 4).map (·.lane) = [1] ∧
    (fl.sharing (onSheet shlf) ws shlf ⟨0, 16#64, .ok (.spad 0 16) true, false, none⟩ 4) = [] ∧ (f2.lanes.map (·.lane)).Nodup := by decide
/-- The same operation on a device word and on a peer's. -/
def eAt (t : Target) : EngineOp := { eA with target := t }
theorem witness_EnginesPerformTheirOperations : (∀ t ∈ [Target.host 64, .peer 3 64, .dev (2 ^ 32 + 0x2000000)],
      let s := { onSheet { shl4 with fills := [fA] } with engine := [eAt t] }
      s.engine[0]? = some (eAt t) ∧ s.earlier 0 3 t 4 = false ∧ s.bankDelayed 1 t = false ∧ s.poisonedAt t 4 = false) ∧
    ({ shl4 with fills := [fA] } : Sheet).openFill 5 0 = some (fA, ⟨0, 0#64, .ok (.host 64) true, false, none⟩) ∧ eA.fill = some 5 ∧ fA.dest = v 4 := by decide
/-- A lane that waits for the word that the sheet's address names to differ from a value. -/
def fMd : Fill := ⟨5, .mwait false [(0, 0#64)] true .dev, v 4, [⟨0, 0#64, .ok (.dev (2 ^ 32 + 0x2000000)) true, false, none⟩], 0#32, 0#96⟩
def mon : Monitor := ⟨0, ws, 0, 5, 0, false, 0#64, false, none, true, .dev⟩
theorem witness_EnginesArmTheirMonitors : let sh := { shl4 with fills := [fMd] }
    let s := { onSheet sh with monitors := [mon] }
    s.monitors[0]? = some mon ∧ mon.armed = false ∧ mon.hit = none ∧ sh.openFill 5 0 = some (fMd, ⟨0, 0#64, .ok (.dev (2 ^ 32 + 0x2000000)) true, false, none⟩) ∧
    sh.sq = [] ∧ s.loadMay ws sh 5 0 = true ∧ s.inFlight 0 (.dev (2 ^ 32 + 0x2000000)) 4 = false ∧ s.poisonedAt (.dev (2 ^ 32 + 0x2000000)) 4 = false ∧
    s.armedAt 0 < 8192 ∧ s.mayRequest ws (.dev (2 ^ 32 + 0x2000000)) = true ∧ (mon.cmp = 0#64 ∧ (1#64 : DWord) ≠ mon.cmp) := by decide
theorem witness_a_transform_seen_early : ((xWrites (((sX jx).core 0).seen (sX jx).free) 0 ((sX jx).free + 2 ^ 23) jx
    (xRun jx (((sX jx).core 0).seen (sX jx).free) 0 8192))[0]?).isSome = true := by decide +kernel
theorem witness_a_COPY_behind_an_atomic : (sC jc).engineHolds (.spad 0 0) 1 = false ∧ { sC jc with engine := [{ eA with target := .host 64 }] }.engineHolds (.host 64) 4 = true := by
  decide
/-- Core 0 alone goes to the second owner; a core of one quire with it that cannot go keeps it. -/
def sO2 : State := { sO keep with cores := [(sO keep).core 0, { (sO keep).core 0 with switch := some .restoring }] }
theorem witness_cores_of_one_quire : (sO keep).together o2 0 = [0] ∧ 1 ∈ sO2.together o2 0 ∧ sO2.maySwitch o2 0 1 = false := by decide +kernel
theorem witness_more_ticks : (({ Core.reset with switch := some (.saved 2) } : Core).owner = none) ∧ (sO keep).owner 2 = some o2 ∧
    ((sO keep).joins.all fun x => x.1 != 1) = true := by decide
/-- The workgroup in the first slot has no quire member beside it, and its slot is what the waiting quire needs. -/
theorem witness_PREEMPT_makes_room : (sPre.quireMembers 0 gB) = [(0, 0)] ∧ ((sPre.withSaved [[(0, 0)]]).fit ⟨0, 0, []⟩).isSome = true ∧ sPre.lowerQuires ⟨0, 0, []⟩ = [[(0, 0)]] ∧
    sPre.makesRoom ⟨0, 0, []⟩ [(0, 0)] = true ∧ sPre.makesRoom ⟨0, 0, []⟩ [(0, 1)] = false ∧ sPre.dieOf ⟨0, 0, []⟩ = sPre.dieOf ⟨1, 0, []⟩ := by decide +kernel
/-- The host refuses the next read of the ring, or of a word that a packet names. -/
def deny (a : Nat) (s : State) : State := { s with hostDeny := [a] }
theorem witness_RefusalsOfPackets : (deny 0x1000 (sQ launchP)).packet 0 = some (placeOwner, launchP) ∧ qu.slot = .host 0x1000 ∧
    (deny 0x2000 (sQ (signalP 0 1))).refused qu.slot = false ∧ pktAddr (signalP 0 1) 8 = BitVec.ofNat 64 (2 ^ 63 + 0x2000) ∧
    packetOk (deny 0x2000 (sQ fenceP)) placeOwner fenceP = true ∧ (fenceEntries fenceP).map (fun e => (e.host, e.addr)) = [(true, 0x2000)] ∧
    pktAddr (keyP 0x12) 8 = BitVec.ofNat 64 (2 ^ 63 + 0x2000) := by decide +kernel
theorem witness_a_CHAIN_that_is_overrun : 2 ^ pktField (chainP 2) 0x10 4 < ((6#32 : Word) - (0#32 + 1#32)).toNat ∧
    packetOk (sQ (chainP 2) { qu with qsize := 4#32, qwrite := 6#32 }) placeOwner (chainP 2) = true := by decide +kernel
theorem witness_portal_records_that_are_refused : let o := placeOwner
    let r := portalFields (portalP 0)
    let d := { r with host := false, join := 0x10000#64 }
    s1.takes 0 o r = true ∧ sPort.takes 0 o r = true ∧ { s1 with cores := [Core.reset] }.takes 0 o r = false ∧ r.join.toNat = 0x1000 ∧
    s1.mapped 1 d.join = some (.dev (2 ^ 32 + 0x2000000)) ∧ s1.mapped 1 0x90000#64 = none ∧ s1.joins = [] ∧ s1.inbound = [] ∧
    (inb 1 (2 ^ 32) false).relaxed = false ∧ inPortal 0x1000000 = true ∧ portalOk 0x1000000 [] = false := by decide
theorem witness_start_up : BootStat.verifying ≠ .waiting ∧ BootStat.badsig ≠ .waiting ∧ State.reset.mgmt.life ≠ .scrapped ∧
    State.reset.mgmt.attAddr.toNat % 2 ^ 63 ∈ (deny 0 State.reset).hostDeny ∧ State.reset.mgmt.attAddr.toNat % 2 ^ 63 ∉ State.reset.hostDeny := by decide
theorem witness_a_cached_line_with_errors : let d := { sR.dram with cached := [(keyR * 8, some false)] }
    SMap.get none d.cached (keyR * 8) ≠ none ∧ 2 ≤ d.badSymbols (keyR * 8) 0 := by decide +kernel
/-- A window that is the shared one in whose place it comes. -/
theorem witness_a_shared_window_again : let w := windowOf (leBytes 8 (512 + 512 * 65536 + 3 * 2 ^ 48))
    let o := { placeOwner with windows := [w] }
    let s := { s1 with owners := [o] }
    s.owner 1 = some o ∧ (w.valid && w.sharedWith w) = true ∧ s.windowOk 1 w = true ∧ s.quotasOk o = true ∧
    o.extents.all (o.extentOk s.variant) = true := by decide +kernel
/-- Two groups of one sheet, the second at the lower word, in one cycle of its quadrant. -/
def shPair : Sheet := sheet [{ lane [] with pc := 48#32 }, { lane [] with pc := 0#32 }]
def sPair : State := { onSheet shPair with agenda := [.issue 0 0 []], cur := none }
theorem witness_Serves : (∃ s1, Serves sPair s1 ws 1 1 [] id) ∨ ∃ s1, Serves sPair s1 ws 1 0 [] id := by
  refine .inr ⟨_, .inl ⟨0, 0, [], [], shPair, [(0, 1), (1, 0)], ⟨rfl, [], by decide, by decide, by decide⟩, .inr ⟨rfl, rfl, 1, 0, by decide, by decide, ?_, rfl⟩⟩⟩
  exact .inl ⟨rfl, by decide⟩
theorem witness_Serves_one_group : Serves (State.reset.withFetchWord 96 0x51FF000000000000000F0000)
    (lastServed 0 ws (placeSheet .sheet 16 0 0) [0] (begun (State.reset.withFetchWord 96 0x51FF000000000000000F0000) [])) ws 0 0 [.issue 0 0 []] id :=
  .inl ⟨0, 0, [], [], placeSheet .sheet 16 0 0, [(0, 0)], ⟨by decide +kernel, [], by decide +kernel, by decide +kernel, by decide +kernel⟩,
    .inl ⟨rfl, rfl, rfl, .inl rfl⟩⟩
theorem witness_settle_and_pick : ({ sPair with agenda := [.settle ws] } : State).agenda = [.settle ws] ∧ pickAny (begun State.reset []) = none ∧
    (pickAny (begun { sPair with agenda := [] } [])).isSome = true := by decide +kernel
theorem witness_an_access_behind_an_atomic : { s1 with engine := [eAt (.dev (2 ^ 32))] }.arrivalWaits (2 ^ 32) 4 = true := by decide
/-- Of an IADD's and an IMAD's sources the last alone is empty, in lane 0 of two. -/
theorem witness_sources_empty_in_some_lanes : let g := Grp.of ws (sheet [{ lane [] with v := [(1, ⟨0#32, [⟨7, none⟩]⟩)] }, lane []]) 0 ctl
    g.act = [0, 1] ∧ emptyIn g ve = [0] ∧ emptyIn g vew = [0] ∧ emptyIn g (v 2) = [] ∧ emptyIn g (im 1) = [] := by decide
theorem witness_values_that_overflow : beyondLargest fp16 .rne false 65520 0 = true ∧ beyondLargest fp16 .rtz false 65520 0 = false ∧
    roundVal fp16 .rne (.fin false 65520 0) = (0x7C00, fOF ||| fNX) := by decide
/-- The second slot of a cycle, after the first has issued. -/
theorem witness_Serves_the_second_slot : let sh := { shPair with lanes := shPair.lanes.modify 0 fun t => { t with slot := some 1 }, pairs := [(7, 0, 0)] }
    let s := { onSheet sh with agenda := [.second ws 1], cur := none }
    ∃ s2 sh2, s2 = { s with steps := s.steps + 1, cur := none, agenda := [] }.modSheet ws (Sheet.openSecond s.nextId) ∧ s2.sheetAt ws = some sh2 ∧
      holder sh2 1 = some 0 := ⟨_, _, rfl, rfl, by decide⟩
theorem witness_DEMOTE_with_tokens : placeOwner.hbmDry = false := rfl

/-! ### Witnesses of what a clause says apart: ties, lanes that have ended, the L1, lanes that replay, blocks that end, what is on its way -/

/-- 2049 lies halfway between 2048 and 2050; 300 lies beyond INT8 and 2.5 is no integer. -/
theorem witness_a_tie_and_a_float_out_of_range : beyondLargest fp16 .rne false 2049 0 = false ∧
    let y := fp16.value (roundVal fp16 .rne (.fin false 2049 0)).1
    let j := min 0 (min y.exp (fp16.value 0x6801).exp)
    apart j (.fin false 2049 0) y = apart j (.fin false 2049 0) (fp16.value 0x6801) ∧ fcmpVal y (fp16.value 0x6801) ≠ .eq ∧
    (elemRange .int8).2 < Spec.nearInteger .rne false 300 0 ∧ Spec.nearInteger .rne true 5 (-1) = -2 := by decide +kernel
/-- The core holds 1,024 requests, of which some can end. -/
theorem witness_a_core_with_all_its_requests : let s := { sd with flights := List.replicate 1024 fT }
    1024 < s.outstanding 0 + gd.act.length ∧ s.someEnd 0 = true ∧ s.mayAdd 0 gd.act.length = false ∧ sd.mayAdd 0 gd.act.length = true := by decide +kernel
theorem witness_a_barrier_without_AOUT : (sl.core 0).outPending = false ∧ (BarObj.init 3#32 true).bytes.length = 16 ∧
    (∀ i, i < 16 → ({ sl with cores := [{ sl.core 0 with spad := Memory.write [] 0 (BarObj.init 3#32 true).bytes }] }.core 0).imageByte (0 + i) =
      ((BarObj.init 3#32 true).bytes[i]?).getD 0#8) := by decide +kernel
/-- A front-end thread ends its own workgroup, of a launch that runs. -/
theorem witness_CANCEL_of_its_own_unit : (sf.wgOf wf).isSome = true ∧ wf = .front 0 0 ∧ ((sf.wgOf wf).map (·.launch)) = some 0 ∧
    (sf.launches[0]?).map (·.ended) = some false := by decide
/-- TLBI of the page that V0 names: a load of the page is on its way, or nothing is. -/
theorem witness_TLBI_that_goes_on_or_blocks : let gone (s : State) := s.invalidate ws false .dev [0x10000]
    let busy := { sd with flights := [fT] }
    (gone sd).2 = [(0x10000, 65536)] ∧ (gone sd).1.tlbiDone ws .dev (gone sd).2 = true ∧ (gone busy).1.tlbiDone ws .dev (gone busy).2 = false ∧
    (sd.invalidate ws false .dev [0x90000]).2 = [] := by decide
theorem witness_TRAP_and_TLBW_may_trap : CanTrap sd gd ∧ CanTrap sf gf := by unfold CanTrap; decide
/-- A load of the sheet whose lane waits for the handler of its page; a walk of that page with the lane's request. -/
def fP : Fill := { fd with lanes := [⟨0, 0x90000#64, .miss, false, none⟩] }
def rP : MissReq := ⟨ws, 0, 0x90000#64, 1, 1, .fill 5, 0#32, 0#96⟩
def hF (c : Cause) : Handler :=
  { handlerOf c (handler c [lane []]) with
    ev := { placeEvent with cause := c, of := some (.fill 5), access := 1, slot := 1, page := if c = .walk then [9] else [],
                            args := [(0, 0x90000#64, 0#32, 0#32, 0#32)] } }
def sF (c : Cause) (va : Nat) : State :=
  { one { core (placeGroup none [some { shl4 with fills := [fP] }]) with
      h1 := some (hF c), misses := if c = .walk then [{ page := 9, reqs := [{ rP with va := BitVec.ofNat 64 va }] }] else [] } with cur := some (wh, 0) }
theorem witness_RFH_of_faulted_lanes : (∀ c ∈ [Cause.walk, .page, .poison], Stands (sF c 0x90000) wh 0 (hF c).sheet ∧ ((sF c 0x90000).core 0).handler 1 = some (hF c) ∧
      modeOk (hF c).ev .plain = true ∧ modeOk (hF c).ev .fail = true ∧ (hF c).sheet.sq = [] ∧ rfhReady (Grp.of wh (hF c).sheet 0 ctl) = true) ∧
    ((sF .walk 0x10000).core 0).misses.map (fun m => (m.page, m.reqs.map (·.of))) = [(9, [.fill 5])] ∧
    (match (sF .walk 0x10000).ask { rP with va := 0x10000#64 } with | .ok _ _ => true | _ => false) = true ∧ (sF .walk 0x90000).ask rP = .miss ∧
    ((sF .walk 0x90000).core 0).eventRoom = true ∧ (hF .page).ev.lanesAt = [(0, 0x90000#64)] ∧ ((sF .page 0).core 0).canMiss 0x90000 = true ∧
    ({ hF .poison with mended := 1#64 } : Handler).mended.getLsbD 0 = true ∧ (hF .poison).mended.getLsbD 0 = false ∧
    (((sF .page 0).wgOf ws).map (·.launch)) = some 0 ∧ ((sF .page 0).launches[0]?).map (·.ended) = some false := by decide
/-- The lane of a load has ended; the L1 holds a load's line. -/
theorem witness_a_load_of_an_ended_lane_and_the_L1 : let sh := { shdl with lanes := shdl.lanes.modify 0 fun t => { t with live := false } }
    sh.alive 0 = false ∧ sh.openFill 5 0 = some (fd, ⟨0, 0x10000#64, .ok (.dev (2 ^ 32 + 0x2000000)) false, false, none⟩) ∧
    (let k := { ((onSheet shdl).core 0) with l1 := [((2 ^ 32 + 0x2000000) / 128, List.replicate 128 0#8)] }
     k.l1Has (2 ^ 32 + 0x2000000) = true) ∧ ((onSheet shdl).core 0).l1Has (2 ^ 32 + 0x2000000) = false ∧
    (onSheet shdl).engineBusy 0 (.dev (2 ^ 32 + 0x2000000)) 4 = false := by decide
/-- A COPY whose next byte goes to device memory, and one whose next byte goes to the mould. -/
theorem witness_COPY_to_device_memory_and_to_the_mould : let j := { jc with started := true }
    (∃ x, { j with kind := .sd, dst := 0x10000#64 }.dstAt (sC j) 0 0 = .ok (.dev (2 ^ 32 + 0x2000000)) x) ∧
    ((sC j).place (2 ^ 32 + 0x2000000)).isSome = true ∧ CopyKind.sm ≠ .sd := by
  refine ⟨⟨_, rfl⟩, by decide, by decide⟩
/-- A blocked lane of a sheet, and what its block waits for: done, and not done. -/
def shB (b : Block) : Sheet := { shl with lanes := shl.lanes.modify 0 fun t => { t with wait := .blocked b } }
theorem witness_blocks_that_end : (∀ b ∈ [Block.lwait, .msync 0#32, .tlbi .dev [], .mrdy 0 9 [0], .barw 0 64 true, .cntw .unit 9#32 (v 4) [0]],
      ((shB b).lane 0).live = true ∧ ((shB b).lane 0).wait = .blocked b ∧ (shB b).gen = none) ∧
    (shB .lwait).localDone = true ∧ { shB .lwait with sq := [eS] }.localDone = false ∧
    (onSheet shl).msyncDone ws 0#32 = true ∧ (onSheet shl).msyncDone ws 5#32 = false ∧
    sd.tlbiDone ws .dev [(0x10000, 65536)] = true ∧ { sd with flights := [fT] }.tlbiDone ws .dev [(0x10000, 65536)] = false ∧
    (onSheet shl).mrdyMay ws shl 9 [0] = true ∧ (onSheet shS).mrdyMay ws shS 9 [0] = false ∧ ((onSheet shl).core 0).outPending = false ∧
    ((((onSheet shl).core 0).imageByte (64 + 8)).getLsbD 0) = false ∧ cntwStatus s1 ws .unit 9 = some 0xFF ∧ cntwStatus s1 ws .launch 0 = none := by decide
/-- Cores 0 and 1 hold one quire of owner 1; the second owner, whose saved work belongs to core 0 alone, may have it. -/
def sO3 : State :=
  let k := (sO keep).core 0
  { sO keep with cores := [k, k], launches := [placeLaunch],
                 owners := [o1, { o2 with saves := [(0, { vE with wgs := [some { placeGroup none [] with owner := 2, launch := 7 }] })] }] }
theorem witness_a_core_that_goes_along : let b := { o2 with saves := [(0, { vE with wgs := [some { placeGroup none [] with owner := 2, launch := 7 }] })] }
    sO3.owner 2 = some b ∧ sO3.wants b 0 = true ∧ sO3.handsOver 0 b = true ∧ 1 ∈ sO3.together b 0 ∧ sO3.othersWant 1 = false ∧
    (sO3.core 1).handling = false ∧ (sO3.core 1).switch = none ∧ sO3.coreQuiet 0 = true ∧ sO3.coreQuiet 1 = true := by decide +kernel
/-- A store to the host is on its way as the SIGNAL is read; an access beyond the host's range. -/
theorem witness_a_SIGNAL_that_waits_for_what_is_away : let away := { sQ (signalP 0 1) with flights := [{ fT with target := .host 64 }], nextId := 9 }
    away.awayBefore 1 away.nextId = true ∧ away.awayBefore 1 3 = false ∧ (sQ (signalP 0 1)).awayBefore 1 (sQ (signalP 0 1)).nextId = false ∧
    pktField (signalP 0 1) 4 4 % 2 = 0 ∧ 2 ^ 63 ≤ pktField (signalP 0 1) 8 8 ∧
    packetOk (sQ (signalP 0 1) { qu with wait := .signal 3 }) placeOwner (signalP 0 1) = true := by decide +kernel
theorem witness_the_host_range : State.reset.variant = .x48 ∧ 2 ^ 39 < 2 ^ 39 + [1#8].length ∧ 2 ^ 32 + 2 ≤ 2 ^ 39 := by decide
/-- A read of a line whose one bad symbol is corrected; a JOIN owed to a line without poison. -/
theorem witness_lines_without_poison : s1.poisonedAt (.dev (2 ^ 32 + 0x2000000)) 8 = false ∧ s1.poisonedAt (.dev (2 ^ 32)) 2 = false := by decide

/-- A 16-wide sheet whose lanes hold these words in V1. -/
def across (xs : List Nat) : State := onSheet (sheet (xs.map fun x => lane [(1, x)]))
/-- The sheet with a store, an order's producers and so on after a word. -/
def waitOf (r : Res) (l : Nat) (w : Where := ws) : Option Wait := lOf r l (·.wait) w
/-- The first event of the core after a word. -/
def evOf (r : Res) : Option (Cause × Nat × Nat × Lanes) := next r fun t => ((t.core 0).events.head?.map fun e => (e.cause, e.slot, e.access, e.fmask)).getD (.save, 0, 0, 0#64)

/-- The block of Table 8.3: element 5 is 5, element 12 is −3 and element 31 is −0.75. -/
theorem test_deq_table_8_3 :
    let s := onSheet (sheet [lane [(1, 0x97850F21), (2, 0x00D8E003), (3, 0x00040000), (4, 0xD0000000), (5, 0x004A3E80)]])
    let f (i : Nat) := vOf (exec (.deq ctl false .dyn .fp32 (v 9) (v 1) (im i)) s) 0 9
    f 5 = some 0x40A00000 ∧ f 12 = some 0xC0400000 ∧ f 31 = some 0xBF400000 ∧ f 4 = some 0 := by decide +kernel
/-- pack.rne.e4m3.f32 of 1.0, −0.5, 3.0 and 1000.0 writes 0x7E44B038 and raises OF, NX and ST. -/
theorem test_pack :
    let r := exec (.pack ctl false false .rne .e4m3 .fp32 (v 5) (vp 0) (vp 2)) (onSheet (sheet [lane [(0, 0x3F800000), (1, 0xBF000000), (2, 0x40400000), (3, 0x447A0000)]]))
    vOf r 0 5 = some 0x7E44B038 ∧ lOf r 0 (·.astat) = some 52#32 := by decide +kernel
theorem test_unpack :
    let r := exec (.pack ctl true false .dyn .fp32 .e4m3 (vp 6) (v 5) (im 1)) (onSheet (sheet [lane [(5, 0x7E44B038)]]))
    vOf r 0 6 = some 0x40400000 ∧ vOf r 0 7 = some 0x43E00000 := by decide +kernel
/-- A scale of zero: every nibble is 0 and the executing lane raises IV (R104). -/
theorem test_cvtq_scale_of_zero :
    lOf (exec (.cvtq ctl false .dyn .fp32 (u 8) (v 1) (u 1)) (onSheet (sheet [lane [(1, 0x3F800000)]] [(1, 0), (2, 0), (3, 0x40000000), (4, 64)]))) 0 (·.astat) = some 1#32 := by
  decide +kernel
theorem test_fdp4 :
    vOf (exec (.fdp4 ctl .bf16x2 false .dyn (v 6) (vp 0) (vp 2) (v 4)) (onSheet (sheet [lane [(0, 0x3F803F80), (1, 0x3F803F80), (2, 0x40003F80), (3, 0x3F803F80), (4, 0x3F800000)]]))) 0 6 =
      some 0x40C00000 := by decide +kernel

/-! Class 0x4. -/

theorem test_shfl_xor : let r := exec (.shfl ctl .xor (v 2) (v 1) (im 1) ⟨63#6, true, 0#4⟩) (across ((List.range 16).map (10 + ·)))
    vOf r 0 2 = some 11 ∧ vOf r 1 2 = some 10 ∧ vOf r 14 2 = some 25 := by decide
theorem test_shfl_up_keeps_the_first_lane : vOf (exec (.shfl ctl .up (v 2) (v 1) (im 1) ⟨63#6, true, 0#4⟩) (across ((List.range 16).map (10 + ·)))) 0 2 = some 10 := by decide
theorem test_vote_ballot : let s := onSheet (sheet ((List.range 16).map fun i => lane [] (if i = 3 ∨ i = 5 then 2 else 0)))
    uOf (exec (.vote ctl .ballot (up 2) (p 1) ⟨63#6, true, 0#4⟩) s) 2 = some 40 := by decide
/-- 2^24 in lane 0 and 1.0 in the others: the tree gives 16,777,230 where a sum in lane order would stay at 2^24 (R113). -/
theorem test_rdux_tree : uOf (exec (.rdux ctl .add .f32 .dyn (u 2) (v 1) ⟨5#6, true, 0#4⟩) (across (0x4B800000 :: List.replicate 15 0x3F800000))) 2 = some 0x4B800007 := by
  decide +kernel
theorem test_rdux_max_signed : uOf (exec (.rdux ctl .max .i32 .dyn (u 2) (v 1) ⟨5#6, true, 0#4⟩) (across (0xFFFFFFFF :: List.replicate 15 0xFFFFFFF0))) 2 = some 0xFFFFFFFF := by
  decide +kernel
theorem test_scan_inclusive : let r := exec (.scan ctl .add .f32 .dyn false (v 2) (v 1) ⟨5#6, true, 0#4⟩) (across (0x4B800000 :: List.replicate 15 0x3F800000))
    vOf r 2 2 = some 0x4B800000 ∧ vOf r 3 2 = some 0x4B800001 ∧ vOf r 15 2 = some 0x4B800007 := by decide +kernel
theorem test_scan_exclusive : vOf (exec (.scan ctl .add .u32 .dyn true (v 2) (v 1) ⟨5#6, true, 0#4⟩) (across (List.replicate 16 3))) 5 2 = some 15 := by decide +kernel
/-- Weights 1, 2, 0 and 5: u = 0x80000000 gives lane 3, u = 0x30000000 lane 1 (R114). -/
theorem test_csamp : let f (n : Nat) := vOf (exec (.csamp ctl (v 3) (v 1) (u 2) ⟨4#6, true, 0#4⟩)
      (onSheet (sheet ([0x3F800000, 0x40000000, 0, 0x40A00000].map fun x => lane [(1, x)]) [(2, n)]))) 0 3
    f 0x80000000 = some 3 ∧ f 0x30000000 = some 1 := by decide +kernel
/-- A zero key and counter: words 0 and 3. -/
theorem test_rand : let f (n : BitVec 2) := vOf (exec (.rand ctl n (v 9) (vp 0) (im 0) (im 0)) (onSheet (sheet [lane [(0, 0), (1, 0)]]))) 0 9
    f 0#2 = some 0x6627E8D5 ∧ f 3#2 = some 0x9B00DBD8 := by decide +kernel

/-! Class 0x5 and 0x6. -/

/-- The continuation is byte 24; a displacement of −2 words goes back to 0. -/
theorem test_bra_backwards : lOf (exec (.bra ctl (.imm 0x3FFE#14)) (onSheet (sheet [lane []]))) 0 (·.pc) = some 0#32 := by decide
theorem test_bra_guarded : let r := exec (.bra ctl1 (im 3)) (onSheet (sheet [lane [] 2, lane []]))
    lOf r 0 (·.pc) = some 60#32 ∧ lOf r 1 (·.pc) = some 24#32 := by decide
theorem test_brx : lOf (exec (.brx ctl (v 1)) (onSheet (sheet [lane [(1, 120)]]))) 0 (·.pc) = some 120#32 := by decide
theorem test_brx_misaligned : evOf (exec (.brx ctl (v 1)) (onSheet (sheet [lane [(1, 121)]]))) = some (.align, 1, 0, 1#64) := by decide
/-- One lane of two takes the branch: it is the smaller side, goes into the vat, and its sheet goes on at the continuation. -/
theorem test_brd_ejects : let r := exec (.brd ctl1 0#3 (v 1) (im 3)) (onSheet (sheet [lane [(1, 77)] 2, lane [(1, 78)], lane [(1, 79)]]))
    lOf r 0 (·.live) = some false ∧ lOf r 1 (·.pc) = some 24#32 ∧ kOf r (fun k => k.bins.map fun b => (b.entry, b.recs.map fun x => x.words.headD 0#32)) = some [(60#32, [77#32])] := by
  decide
theorem test_call : let r := exec (.call ctl (v 5) (im 1)) (onSheet (sheet [lane []]))
    vOf r 0 5 = some 24 ∧ lOf r 0 (·.pc) = some 36#32 := by decide
theorem test_ret : lOf (exec (.ret ctl (v 5)) (onSheet (sheet [lane [(5, 24)]]))) 0 (·.pc) = some 24#32 := by decide
theorem test_exit : let r := exec (.exit ctl1) (onSheet (sheet [lane [] 2, lane []]))
    lOf r 0 (·.live) = some false ∧ lOf r 1 (fun t => (t.live, t.pc)) = some (true, 24#32) := by decide
theorem test_yield : lOf (exec (.yield ctl) (onSheet (sheet [lane []]))) 0 (fun t => (t.yieldMark, t.pc)) = some (true, 12#32) := by decide
theorem test_nop : lOf (exec (.nop ctl) (onSheet (sheet [lane []]))) 0 (·.pc) = some 12#32 := by decide
theorem test_trlr_awaits : lOf (exec (.trlr [⟨false, 1#8⟩] 1#8) (onSheet (sheet [lane []]))) 0 (fun t => (t.pc, t.runPos, t.awaits)) = some (12#32, 0, [⟨false, 1#8⟩]) := by decide
theorem test_join : shOf (exec (.join ctl1 3#4) (onSheet (sheet [lane [] 2, lane []]))) (·.mReg 3) = some 1#64 := by decide
theorem test_leave : shOf (exec (.leave ctl1 3#4) (onSheet { sheet [lane [] 2, lane []] with m := [(3, 3#64)] })) (·.mReg 3) = some 2#64 := by decide
theorem test_waitm_blocks : waitOf (exec (.waitm ctl1 3#4) (onSheet { sheet [lane [] 2, lane []] with m := [(3, 3#64)] })) 0 = some (.blocked (.waitm 3#4)) := by decide
theorem test_waitm_releases : lOf (exec (.waitm ctl 3#4) (onSheet { sheet [lane [], lane []] with m := [(3, 3#64)] })) 1 (fun t => (t.wait, t.pc)) = some (.ready, 12#32) := by decide
theorem test_mmov_drops_lanes_not_live : shOf (exec (.mmov ctl (.m .full 2#4) (u 1)) (onSheet (sheet [lane [], lane []] [(1, 0xFFFF)]))) (·.mReg 2) = some 3#64 := by decide

/-! Class 0x7 and 0x8. -/

theorem test_ldl_empties : shOf (exec (.ldl ctl false .b32 (v 2) (v 1) (im 16) .none) (onSheet (sheet [lane [(1, 16)]]))) (fun sh =>
    ((sh.vReg 0 2).full, sh.fills.map fun f => f.lanes.map fun x => (x.va, x.tr))) = some (false, [[(32#64, .ok (.spad 0 32) true)]]) := by decide
theorem test_ldl_past_the_allocation : evOf (exec (.ldl ctl false .b32 (v 2) (v 1) (im 0) .none) (onSheet (sheet [lane [(1, 8192)]]))) = some (.bounds, 1, 1, 1#64) := by decide
theorem test_stl_queues : shOf (exec (.stl ctl false .u8 (v 2) (v 1) (im 0) .none) (onSheet (sheet [lane [(1, 16), (2, 0x1234)]]))) (fun sh =>
    sh.sq.map fun e => e.lanes.map (·.bytes)) = some [[[0x34#8]]] := by decide
theorem test_lwait_blocks : waitOf (exec (.lwait ctl) (onSheet shc)) 0 = some (.blocked .lwait) := by decide
theorem test_lwait_goes_on : lOf (exec (.lwait ctl) (onSheet (sheet [lane []]))) 0 (·.pc) = some 12#32 := by decide
theorem test_tagl : shOf (exec (.tagl ctl (v 4) (vp 0) (im 0)) (onSheet (sheet [lane [(0, 0x1000), (1, 0)]]))) (fun sh => sh.fills.map (·.kind)) = some [.tagl] := by decide
theorem test_tags_bad_slot : evOf (exec (.tags ctl 2#3 (vp 0) (im 0) (v 3)) (onSheet (sheet [lane [(0, 0x1000), (1, 0), (3, 16)]]))) = some (.bounds, 3, 0, 1#64) := by decide
theorem test_tags : shOf (exec (.tags ctl 2#3 (vp 0) (im 0) (v 3)) (onSheet (sheet [lane [(0, 0x1000), (1, 0), (3, 15)]]))) (fun sh => sh.sq.map (·.kind)) = some [.tags 2] := by decide
theorem test_tagi : shOf (exec (.tagi ctl false (vp 0) (im 0)) (onSheet (sheet [lane [(0, 0x1000), (1, 0)]]))) (fun sh => sh.sq.map (·.kind)) = some [.tagi false] := by decide
theorem test_ld_translates : shOf (exec (.ld ctl .plain .b32 (v 12) (vp 0) (im 4)) sd) (fun sh => sh.fills.map fun f => f.lanes.map (·.tr)) =
    some [[.ok (.dev 0x102000004) false]] := by decide
theorem test_ld_misses : kOf (exec (.ld ctl .plain .b32 (v 12) (vp 6) (im 0)) sd) (fun k => k.misses.map fun m => (m.page, m.reqs.map (·.access))) = some [(9, [1])] := by decide
theorem test_st_without_permission : evOf (exec (.st ctl .plain .b32 (v 12) (vp 8) (im 0)) sd) = some (.perm, 1, 2, 1#64) := by decide
theorem test_st_queues : shOf (exec (.st ctl .plain .u16 (v 12) (vp 0) (im 2)) sd) (fun sh => sh.sq.map fun e => e.lanes.map fun x => (x.tr, x.bytes)) =
    some [[(.ok (.dev 0x102000002) false, [1#8, 0#8])]] := by decide
theorem test_pref_of_a_dead_row : kOf (exec (.pref ctl false (vp 0) (im 0)) sd) (·.l1) = some [] := by decide
theorem test_cwb : shOf (exec (.cwb ctl false (vp 0) (im 0)) sd) (fun sh => sh.sq.map (·.kind)) = some [.cwb] := by decide
theorem test_promote_waits_for_the_controllers : lOf (exec (.promote ctl false false (v 12) (vp 0) (im 0)) sd) 0 (·.wait) = some (.blocked (.answers sd.nextId)) := by decide
theorem test_demote_of_host_memory : evOf (exec (.demote ctl false (v 12) (vp 10) (im 0)) sd) = some (.perm, 1, 1, 1#64) := by decide
theorem test_madr_waits : lOf (exec (.madr ctl false (vp 12) (vp 0) (im 0)) sd) 0 (·.wait) = some (.blocked (.answers sd.nextId)) := by decide
theorem test_dead_of_no_chunk : evOf (exec (.dead ctl false (vp 0) (im 64)) sd) = some (.align, 1, 2, 1#64) := by decide

/-! Class 0x9. -/

theorem test_atom_returns : shOf (exec (.atom ctl .add .rlx .dev (v 14) (vp 0) (v 12) (.ty .uint32)) sd) (fun sh => ((sh.vReg 0 14).full, sh.sq.length)) = some (false, 1) := by decide
theorem test_atoml : shOf (exec (.atoml ctl .max .rlx .wg .none (v 14) (v 12) (.ty .int32)) sd) (fun sh => sh.sq.map fun e => (e.kind, e.counted)) =
    some [(.atoml ⟨.max, some .int32, false⟩ .rlx .wg, true)] := by decide
theorem test_red : shOf (exec (.red ctl .add .rlx .dev .uint32 .none (vp 0) (v 12)) sd) (fun sh => sh.sq.map (·.kind)) = some [.red ⟨.add, some .uint32, false⟩ .rlx .dev] := by decide
theorem test_fence_drops_the_l1 : kOf (exec (.fence ctl .acq .dev) (sd.modCore 0 fun k => { k with l1 := [(1, [1#8])] })) (·.l1) = some [] := by decide
theorem test_bari_of_zero : evOf (exec (.bari ctl .wg false (im 0) (v 14) (im 0)) sd) = some (.illegal, 0, 0, 1#64) := by decide
theorem test_bara_sums_its_lanes : shOf (exec (.bara ctl .wg (im 1) (v 1) (im 0)) (onSheet (sheet [lane [(1, 64)], lane [(1, 0)]]))) (fun sh => sh.sq.map fun e => (e.kind, e.lanes.map (·.va))) =
    some [(.bara 2#32 3#64, [64#64])] := by decide
theorem test_barw_of_the_other_phase : lOf (exec (.barw ctl .wg (im 1) (v 14) (im 0)) sd) 0 (fun t => (t.wait, t.pc)) = some (.ready, 12#32) := by decide
theorem test_barw_blocks : waitOf (exec (.barw ctl .wg (im 0) (v 14) (im 0)) sd) 0 = some (.blocked (.barw 0 0 false)) := by decide
theorem test_mwait : next (exec (.mwait ctl true .dev (v 14) (vp 0) (v 12)) sd) (fun t => t.monitors.map fun m => (m.cmp, m.acq)) = some [(1#64, true)] := by decide

/-! Class 0xA to 0xD. -/

theorem test_mrdy_counts : next (exec (.mrdy ctl (im 0x944)) s1) (fun t => (t.wgOf ws).map fun g => (g.orc, g.agw)) = some (some (1, some 0x944#32)) := by decide
theorem test_mrdy_diverges : evOf (exec (.mrdy ctl (v 1)) (onSheet (sheet [lane [(1, 0x850)], lane [(1, 0x851)]]))) = some (.fmtdiv, 1, 0, 2#64) := by decide
theorem test_mloop_queues : let r := exec (.mloop ctl 0#8 (u 40) (u 8) (u 24) (u 25)) sfm
    kOf r (fun k => k.mq.map (·.ticket)) = some [1] ∧ uOf r 40 wf = some 1 := by decide
theorem test_msync_blocks : waitOf (exec (.msync ctl (im 5)) s1) 0 = some (.blocked (.msync 5#32)) := by decide
theorem test_aclr : kOf (exec (.aclr ctl (u 40) (u 26) (u 25)) sf) (fun k => k.mq.map (·.op)) = some [.aclr 0 1] := by decide
theorem test_aclr_of_no_row : evOf (exec (.aclr ctl (u 40) (u 26) (u 26)) sf) = some (.illegal, 2, 0, 1#64) := by decide
theorem test_aout : kOf (exec (.aout ctl false .e4m3 false .dyn (u 40) (u 16)) sf) (fun k => k.mq.map (·.op)) =
    some [.aout 0 16 16 0 16 0#32 0xFFFFFFFF#32 false .e4m3 false] := by decide
theorem test_copy_queues : kOf (exec (.copy ctl 3#4 .ds none 0#2 .b8 (u 26) (up 28) (u 27)) sf) (fun k => ((k.channel 3).q.map fun j => (j.dst, j.src, j.len))) =
    some [(0#64, 0x10000#64, 64)] := by decide
theorem test_copy_of_nothing : evOf (exec (.copy ctl 3#4 .ds none 0#2 .b8 (u 26) (up 28) (u 26)) sf) = some (.illegal, 2, 0, 1#64) := by decide
theorem test_rdwp : let r := exec (.rdwp ctl 3#4 false 0#2 (vp 2)) (s1.modCore 0 fun k => { k with channels := k.channels.set 3 ⟨[], 0x100000005#64⟩ })
    vOf r 0 2 = some 5 ∧ vOf r 0 3 = some 1 := by decide
theorem test_xform_queues : kOf (exec (.xform ctl .transpose .dyn (u 27) (u 34) (u 26) .none) sf) (fun k => k.xq.map fun j => (j.dl, j.sl, j.bar)) = some [(64, 128, 0)] := by decide
theorem test_spawn : let r := exec (.spawn ctl 0#3 (p 2) (v 1) (im 5)) s1
    lOf r 0 (·.pRead 2) = some true ∧ shOf r (fun sh => sh.sq.map fun e => (e.kind, e.lanes.length)) = some [(.spawn 72#32 16 64 0x10000#64, 2)] := by decide
theorem test_genb : shOf (exec (.genb ctl 3#3 8#8 (v 2) (im 1) (im 5)) s1) (fun sh => sh.gen.map fun g => (g.capn, g.join, g.pent, g.cent, g.a)) =
    some (some (64, 24#32, 36#32, 84#32, 2)) := by decide
theorem test_gyld_appends : let r := exec (.gyld ctl (v 1) (im 7)) (onSheet shp)
    shOf r (fun sh => sh.gen.map fun g => (g.f, g.y)) = some (some (3, 3)) ∧
    shOf r (fun sh => sh.sq.map fun e => e.lanes.map fun x => (x.va, x.bytes)) = some [[(8#64, leBytes 4 12 ++ leBytes 4 7), (16#64, leBytes 4 12 ++ leBytes 4 7)]] := by decide
theorem test_gyld_outside_a_generator : evOf (exec (.gyld ctl (v 1) (im 7)) s1) = some (.illegal, 15, 0, 3#64) := by decide
theorem test_gtake : shOf (exec (.gtake ctl (vp 12)) (onSheet shc)) (fun sh => sh.fills.map fun f => f.lanes.map (·.va)) = some [[0#64]] := by decide
theorem test_gend_of_the_last_producer : shOf (exec (.gend ctl false) (onSheet { sh1 with gen := some { genp with f := 0 } })) (fun sh => sh.gen.isNone) = some true := by decide
theorem test_dqpush : next (exec (.dqpush ctl (up 28)) sf) (fun t => (t.wgOf wf).map (·.dq)) = some (some [0x10000#64]) := by decide
theorem test_dqpop_waits : next (exec (.dqpop ctl (vp 12)) s1) (fun t => (t.wgOf ws).map (·.popWait)) = some (some [(0, s1.nextId)]) := by decide
theorem test_launch : let r := exec (.launch ctl (u 40) (u 26) (im 0)) sla
    next r (fun t => t.launches.map fun l => (l.pkt.launchId, l.unplaced)) = some [(1#32, []), (7#32, [0])] ∧ uOf r 40 wf = some 0 := by decide +kernel
theorem test_launch_of_a_bad_packet : uOf (exec (.launch ctl (u 40) (u 27) (im 0)) sla) 40 wf = some 10 := by decide +kernel
theorem test_cancel : next (exec (.cancel ctl .launch (u 26)) sf) (fun t => (t.launches.map fun l => (l.ended, l.status), ((t.core 0).wg 0).isNone)) = some ([(true, 1)], true) := by
  decide +kernel
theorem test_cntw_of_a_running_launch : (waitOf (exec (.cntw ctl .launch (v 12) (im 0)) s1) 0).map (fun w => decide (w = .ready)) = some false := by decide

/-! Class 0xE. -/

theorem test_tlbw : kOf (exec (.tlbw ctl (vp 0) (vp 2) (v 4)) sH) (fun k => k.tlb.map fun e => (e.va, e.pa, e.r)) =
    some [(0x10000, 0x102000000#64, true), (0x40000, 0x102000000#64, true)] := by decide
theorem test_tlbw_of_a_reserved_attribute : let s := onHandler .page (handler .page [lane [(0, 0x40000), (1, 0), (2, 0x2000000), (3, 1), (4, 4)]])
    kOf (exec (.tlbw ctl (vp 0) (vp 2) (v 4)) s) (·.tlb.length) = some 1 := by decide
theorem test_tlbi : kOf (exec (.tlbi ctl true .core .none) sH) (·.tlb) = some [] := by decide
theorem test_tlbq : shOf (exec (.tlbq ctl (v 12) (vp 0)) sd) (fun sh => sh.fills.map (·.kind)) = some [.tlbq] := by decide
theorem test_rfh_ends_the_handler : let r := exec (.rfh ctl .plain) sE
    kOf r (fun k => k.h1.isNone) = some true ∧ lOf r 0 (fun t => (t.wait, t.pc)) ws = some (.ready, 12#32) := by decide
theorem test_trap : evOf (exec (.trap ctl (im 5)) s1) = some (.soft, 15, 0, 3#64) := by decide
theorem test_srd_lane : vOf (exec (.srd ctl (v 12) (.sr .full 0x80#8)) s1) 1 12 = some 1 := by decide
theorem test_swr_rm : lOf (exec (.swr ctl (.sr .full 0x8C#8) (im 3)) s1) 0 (·.rm) = some 3#32 := by decide
theorem test_swr_of_a_reserved_bit : evOf (exec (.swr ctl (.sr .full 0x8C#8) (im 16)) s1) = some (.illegal, 1, 0, 3#64) := by decide
theorem test_mend : vOf (exec (.mend ctl (v 1)) sE) 0 7 = some 5 := by decide

/-! ### Events -/

theorem test_bankAnswer : let r := exec (.bankAnswer ws 5 0) ((onSheet shlf).storeHome (.spad 0 16) (leBytes 4 0x11223344))
    vOf r 0 4 = some 0x11223344 ∧ shOf r (fun sh => (sh.vReg 0 4).full) = some true := by decide +kernel
/-- A load behind its own sheet's queued store takes that store's bytes (R164). -/
theorem test_bankAnswer_forwards : vOf (exec (.bankAnswer ws 5 0) (onSheet shlq)) 0 4 = some 7 := by decide +kernel
theorem test_loadFill_of_a_dead_row : let r := exec (.loadFill ws 5 0 false) (onSheet shdl)
    vOf r 0 4 = some 0 ∧ kOf r (·.l1.length) = some 1 := by decide +kernel
theorem test_storeAccept : next (exec (.storeAccept ws [0]) (onSheet shS)) (fun t => (t.bytesAt (.spad 0 16) 4, (t.sheetAt ws).map (·.sq))) =
    some (leBytes 4 7, some []) := by decide +kernel
theorem test_storeAccept_sends_a_device_store : next (exec (.storeAccept ws [0]) (onSheet shD)) (fun t => t.flights.map (·.target)) = some [.dev 0x102000000] := by decide +kernel
theorem test_storeAcceptHome : next (exec (.storeAcceptHome 0) sT) (fun t => (t.bytesAt (.dev 0x102000000) 4, t.flights)) = some (leBytes 4 7, []) := by decide +kernel
theorem test_atomicPerform : let r := exec (.atomicPerform 0) ({ onSheet { shl4 with fills := [fA] } with engine := [eA], hostMem := [(64, 5#8)] })
    next r (fun t => leNat (t.bytesAt (.host 64) 4)) = some 12 ∧ vOf r 0 4 = some 5 := by decide +kernel
theorem test_monitorFire : vOf (exec (.monitorFire 0) { onSheet { shl4 with fills := [fM] } with monitors := [⟨0, ws, 0, 5, 64, false, 0#64, true, some 7#64, true, .dev⟩] }) 0 4 = some 7 := by
  decide +kernel
/-- MADR of a dead far row that no slot holds gives the row's place: DEADROW is raised for PROMOTE alone; the group goes on. -/
theorem test_controllerAnswer : let r := exec (.controllerAnswer ws 0) (onSheet (sheet [{ lane [(4, 7)] with wait := .blocked (.answers 5) }] |> fun sh => { sh with fills := [fR] }))
    lOf r 0 (fun t => (t.wait, t.pc)) = some (.ready, 12#32) ∧ shOf r (·.fills) = some [] := by decide +kernel
theorem test_windowKillDone : lOf (exec (.windowKillDone ws) (onSheet (sheet [{ lane [] with wait := .blocked .kill }]))) 0 (fun t => (t.wait, t.pc)) = some (.ready, 12#32) := by decide
theorem test_walkEvent : kOf (exec (.walkEvent 0) sW) (fun k => k.h1.map fun h => (h.ev.cause, h.ev.page, (h.sheet.vReg 0 0).val)) = some (some (.walk, [9], 0x90000#32)) := by
  decide +kernel
theorem test_handlerDelivery : kOf (exec (.handlerDelivery 0) sV) (fun k => (k.events, k.h1.map fun h => (h.ev.cause, h.entry))) = some ([], some (.extemu, 3)) := by decide +kernel
theorem test_stallResume : kOf (exec (.stallResume 0) (sH.modCore 0 fun k => { k with stall := some 1 })) (·.stall) = some none := by decide +kernel
theorem test_stallCancel : next (exec (.stallCancel 0) (sH.modCore 0 fun k => { k with stall := some 1 })) (fun t => t.launches.map (·.status)) = some [5] := by decide +kernel
theorem test_stallLimitExpire : kOf (exec (.stallLimitExpire 0) (sH.modCore 0 fun k => { k with stall := some 1 })) (fun k => k.h1.isNone) = some true := by decide +kernel
theorem test_copyStart : kOf (exec (.copyStart 0 3) (sC jc)) (fun k => (k.channel 3).q.map (·.started)) = some [true] := by decide +kernel
theorem test_copyDelivery : let r := exec (.copyDelivery 0 3 64) ((sC { jc with started := true }).storeHome (.spad 0 0) (leBytes 4 0x11223344))
    next r (fun t => t.bytesAt (.spad 0 256) 4) = some (leBytes 4 0x11223344) ∧ kOf r (fun k => k.channel 3) = some ⟨[], 64#64⟩ := by decide +kernel
theorem test_matrixEntryBegin : kOf (exec (.matrixEntryBegin 0) (sM (me (.aclr 0 4) 0 false))) (fun k => k.mq.map (·.begun)) = some [true] := by decide +kernel
/-- One K-step of INT8 over one position: 2 × 3 joins the element's 1. -/
theorem test_matrixEntryComplete : let s := (sM (me (.mloop 1 1 1 1 0 0 64 0 0 0 0x944#32) 0 true)).modCore 0 fun k =>
      { k with spad := [(0, 2#8)], mould := [(0, 3#8)], acc := [(0, 1#32)] }
    kOf (exec (.matrixEntryComplete 0) s) (fun k => (k.accAt 0 0, k.mq)) = some (7#32, []) := by decide +kernel
theorem test_xformStart : kOf (exec (.xformStart 0) (sX { jx with started := false })) (fun k => k.xq.map (·.started)) = some [true] := by decide +kernel
theorem test_xformEnd : next (exec (.xformEnd ⟨0, []⟩) (sX jx)) (fun t => (t.bytesAt (.spad 0 256) 4, leNat (t.bytesAt (.spad 0 1072) 4))) = some ([1#8, 2#8, 3#8, 4#8], 4) := by decide +kernel
theorem test_spawnRecordAccept : kOf (exec (.spawnRecordAccept ws) (sP [])) (fun k => k.bins.map fun b => (b.entry, b.recs.length)) = some [(24#32, 1)] := by decide +kernel
theorem test_binTimerExpire : kOf (exec (.binTimerExpire 0 0) (sP [bin 1])) (fun k => k.bins.map (·.expired)) = some [true] := by decide +kernel
theorem test_deckleLaunch : let r := exec (.deckleLaunch 0 0) (sP [bin 17])
    next r (fun t => (t.sheetAt (.sheet 0 0 1)).map fun sh => (sh.liveLanes.length, (sh.vReg 15 7).val, (sh.lane 3).pc)) = some (some (16, 1#32, 24#32)) ∧
    kOf r (fun k => k.bins.map (·.recs.length)) = some [1] := by decide +kernel
theorem test_sheetEnd : next (exec (.sheetEnd ws) (onSheet she0)) (fun t => (t.launches.map fun l => (l.ended, l.status), ((t.core 0).wg 0).isNone)) = some ([(true, 0)], true) := by
  decide +kernel
theorem test_groupForced : lOf (exec (.groupForced ws 0 257) s1) 0 (fun t => (t.waited, t.forced)) = some (257, true) := by decide +kernel
theorem test_blockRelease : lOf (exec (.blockRelease ws 0) (onSheet (sheet [{ lane [] with wait := .blocked .lwait }]))) 0 (fun t => (t.wait, t.pc)) = some (.ready, 12#32) := by
  decide +kernel
theorem test_generatorRound : let r := exec (.generatorRound ws) (onSheet { sh1 with gen := some { genp with body := .switching, f := 2, a := 0 } })
    shOf r (fun sh => sh.gen.map fun g => (g.body, g.cr)) = some (some (.consumer, 2)) ∧ lOf r 1 (·.pc) = some 24#32 := by decide +kernel
theorem test_generatorResume : lOf (exec (.generatorResume ws) (onSheet { sh1 with gen := some { genp with resume := true, frozen := [(0, { lane [] with pc := 48#32 })] } })) 0 (·.pc) =
    some 48#32 := by decide +kernel
theorem test_quantTick : kOf (exec (.quantTick 0) s1) (·.quant) = some 1999995 := by decide +kernel
/-- 1,000 bytes per µs are 5 bytes in 5 ns, held in 1/256 byte, and the bucket keeps its depth of 65,536. -/
theorem test_tokenTick : next (exec (.tokenTick 1) { s1 with owners := [{ placeOwner with hbmRate := 1000, hbm := 0, lnkRate := 1000 }] }) (fun t => t.owners.map fun o => (o.hbm, o.lnk)) =
    some [(1280, 16777216)] := by decide +kernel
theorem test_ownerSwitch_saves_the_holder : kOf (exec (.ownerSwitch 0 2) (sO keep)) (fun k => (k.switch, k.h1.map fun h => (h.ev.cause, h.entry))) =
    some (some (.saving 2), some (.save, 5)) := by decide +kernel
theorem test_saveGraceExpire_without_an_area : next (exec (.saveGraceExpire 0) { sO (fun k => { k with switch := some (.saving 2), saved := some { vE with wgs := [some (placeGroup none [])] }, h1 := some (handlerOf .page shh) }) with
      owners := [{ o1 with hsaven := 0 }, o2] }) (fun t => t.launches.map (·.status)) = some [6, 0] := by decide +kernel
theorem test_handlerDebtLimit : kOf (exec (.handlerDebtLimit 0) (sO fun k => { k with h1 := some (handlerOf .page shh), quant := -20000 })) (·.switch) = some (some (.saving 2)) := by
  decide +kernel
theorem test_preempt : kOf (exec (.preempt 0 0) sPre) (fun k => (k.wg 0).isNone) = some true := by decide +kernel
theorem test_placeQuire : next (exec (.placeQuire 0 0 [0]) sq4) (fun t => (((t.core 0).wg 0).map fun g => (g.spadSize, g.sheets.length), t.launches.map (·.unplaced))) =
    some (some (8192, 16), [[]]) := by decide +kernel
theorem test_watchdogExpire : next (exec (.watchdogExpire 0 1000000) s1) (fun t => t.launches.map fun l => (l.ended, l.status)) = some [(true, 2)] := by decide +kernel

/-! Queues. -/

theorem test_qwrite_ahead_of_the_ring : next (exec (.qwrite 0 5#32) (sQ [])) (fun t => t.queues.map fun u => (u.enable, u.qerr)) = some [(false, 0xA000000#32)] := by decide +kernel
theorem test_qctlEnable : next (exec (.qctlEnable 0 true 1) (sQ [] off)) (fun t => t.queues.map (·.enable)) = some [true] := by decide +kernel
theorem test_qctlReset : next (exec (.qctlReset 0) (sQ [])) (fun t => t.queues.map (·.qread)) = some [1#32] := by decide +kernel
theorem test_registerWrite_of_qsize : next (exec (.registerWrite 0x10 (leBytes 4 0x25)) (sQ [] off)) (fun t => t.queues.map (·.qsize)) = some [5#32] := by decide +kernel
theorem test_launchPacket : next (exec (.launchPacket 0) (sQ launchP)) (fun t => (t.launches.length, t.queues.map fun u => (u.qread, u.qerr))) = some (2, [(1#32, 0#32)]) := by decide +kernel
theorem test_fencePacket_waits : next (exec (.fencePacket 0) (sQ fenceP)) (fun t => t.queues.map fun u => (u.qread, u.wait)) =
    some [(0#32, .fence [⟨true, 0x2000, 0, 1, false⟩])] := by decide +kernel
theorem test_fenceHostReread : next (exec (.fenceHostReread 0) { sQ fenceP { qu with wait := .fence [⟨true, 0x1000, 0, 1, false⟩] } with hostMem := Memory.write [] 0x1000 fenceP })
    (fun t => t.queues.map (·.qread)) = some [1#32] := by decide +kernel
theorem test_signalPacket_adds : next (exec (.signalPacket 0) (sQ (signalP 0 1))) (fun t => leNat (t.bytesAt (.host 0x2000) 4)) = some 7 := by decide +kernel
theorem test_chainPacket : next (exec (.chainPacket 0) (sQ (chainP 16))) (fun t => t.queues.map fun u => (u.qbase, u.qsize, u.qread)) =
    some [(0x8000000000004000#64, 16#32, 1#32)] := by decide +kernel
theorem test_badPacket : next (exec (.badPacket 0) (sQ [])) (fun t => t.queues.map fun u => (u.qread, u.qerr)) = some [(1#32, 0xA000000#32)] := by decide +kernel
theorem test_flowset : next (exec (.flowset 0) (sK flowP)) (fun t => t.flows.map fun f => (f.port, f.job, f.ch)) = some [(1, 77, 3)] := by decide +kernel
theorem test_flowkill : next (exec (.flowkill 0) { sK killP with flows := [flo] }) (fun t => t.flows) = some [] := by decide +kernel
/-- An N24 answers ABSENT (status 9). -/
theorem test_keyload_of_an_n24 : next (exec (.keyload 0) { sK (keyP 0x12) with variant := .n24 }) (fun t => t.queues.map (·.qerr)) = some [0x9000000#32] := by decide +kernel
theorem test_keyclear : next (exec (.keyclear 0) { sK (keyP 0x13) with keys := [(0, [1#8])] }) (fun t => t.keys) = some [] := by decide +kernel

/-! The outside. -/

theorem test_ingestPacket_lands : let r := exec (.ingestPacket (pk 77)) { sK [] with flows := [flo] }
    next r (fun t => t.bytesAt (.spad 0 65536) 8 ++ t.bytesAt (.spad 0 65552) 4) = some (leBytes 2 4 ++ leBytes 2 5 ++ leBytes 4 9 ++ leBytes 4 5) ∧
    kOf r (fun k => (k.channel 3).p) = some 32#64 := by decide +kernel
theorem test_ingestPacket_without_a_flow : next (exec (.ingestPacket (pk 78)) { sK [] with flows := [flo] }) (fun t => t.mgmt.noflow) = some [0, 1, 0, 0] := by decide +kernel
theorem test_portalRecord : kOf (exec (.portalRecord 1 0 (portalP 0) 0) s1) (fun k => (k.bins.map fun b => (b.entry, b.width, b.c), (k.wg 1).map (·.spadSize))) =
    some ([(24#32, 16, 64)], some 8192) := by decide +kernel
theorem test_inboundWrite_splits_at_granules : next (exec (.inboundWrite 1 false (2 ^ 32 + 255) [1#8, 2#8]) s1) (fun t => t.inbound.map fun i => (i.pa, i.bytes)) =
    some [(2 ^ 32 + 255, [1#8]), (2 ^ 32 + 256, [2#8])] := by decide +kernel
theorem test_inboundWriteForward : next (exec (.inboundWriteForward 0) { s1 with inbound := [inb 1 (2 ^ 32) false] }) (fun t => t.inbound.map (·.forwarded)) = some [true] := by decide +kernel
theorem test_inboundRead : next (exec (.inboundRead 1 (.dev (2 ^ 32)) 2) s1) (fun t => t.readBack) = some [[0#8, 0#8]] := by decide +kernel
theorem test_hostRefuse_of_a_store : next (exec (.hostRefuse (.agent ws) 3 0) { onSheet shl with flights := [{ fT with target := .host 64 }] }) (fun t => (t.mgmt.hostRefuse, t.flights)) =
    some (1, []) := by decide +kernel
theorem test_flitReceive : let s := { s1 with mgmt := { s1.mgmt with links := [(2, 7)] } }
    next (exec (.flitReceive 2 true (2 ^ 32) (.store [9#8])) s) (fun t => t.byteAt (.dev (2 ^ 32))) = some 9#8 ∧
    next (exec (.flitReceive 2 false (2 ^ 32) (.store [9#8])) s) (fun t => t.byteAt (.dev (2 ^ 32))) = some 0#8 := by decide +kernel
theorem test_reset : next (exec .reset s1) (fun t => (t.owners, t.cores.length, t.mgmt.bootstat)) = some ([], 48, .waiting) := by decide +kernel
theorem test_bootctlGo_of_a_scrapped_module : next (exec (.bootctlGo []) { s1 with mgmt := { s1.mgmt with life := .scrapped } }) (fun t => t.mgmt.bootstat) = some .badsig := by decide +kernel
theorem test_bootctlAttgo_before_boot : next (exec .bootctlAttgo s1) (fun t => t.mgmt.reports) = some 0 := by decide +kernel
theorem test_lifecycle : next (exec (.lifecycle 2#32) s1) (fun t => (t.mgmt.life, t.owners)) = some (.secure, []) ∧
    next (exec (.lifecycle 3#32) s1) (fun t => t.mgmt.life) = some .manufacture := by decide +kernel
theorem test_clockThrottle : next (exec (.clockThrottle true) s1) (fun t => t.mgmt.clockStep) = some 1 := by decide +kernel

/-! Device memory and owners. -/

theorem test_refresh : next (exec (.refresh 0 0 3 600) sR) (fun t => t.dram.trackers) = some [] := by decide +kernel
theorem test_patrolScrub_poisons : next (exec (.patrolScrub 0 0 3 600) sR) (fun t => (SMap.get false t.dram.poison (keyR * 8), t.dram.errors)) = some (true, []) := by decide +kernel
theorem test_disturbanceMitigation : next (exec (.disturbanceMitigation 0 0 3 600 1) sR) (fun t => (t.dram.delays, t.hostEvents)) =
    some ([(0, 0, 3, 1)], [.disturbance 1 0 0 3 600]) := by decide +kernel
theorem test_disturbanceDelayExpire : next (exec (.disturbanceDelayExpire 0 0 3 1) { sR with dram := { sR.dram with delays := [(0, 0, 3, 1)] } }) (fun t => t.dram.delays) = some [] := by
  decide +kernel
theorem test_envelopeCreate_before_boot : next (exec (.envelopeCreate envelope) State.reset) (fun t => t.owners.map (·.id)) = some [] := by decide +kernel
theorem test_envelope_record : (ownerOf envelope).id = 3 ∧ (ownerOf envelope).quantum = 2000000 ∧ (ownerOf envelope).nearq = 8 := by decide +kernel
def sRem : State := { s1 with owners := [{ placeOwner with windows := [] }], queues := [] }
theorem test_ownerRemove : next (exec (.ownerRemove 1) sRem) (fun t => (t.core 0).owner) = some none ∧
    next (exec (.ownerRemove 1) sRem) (fun t => t.launches.map (·.status)) = some [1] := by decide +kernel
theorem test_quarantineLift : kOf (exec (.quarantineLift 0 7) (s1.modCore 0 fun k => { k with quarantined := [7, 8] })) (·.quarantined) = some [8] := by decide +kernel
theorem test_hostCancel : next (exec (.hostCancel 0) s1) (fun t => t.launches.map fun l => (l.ended, l.status)) = some [(true, 1)] := by decide +kernel
theorem test_windowGrant : next (exec (.windowGrant 1 0 (leBytes 8 (512 + 512 * 65536 + 2 ^ 48) ++ leBytes 8 0)) s1) (fun t => t.owners.map fun o => o.windows.map fun w => (w.row, w.valid)) =
    some [[(512, true)]] := by decide +kernel
theorem test_softError_of_a_live_row : next (exec (.softError (keyR * 1024)) { sR with dram := { sR.dram with errors := [] } }) (fun t => SMap.get false t.dram.errors (keyR * 512)) = some true := by
  decide +kernel
/-- D = 0x12345678 in a direct window on stack 2 with WROW 512: byte 0x78, pseudo channel 0x70, bank 12, row 548. -/
theorem test_place_of_an_address : (Owner.place .x48 { placeOwner with windows := [⟨512, 512, false, 2, true, false, 0xFF#8, 0xFF#8, 0x1F#5⟩] } 0x2112345678).map
    (fun (p : Place) => (p.stack, p.pc, p.bank, p.row)) = some (2, 0x70, 12, 548) := by decide +kernel

end Sys2Proof.Tests
end

section
/-!
SUPPORT. Lanes and registers read back after the shared operations of a word, and what a producer that empties its destination
changes.
-/

namespace Sys2Proof.Machine

open Sys2Proof.Spec (uncounted)

/-! ### Lanes -/

theorem Sheet.lane_of_le {sh : Sheet} {k : Nat} (h : sh.lanes.length ≤ k) : sh.lane k = Thread.absent := by
  simp [Sheet.lane, List.getD, h]

theorem Sheet.lane_modLane (sh : Sheet) (l k : Nat) (f : Thread → Thread) :
    (sh.modLane l f).lane k = if k = l ∧ l < sh.lanes.length then f (sh.lane k) else sh.lane k := by
  by_cases e : k = l
  · subst e
    by_cases lt : k < sh.lanes.length
    · simp [Sheet.lane, Sheet.modLane, lt]
    · simp [Sheet.lane, Sheet.modLane, lt]
  · simp [Sheet.lane, Sheet.modLane, e, Ne.symm e]

theorem Sheet.lane_modLanes (sh : Sheet) (ls : List Nat) (k : Nat) (f : Thread → Thread) :
    (sh.modLanes ls f).lane k = if k ∈ ls ∧ k < sh.lanes.length then f (sh.lane k) else sh.lane k := by
  by_cases lt : k < sh.lanes.length
  · by_cases m : k ∈ ls <;> simp [Sheet.lane, Sheet.modLanes, lt, m]
  · simp [Sheet.lane, Sheet.modLanes, lt]

theorem lane_stepLanes (ls : List Nat) (y : Bool) (sh : Sheet) (k : Nat) :
    (stepLanes ls y sh).lane k = if k ∈ ls ∧ k < sh.lanes.length then (sh.lane k).stepOn y else sh.lane k :=
  Sheet.lane_modLanes ..

@[simp] theorem Sheet.lane_addFill (sh : Sheet) (f : Fill) (k : Nat) : (sh.addFill f).lane k = sh.lane k := rfl

/-- A change of every lane changes each lane, where it leaves a lane that does not exist as it is. -/
theorem Sheet.lane_map_lanes (sh : Sheet) (f : Thread → Thread) (h : f Thread.absent = Thread.absent) (k : Nat) :
    ({ sh with lanes := sh.lanes.map f } : Sheet).lane k = f (sh.lane k) := by
  simp only [Sheet.lane, List.getD_eq_getElem?_getD, List.getElem?_map]
  cases sh.lanes[k]? with
  | none => simp [h]
  | some t => simp

/-! ### Registers -/

theorem Sheet.vReg_setV (sh : Sheet) (l j k i : Nat) (r : Reg) :
    (sh.setV l j r).vReg k i = if k = l ∧ l < sh.lanes.length ∧ i = j then r else sh.vReg k i := by
  simp only [Sheet.vReg, Sheet.setV, Sheet.lane_modLane]
  by_cases h : k = l ∧ l < sh.lanes.length
  · simp [h, SMap.get_set]
  · rw [if_neg h, if_neg fun ⟨a, b, _⟩ => h ⟨a, b⟩]

@[simp] theorem Sheet.uReg_setV (sh : Sheet) (l j i : Nat) (r : Reg) : (sh.setV l j r).uReg i = sh.uReg i := rfl

@[simp] theorem Sheet.vReg_setU (sh : Sheet) (j k i : Nat) (r : Reg) : (sh.setU j r).vReg k i = sh.vReg k i := rfl

theorem Sheet.uReg_setU (sh : Sheet) (j i : Nat) (r : Reg) : (sh.setU j r).uReg i = if i = j then r else sh.uReg i := by
  simp [Sheet.uReg, Sheet.setU, SMap.get_set]

@[simp] theorem Sheet.uReg_addFill (sh : Sheet) (f : Fill) (i : Nat) : (sh.addFill f).uReg i = sh.uReg i := rfl

@[simp] theorem Sheet.vReg_addFill (sh : Sheet) (f : Fill) (k i : Nat) : (sh.addFill f).vReg k i = sh.vReg k i := rfl

@[simp] theorem vReg_stepLanes (ls : List Nat) (y : Bool) (sh : Sheet) (k i : Nat) : (stepLanes ls y sh).vReg k i = sh.vReg k i := by
  simp only [Sheet.vReg, lane_stepLanes]; split <;> simp

@[simp] theorem uReg_stepLanes (ls : List Nat) (y : Bool) (sh : Sheet) (i : Nat) : (stepLanes ls y sh).uReg i = sh.uReg i := rfl

/-! ### The lanes of a group -/

theorem groupOf_lt {sh : Sheet} {l k : Nat} (h : k ∈ groupOf sh l) : k < sh.lanes.length := by
  unfold groupOf clan at h
  split at h <;> exact List.mem_range.1 (List.mem_filter.1 h).1

theorem groupOf_nodup (sh : Sheet) (l : Nat) : (groupOf sh l).Nodup := by
  unfold groupOf clan
  split <;> exact List.nodup_range.filter _

theorem Grp.of_act_nodup (w : Where) (sh : Sheet) (l : Nat) (c : Ctl) : (Grp.of w sh l c).act.Nodup :=
  (groupOf_nodup sh l).filter _

theorem Grp.of_act_sub {w : Where} {sh : Sheet} {l : Nat} {c : Ctl} {k : Nat} (h : k ∈ (Grp.of w sh l c).act) :
    k ∈ (Grp.of w sh l c).grp := (List.mem_filter.1 h).1

theorem Grp.of_grp_lt {w : Where} {sh : Sheet} {l : Nat} {c : Ctl} {k : Nat} (h : k ∈ (Grp.of w sh l c).grp) :
    k < sh.lanes.length := groupOf_lt h

/-! ### A producer empties its destination (R27) -/

/-- A fold in which one element at most changes what `obs` reads, while each step keeps `inv`. -/
theorem foldl_hit_once {σ α β : Type} (obs : σ → β) (step : σ → α → σ) (chg : β → β) (hits : α → Prop) [DecidablePred hits]
    (inv : σ → Prop) (keep : ∀ s a, inv s → inv (step s a))
    (read : ∀ s a, inv s → obs (step s a) = if hits a then chg (obs s) else obs s) :
    ∀ {xs : List α} {s : σ}, inv s → xs.Nodup → (∀ a ∈ xs, ∀ b ∈ xs, hits a → hits b → a = b) →
      obs (xs.foldl step s) = if ∃ a ∈ xs, hits a then chg (obs s) else obs s
  | [], s, _, _, _ => by simp
  | x :: xs, s, hs, nd, uniq => by
    have hx : x ∉ xs := (List.nodup_cons.1 nd).1
    have ih := foldl_hit_once obs step chg hits inv keep read (keep s x hs) (List.nodup_cons.1 nd).2
      fun a ha b hb => uniq a (.tail _ ha) b (.tail _ hb)
    rw [List.foldl_cons, ih, read s x hs]
    by_cases h : hits x
    · have none_left : ¬ ∃ a ∈ xs, hits a := fun ⟨a, ha, hit⟩ =>
        hx (uniq x (.head _) a (.tail _ ha) h hit ▸ ha)
      simp [h, none_left]
    · simp [h]

/-- One register becomes empty for a producer in a lane, and what awaits it is no longer ready. -/
def Sheet.emptyReg (id l : Nat) (sh : Sheet) (r : Bool × Nat) : Sheet :=
  Sheet.unready r.1 r.2 (sh.modReg l r fun x => x.markEmpty id)

theorem markEmpty_eq (act : List Nat) (quad : Bool) (o : Opd) (id l : Nat) (sh : Sheet) :
    markEmpty act quad o id l sh = if writesHere act o l then (spanRegs quad o).foldl (Sheet.emptyReg id l) sh else sh := rfl

@[simp] theorem Sheet.uReg_unready (b : Bool) (j : Nat) (sh : Sheet) (i : Nat) : (sh.unready b j).uReg i = sh.uReg i := by
  unfold Sheet.unready; split <;> rfl

/-- A register that becomes empty changes no lane but in its wait count. -/
theorem Sheet.uncounted_unready (b : Bool) (j : Nat) (sh : Sheet) (k : Nat) :
    uncounted ((sh.unready b j).lane k) = uncounted (sh.lane k) := by
  unfold Sheet.unready
  split
  · rw [Sheet.lane_map_lanes _ _ rfl]; dsimp only; split <;> rfl
  · rfl

@[simp] theorem Sheet.vReg_unready (b : Bool) (j : Nat) (sh : Sheet) (k i : Nat) : (sh.unready b j).vReg k i = sh.vReg k i :=
  (congrArg (fun t => SMap.get Reg.zero t.v i) (Sheet.uncounted_unready b j sh k) :)

theorem Sheet.vReg_emptyReg (id l : Nat) (sh : Sheet) (r : Bool × Nat) (k i : Nat) :
    (sh.emptyReg id l r).vReg k i =
      if k = l ∧ l < sh.lanes.length ∧ r = (false, i) then (sh.vReg k i).markEmpty id else sh.vReg k i := by
  obtain ⟨b, j⟩ := r
  cases b with
  | true => simp [Sheet.emptyReg, Sheet.modReg]
  | false =>
    simp only [Sheet.emptyReg, Sheet.modReg, Sheet.vReg_unready, Bool.false_eq_true, if_false, Sheet.vReg_setV, Prod.mk.injEq,
      true_and, @eq_comm _ j i]
    split
    · rename_i h; obtain ⟨rfl, -, rfl⟩ := h; rfl
    · rfl

theorem Sheet.uReg_emptyReg (id l : Nat) (sh : Sheet) (r : Bool × Nat) (i : Nat) :
    (sh.emptyReg id l r).uReg i = if r = (true, i) then (sh.uReg i).markEmpty id else sh.uReg i := by
  obtain ⟨b, j⟩ := r
  cases b with
  | false => simp [Sheet.emptyReg, Sheet.modReg]
  | true =>
    simp only [Sheet.emptyReg, Sheet.modReg, Sheet.uReg_unready, if_true, Sheet.uReg_setU, Prod.mk.injEq, true_and, @eq_comm _ j i]
    split
    · subst_vars; rfl
    · rfl

/-- A lane without its V registers and its wait count: what no producer touches as it issues. -/
def Thread.unemptied (t : Thread) : Thread := { t with v := [], waited := 0, forced := false }

/-- Between two sheets only registers have become empty: V registers of the lanes `ls` and W registers, and wait counts with them. -/
structure EmptiesOnly (ls : List Nat) (sh sh' : Sheet) : Prop where
  length : sh'.lanes.length = sh.lanes.length
  lane : ∀ k, (sh'.lane k).unemptied = (sh.lane k).unemptied
  others : ∀ k, k ∉ ls → uncounted (sh'.lane k) = uncounted (sh.lane k)
  rest : { sh' with lanes := [], u := [] } = { sh with lanes := [], u := [] }

theorem EmptiesOnly.refl (ls : List Nat) (sh : Sheet) : EmptiesOnly ls sh sh := ⟨rfl, fun _ => rfl, fun _ _ => rfl, rfl⟩

theorem EmptiesOnly.trans {ls : List Nat} {a b c : Sheet} (h : EmptiesOnly ls a b) (k : EmptiesOnly ls b c) : EmptiesOnly ls a c :=
  ⟨k.length.trans h.length, fun l => (k.lane l).trans (h.lane l), fun l hl => (k.others l hl).trans (h.others l hl),
    k.rest.trans h.rest⟩

theorem EmptiesOnly.foldl {α : Type} {ls : List Nat} {step : Sheet → α → Sheet} :
    ∀ (xs : List α), (∀ a ∈ xs, ∀ sh, EmptiesOnly ls sh (step sh a)) → ∀ sh, EmptiesOnly ls sh (xs.foldl step sh)
  | [], _, sh => .refl ls sh
  | x :: xs, h, sh => (h x (.head _) sh).trans (EmptiesOnly.foldl xs (fun a ha => h a (.tail _ ha)) _)

theorem EmptiesOnly.unready (ls : List Nat) (b : Bool) (j : Nat) (sh : Sheet) : EmptiesOnly ls sh (sh.unready b j) where
  length := by unfold Sheet.unready; split <;> simp
  lane k := congrArg (fun t : Thread => { t with v := [] }) (Sheet.uncounted_unready b j sh k)
  others k _ := Sheet.uncounted_unready b j sh k
  rest := by unfold Sheet.unready; split <;> rfl

theorem EmptiesOnly.modReg {ls : List Nat} {l : Nat} (h : l ∈ ls) (sh : Sheet) (r : Bool × Nat) (f : Reg → Reg) :
    EmptiesOnly ls sh (sh.modReg l r f) := by
  unfold Sheet.modReg
  split
  · exact ⟨rfl, fun _ => rfl, fun _ _ => rfl, rfl⟩
  · refine ⟨by simp [Sheet.setV], fun k => ?_, fun k hk => ?_, rfl⟩
    · simp only [Sheet.setV, Sheet.lane_modLane]; split <;> rfl
    · rw [Sheet.setV, Sheet.lane_modLane, if_neg fun (e : k = l ∧ _) => hk (e.1 ▸ h)]

theorem EmptiesOnly.markEmpty {ls : List Nat} {l : Nat} (h : l ∈ ls) (act : List Nat) (quad : Bool) (o : Opd) (id : Nat) (sh : Sheet) :
    EmptiesOnly ls sh (markEmpty act quad o id l sh) := by
  rw [markEmpty_eq]
  split
  · exact .foldl _ (fun r _ sh => (EmptiesOnly.modReg h sh r _).trans (.unready ls _ _ _)) sh
  · exact .refl ls sh

theorem spanRegs_nodup (quad : Bool) (o : Opd) : (spanRegs quad o).Nodup := by
  cases o with
  | v ew p i => exact List.Pairwise.map _ (fun a b ne e => ne (Nat.add_left_cancel (congrArg Prod.snd e))) List.nodup_range
  | u ew p i => exact List.Pairwise.map _ (fun a b ne e => ne (Nat.add_left_cancel (congrArg Prod.snd e))) List.nodup_range
  | _ => exact List.nodup_nil

theorem length_markEmpty (act : List Nat) (quad : Bool) (o : Opd) (id l : Nat) (sh : Sheet) :
    (markEmpty act quad o id l sh).lanes.length = sh.lanes.length :=
  (EmptiesOnly.markEmpty (List.mem_singleton_self l) act quad o id sh).length

theorem length_emptyReg (id l : Nat) (sh : Sheet) (r : Bool × Nat) : (sh.emptyReg id l r).lanes.length = sh.lanes.length :=
  ((EmptiesOnly.modReg (List.mem_singleton_self l) sh r _).trans (.unready [l] _ _ _)).length

theorem writesHere_of_span {act : List Nat} {quad : Bool} {o : Opd} {l i : Nat} (h : (false, i) ∈ spanRegs quad o) :
    writesHere act o l = true := by
  cases o with
  | u ew p j => simp [spanRegs] at h
  | _ => rfl

theorem writesHere_of_uniform {act : List Nat} {quad : Bool} {o : Opd} {l i : Nat} (h : (true, i) ∈ spanRegs quad o) :
    writesHere act o l = true ↔ act.head? = some l := by
  cases o with
  | u ew p j => simp [writesHere]
  | v ew p j => simp [spanRegs] at h
  | _ => simp [spanRegs] at h

theorem vReg_markEmpty (act : List Nat) (quad : Bool) (o : Opd) (id l : Nat) (sh : Sheet) (k i : Nat) :
    (markEmpty act quad o id l sh).vReg k i =
      if k = l ∧ l < sh.lanes.length ∧ (false, i) ∈ spanRegs quad o then (sh.vReg k i).markEmpty id else sh.vReg k i := by
  have fold := foldl_hit_once (·.vReg k i) (Sheet.emptyReg id l) (·.markEmpty id)
    (fun r => k = l ∧ l < sh.lanes.length ∧ r = (false, i)) (fun x => x.lanes.length = sh.lanes.length)
    (fun x r h => (length_emptyReg id l x r).trans h) (fun x r h => by rw [Sheet.vReg_emptyReg, h])
    rfl (spanRegs_nodup quad o) (fun a _ b _ ha hb => ha.2.2.trans hb.2.2.symm)
  have hits : (∃ r ∈ spanRegs quad o, k = l ∧ l < sh.lanes.length ∧ r = (false, i)) ↔
      k = l ∧ l < sh.lanes.length ∧ (false, i) ∈ spanRegs quad o :=
    ⟨fun ⟨_, m, here, lt, e⟩ => ⟨here, lt, e ▸ m⟩, fun ⟨here, lt, m⟩ => ⟨_, m, here, lt, rfl⟩⟩
  rw [markEmpty_eq]
  by_cases m : (false, i) ∈ spanRegs quad o
  · rw [if_pos (writesHere_of_span m), fold]; simp only [hits]
  · rw [if_neg fun (h : k = l ∧ _) => m h.2.2]
    split
    · exact fold.trans (if_neg fun h => m (hits.1 h).2.2)
    · rfl

theorem uReg_markEmpty (act : List Nat) (quad : Bool) (o : Opd) (id l : Nat) (sh : Sheet) (i : Nat) :
    (markEmpty act quad o id l sh).uReg i =
      if act.head? = some l ∧ (true, i) ∈ spanRegs quad o then (sh.uReg i).markEmpty id else sh.uReg i := by
  have fold := foldl_hit_once (·.uReg i) (Sheet.emptyReg id l) (·.markEmpty id) (fun r => r = (true, i)) (fun _ => True)
    (fun _ _ _ => trivial) (fun x r _ => Sheet.uReg_emptyReg id l x r i) (s := sh)
    trivial (spanRegs_nodup quad o) (fun a _ b _ ha hb => ha.trans hb.symm)
  have hits : (∃ r ∈ spanRegs quad o, r = (true, i)) ↔ (true, i) ∈ spanRegs quad o :=
    ⟨fun ⟨_, m, e⟩ => e ▸ m, fun m => ⟨_, m, rfl⟩⟩
  rw [markEmpty_eq]
  by_cases m : (true, i) ∈ spanRegs quad o
  · by_cases first : act.head? = some l
    · rw [if_pos ((writesHere_of_uniform m).2 first), if_pos ⟨first, m⟩]
      exact fold.trans (if_pos (hits.2 m))
    · rw [if_neg (first ∘ (writesHere_of_uniform m).1), if_neg fun h => first h.1]
  · rw [if_neg fun (h : act.head? = some l ∧ _) => m h.2]
    split
    · exact fold.trans (if_neg fun h => m (hits.1 h))
    · rfl

/-- EMPTY in every executing lane: each lane's V registers once, and W registers once for all lanes (R27). -/
theorem emptied_markEmptyAll {act : List Nat} {sh : Sheet} (nd : act.Nodup) (lt : ∀ k ∈ act, k < sh.lanes.length) (quad : Bool)
    (o : Opd) (id : Nat) : Spec.Emptied sh (markEmptyAll act quad o id sh) act quad o id := by
  constructor
  · intro k i
    have fold := foldl_hit_once (·.vReg k i) (fun sh l => markEmpty act quad o id l sh) (·.markEmpty id)
      (fun l => k = l ∧ l < sh.lanes.length ∧ (false, i) ∈ spanRegs quad o) (fun x => x.lanes.length = sh.lanes.length)
      (fun x l h => (length_markEmpty act quad o id l x).trans h) (fun x l h => by rw [vReg_markEmpty, h])
      rfl nd (fun a _ b _ ha hb => ha.1.symm.trans hb.1)
    have hits : (∃ l ∈ act, k = l ∧ l < sh.lanes.length ∧ (false, i) ∈ spanRegs quad o) ↔ k ∈ act ∧ (false, i) ∈ spanRegs quad o :=
      ⟨fun ⟨l, m, e, _, h⟩ => ⟨e ▸ m, h⟩, fun ⟨m, h⟩ => ⟨k, m, rfl, lt k m, h⟩⟩
    rw [markEmptyAll, fold]; simp only [hits]
  · intro i
    have fold := foldl_hit_once (·.uReg i) (fun sh l => markEmpty act quad o id l sh) (·.markEmpty id)
      (fun l => act.head? = some l ∧ (true, i) ∈ spanRegs quad o) (fun _ => True)
      (fun _ _ _ => trivial) (fun x l _ => uReg_markEmpty act quad o id l x i) (s := sh)
      trivial nd (fun a _ b _ ha hb => Option.some.inj (ha.1.symm.trans hb.1))
    have hits : (∃ l ∈ act, act.head? = some l ∧ (true, i) ∈ spanRegs quad o) ↔ act ≠ [] ∧ (true, i) ∈ spanRegs quad o := by
      cases act <;> simp
    rw [markEmptyAll, fold]; simp only [hits]

theorem EmptiesOnly.markEmptyAll (act : List Nat) (quad : Bool) (o : Opd) (id : Nat) (sh : Sheet) :
    EmptiesOnly act sh (markEmptyAll act quad o id sh) :=
  .foldl act (fun _ h sh => .markEmpty h act quad o id sh) sh

end Sys2Proof.Machine
end

section
/-!
SUPPORT. The workgroup of an agent read back, and which changes of the state leave memory as it was.
-/

namespace Sys2Proof.Machine

open Sys2Proof.Spec (MemoryKept)

/-! ### The workgroup of an agent -/

/-- An agent's sheet is put back without a change of the slot that it reaches. -/
theorem State.wgSlot_putSheet (s : State) (w : Where) (sh' : Sheet) : (s.putSheet w sh').wgSlot w = s.wgSlot w := by
  cases w with
  | front c slot => rfl
  | sheet c slot i => rfl
  | handler c lv =>
    simp only [State.putSheet, State.wgSlot, State.core_modCore]
    split
    · rw [Core.handler_modHandler, if_pos Iff.rfl]; cases (s.core c).handler lv <;> rfl
    · rfl

/-- Of its workgroup an agent's sheet that is put back changes the code alone. -/
theorem State.wgOf_putSheet {s : State} {w : Where} {wg : Workgroup} (sh' : Sheet) (h : s.wgOf w = some wg) :
    ∃ wg', (s.putSheet w sh').wgOf w = some wg' ∧ { wg' with front := wg.front, sheets := wg.sheets } = wg := by
  simp only [State.wgOf, State.wgSlot_putSheet, Option.bind_eq_some_iff] at h ⊢
  obtain ⟨slot, hs, hw⟩ := h
  cases w with
  | front c i =>
    obtain rfl : i = slot := Option.some.inj hs
    simp only [wCore] at hw
    simp only [State.putSheet, wCore, State.core_modCore]
    split
    · exact ⟨{ wg with front := wg.front.map fun _ => sh' }, ⟨i, hs, by rw [Core.wg_modWg_self, hw]; rfl⟩, rfl⟩
    · exact ⟨wg, ⟨i, hs, hw⟩, rfl⟩
  | sheet c i j =>
    obtain rfl : i = slot := Option.some.inj hs
    simp only [wCore] at hw
    simp only [State.putSheet, wCore, State.core_modCore]
    split
    · exact ⟨{ wg with sheets := wg.sheets.modify j (Option.map fun _ => sh') }, ⟨i, hs, by rw [Core.wg_modWg_self, hw]; rfl⟩, rfl⟩
    · exact ⟨wg, ⟨i, hs, hw⟩, rfl⟩
  | handler c lv =>
    refine ⟨wg, ⟨slot, hs, ?_⟩, rfl⟩
    simp only [wCore] at hw
    simp only [State.putSheet, wCore, State.core_modCore]
    split
    · rw [Core.wg_modHandler, hw]
    · exact hw

theorem State.wgSlot_modCore_of_handlers {s : State} {c : Nat} {f : Core → Core} (h : ∀ k lv, (f k).handler lv = k.handler lv) (w : Where) :
    (s.modCore c f).wgSlot w = s.wgSlot w := by
  cases w with
  | front a i => rfl
  | sheet a i j => rfl
  | handler a lv => simp only [State.wgSlot, State.core_modCore]; split <;> simp [h]

/-- A change of the agent's workgroup is read back. -/
theorem State.wgOf_modWgOf {s : State} {w : Where} (lt : wCore w < s.cores.length) (f : Workgroup → Workgroup) :
    (s.modWgOf w f).wgOf w = (s.wgOf w).map f := by
  unfold State.modWgOf
  cases hs : s.wgSlot w with
  | none => simp [State.wgOf, hs]
  | some slot =>
    have same := State.wgSlot_modCore_of_handlers (s := s) (c := wCore w) (f := fun k => k.modWg slot f) (fun _ _ => rfl) w
    simp [State.wgOf, same, hs, State.core_modCore_self _ lt, Core.wg_modWg_self]

/-- A change of workgroups that leaves their code alone is seen by no agent's code. -/
theorem State.sheetAt_modWgOf {f : Workgroup → Workgroup} (code : ∀ u, (f u).front = u.front ∧ (f u).sheets = u.sheets)
    (s : State) (w v : Where) : (s.modWgOf w f).sheetAt v = s.sheetAt v := by
  have wgs : ∀ (k : Core) (slot a : Nat), ((k.modWg slot f).wg a).bind (·.front) = (k.wg a).bind (·.front) ∧
      ∀ j : Nat, (((k.modWg slot f).wg a).bind fun g => (g.sheets[j]?).join) = (k.wg a).bind fun g => (g.sheets[j]?).join := by
    intro k slot a
    rw [Core.wg_modWg]
    split
    · cases k.wg a with
      | none => exact ⟨rfl, fun _ => rfl⟩
      | some u => exact ⟨(code u).1, fun j => by simp [(code u).2]⟩
    · exact ⟨rfl, fun _ => rfl⟩
  unfold State.modWgOf
  split
  · cases v <;> simp only [State.sheetAt, State.core_modCore] <;> split <;> simp only [wgs, Core.handler_modWg]
  · rfl

/-! ### What leaves memory as it was -/

theorem memoryKept_trans {s t u : State} (h : MemoryKept s t) (k : MemoryKept t u) : MemoryKept s u := by
  obtain ⟨a, b, c, d, e, f⟩ := h
  obtain ⟨a', b', c', d', e', f'⟩ := k
  exact ⟨a'.trans a, b'.trans b, c'.trans c, d'.trans d, e'.trans e,
    fun i => ⟨(f' i).1.trans (f i).1, (f' i).2.1.trans (f i).2.1, (f' i).2.2.trans (f i).2.2⟩⟩

/-- A change of a core that leaves its stores alone. -/
theorem memoryKept_modCore {s : State} {c : Nat} {f : Core → Core}
    (h : (f (s.core c)).spad = (s.core c).spad ∧ (f (s.core c)).acc = (s.core c).acc ∧ (f (s.core c)).mould = (s.core c).mould) :
    MemoryKept s (s.modCore c f) := by
  refine ⟨rfl, rfl, rfl, rfl, rfl, fun k => ?_⟩
  rw [State.core_modCore]
  split
  · rename_i e; obtain ⟨rfl, -⟩ := e; exact h
  · exact ⟨rfl, rfl, rfl⟩

theorem memoryKept_putSheet (s : State) (w : Where) (sh : Sheet) : MemoryKept s (s.putSheet w sh) := by
  cases w with
  | front c slot => exact memoryKept_modCore ⟨rfl, rfl, rfl⟩
  | sheet c slot i => exact memoryKept_modCore ⟨rfl, rfl, rfl⟩
  | handler c lv => exact memoryKept_modCore (by simp)

end Sys2Proof.Machine
end

section
/-!
O19: the decision queue of a workgroup and its waiting readers (R18, R79, R314, R315).
-/

namespace Sys2Proof.Machine

open Sys2Proof.Spec (GoesOn Emptied Waits)

/-! ### What a pushed entry does to a workgroup (R79) -/

theorem Workgroup.push_of_no_reader {u : Workgroup} (x : DWord) (h : u.popWait.filter u.waits = []) :
    u.push x = { u with dq := u.dq ++ [x], popWait := [] } := by
  simp [Workgroup.push, h]

theorem Workgroup.push_of_reader {u : Workgroup} (x : DWord) {p : Nat × Nat} {rest : List (Nat × Nat)}
    (h : u.popWait.filter u.waits = p :: rest) :
    u.push x = { u with popWait := rest, sheets := u.sheets.modify p.1 (Option.map fun sh => sh.giveDecision p.2 x) } := by
  simp [Workgroup.push, h]

theorem pushedEntriesGoToTheOldestReader : Spec.PushedEntriesGoToTheOldestReader := by
  refine fun u x => ⟨Workgroup.push_of_no_reader x, fun i n rest h => ?_⟩
  rw [Workgroup.push_of_reader x h]
  refine ⟨rfl, rfl, fun j ne => by simp [ne.symm], fun reader hr => ⟨reader.giveDecision n x, ?_, rfl, rfl, rfl, rfl⟩⟩
  simp [hr]

/-! ### DQPOP -/

/-- The producer of a DQPOP: every executing lane, with the data of the queue's head where it holds one. -/
def popFill (s : State) (g : Grp) (d : Opd) : Fill :=
  ⟨s.nextId, .dqpop, d, g.act.map fun k => ⟨k, 0#64, .ok (.spad (wCore g.w) 0) true, false,
    ((((s.wgOf g.w).map (·.dq)).getD []).head?).map fun x => leBytes 8 x.toNat⟩, g.pc, s.curWord⟩

/-- The sheet after a DQPOP with an executing lane. -/
def popSheet (s : State) (g : Grp) (c : Ctl) (d : Opd) : Sheet :=
  stepLanes g.grp c.yld ((markEmptyAll g.act false d s.nextId g.sh).addFill (popFill s g d))

/-- The workgroup after a DQPOP: its oldest entry is taken, or the reader waits as the youngest. -/
def popGroup (idx id : Nat) (u : Workgroup) : Workgroup :=
  match u.dq with
  | _ :: rest => { u with dq := rest }
  | [] => { u with popWait := u.popWait ++ [(idx, id)] }

/-- The index of an agent's sheet in its workgroup. -/
def sheetIdx : Where → Nat
  | .sheet _ _ i => i
  | _ => 0

theorem exec_dqpop {s : State} {w : Where} {l : Nat} {sh : Sheet} (c : Ctl) (d : Opd) (h : Stands s w l sh) :
    exec (.dqpop c d) s = .next (if (Grp.of w sh l c).act = [] then s.put (Grp.of w sh l c) (stepLanes (Grp.of w sh l c).grp c.yld sh)
      else (s.fresh.2.put (Grp.of w sh l c) (popSheet s (Grp.of w sh l c) c d)).modWgOf w (popGroup (sheetIdx w) s.nextId)) := by
  have run : exec (.dqpop c d) s = execDqpop c d s := rfl
  rw [run, execDqpop, atWord_of_stands h]
  by_cases e : (Grp.of w sh l c).act = []
  · simp [e, finish]
  · simp only [List.isEmpty_iff, e, if_false]
    cases w <;> rfl

@[simp] theorem popGroup_front (idx id : Nat) (u : Workgroup) : (popGroup idx id u).front = u.front := by
  unfold popGroup; split <;> rfl

@[simp] theorem popGroup_sheets (idx id : Nat) (u : Workgroup) : (popGroup idx id u).sheets = u.sheets := by
  unfold popGroup; split <;> rfl

theorem popGroup_dq (idx id : Nat) (u : Workgroup) : (popGroup idx id u).dq = u.dq.drop 1 := by
  unfold popGroup; split <;> simp_all

theorem popGroup_popWait_of_empty {idx id : Nat} {u : Workgroup} (h : u.dq = []) :
    (popGroup idx id u).popWait = u.popWait ++ [(idx, id)] := by
  simp [popGroup, h]

theorem popGroup_popWait_of_entry {idx id : Nat} {u : Workgroup} (h : u.dq ≠ []) : (popGroup idx id u).popWait = u.popWait := by
  unfold popGroup
  split
  · rfl
  · contradiction

/-- A sheet of whose registers a producer has emptied some, and to which it has been added, goes on (R27, R54). -/
theorem goesOn_of_emptiesOnly {g : Grp} {sh sh1 : Sheet} (h : EmptiesOnly g.act sh sh1) (sub : ∀ k ∈ g.act, k ∈ g.grp)
    (lt : ∀ k ∈ g.grp, k < sh.lanes.length) (y : Bool) (f : Fill) : GoesOn g sh (stepLanes g.grp y (sh1.addFill f)) := by
  obtain ⟨length, lane, others, rest⟩ := h
  have steps : ∀ k, (stepLanes g.grp y (sh1.addFill f)).lane k = if k ∈ g.grp then (sh1.lane k).stepOn y else sh1.lane k := by
    intro k
    rw [lane_stepLanes, Sheet.lane_addFill, Sheet.addFill_lanes, length]
    by_cases m : k ∈ g.grp
    · rw [if_pos ⟨m, lt k m⟩, if_pos m]
    · rw [if_neg fun h => m h.1, if_neg m]
  have sq : sh1.sq = sh.sq := (congrArg Sheet.sq rest :)
  have fills : sh1.fills = sh.fills := (congrArg Sheet.fills rest :)
  refine ⟨fun k => ?_, fun k => ?_, fun k hk => ?_, (congrArg Sheet.m rest :), (congrArg Sheet.gen rest :), (congrArg Sheet.pairs rest :),
    (congrArg Sheet.width rest :), (congrArg Sheet.kind rest :), fun e he => by simpa [sq] using he, fun e he => by simp [fills, he]⟩
  · have pc : (sh1.lane k).pc = (sh.lane k).pc := (congrArg Thread.pc (lane k) :)
    rw [steps]; split <;> simp [pc]
  · have p : (sh1.lane k).p = (sh.lane k).p := (congrArg Thread.p (lane k) :)
    have t : (sh1.lane k).t = (sh.lane k).t := (congrArg Thread.t (lane k) :)
    have mode : Spec.laneMode (sh1.lane k) = Spec.laneMode (sh.lane k) := (congrArg Spec.laneMode (lane k) :)
    have astat : (sh1.lane k).astat = (sh.lane k).astat := (congrArg Thread.astat (lane k) :)
    have pend : (sh1.lane k).pend = (sh.lane k).pend := (congrArg Thread.pend (lane k) :)
    rw [steps]; split <;> exact ⟨p, t, mode, astat, pend⟩
  · rw [steps, if_neg hk]; exact others k fun m => hk (sub k m)

section pop
variable (s : State) (w : Where) (l : Nat) (sh : Sheet) (c : Ctl) (d : Opd)

theorem goesOn_popSheet : GoesOn (Grp.of w sh l c) sh (popSheet s (Grp.of w sh l c) c d) :=
  goesOn_of_emptiesOnly (EmptiesOnly.markEmptyAll ..) (fun _ => Grp.of_act_sub) (fun _ => Grp.of_grp_lt) ..

theorem emptied_popSheet :
    Emptied sh (popSheet s (Grp.of w sh l c) c d) (Grp.of w sh l c).act false d s.nextId := by
  obtain ⟨v, u⟩ := emptied_markEmptyAll (Grp.of_act_nodup w sh l c) (fun _ m => Grp.of_grp_lt (Grp.of_act_sub m)) false d s.nextId
  exact ⟨fun k i => by rw [popSheet, vReg_stepLanes]; exact v k i, u⟩

theorem popSheet_sq : (popSheet s (Grp.of w sh l c) c d).sq = sh.sq :=
  (congrArg Sheet.sq (EmptiesOnly.markEmptyAll (Grp.of w sh l c).act false d s.nextId sh).rest :)

theorem popSheet_fills : (popSheet s (Grp.of w sh l c) c d).fills = sh.fills ++ [popFill s (Grp.of w sh l c) d] :=
  congrArg (· ++ _) (congrArg Sheet.fills (EmptiesOnly.markEmptyAll (Grp.of w sh l c).act false d s.nextId sh).rest :)

end pop

/-! ### DQPUSH -/

/-- DQPUSH with a full source: a release at .wg, then room in the queue (R315, R169). -/
theorem exec_dqpush {s : State} {w : Where} {l : Nat} {sh : Sheet} {c : Ctl} {a : Opd} (h : Stands s w l sh)
    (full : Full (Grp.of w sh l c) [(1, false, a)]) :
    exec (.dqpush c a) s = .next (
      let g := Grp.of w sh l c
      if g.act = [] then finish s g c sh
      else if s.released w sh g.act .wg then
        if ((s.wgOf w).map fun wg => wg.dq.length).getD 0 < 64 then
          (finish s g c sh).modWgOf w fun wg => wg.push (rd64 s g a (g.act.headD 0))
        else s.put g (waitHere g .decisions sh)
      else s.put g (waitHere g (.release (laneMask g.act) .wg) sh)) := by
  have run : exec (.dqpush c a) s = execDqpush c a s := rfl
  rw [run, execDqpush, atWord_of_stands h, withSources_of_full full]
  refine congrArg Host.Outcome.next ?_
  cases e : (Grp.of w sh l c).act with
  | nil => simp [e]
  | cons k ks =>
    simp only [withRelease, Grp.of_w, Grp.of_sh, e]
    exact (if_neg (List.cons_ne_nil k ks)).symm

end Sys2Proof.Machine

namespace Sys2Proof.Certificates

open Sys2Proof Sys2Proof.Machine Sys2Proof.Spec

/-- Settles O19: a DQPOP empties its destination and takes the head of the queue or waits for the next entry; a DQPUSH gives its entry to
the oldest reader once its release and the queue let it. -/
theorem decisionQueueIsFirstInFirstOut : Obligations.DecisionQueueIsFirstInFirstOut := by
  refine ⟨fun s w l sh c d a => ?_, pushedEntriesGoToTheOldestReader⟩
  intro g on stands
  refine ⟨?_, ?_, ?_, ?_⟩
  · refine ⟨_, exec_dqpop c d stands, fun e => if_pos e, fun act wg hwg notFront => ?_⟩
    rw [if_neg act]
    have sheet : (s.fresh.2.put g (popSheet s g c d)).sheetAt w = some (popSheet s g c d) := State.sheetAt_putSheet _ stands.2.1
    obtain ⟨wg1, hwg1, same⟩ := State.wgOf_putSheet (s := s.fresh.2) (popSheet s g c d) hwg
    have dq : wg1.dq = wg.dq := (congrArg Workgroup.dq same :)
    have popWait : wg1.popWait = wg.popWait := (congrArg Workgroup.popWait same :)
    refine ⟨popSheet s g c d, popGroup (sheetIdx w) s.nextId wg1, ?_, ?_, goesOn_popSheet .., emptied_popSheet .., popSheet_sq ..,
      ?_, ?_, ?_, ?_, ?_, ?_, ?_⟩
    · rw [State.sheetAt_modWgOf fun u => ⟨popGroup_front .., popGroup_sheets ..⟩]; exact sheet
    · exact (State.wgOf_modWgOf (State.core_lt sheet) _).trans (congrArg (Option.map _) hwg1)
    · rw [popSheet_fills, popFill, Grp.of_w, hwg]; rfl
    · rw [popGroup_dq, dq]
    · rintro empty core slot idx rfl
      rw [popGroup_popWait_of_empty (dq.trans empty), popWait]; rfl
    · intro entry
      rw [popGroup_popWait_of_entry (dq ▸ entry), popWait]
    all_goals simp [State.put]
  · intro full rel room
    have room : ((s.wgOf w).map fun wg => wg.dq.length).getD 0 < 64 := by
      cases hw : s.wgOf w with
      | none => simp
      | some wg => exact room wg hw
    rw [exec_dqpush stands full]
    simp only [show s.released w sh (Grp.of w sh l c).act .wg = true from rel, room, if_true]
    rfl
  · rintro full act rel ⟨wg, hwg, long⟩
    have noRoom : ¬ ((s.wgOf w).map fun wg => wg.dq.length).getD 0 < 64 := by simpa [hwg] using long
    rw [Waits, exec_dqpush stands full]
    simp only [show s.released w sh (Grp.of w sh l c).act .wg = true from rel, noRoom, if_true, if_false]
    rw [if_neg act]; rfl
  · intro full act rel
    rw [Waits, exec_dqpush stands full]
    simp only [show s.released w sh (Grp.of w sh l c).act .wg = false from rel, Bool.false_eq_true, if_false]
    rw [if_neg act]; rfl

end Sys2Proof.Certificates
end

section
/-!
O43: records of spawned threads enter the bins of the vat and become the lanes of new sheets (R19, R26, R74, R76, R357).
-/

namespace Sys2Proof.Machine

open Sys2Proof.Spec (RegsKept MemoryKept EntryRegs)

/-! ### An entry of a store queue is done -/

/-- A lane that wakes keeps its registers. -/
theorem Sheet.wake_lane_v (sh : Sheet) (k : Nat) : (sh.wake.lane k).v = (sh.lane k).v := by
  rw [Sheet.wake, Sheet.lane_map_lanes _ _ rfl]
  split
  · split <;> rfl
  · rfl

@[simp] theorem Sheet.wake_sq (sh : Sheet) : sh.wake.sq = sh.sq := rfl

theorem regsKept_sqDone (sh : Sheet) (id l : Nat) : RegsKept sh (sh.sqDone id l) :=
  ⟨fun k i => congrArg (SMap.get Reg.zero · i) (Sheet.wake_lane_v ((sh.modSq id _).reapSq id) k), fun _ => rfl⟩

theorem regsKept_trans {a b c : Sheet} (h : RegsKept a b) (k : RegsKept b c) : RegsKept a c :=
  ⟨fun l i => (k.1 l i).trans (h.1 l i), fun i => (k.2 i).trans (h.2 i)⟩

/-- The lanes of an entry are done one after the other. -/
def Sheet.sqDoneAll (id : Nat) (xs : List SqLane) (sh : Sheet) : Sheet := xs.foldl (fun sh x => sh.sqDone id x.lane) sh

theorem regsKept_sqDoneAll (id : Nat) : ∀ (xs : List SqLane) (sh : Sheet), RegsKept sh (sh.sqDoneAll id xs)
  | [], _ => ⟨fun _ _ => rfl, fun _ => rfl⟩
  | x :: xs, sh => regsKept_trans (regsKept_sqDone sh id x.lane) (regsKept_sqDoneAll id xs _)

theorem Sheet.sqDone_sq (sh : Sheet) (id l : Nat) :
    (sh.sqDone id l).sq = (sh.sq.map fun e => if e.id = id then e.modLane l fun x => { x with done := true } else e).filter
      fun e => !(e.id == id && e.lanes.all (·.done)) := rfl

/-- Entries of other numbers stay as they are. -/
theorem sqDone_others {rest : List SqEntry} {id : Nat} (l : Nat) (h : ∀ y ∈ rest, y.id ≠ id) :
    ((rest.map fun e => if e.id = id then e.modLane l fun x => { x with done := true } else e).filter
      fun e => !(e.id == id && e.lanes.all (·.done))) = rest := by
  rw [List.map_congr_left (g := fun e => e) fun e m => if_neg (h e m), List.map_id', List.filter_eq_self.2]
  intro e m
  simp [h e m]

theorem Sheet.sqDoneAll_sq_of_others {id : Nat} : ∀ (xs : List SqLane) {sh : Sheet}, (∀ y ∈ sh.sq, y.id ≠ id) →
    (sh.sqDoneAll id xs).sq = sh.sq
  | [], _, _ => rfl
  | x :: xs, sh, h => by
    have same : (sh.sqDone id x.lane).sq = sh.sq := sqDone_others x.lane h
    exact (Sheet.sqDoneAll_sq_of_others xs (by rwa [same])).trans same

/-- The entry at the head leaves its queue once each of its lanes is done. -/
theorem Sheet.sqDoneAll_sq {rest : List SqEntry} : ∀ (xs : List SqLane) {sh : Sheet} {e : SqEntry}, sh.sq = e :: rest →
    (∀ y ∈ rest, y.id ≠ e.id) → xs ≠ [] → (∀ y ∈ e.lanes, y.done = true ∨ ∃ x ∈ xs, x.lane = y.lane) →
    (sh.sqDoneAll e.id xs).sq = rest
  | [], _, _, _, _, ne, _ => absurd rfl ne
  | x :: xs, sh, e, hsq, others, _, cover => by
    let e' := e.modLane x.lane fun y => { y with done := true }
    have queue : (sh.sqDone e.id x.lane).sq = if e'.lanes.all (·.done) then rest else e' :: rest := by
      rw [Sheet.sqDone_sq, hsq, List.map_cons, if_pos rfl, List.filter_cons, sqDone_others x.lane others]
      change (if !(e.id == e.id && e'.lanes.all (·.done)) then e' :: rest else rest) = _
      cases e'.lanes.all (·.done) <;> simp
    by_cases all : e'.lanes.all (·.done) = true
    · rw [if_pos all] at queue
      exact (Sheet.sqDoneAll_sq_of_others xs (by rwa [queue])).trans queue
    · rw [if_neg all] at queue
      have cover' : ∀ y ∈ e'.lanes, y.done = true ∨ ∃ x ∈ xs, x.lane = y.lane := by
        intro y hy
        obtain ⟨z, hz, rfl⟩ := List.mem_map.1 hy
        by_cases now : z.lane = x.lane
        · simp [now]
        · rw [if_neg now]
          rcases cover z hz with done | ⟨a, ha, lane⟩
          · exact .inl done
          · rcases List.mem_cons.1 ha with rfl | ha
            · exact absurd lane.symm now
            · exact .inr ⟨a, ha, lane⟩
      have more : xs ≠ [] := by
        rintro rfl
        exact all (List.all_eq_true.2 fun y hy => by simpa using cover' y hy)
      exact Sheet.sqDoneAll_sq (e := e') xs queue others more cover'

/-! ### Records enter their bin (R74) -/

/-- A core whose bins alone have changed. -/
def Core.withBins (k : Core) (bs : List Bin) : Core := { k with bins := bs }

/-- The bins after records have come: behind those of the bins that accept them, or in a new bin. -/
def Workgroup.binsWith (g : Workgroup) (entry : Word) (width c : Nat) (code : DWord) (rs : List SpawnRec) (bs : List Bin) : List Bin :=
  if bs.any fun b => b.accepts g g.launch g.flat entry width c code then
    bs.map fun b => if b.accepts g g.launch g.flat entry width c code then { b with recs := b.recs ++ rs } else b
  else bs ++ [⟨g.launch, g.flat, entry, width, c, code, rs, false⟩]

/-- Where the vat has room and the key finds a bin, or one is free, the records enter it. -/
theorem Core.spawnInto_of_room {k : Core} {slot : Nat} {g : Workgroup} {entry : Word} {width c : Nat} {code : DWord} {xs : List SqLane}
    (hg : k.wg slot = some g) (vat : k.vatUsed + xs.length ≤ 16384)
    (room : (∃ b ∈ k.bins, b.accepts g g.launch g.flat entry width c code = true) ∨ k.bins.length < 64) :
    k.spawnInto slot entry width c code xs =
      k.withBins (g.binsWith entry width c code (xs.map fun x => recordOf x.bytes) k.bins) := by
  have fits : ¬ 16384 < k.vatUsed + xs.length := by omega
  by_cases found : (k.bins.any fun b => b.accepts g g.launch g.flat entry width c code) = true
  · simp [Core.spawnInto, hg, Core.addRecs, fits, found, Core.withBins, Workgroup.binsWith]
  · have free : k.bins.length < 64 := room.resolve_left fun ⟨b, m, h⟩ => found (List.any_eq_true.2 ⟨b, m, h⟩)
    simp [Core.spawnInto, hg, Core.addRecs, fits, found, free, Core.withBins, Workgroup.binsWith]

theorem Workgroup.binsWith_getElem? {g : Workgroup} {entry : Word} {width c : Nat} {code : DWord} {rs : List SpawnRec} {bs : List Bin}
    (h : ∃ b ∈ bs, b.accepts g g.launch g.flat entry width c code = true) (i : Nat) :
    (g.binsWith entry width c code rs bs)[i]? =
      bs[i]?.map fun b => if b.accepts g g.launch g.flat entry width c code then { b with recs := b.recs ++ rs } else b := by
  rw [Workgroup.binsWith, if_pos (List.any_eq_true.2 h), List.getElem?_map]

theorem Workgroup.binsWith_of_none {g : Workgroup} {entry : Word} {width c : Nat} {code : DWord} {rs : List SpawnRec} {bs : List Bin}
    (h : ∀ b ∈ bs, b.accepts g g.launch g.flat entry width c code = false) :
    g.binsWith entry width c code rs bs = bs ++ [⟨g.launch, g.flat, entry, width, c, code, rs, false⟩] := by
  rw [Workgroup.binsWith, if_neg]
  simpa using h

/-- An agent's code stands as it stood where the bins of its core alone have changed. -/
theorem State.sheetAt_modCore_of_bins {s : State} {c : Nat} {f : Core → Core} {bs : List Bin} (h : f (s.core c) = (s.core c).withBins bs)
    (w : Where) : (s.modCore c f).sheetAt w = s.sheetAt w := by
  cases w <;>
  · simp only [State.sheetAt, State.core_modCore]
    split
    · rename_i e; obtain ⟨rfl, -⟩ := e; rw [h]; rfl
    · rfl

theorem bins_putSheet (s : State) (w : Where) (sh : Sheet) (c : Nat) : ((s.putSheet w sh).core c).bins = (s.core c).bins := by
  cases w <;> simp only [State.putSheet, State.core_modCore] <;> split <;> simp

/-- SPAWN_RECORD_ACCEPT of an entry whose lanes' earlier loads have performed (R74, R357). -/
theorem exec_spawnRecordAccept {s : State} {w : Where} {sh : Sheet} {e : SqEntry} {rest : List SqEntry} {slot : Nat} {entry : Word}
    {width c : Nat} {code : DWord} (hsh : s.sheetAt w = some sh) (hsq : sh.sq = e :: rest) (kind : e.kind = .spawn entry width c code)
    (hslot : s.wgSlot w = some slot) (may : ∀ x ∈ e.lanes, sh.mayAccept e x.lane = true) :
    exec (.spawnRecordAccept w) s =
      .next ((s.modCore (wCore w) fun k => k.spawnInto slot entry width c code e.lanes).modSheet w (·.sqDoneAll e.id e.lanes)) := by
  have run : exec (.spawnRecordAccept w) s = execSpawnRecordAccept w s := rfl
  rw [run, execSpawnRecordAccept]
  simp only [hsh, hsq, kind, hslot, List.all_eq_true.2 may, if_true]
  rfl

/-- The records of the entry at the head enter their bin, and the entry leaves the queue. -/
theorem spawnRecordAccept_moves {s : State} {w : Where} {sh : Sheet} {e : SqEntry} {rest : List SqEntry} {slot : Nat} {entry : Word}
    {width c : Nat} {code : DWord} {g : Workgroup} (hsh : s.sheetAt w = some sh) (hsq : sh.sq = e :: rest)
    (kind : e.kind = .spawn entry width c code) (some_lane : e.lanes ≠ []) (hslot : s.wgSlot w = some slot)
    (hg : (s.core (wCore w)).wg slot = some g) (may : ∀ x ∈ e.lanes, sh.mayAccept e x.lane = true) (others : ∀ y ∈ rest, y.id ≠ e.id)
    (vat : (s.core (wCore w)).vatUsed + e.lanes.length ≤ 16384)
    (room : (∃ b ∈ (s.core (wCore w)).bins, b.accepts g g.launch g.flat entry width c code = true) ∨ (s.core (wCore w)).bins.length < 64) :
    ∃ t sh', exec (.spawnRecordAccept w) s = .next t ∧ t.sheetAt w = some sh' ∧ sh'.sq = rest ∧ RegsKept sh sh' ∧ MemoryKept s t ∧
      (t.core (wCore w)).bins =
        g.binsWith entry width c code (e.lanes.map fun x => recordOf x.bytes) (s.core (wCore w)).bins := by
  let s1 := s.modCore (wCore w) fun k => k.spawnInto slot entry width c code e.lanes
  have entered := Core.spawnInto_of_room hg vat room
  have hsh1 : s1.sheetAt w = some sh := (State.sheetAt_modCore_of_bins entered w).trans hsh
  have core : s1.core (wCore w) = _ := (State.core_modCore_self _ (State.core_lt hsh)).trans entered
  refine ⟨s1.putSheet w (sh.sqDoneAll e.id e.lanes), sh.sqDoneAll e.id e.lanes, ?_, State.sheetAt_putSheet _ hsh1,
    Sheet.sqDoneAll_sq e.lanes hsq others some_lane fun y hy => .inr ⟨y, hy, rfl⟩, regsKept_sqDoneAll .., ?_, ?_⟩
  · rw [exec_spawnRecordAccept hsh hsq kind hslot may]
    simp only [State.modSheet]
    rw [hsh1]
  · exact memoryKept_trans (memoryKept_modCore (by rw [entered]; exact ⟨rfl, rfl, rfl⟩)) (memoryKept_putSheet s1 w _)
  · rw [bins_putSheet, core]; rfl

end Sys2Proof.Machine
end

section
/-!
O43, continued: the timer of a bin, and the sheet that a bin launches (R19, R26, R76).
-/

namespace Sys2Proof.Machine

open Sys2Proof.Spec (RegsKept MemoryKept EntryRegs)

/-- A core that holds a bin is a core of the module. -/
theorem State.core_lt_of_bin {s : State} {core bin : Nat} {b : Bin} (h : (s.core core).bins[bin]? = some b) : core < s.cores.length := by
  refine Decidable.byContradiction fun ge => ?_
  have reset : s.core core = Core.reset := by
    rw [State.core, List.getD_eq_getElem?_getD, List.getElem?_eq_none (Nat.le_of_not_lt ge)]; rfl
  rw [reset] at h
  cases h

/-- A change of an entry that stands in a list puts what it becomes in its place. -/
theorem modify_eq_set {α : Type} : ∀ {xs : List α} {i : Nat} {a : α}, xs[i]? = some a → ∀ f, xs.modify i f = xs.set i (f a)
  | [], _, _, h, _ => nomatch h
  | x :: xs, 0, a, h, f => by cases h; rfl
  | x :: xs, i + 1, a, h, f => congrArg (x :: ·) (modify_eq_set (xs := xs) h f)

/-! ### BIN_TIMER_EXPIRE -/

theorem exec_binTimerExpire {s : State} {core bin : Nat} {b : Bin} (h : (s.core core).bins[bin]? = some b) :
    exec (.binTimerExpire core bin) s = .next (
      if b.recs ≠ [] ∧ (s.core core).binSlot b ≠ none then
        s.modCore core fun k => k.withBins (k.bins.modify bin fun b => { b with expired := true })
      else s) := by
  have run : exec (.binTimerExpire core bin) s = execBinTimerExpire core bin s := rfl
  rw [run, execBinTimerExpire]
  simp only [h, Bool.and_eq_true, Bool.not_eq_true', List.isEmpty_eq_false_iff, Option.isSome_iff_ne_none]
  rfl

theorem binTimerExpire_marks {s : State} {core bin : Nat} {b : Bin} (h : (s.core core).bins[bin]? = some b) (recs : b.recs ≠ [])
    (resident : (s.core core).binSlot b ≠ none) : ∃ t, exec (.binTimerExpire core bin) s = .next t ∧ MemoryKept s t ∧
      (t.core core).bins = (s.core core).bins.set bin { b with expired := true } := by
  refine ⟨_, (exec_binTimerExpire h).trans (by rw [if_pos ⟨recs, resident⟩]), memoryKept_modCore ⟨rfl, rfl, rfl⟩, ?_⟩
  rw [State.core_modCore_self _ (State.core_lt_of_bin h)]
  exact modify_eq_set h _

/-! ### The lane of a record (R19) -/

/-- Words written to the V registers of a starting lane, from a register on. -/
def Thread.withWords (t : Thread) (n : Nat) : List Word → Thread
  | [] => t
  | x :: xs => (t.withV n x).withWords (n + 1) xs

theorem recordLane_eq (pc : Word) (r : SpawnRec) : recordLane pc r = { (Thread.start pc).withWords 0 r.words with join := r.join } := by
  have fold : ∀ (ws : List Word) (n : Nat) (t : Thread),
      (ws.foldl (fun (a : Nat × Thread) x => (a.1 + 1, a.2.withV a.1 x)) (n, t)).2 = t.withWords n ws := by
    intro ws
    induction ws with
    | nil => exact fun _ _ => rfl
    | cons x xs ih => exact fun n t => ih (n + 1) (t.withV n x)
  rw [recordLane, fold]

/-- The words stand in their registers, and nothing else of the lane changes. -/
theorem Thread.withWords_frame : ∀ (ws : List Word) (t : Thread) (n : Nat), { t.withWords n ws with v := t.v } = t
  | [], _, _ => rfl
  | x :: xs, t, n => congrArg (fun u : Thread => { u with v := t.v }) (Thread.withWords_frame xs (t.withV n x) (n + 1))

theorem Thread.withWords_v : ∀ (ws : List Word) (t : Thread) (n i : Nat), SMap.get Reg.zero (t.withWords n ws).v i =
    if h : n ≤ i ∧ i - n < ws.length then ⟨ws[i - n], []⟩ else SMap.get Reg.zero t.v i
  | [], _, _, _ => by simp [Thread.withWords]
  | x :: xs, t, n, i => by
    rw [Thread.withWords, Thread.withWords_v xs, Thread.withV, SMap.get_set]
    by_cases here : i = n
    · subst here
      have later : ¬ i + 1 ≤ i := by omega
      simp [later]
    · by_cases above : n + 1 ≤ i
      · have shift : i - n = (i - (n + 1)) + 1 := by omega
        simp [here, above, shift, show n ≤ i by omega]
      · have below : ¬ n ≤ i := by omega
        simp [here, above, below]

theorem recordLane_starts (pc : Word) (r : SpawnRec) :
    (recordLane pc r).live = true ∧ (recordLane pc r).pc = pc ∧ (recordLane pc r).wait = .ready ∧ (recordLane pc r).join = r.join ∧
      (recordLane pc r).p = 0#64 := by
  have frame := Thread.withWords_frame r.words (Thread.start pc) 0
  rw [recordLane_eq]
  exact ⟨(congrArg Thread.live frame :), (congrArg Thread.pc frame :), (congrArg Thread.wait frame :), rfl, (congrArg Thread.p frame :)⟩

theorem recordLane_v (pc : Word) (r : SpawnRec) (i : Nat) :
    SMap.get Reg.zero (recordLane pc r).v i = ⟨(r.words[i]?).getD 0#32, []⟩ := by
  rw [recordLane_eq]
  refine (Thread.withWords_v r.words (Thread.start pc) 0 i).trans ?_
  by_cases h : i < r.words.length <;> simp [h, Thread.start, SMap.get, Reg.zero]

/-! ### The sheet of a bin (R19) -/

theorem deckleSheet_lane_of_record {b : Bin} {age l : Nat} {r : SpawnRec} (lt : l < b.width) (h : b.recs[l]? = some r) :
    (deckleSheet b (b.recs.take b.width) age).lane l = recordLane b.entry r := by
  obtain ⟨len, get⟩ := List.getElem?_eq_some_iff.1 h
  have l1 : l < ((b.recs.take b.width).map (recordLane b.entry)).length := by
    simp only [List.length_map, List.length_take]; omega
  rw [Sheet.lane, deckleSheet, List.getD_eq_getElem?_getD, List.getElem?_append_left l1, List.getElem?_map, List.getElem?_take,
    if_pos lt, h]
  rfl

theorem deckleSheet_lane_unfilled {b : Bin} {age l : Nat} (h : b.recs.length ≤ l) :
    (deckleSheet b (b.recs.take b.width) age).lane l = Thread.absent := by
  have l1 : ((b.recs.take b.width).map (recordLane b.entry)).length ≤ l := by
    simp only [List.length_map, List.length_take]; omega
  rw [Sheet.lane, deckleSheet, List.getD_eq_getElem?_getD, List.getElem?_append_right l1, List.getElem?_replicate]
  split <;> rfl

theorem deckleSheet_length (b : Bin) (age : Nat) : (deckleSheet b (b.recs.take b.width) age).lanes.length = b.width := by
  simp only [deckleSheet, List.length_append, List.length_map, List.length_take, List.length_replicate]; omega

theorem deckleSheet_entryRegs {b : Bin} {age l : Nat} {r : SpawnRec} (lt : l < b.width) (h : b.recs[l]? = some r) :
    EntryRegs (deckleSheet b (b.recs.take b.width) age) l r.words := by
  have lane := deckleSheet_lane_of_record (age := age) lt h
  have reg : ∀ i, (deckleSheet b (b.recs.take b.width) age).vReg l i = ⟨(r.words[i]?).getD 0#32, []⟩ := fun i => by
    rw [Sheet.vReg, lane, recordLane_v]
  refine ⟨fun i x hx => by rw [reg, hx]; rfl, fun i hi => by rw [reg, List.getElem?_eq_none hi]; rfl, ?_⟩
  rw [lane]; exact (recordLane_starts b.entry r).2.2.2.2

/-! ### DECKLE_LAUNCH (R76) -/

/-- A launch of the deckle on a core: the new sheet is in its workgroup, and its records are gone from their bin. -/
def Core.launchBin (age slot i bin : Nat) (b : Bin) (k : Core) : Core :=
  { (k.modWg slot fun g => g.putNew i (deckleSheet b (b.recs.take b.width) age)) with
    bins := if b.recs.length ≤ b.width then k.bins.eraseIdx bin
      else k.bins.set bin { b with recs := b.recs.drop b.width, expired := false } }

theorem exec_deckleLaunch {s : State} {core bin slot i : Nat} {b : Bin} {g : Workgroup} (h : (s.core core).bins[bin]? = some b)
    (hslot : (s.core core).binSlot b = some slot) (hg : (s.core core).wg slot = some g) (free : g.freeSheet = some i) (recs : b.recs ≠ [])
    (due : b.width ≤ b.recs.length ∨ b.expired = true) (switch : (s.core core).switch = none)
    (fits : (s.core core).quadFits (i % 4) [(b.width, b.c)] = true) :
    exec (.deckleLaunch core bin) s = .next (
      let t := s.modCore core (Core.launchBin s.clock slot i bin b)
      if g.portal.isSome then t.acquire core .sys else t) := by
  have run : exec (.deckleLaunch core bin) s = execDeckleLaunch core bin s := rfl
  have goes : (b.recs.isEmpty || !(decide (b.width ≤ b.recs.length) || b.expired) || (s.core core).switch.isSome ||
      !(s.core core).quadFits (i % 4) [(b.width, b.c)]) = false := by
    simpa [recs, switch, fits] using fun lt => due.resolve_left (by omega)
  have left : ∀ k : Core, (if (b.recs.drop b.width).isEmpty then k.bins.eraseIdx bin
      else k.bins.set bin { b with recs := b.recs.drop b.width, expired := false }) =
      (k.launchBin s.clock slot i bin b).bins := fun k => by simp [Core.launchBin]
  rw [run, execDeckleLaunch]
  simp only [h, hslot, hg, free, Option.bind_some, Option.map_some, goes, Bool.false_eq_true, if_false, left]
  rfl

theorem deckleLaunch_of_not_due {s : State} {core bin : Nat} {b : Bin} (h : (s.core core).bins[bin]? = some b)
    (few : b.recs.length < b.width) (running : b.expired = false) : exec (.deckleLaunch core bin) s = .next s := by
  have run : exec (.deckleLaunch core bin) s = execDeckleLaunch core bin s := rfl
  have notDue : (decide (b.width ≤ b.recs.length) || b.expired) = false := by simp [running, few]
  rw [run, execDeckleLaunch]
  simp only [h, notDue, Bool.not_false, Bool.or_true, Bool.true_or, if_true]
  split
  · rfl
  · split <;> rfl

/-- A start of a portal thread is an acquire: it changes no code, no bin and no memory. -/
theorem acquired_core (s : State) (c d : Nat) (portal : Bool) :
    let t := if portal then s.acquire c .sys else s
    (∀ a, (t.core d).wg a = (s.core d).wg a) ∧ (t.core d).bins = (s.core d).bins := by
  cases portal with
  | false => exact ⟨fun _ => rfl, rfl⟩
  | true =>
    have eq : (s.acquire c .sys) = ((s.dropL1 c).modCore c fun k => { k with acquired := s.nextId }) := rfl
    simp only [if_true, eq, State.dropL1, State.core_modCore]
    split <;> split <;> exact ⟨fun _ => rfl, rfl⟩

theorem memoryKept_acquire (s : State) (c : Nat) (portal : Bool) : MemoryKept s (if portal then s.acquire c .sys else s) := by
  cases portal with
  | false => exact ⟨rfl, rfl, rfl, rfl, rfl, fun _ => ⟨rfl, rfl, rfl⟩⟩
  | true => exact memoryKept_trans (t := s.dropL1 c) (memoryKept_modCore ⟨rfl, rfl, rfl⟩) (memoryKept_modCore ⟨rfl, rfl, rfl⟩)

theorem Workgroup.freeSheet_lt {g : Workgroup} {i : Nat} (h : g.freeSheet = some i) : i < 16 :=
  List.mem_range.1 (List.mem_of_find?_eq_some h)

/-- A new sheet stands in its index of the workgroup, and every other one as before. -/
theorem Workgroup.putNew_sheets (g : Workgroup) {i : Nat} (lt : i < 16) (sh : Sheet) (j : Nat) :
    ((g.putNew i sh).sheets[j]?).join = if j = i then some sh else (g.sheets[j]?).join := by
  have room : i < (g.sheets ++ List.replicate (16 - g.sheets.length) none).length := by simp; omega
  rw [Workgroup.putNew]
  by_cases here : j = i
  · subst here; simp [List.getElem?_set_self room]
  · simp only [List.getElem?_set_ne (Ne.symm here), here, if_false, List.getElem?_append]
    split
    · rfl
    · rename_i ge
      rw [List.getElem?_replicate, List.getElem?_eq_none (Nat.le_of_not_lt ge)]
      split <;> rfl

theorem deckleLaunch_starts {s : State} {core bin slot i : Nat} {b : Bin} {g : Workgroup} (h : (s.core core).bins[bin]? = some b)
    (hslot : (s.core core).binSlot b = some slot) (hg : (s.core core).wg slot = some g) (free : g.freeSheet = some i) (recs : b.recs ≠ [])
    (due : b.width ≤ b.recs.length ∨ b.expired = true) (switch : (s.core core).switch = none)
    (fits : (s.core core).quadFits (i % 4) [(b.width, b.c)] = true) :
    ∃ t, exec (.deckleLaunch core bin) s = .next t ∧
      t.sheetAt (.sheet core slot i) = some (deckleSheet b (b.recs.take b.width) s.clock) ∧
      (t.core core).bins = (if b.recs.length ≤ b.width then (s.core core).bins.eraseIdx bin
        else (s.core core).bins.set bin { b with recs := b.recs.drop b.width, expired := false }) ∧
      (∀ a j, (a, j) ≠ (slot, i) → t.sheetAt (.sheet core a j) = s.sheetAt (.sheet core a j)) ∧ MemoryKept s t := by
  have i_lt := Workgroup.freeSheet_lt free
  let s1 := s.modCore core (Core.launchBin s.clock slot i bin b)
  obtain ⟨wgs, bins⟩ := acquired_core s1 core core g.portal.isSome
  have core1 : s1.core core = Core.launchBin s.clock slot i bin b (s.core core) := State.core_modCore_self _ (State.core_lt_of_bin h)
  have wg1 : ∀ a, (s1.core core).wg a = if a = slot then ((s.core core).wg a).map fun g => g.putNew i (deckleSheet b (b.recs.take b.width) s.clock)
      else (s.core core).wg a := fun a => by rw [core1]; exact Core.wg_modWg ..
  refine ⟨_, exec_deckleLaunch h hslot hg free recs due switch fits, ?_, ?_, ?_, ?_⟩
  · rw [State.sheetAt, wgs, wg1, if_pos rfl, hg]
    exact (Workgroup.putNew_sheets g i_lt _ i).trans (if_pos rfl)
  · rw [bins, core1]; rfl
  · intro a j ne
    rw [State.sheetAt, wgs, wg1]
    split
    · rename_i here
      subst here
      have other : j ≠ i := fun e => ne (e ▸ rfl)
      rw [State.sheetAt, hg]
      exact (Workgroup.putNew_sheets g i_lt _ j).trans (if_neg other)
    · rfl
  · exact memoryKept_trans (t := s1) (memoryKept_modCore ⟨rfl, rfl, rfl⟩) (memoryKept_acquire ..)

end Sys2Proof.Machine

namespace Sys2Proof.Certificates

open Sys2Proof Sys2Proof.Machine Sys2Proof.Spec

/-- Settles O43: the records of the entry at a queue's head enter one bin in lane order, an expired timer marks its bin, and a launch makes the
records of its bin the lanes of a new sheet. -/
theorem spawnedRecordsBecomeSheets : Obligations.SpawnedRecordsBecomeSheets := by
  refine ⟨fun s w sh e rest slot entry width cc code g => ?_,
    fun s core bin b hb => ⟨binTimerExpire_marks hb, ?_, ?_, deckleLaunch_of_not_due hb⟩⟩
  · intro k recs takes hsh hsq kind someLane hslot hg may others vat
    have moves := spawnRecordAccept_moves hsh hsq kind someLane hslot hg may others (by simpa [recs] using vat)
    constructor
    · intro i b hb taken
      have accepts : ∃ b ∈ k.bins, takes b = true := ⟨b, List.mem_of_getElem? hb, taken⟩
      obtain ⟨t, sh', run, hsh', hsq', regs, mem, bins⟩ := moves (.inl accepts)
      have at_ : ∀ j, (t.core (wCore w)).bins[j]? = k.bins[j]?.map fun b => if takes b then { b with recs := b.recs ++ recs } else b :=
        fun j => by rw [bins]; exact Workgroup.binsWith_getElem? accepts j
      refine ⟨t, sh', run, hsh', hsq', regs, mem, ?_, fun j b' hb' left => ?_⟩
      · rw [at_, hb, Option.map_some, if_pos taken]
      · rw [at_, hb', Option.map_some, if_neg (by simp [left])]
    · intro none_takes room
      obtain ⟨t, sh', run, hsh', hsq', regs, mem, bins⟩ := moves (.inr room)
      exact ⟨t, sh', run, hsh', hsq', regs, mem, bins.trans (Workgroup.binsWith_of_none none_takes)⟩
  · intro none_left
    rw [exec_binTimerExpire hb, if_neg fun h => h.1 none_left]
  · intro slot g i hslot hg free recs due switch fits
    obtain ⟨t, run, hsh, bins, others, mem⟩ := deckleLaunch_starts hb hslot hg free recs due switch fits
    refine ⟨t, _, run, hsh, rfl, rfl, rfl, rfl, deckleSheet_length .., fun l r lt hr => ?_, fun l unfilled => ?_, bins, others, mem⟩
    · obtain ⟨live, pc, wait, join, -⟩ := recordLane_starts b.entry r
      rw [deckleSheet_lane_of_record lt hr]
      exact ⟨live, pc, wait, join, deckleSheet_entryRegs lt hr⟩
    · rw [deckleSheet_lane_unfilled unfilled]; rfl

end Sys2Proof.Certificates
end

section
/-!
O57: what a reset leaves (R19, R190, R200, R242, R273).
-/

namespace Sys2Proof.Machine

/-- No workgroup stands in a core after reset. -/
theorem Core.reset_wg (slot : Nat) : Core.reset.wg slot = none := by
  simp only [Core.wg, Core.reset, List.getElem?_replicate]
  split <;> rfl

/-- Every byte of a core's image is zero after reset (R200). -/
theorem Core.reset_imageByte (a : Nat) : Core.reset.imageByte a = 0#8 := by
  have acc : BitVec.extractLsb' (a % 4 * 8) 8 0#32 = 0#8 := BitVec.extractLsb'_zero ..
  unfold Core.imageByte
  split
  · rfl
  split
  · exact acc
  split
  · rfl
  split
  · rfl
  split <;> rfl

/-- Every copy channel of a core has counted nothing after reset. -/
theorem Core.reset_channel (ch : Nat) : Core.reset.channel ch = Channel.reset := by
  simp only [Core.channel, Core.reset, List.getD_eq_getElem?_getD, List.getElem?_replicate]
  split <;> rfl

/-- A module that starts after a reset is a wiped one, whatever its fused values are (R200, R273). -/
theorem resetWith_wiped (v : Variant) (life : LifeState) (leaf silicon : Nat) :
    Spec.WipedModule (State.resetWith v life leaf silicon) (State.resetWith v life leaf silicon) life := by
  have queues : ∀ u ∈ (State.resetWith v life leaf silicon).queues, u = Queue.reset := fun u hu => List.eq_of_mem_replicate hu
  have cores : ∀ k ∈ (State.resetWith v life leaf silicon).cores, k = Core.reset := fun k hk => List.eq_of_mem_replicate hk
  refine ⟨rfl, List.length_replicate, rfl, rfl, rfl, rfl, rfl, rfl, rfl, rfl, rfl, List.length_replicate, fun u hu => ?_, fun k hk => ?_,
    fun _ => rfl, rfl, rfl, fun _ => rfl, rfl, rfl, rfl, rfl, rfl, rfl, rfl, rfl, rfl, rfl, fun _ => rfl, fun _ _ => rfl⟩
  · rw [queues u hu]; exact ⟨rfl, rfl, rfl, rfl, rfl, rfl, rfl⟩
  · rw [cores k hk]
    exact ⟨rfl, Core.reset_wg, rfl, rfl, rfl, rfl, rfl, rfl, Core.reset_imageByte, fun ch => by rw [Core.reset_channel]; rfl⟩

end Sys2Proof.Machine

namespace Sys2Proof.Certificates

open Sys2Proof Sys2Proof.Machine

/-- Settles O57: a reset module is wiped, its memories are empty lists, and each ring is at its default. -/
theorem resetLeavesItsValues : Obligations.ResetLeavesItsValues :=
  ⟨resetWith_wiped .x48 .manufacture 0 1, reset_canonical, rfl, fun _ hn => List.eq_of_mem_replicate hn, List.length_replicate,
    List.length_replicate, rfl, rfl, fun _ _ => rfl, fun _ => rfl⟩

end Sys2Proof.Certificates
end

section
/-!
O18: GTAKE, TLBQ, RDWP and LWAIT (R90, R97, R142, R149, R168, R218, R348).
-/

namespace Sys2Proof.Machine

open Sys2Proof.Spec (Issues RegsKept Waits CanTrap trapped near)

/-! ### A word issues a producer (R27, R54) -/

theorem EmptiesOnly.mono {ls ms : List Nat} {a b : Sheet} (sub : ∀ k ∈ ls, k ∈ ms) (h : EmptiesOnly ls a b) : EmptiesOnly ms a b :=
  ⟨h.length, h.lane, fun k out => h.others k fun m => out (sub k m), h.rest⟩

/-- The performing lanes are executing lanes, in their order (R22). -/
theorem performers_sublist (act : List Nat) (d : Opd) : (performers act d).Sublist act := by
  cases d with
  | u _ _ _ => exact List.take_sublist 1 act
  | _ => exact List.Sublist.refl act

theorem performers_eq_nil {act : List Nat} {d : Opd} : performers act d = [] ↔ act = [] := by
  cases d with
  | u _ _ _ => simp [performers]
  | _ => exact Iff.rfl

/-- Producers of lanes that their own core serves stand in the order of those lanes. -/
theorem map_lane_near (ls : List Nat) (va : Nat → DWord) (t : Nat → Target) :
    (ls.map fun k => near k (va k) (t k)).map (·.lane) = ls := by
  rw [List.map_map]; exact List.map_id ls

/-- A word that empties its destination in some executing lanes, adds their producer and goes on has issued that producer. -/
theorem issues_of_finish {s : State} {w : Where} {sh : Sheet} {l : Nat} {c : Ctl} {i : Instr} {kind : FillKind} {quad : Bool} {d : Opd}
    {ls : List Nat} {lanes : List LaneReq} (sub : ls.Sublist (Grp.of w sh l c).act) (names : lanes.map (·.lane) = ls)
    (run : exec i s = .next (finish s.fresh.2 (Grp.of w sh l c) c ((markEmptyAll ls quad d s.nextId sh).addFill
      ⟨s.nextId, kind, d, lanes, (Grp.of w sh l c).pc, s.curWord⟩))) :
    Issues s w sh (Grp.of w sh l c) i kind quad d lanes := by
  have empties : EmptiesOnly ls sh (markEmptyAll ls quad d s.nextId sh) := .markEmptyAll ..
  obtain ⟨v, u⟩ := emptied_markEmptyAll ((Grp.of_act_nodup w sh l c).sublist sub)
    (fun _ m => Grp.of_grp_lt (Grp.of_act_sub (sub.subset m))) quad d s.nextId
  refine ⟨_, run, goesOn_of_emptiesOnly (empties.mono fun _ m => sub.subset m) (fun _ => Grp.of_act_sub) (fun _ => Grp.of_grp_lt) .., ?_,
    (congrArg Sheet.sq empties.rest :), congrArg (· ++ _) (congrArg Sheet.fills empties.rest :)⟩
  rw [names]
  exact ⟨fun k j => by rw [vReg_stepLanes]; exact v k j, u⟩

/-! ### A word traps outside a handler (R36, R220) -/

theorem trapAt_eq_trapped {s : State} {g : Grp} (can : CanTrap s g) (c : Cause) (slot : Nat) (acc : Acc) (lanes : List Nat)
    (addr : Nat → DWord) : trapAt s g c slot acc lanes addr = trapped s g c slot (accCode acc) lanes addr :=
  takeTrap_ordinary _ can.1 can.2

theorem trapActive_eq_trapped {s : State} {g : Grp} (can : CanTrap s g) (act : g.act ≠ []) (c : Ctl) (cause : Cause) (slot : Nat) :
    trapActive s g c cause slot = trapped s g cause slot 0 g.act fun _ => 0#64 := by
  rw [trapActive, if_neg (by simpa using act)]
  exact takeTrap_ordinary _ can.1 can.2

/-! ### A word that raises no flags (R60) -/

theorem Sheet.status_zero (sh : Sheet) (l : Nat) : sh.status l 0#7 = sh := by
  have same : (fun t : Thread => t.status 0#7) = id := funext fun t => by simp [Thread.status]
  rw [Sheet.status, Sheet.modLane, same, List.modify_id]

theorem landed_of_no_flags (s : State) (g : Grp) (c : Ctl) (d : Opd) (f : Nat → DWord) :
    landed s g c d (fun l => (f l, 0#7)) = finish s g c (g.act.foldl (fun sh l => wr g.act d l (f l) sh) g.sh) := by
  simp only [landed, finish, Sheet.status_zero]

/-! ### The whole group blocks (R54) -/

/-- A lane that blocks at its word. -/
def Thread.blockAt (b : Block) (yld : Bool) (t : Thread) : Thread :=
  { t with wait := .blocked b, slot := none, waited := 0, forced := false, yieldMark := t.yieldMark || yld }

/-- Where the whole group blocks, no lane of it goes on. -/
theorem lane_blockGroup (g : Grp) (b : Block) (yld : Bool) (sh : Sheet) (k : Nat) :
    (blockGroup g b yld sh).lane k = if k ∈ g.grp ∧ k < sh.lanes.length then (sh.lane k).blockAt b yld else sh.lane k := by
  have none_left : g.grp.filter (fun l => !g.grp.contains l) = [] := by simp [List.filter_eq_nil_iff]
  have length : (stepLanes [] yld sh).lanes.length = sh.lanes.length := by simp [stepLanes, Sheet.modLanes]
  simp only [blockGroup, blockLanes, none_left, Sheet.lane_modLanes, length, lane_stepLanes, List.not_mem_nil, false_and, if_false]
  rfl

theorem regsKept_blockGroup (g : Grp) (b : Block) (yld : Bool) (sh : Sheet) : RegsKept sh (blockGroup g b yld sh) := by
  refine ⟨fun k i => ?_, fun _ => rfl⟩
  simp only [Sheet.vReg, lane_blockGroup]
  split <;> rfl

/-! ### The four words at a ready group with an executing lane -/

section words
variable {s : State} {w : Where} {l : Nat} {sh : Sheet} (c : Ctl) (d : Opd)
  (stands : Stands s w l sh) (act : (Grp.of w sh l c).act ≠ [])
include stands act

/-- GTAKE in the consumer body: each executing lane loads the felt entry of its round (R90). -/
theorem gtake_issues {gen : Gen} (body : consuming sh = some gen) :
    Issues s w sh (Grp.of w sh l c) (.gtake c d)
      (.gtake ((Grp.of w sh l c).act.map fun k => (k, SMap.get 0 gen.srcl (gen.slotOf k)))) false d
      ((Grp.of w sh l c).act.map fun k =>
        near k (BitVec.ofNat 64 (gen.base + 8 * gen.slotOf k)) ((s.alloc w).target (BitVec.ofNat 64 (gen.base + 8 * gen.slotOf k)))) := by
  have unfolds : exec (.gtake c d) s = execGtake c d s := rfl
  refine issues_of_finish (List.Sublist.refl _) (map_lane_near ..) ?_
  rw [unfolds, execGtake, atWord_of_stands stands]
  simp only [Grp.of_sh, body, List.isEmpty_iff, act, if_false]
  rfl

theorem gtake_traps (body : consuming sh = none) (can : CanTrap s (Grp.of w sh l c)) :
    exec (.gtake c d) s = .next (trapped s (Grp.of w sh l c) .illegal 15 0 (Grp.of w sh l c).act fun _ => 0#64) := by
  have unfolds : exec (.gtake c d) s = execGtake c d s := rfl
  rw [unfolds, execGtake, atWord_of_stands stands]
  simp only [Grp.of_sh, body, trapActive_eq_trapped can act]

theorem tlbq_issues {a : Opd} (full : Full (Grp.of w sh l c) [(1, false, a)]) :
    Issues s w sh (Grp.of w sh l c) (.tlbq c d a) .tlbq false d
      ((performers (Grp.of w sh l c).act d).map fun k => near k (rd64 s (Grp.of w sh l c) a k) (.spad (wCore w) 0)) := by
  have unfolds : exec (.tlbq c d a) s = execTlbq c d a s := rfl
  refine issues_of_finish (performers_sublist _ d) (map_lane_near ..) ?_
  rw [unfolds, execTlbq, atWord_of_stands stands, withSources_of_full full]
  simp only [List.isEmpty_iff, performers_eq_nil, act, if_false]
  rfl

/-- The rank is that of the agent's own workgroup. -/
def ownRank (s : State) (w : Where) (rank : BitVec 2) : Bool := ((s.wgOf w).map fun wg => wg.qrank == rank.toNat).getD false

/-- RDWP chooses by the rank that it names, then by the loads before it (R149, R168). -/
theorem exec_rdwp (ch : BitVec 4) (q : Bool) (rank : BitVec 2) :
    exec (.rdwp c ch q rank d) s = .next (
      if q && !ownRank s w rank then
        (rdwpCore s w rank.toNat).elim
          (trapAt s (Grp.of w sh l c) .bounds 3 .read (Grp.of w sh l c).act fun _ => 0#64) fun m =>
          finish s.fresh.2 (Grp.of w sh l c) c ((markEmptyAll (performers (Grp.of w sh l c).act d) false d s.nextId sh).addFill
            ⟨s.nextId, .rdwp ch.toNat m, d, (performers (Grp.of w sh l c).act d).map fun k => near k 0#64 (.spad m 0),
              (Grp.of w sh l c).pc, s.curWord⟩)
      else if !(Grp.of w sh l c).act.all fun k => s.loadMay w sh s.nextId k then
        s.put (Grp.of w sh l c) (waitHere (Grp.of w sh l c) (.loads (laneMask (Grp.of w sh l c).act)) sh)
      else landed s (Grp.of w sh l c) c d fun _ => (((s.core (wCore w)).channel ch.toNat).p, 0#7)) := by
  have unfolds : exec (.rdwp c ch q rank d) s = execRdwp c ch q rank d s := rfl
  rw [unfolds, execRdwp, atWord_of_stands stands]
  simp only [landed_of_no_flags, Grp.of_w, Grp.of_sh, List.isEmpty_iff, act, if_false]
  refine congrArg Host.Outcome.next (ite_congr ?_ (fun _ => ?_) fun _ => rfl)
  · unfold ownRank
    cases s.wgOf w <;> rfl
  · cases rdwpCore s w rank.toNat <;> rfl

section local_pointer
variable {ch : BitVec 4} {q : Bool} {rank : BitVec 2} (own : q = false ∨ ownRank s w rank = true)
include own

theorem exec_rdwp_local :
    exec (.rdwp c ch q rank d) s = .next (
      if !(Grp.of w sh l c).act.all fun k => s.loadMay w sh s.nextId k then
        s.put (Grp.of w sh l c) (waitHere (Grp.of w sh l c) (.loads (laneMask (Grp.of w sh l c).act)) sh)
      else landed s (Grp.of w sh l c) c d fun _ => (((s.core (wCore w)).channel ch.toNat).p, 0#7)) := by
  have here : (q && !ownRank s w rank) = false := by
    rcases own with rfl | h
    · rfl
    · rw [h, Bool.not_true, Bool.and_false]
  rw [exec_rdwp c d stands act, here, if_neg Bool.false_ne_true]

theorem rdwp_answers (may : ∀ k ∈ (Grp.of w sh l c).act, s.loadMay w sh s.nextId k = true) :
    exec (.rdwp c ch q rank d) s =
      .next (landed s (Grp.of w sh l c) c d fun _ => (((s.core (wCore w)).channel ch.toNat).p, 0#7)) := by
  rw [exec_rdwp_local c d stands act own, List.all_eq_true.2 may]; rfl

theorem rdwp_waits (late : ∃ k ∈ (Grp.of w sh l c).act, s.loadMay w sh s.nextId k = false) :
    Waits s (Grp.of w sh l c) (.rdwp c ch q rank d) (.loads (laneMask (Grp.of w sh l c).act)) := by
  have not_all : ((Grp.of w sh l c).act.all fun k => s.loadMay w sh s.nextId k) = false := List.all_eq_false.2 (by simpa using late)
  rw [Waits, exec_rdwp_local c d stands act own, not_all]; rfl

end local_pointer

section member_pointer
variable {rank : BitVec 2} (ch : BitVec 4) (other : ownRank s w rank = false)
include other

theorem rdwp_issues {m : Nat} {wg : Workgroup} (member : s.member w rank.toNat = some (m, wg)) :
    Issues s w sh (Grp.of w sh l c) (.rdwp c ch true rank d) (.rdwp ch.toNat m) false d
      ((performers (Grp.of w sh l c).act d).map fun k => near k 0#64 (.spad m 0)) := by
  refine issues_of_finish (performers_sublist _ d) (map_lane_near ..) ?_
  rw [exec_rdwp c d stands act, other, rdwpCore, member]; rfl

theorem rdwp_traps (nobody : s.member w rank.toNat = none) (can : CanTrap s (Grp.of w sh l c)) :
    exec (.rdwp c ch true rank d) s = .next (trapped s (Grp.of w sh l c) .bounds 3 1 (Grp.of w sh l c).act fun _ => 0#64) := by
  rw [exec_rdwp c d stands act, other, rdwpCore, nobody]
  exact congrArg Host.Outcome.next (trapAt_eq_trapped can ..)

end member_pointer

theorem exec_lwait : exec (.lwait c) s = .next (
    if sh.localDone then finish s (Grp.of w sh l c) c sh
    else s.put (Grp.of w sh l c) (blockGroup (Grp.of w sh l c) .lwait c.yld sh)) := by
  have unfolds : exec (.lwait c) s = execLwait c s := rfl
  rw [unfolds, execLwait, atWord_of_stands stands]
  simp only [Grp.of_sh, List.isEmpty_iff, act, false_or]

theorem lwait_blocks (left : sh.localDone = false) :
    ∃ sh' : Sheet, exec (.lwait c) s = .next (s.putSheet w sh') ∧ RegsKept sh sh' ∧
      (∀ k, k ∈ (Grp.of w sh l c).grp → (sh'.lane k).wait = .blocked .lwait ∧ (sh'.lane k).pc = (sh.lane k).pc) ∧
      ∀ k, k ∉ (Grp.of w sh l c).grp → sh'.lane k = sh.lane k := by
  refine ⟨blockGroup (Grp.of w sh l c) .lwait c.yld sh, ?_, regsKept_blockGroup .., fun k m => ?_, fun k out => ?_⟩
  · rw [exec_lwait c stands act, left, if_neg Bool.false_ne_true]; rfl
  · rw [lane_blockGroup, if_pos ⟨m, Grp.of_grp_lt m⟩]; exact ⟨rfl, rfl⟩
  · rw [lane_blockGroup, if_neg fun h => out h.1]

end words

end Sys2Proof.Machine

namespace Sys2Proof.Certificates

open Sys2Proof Sys2Proof.Machine Sys2Proof.Spec

/-- Settles O18: GTAKE, TLBQ and a member's RDWP issue their producers, the local RDWP answers or waits for its loads, and LWAIT goes on or
blocks its group. -/
theorem producersOfAWorkgroupIssue : Obligations.ProducersOfAWorkgroupIssue := by
  intro s w l sh c d a ch q rank g ls own stands act
  refine ⟨fun gen body => gtake_issues c d stands act body, gtake_traps c d stands act, tlbq_issues c d stands act,
    rdwp_answers c d stands act, rdwp_waits c d stands act, ?_, fun done => ?_, lwait_blocks c stands act⟩
  · rintro rfl other
    exact ⟨fun m wg member => rdwp_issues c d stands act ch other member, rdwp_traps c d stands act ch other⟩
  · rw [exec_lwait c stands act, if_pos done]; rfl

end Sys2Proof.Certificates
end
